-- ==== Sys2Proof/Word.lean ====
section
/-! DEFINITION. The word type of both native widths and its plainest arithmetic (00_scope.md section 5).

A register value, an address and a program counter are XLEN-bit numbers. One Lean type, `Word`, carries both
widths: for XLEN = 32 the upper half is 0 in everything the machine writes (log 23). -/

namespace Sys2Proof

/-- A register value, wide enough for XLEN = 64. -/
abbrev Word := BitVec 64

/-- One byte of memory. -/
abbrev Byte := BitVec 8

/-- The native integer width, "32 or 64, fixed at construction" (10_state.md R21). -/
inductive XLen where
  | rv32
  | rv64
  deriving DecidableEq, Repr

/-- The number of bits of XLEN. -/
def XLen.bits : XLen → Nat
  | .rv32 => 32
  | .rv64 => 64

/-- Reduction modulo 2^XLEN (00_scope.md section 5: arithmetic on XLEN-bit values is modulo 2^XLEN). -/
def XLen.trunc : XLen → Word → Word
  | .rv32, v => (v.setWidth 32).setWidth 64
  | .rv64, v => v

end Sys2Proof
end

