-- ==== Sys2Proof/Syntax.lean ====
section
/-! DEFINITION. The operations of spec/opcode_table.json as data: the 20 instruction words (30_encoding.md R159), the 12
micro-op steps and the 14 interface operations (30_encoding.md R162), with the names of the sequencing primitive
(40_microop_chain.md) that the last two kinds take as operands. -/

namespace Sys2Proof

/-- A register number of the integer, floating-point or vector file (10_state.md R34, R35). -/
abbrev Reg := BitVec 5

/-- A CSR index, the 12-bit CSR address (10_state.md R36). -/
abbrev CsrIdx := BitVec 12

/-- A symbolic tag on a position of a chain. The source names five; its list is open (40_microop_chain.md R206). -/
inductive Tag where
  | instructionTranslate
  | dataTranslate
  | computeAddress
  | execute
  | exception
  | other (n : Nat)
  deriving DecidableEq, Repr

/-- The mnemonic under which an instruction's chain is cached (30_encoding.md R155). `external n` is the n-th mnemonic of
the external decoder for which this spec gives no handler (30_encoding.md R156). -/
inductive Mnem where
  | csrrw | csrrs | csrrc | csrrwi | csrrsi | csrrci
  | ecall | ebreak | mret | sret | wfi | sfenceVma | fence | fenceI
  | lui | addi | lw | sw | jal | bne
  | external (n : Nat)
  deriving DecidableEq, Repr

/-- The stable identifier of a chain (40_microop_chain.md R202). `user` names a chain the host builds itself. -/
inductive ChainId where
  | fetch
  | exception
  | finish
  | stop
  | inst (m : Mnem)
  | user (n : Nat)
  deriving DecidableEq, Repr

/-- A micro-op (40_microop_chain.md R200; the step codes of 30_encoding.md R162). A hook carries the number of its
observer. `stopNotify none` is the STOP chain's last micro-op, the one that sets `stopped` (42_pipeline_microops.md R308). -/
inductive MicroOp where
  | fetch
  | instTranslate
  | decode
  | computeAddress
  | dataTranslate
  | preExecuteHook (obs : Nat)
  | execute
  | preExceptionHook (obs : Nat)
  | exception
  | finishUpdate
  | postExecuteHook (obs : Nat)
  | stopNotify (obs : Option Nat)
  deriving DecidableEq, Repr

/-- A register "identified by (file, index)" (10_state.md R33). -/
inductive RegRef where
  | x (i : Reg)
  | f (i : Reg)
  | v (i : Reg)
  | csr (i : CsrIdx)
  deriving DecidableEq, Repr

/-- One constructor per row of spec/opcode_table.json. -/
inductive Instr where
  -- 43_system_instructions.md
  | csrrw (rd rs1 : Reg) (csr : CsrIdx)
  | csrrs (rd rs1 : Reg) (csr : CsrIdx)
  | csrrc (rd rs1 : Reg) (csr : CsrIdx)
  | csrrwi (rd : Reg) (uimm : BitVec 5) (csr : CsrIdx)
  | csrrsi (rd : Reg) (uimm : BitVec 5) (csr : CsrIdx)
  | csrrci (rd : Reg) (uimm : BitVec 5) (csr : CsrIdx)
  | ecall
  | ebreak
  | mret
  | sret
  | wfi
  | sfenceVma (rs1 rs2 : Reg)
  | fence (fm pred succ : BitVec 4) (rs1 rd : Reg)
  | fenceI (imm : BitVec 12) (rs1 rd : Reg)
  -- 44_reference_handlers.md
  | lui (rd : Reg) (imm : BitVec 20)
  | addi (rd rs1 : Reg) (imm : BitVec 12)
  | lw (rd rs1 : Reg) (imm : BitVec 12)
  | sw (rs1 rs2 : Reg) (imm : BitVec 12)
  | jal (rd : Reg) (off : BitVec 21)
  | bne (rs1 rs2 : Reg) (off : BitVec 13)
  -- the micro-op steps, each invoked alone
  | stepFetch
  | stepInstTranslate
  | stepDecode
  | stepComputeAddress
  | stepDataTranslate
  | stepPreExecuteHook (obs : Nat)
  | stepExecute
  | stepPreExceptionHook (obs : Nat)
  | stepException
  | stepFinishUpdate
  | stepPostExecuteHook (obs : Nat)
  | stepStopNotify (obs : Option Nat)
  -- the interface operations
  | opAppend (c : ChainId) (op : MicroOp) (tag : Option Tag)
  | opInsertBefore (c : ChainId) (place : Tag) (op : MicroOp) (tag : Option Tag)
  | opInsertAfter (c : ChainId) (place : Tag) (op : MicroOp) (tag : Option Tag)
  | opReplace (c : ChainId) (place : Tag) (op : MicroOp)
  | opSetNext (c : ChainId) (d : Option ChainId)
  | opRead (r : RegRef)
  | opWrite (r : RegRef) (value : Nat)
  | opPeek (r : RegRef)
  | opPoke (r : RegRef) (value : Nat)
  | opFieldRead (csr : CsrIdx) (lsb msb : Nat)
  | opFieldWrite (csr : CsrIdx) (lsb msb : Nat) (value : Nat)
  | opBoot
  | opCleanup
  | opStep
  deriving DecidableEq, Repr

/-- Which kind of row a constructor stands for. -/
inductive InstrKind where
  | word | microStep | interfaceOp
  deriving DecidableEq, Repr

/-- The kind of each row of the opcode table. -/
def Instr.kind : Instr → InstrKind
  | .csrrw _ _ _ | .csrrs _ _ _ | .csrrc _ _ _ | .csrrwi _ _ _ | .csrrsi _ _ _ | .csrrci _ _ _
  | .ecall | .ebreak | .mret | .sret | .wfi | .sfenceVma _ _ | .fence _ _ _ _ _ | .fenceI _ _ _
  | .lui _ _ | .addi _ _ _ | .lw _ _ _ | .sw _ _ _ | .jal _ _ | .bne _ _ _ => .word
  | .stepFetch | .stepInstTranslate | .stepDecode | .stepComputeAddress | .stepDataTranslate
  | .stepPreExecuteHook _ | .stepExecute | .stepPreExceptionHook _ | .stepException
  | .stepFinishUpdate | .stepPostExecuteHook _ | .stepStopNotify _ => .microStep
  | .opAppend _ _ _ | .opInsertBefore _ _ _ _ | .opInsertAfter _ _ _ _ | .opReplace _ _ _
  | .opSetNext _ _ | .opRead _ | .opWrite _ _ | .opPeek _ | .opPoke _ _ | .opFieldRead _ _ _
  | .opFieldWrite _ _ _ _ | .opBoot | .opCleanup | .opStep => .interfaceOp

end Sys2Proof
end

