-- ==== Sys2Proof/WellFormed.lean ====
section
/-! DEFINITION. Which instruction terms are well formed: those whose operands an encoding or a field descriptor admits. -/

namespace Sys2Proof

/-- A field descriptor `(lsb, msb)` has `msb ≥ lsb` (10_state.md R43) and lies inside the widest register. -/
def fieldWellFormed (lsb msb : Nat) : Bool := decide (lsb ≤ msb) && decide (msb < 64)

/-- The checks on operands. A jump offset is even, since its bit 0 has no place in the word (30_encoding.md R158).
Every other operand's type already holds only what its field admits. -/
def Instr.wellFormed : Instr → Bool
  | .jal _ off => !off.getLsbD 0
  | .bne _ _ off => !off.getLsbD 0
  | .opFieldRead _ lsb msb => fieldWellFormed lsb msb
  | .opFieldWrite _ lsb msb _ => fieldWellFormed lsb msb
  | .csrrw _ _ _ | .csrrs _ _ _ | .csrrc _ _ _ | .csrrwi _ _ _ | .csrrsi _ _ _ | .csrrci _ _ _
  | .ecall | .ebreak | .mret | .sret | .wfi | .sfenceVma _ _ | .fence _ _ _ _ _ | .fenceI _ _ _
  | .lui _ _ | .addi _ _ _ | .lw _ _ _ | .sw _ _ _
  | .stepFetch | .stepInstTranslate | .stepDecode | .stepComputeAddress | .stepDataTranslate
  | .stepPreExecuteHook _ | .stepExecute | .stepPreExceptionHook _ | .stepException
  | .stepFinishUpdate | .stepPostExecuteHook _ | .stepStopNotify _
  | .opAppend _ _ _ | .opInsertBefore _ _ _ _ | .opInsertAfter _ _ _ _ | .opReplace _ _ _
  | .opSetNext _ _ | .opRead _ | .opWrite _ _ | .opPeek _ | .opPoke _ _
  | .opBoot | .opCleanup | .opStep => true

end Sys2Proof
end

