-- ==== Sys2Proof/Decode.lean ====
section
/-! DEFINITION. The decoder from instruction words and operation codes to `Instr`, total and rejecting, and the encoder
(30_encoding.md R150 to R162). The machine never reads raw encodings. -/

namespace Sys2Proof

/-! ## Fields of a 32-bit word (R157, R158) -/

/-- `inst[6:0]`, the major opcode. -/
def wOpcode (w : BitVec 32) : BitVec 7 := w.extractLsb' 0 7
/-- `rd = inst[11:7]`. -/
def wRd (w : BitVec 32) : Reg := w.extractLsb' 7 5
/-- `funct3 = inst[14:12]`. -/
def wFunct3 (w : BitVec 32) : BitVec 3 := w.extractLsb' 12 3
/-- `rs1 = inst[19:15]`, also the 5-bit immediate of the CSR forms. -/
def wRs1 (w : BitVec 32) : Reg := w.extractLsb' 15 5
/-- `rs2 = inst[24:20]`. -/
def wRs2 (w : BitVec 32) : Reg := w.extractLsb' 20 5
/-- `funct7 = inst[31:25]`. -/
def wFunct7 (w : BitVec 32) : BitVec 7 := w.extractLsb' 25 7
/-- `inst[31:20]`: the I immediate, a CSR address or funct12. -/
def wImmI (w : BitVec 32) : BitVec 12 := w.extractLsb' 20 12
/-- The S immediate `{inst[31:25], inst[11:7]}`. -/
def wImmS (w : BitVec 32) : BitVec 12 := w.extractLsb' 25 7 ++ w.extractLsb' 7 5
/-- The B offset `{inst[31], inst[7], inst[30:25], inst[11:8], 0}`. -/
def wImmB (w : BitVec 32) : BitVec 13 :=
  w.extractLsb' 31 1 ++ w.extractLsb' 7 1 ++ w.extractLsb' 25 6 ++ w.extractLsb' 8 4 ++ 0#1
/-- The U field `inst[31:12]`. -/
def wImmU (w : BitVec 32) : BitVec 20 := w.extractLsb' 12 20
/-- The J offset `{inst[31], inst[19:12], inst[20], inst[30:21], 0}`. -/
def wImmJ (w : BitVec 32) : BitVec 21 :=
  w.extractLsb' 31 1 ++ w.extractLsb' 12 8 ++ w.extractLsb' 20 1 ++ w.extractLsb' 21 10 ++ 0#1

/-! ## The decoder -/

/-- SYSTEM words, `inst[6:0] = 1110011` (R159, R161, 43_system_instructions.md R359). -/
def decodeSystem (w : BitVec 32) : Option Instr :=
  if wFunct3 w = 1#3 then some (.csrrw (wRd w) (wRs1 w) (wImmI w))
  else if wFunct3 w = 2#3 then some (.csrrs (wRd w) (wRs1 w) (wImmI w))
  else if wFunct3 w = 3#3 then some (.csrrc (wRd w) (wRs1 w) (wImmI w))
  else if wFunct3 w = 5#3 then some (.csrrwi (wRd w) (wRs1 w) (wImmI w))
  else if wFunct3 w = 6#3 then some (.csrrsi (wRd w) (wRs1 w) (wImmI w))
  else if wFunct3 w = 7#3 then some (.csrrci (wRd w) (wRs1 w) (wImmI w))
  else if wFunct3 w = 0#3 then
    if w = 0x00000073#32 then some .ecall
    else if w = 0x00100073#32 then some .ebreak
    else if w = 0x30200073#32 then some .mret
    else if w = 0x10200073#32 then some .sret
    else if w = 0x10500073#32 then some .wfi
    else if wFunct7 w = 0b0001001#7 ∧ wRd w = 0#5 then some (.sfenceVma (wRs1 w) (wRs2 w))
    else none
  else none

/-- A 32-bit instruction word as one of the twenty of R159; `none` for every other word, which the external decoder
gets (R150). -/
def decodeWord (w : BitVec 32) : Option Instr :=
  if wOpcode w = 0b1110011#7 then decodeSystem w
  else if wOpcode w = 0b0001111#7 then
    if wFunct3 w = 0#3 then
      some (.fence (w.extractLsb' 28 4) (w.extractLsb' 24 4) (w.extractLsb' 20 4) (wRs1 w) (wRd w))
    else if wFunct3 w = 1#3 then some (.fenceI (wImmI w) (wRs1 w) (wRd w))
    else none
  else if wOpcode w = 0b0110111#7 then some (.lui (wRd w) (wImmU w))
  else if wOpcode w = 0b0010011#7 then
    if wFunct3 w = 0#3 then some (.addi (wRd w) (wRs1 w) (wImmI w)) else none
  else if wOpcode w = 0b0000011#7 then
    if wFunct3 w = 2#3 then some (.lw (wRd w) (wRs1 w) (wImmI w)) else none
  else if wOpcode w = 0b0100011#7 then
    if wFunct3 w = 2#3 then some (.sw (wRs1 w) (wRs2 w) (wImmS w)) else none
  else if wOpcode w = 0b1101111#7 then some (.jal (wRd w) (wImmJ w))
  else if wOpcode w = 0b1100011#7 then
    if wFunct3 w = 1#3 then some (.bne (wRs1 w) (wRs2 w) (wImmB w)) else none
  else none

/-- The operands of a call on the configuration interface. The spec numbers the operations and gives their operands
no bits (R162), so they travel beside the code (log 16). -/
structure CallArgs where
  chain : ChainId := .fetch
  place : Tag := .instructionTranslate
  op : MicroOp := .fetch
  tag : Option Tag := none
  next : Option ChainId := none
  reg : RegRef := .x 0
  csr : CsrIdx := 0
  lsb : Nat := 0
  msb : Nat := 0
  value : Nat := 0
  observer : Option Nat := none
  deriving DecidableEq, Repr

/-- The step codes of R162; codes 1100 to 1111 are rejected. -/
def decodeStepCode (c : BitVec 4) (a : CallArgs) : Option Instr :=
  if c = 0b0000#4 then some .stepFetch
  else if c = 0b0001#4 then some .stepInstTranslate
  else if c = 0b0010#4 then some .stepDecode
  else if c = 0b0011#4 then some .stepComputeAddress
  else if c = 0b0100#4 then some .stepDataTranslate
  else if c = 0b0101#4 then some (.stepPreExecuteHook (a.observer.getD 0))
  else if c = 0b0110#4 then some .stepExecute
  else if c = 0b0111#4 then some (.stepPreExceptionHook (a.observer.getD 0))
  else if c = 0b1000#4 then some .stepException
  else if c = 0b1001#4 then some .stepFinishUpdate
  else if c = 0b1010#4 then some (.stepPostExecuteHook (a.observer.getD 0))
  else if c = 0b1011#4 then some (.stepStopNotify a.observer)
  else none

/-- The interface operation codes of R162; codes 1110 and 1111 are rejected. -/
def decodeOpCode (c : BitVec 4) (a : CallArgs) : Option Instr :=
  if c = 0b0000#4 then some (.opAppend a.chain a.op a.tag)
  else if c = 0b0001#4 then some (.opInsertBefore a.chain a.place a.op a.tag)
  else if c = 0b0010#4 then some (.opInsertAfter a.chain a.place a.op a.tag)
  else if c = 0b0011#4 then some (.opReplace a.chain a.place a.op)
  else if c = 0b0100#4 then some (.opSetNext a.chain a.next)
  else if c = 0b0101#4 then some (.opRead a.reg)
  else if c = 0b0110#4 then some (.opWrite a.reg a.value)
  else if c = 0b0111#4 then some (.opPeek a.reg)
  else if c = 0b1000#4 then some (.opPoke a.reg a.value)
  else if c = 0b1001#4 then some (.opFieldRead a.csr a.lsb a.msb)
  else if c = 0b1010#4 then some (.opFieldWrite a.csr a.lsb a.msb a.value)
  else if c = 0b1011#4 then some .opBoot
  else if c = 0b1100#4 then some .opCleanup
  else if c = 0b1101#4 then some .opStep
  else none

/-- What stands for an instruction outside the machine: a 32-bit word, or a code of one of the two 4-bit code spaces
of R162, which overlap (log 16). -/
inductive Code where
  | word (w : BitVec 32)
  | step (c : BitVec 4)
  | op (c : BitVec 4)
  deriving DecidableEq, Repr

/-- The decoder over all three kinds of code. -/
def decode (c : Code) (a : CallArgs) : Option Instr :=
  match c with
  | .word w => decodeWord w
  | .step k => decodeStepCode k a
  | .op k => decodeOpCode k a

/-- Reads a row of spec/opcode_table.json: a word of more than 8 bits is an instruction word, a shorter one a step
code, or an operation code where it is no step code (the spaces overlap, log 16), with operands of zero. -/
def decodeTableWord (nbits w : Nat) : Option Instr :=
  if 8 < nbits then decodeWord (BitVec.ofNat 32 (w % 2 ^ nbits))
  else if 16 ≤ w then none
  else
    match decodeStepCode (BitVec.ofNat 4 w) {} with
    | some i => some i
    | none => decodeOpCode (BitVec.ofNat 4 w) {}

/-! ## The encoder -/

/-- I format (R157). -/
def encodeI (imm : BitVec 12) (rs1 : Reg) (f3 : BitVec 3) (rd : Reg) (op : BitVec 7) : BitVec 32 :=
  imm ++ rs1 ++ f3 ++ rd ++ op

/-- R format. -/
def encodeR (f7 : BitVec 7) (rs2 rs1 : Reg) (f3 : BitVec 3) (rd : Reg) (op : BitVec 7) : BitVec 32 :=
  f7 ++ rs2 ++ rs1 ++ f3 ++ rd ++ op

/-- S format. -/
def encodeS (imm : BitVec 12) (rs2 rs1 : Reg) (f3 : BitVec 3) (op : BitVec 7) : BitVec 32 :=
  imm.extractLsb' 5 7 ++ rs2 ++ rs1 ++ f3 ++ imm.extractLsb' 0 5 ++ op

/-- B format. -/
def encodeB (off : BitVec 13) (rs2 rs1 : Reg) (f3 : BitVec 3) (op : BitVec 7) : BitVec 32 :=
  off.extractLsb' 12 1 ++ off.extractLsb' 5 6 ++ rs2 ++ rs1 ++ f3 ++ off.extractLsb' 1 4
    ++ off.extractLsb' 11 1 ++ op

/-- U format. -/
def encodeU (imm : BitVec 20) (rd : Reg) (op : BitVec 7) : BitVec 32 := imm ++ rd ++ op

/-- J format. -/
def encodeJ (off : BitVec 21) (rd : Reg) (op : BitVec 7) : BitVec 32 :=
  off.extractLsb' 20 1 ++ off.extractLsb' 1 10 ++ off.extractLsb' 11 1 ++ off.extractLsb' 12 8 ++ rd ++ op

/-- The code that stands for an instruction (R159, R162). -/
def encode : Instr → Code
  | .csrrw rd rs1 csr => .word (encodeI csr rs1 0b001#3 rd 0b1110011#7)
  | .csrrs rd rs1 csr => .word (encodeI csr rs1 0b010#3 rd 0b1110011#7)
  | .csrrc rd rs1 csr => .word (encodeI csr rs1 0b011#3 rd 0b1110011#7)
  | .csrrwi rd uimm csr => .word (encodeI csr uimm 0b101#3 rd 0b1110011#7)
  | .csrrsi rd uimm csr => .word (encodeI csr uimm 0b110#3 rd 0b1110011#7)
  | .csrrci rd uimm csr => .word (encodeI csr uimm 0b111#3 rd 0b1110011#7)
  | .ecall => .word 0x00000073#32
  | .ebreak => .word 0x00100073#32
  | .mret => .word 0x30200073#32
  | .sret => .word 0x10200073#32
  | .wfi => .word 0x10500073#32
  | .sfenceVma rs1 rs2 => .word (encodeR 0b0001001#7 rs2 rs1 0b000#3 0#5 0b1110011#7)
  | .fence fm pred succ rs1 rd => .word (encodeI (fm ++ pred ++ succ) rs1 0b000#3 rd 0b0001111#7)
  | .fenceI imm rs1 rd => .word (encodeI imm rs1 0b001#3 rd 0b0001111#7)
  | .lui rd imm => .word (encodeU imm rd 0b0110111#7)
  | .addi rd rs1 imm => .word (encodeI imm rs1 0b000#3 rd 0b0010011#7)
  | .lw rd rs1 imm => .word (encodeI imm rs1 0b010#3 rd 0b0000011#7)
  | .sw rs1 rs2 imm => .word (encodeS imm rs2 rs1 0b010#3 0b0100011#7)
  | .jal rd off => .word (encodeJ off rd 0b1101111#7)
  | .bne rs1 rs2 off => .word (encodeB off rs2 rs1 0b001#3 0b1100011#7)
  | .stepFetch => .step 0b0000#4
  | .stepInstTranslate => .step 0b0001#4
  | .stepDecode => .step 0b0010#4
  | .stepComputeAddress => .step 0b0011#4
  | .stepDataTranslate => .step 0b0100#4
  | .stepPreExecuteHook _ => .step 0b0101#4
  | .stepExecute => .step 0b0110#4
  | .stepPreExceptionHook _ => .step 0b0111#4
  | .stepException => .step 0b1000#4
  | .stepFinishUpdate => .step 0b1001#4
  | .stepPostExecuteHook _ => .step 0b1010#4
  | .stepStopNotify _ => .step 0b1011#4
  | .opAppend _ _ _ => .op 0b0000#4
  | .opInsertBefore _ _ _ _ => .op 0b0001#4
  | .opInsertAfter _ _ _ _ => .op 0b0010#4
  | .opReplace _ _ _ => .op 0b0011#4
  | .opSetNext _ _ => .op 0b0100#4
  | .opRead _ => .op 0b0101#4
  | .opWrite _ _ => .op 0b0110#4
  | .opPeek _ => .op 0b0111#4
  | .opPoke _ _ => .op 0b1000#4
  | .opFieldRead _ _ _ => .op 0b1001#4
  | .opFieldWrite _ _ _ _ => .op 0b1010#4
  | .opBoot => .op 0b1011#4
  | .opCleanup => .op 0b1100#4
  | .opStep => .op 0b1101#4

/-- The operands that travel beside a code. -/
def callArgs : Instr → CallArgs
  | .stepPreExecuteHook k | .stepPreExceptionHook k | .stepPostExecuteHook k => { observer := some k }
  | .stepStopNotify k => { observer := k }
  | .opAppend c op tag => { chain := c, op := op, tag := tag }
  | .opInsertBefore c p op tag | .opInsertAfter c p op tag => { chain := c, place := p, op := op, tag := tag }
  | .opReplace c p op => { chain := c, place := p, op := op }
  | .opSetNext c d => { chain := c, next := d }
  | .opRead r | .opPeek r => { reg := r }
  | .opWrite r v | .opPoke r v => { reg := r, value := v }
  | .opFieldRead c l m => { csr := c, lsb := l, msb := m }
  | .opFieldWrite c l m v => { csr := c, lsb := l, msb := m, value := v }
  | .csrrw _ _ _ | .csrrs _ _ _ | .csrrc _ _ _ | .csrrwi _ _ _ | .csrrsi _ _ _ | .csrrci _ _ _
  | .ecall | .ebreak | .mret | .sret | .wfi | .sfenceVma _ _ | .fence _ _ _ _ _ | .fenceI _ _ _
  | .lui _ _ | .addi _ _ _ | .lw _ _ _ | .sw _ _ _ | .jal _ _ | .bne _ _ _
  | .stepFetch | .stepInstTranslate | .stepDecode | .stepComputeAddress | .stepDataTranslate
  | .stepExecute | .stepException | .stepFinishUpdate | .opBoot | .opCleanup | .opStep => {}

/-- The 32 instruction bits of an instruction word, 0 for a row that has none. -/
def encodedWord (i : Instr) : BitVec 32 :=
  match encode i with
  | .word w => w
  | .step _ => 0
  | .op _ => 0

/-- The `match` and `mask` columns of R159, one row per instruction word. -/
def opcodeRows : List (BitVec 32 × BitVec 32) :=
  [(0x00001073, 0x0000707F), (0x00002073, 0x0000707F), (0x00003073, 0x0000707F), (0x00005073, 0x0000707F),
   (0x00006073, 0x0000707F), (0x00007073, 0x0000707F), (0x00000073, 0xFFFFFFFF), (0x00100073, 0xFFFFFFFF),
   (0x30200073, 0xFFFFFFFF), (0x10200073, 0xFFFFFFFF), (0x10500073, 0xFFFFFFFF), (0x12000073, 0xFE007FFF),
   (0x0000000F, 0x0000707F), (0x0000100F, 0x0000707F), (0x00000037, 0x0000007F), (0x00000013, 0x0000707F),
   (0x00002003, 0x0000707F), (0x00002023, 0x0000707F), (0x0000006F, 0x0000007F), (0x00001063, 0x0000707F)]

end Sys2Proof
end

