-- ==== Sys2Proof/Machine/Types.lean ====
section
/-! DEFINITION. The closed sets of names the hart state is made of: privilege modes, MMU modes, access and memory kinds. -/

namespace Sys2Proof.Machine

/-- The privilege modes (10_state.md R25, 60_exceptions.md R550). -/
inductive Priv where
  | user
  | supervisor
  | machine
  deriving DecidableEq, Repr

/-- The MMU modes (10_state.md R38). -/
inductive MmuMode where
  | bare
  | sv32
  | sv39
  | sv48
  | sv57
  | invalid
  deriving DecidableEq, Repr

/-- The access kinds of a translation (20_memory.md R120). -/
inductive AccessKind where
  | fetch
  | load
  | store
  deriving DecidableEq, Repr

/-- The memory kind the decoder gives an instruction (42_pipeline_microops.md R271). -/
inductive MemKind where
  | none
  | load
  | store
  deriving DecidableEq, Repr

/-- The three files of operand registers (10_state.md R33). -/
inductive RegFile where
  | x
  | f
  | v
  deriving DecidableEq, Repr

/-- A register of one of the files, as a destination. -/
structure DestReg where
  file : RegFile
  index : Reg
  deriving DecidableEq, Repr

end Sys2Proof.Machine
end

