-- ==== Sys2Proof/Config.lean ====
section
/-! DEFINITION. The implementation parameters of 00_scope.md section 4 as one record of plain data, and the free values.
The record is carried in State and never changes (log 1); its values at `State.reset` are in Machine/Defaults.lean (log 2). -/

namespace Sys2Proof

open Sys2Proof.Machine (MmuMode RegFile)

/-- The column "W" of 10_state.md R44 to R62: writable, read-only, or always zero and reserved. -/
inductive FieldKind where
  | rw
  | ro
  | zero
  deriving DecidableEq, Repr

/-- A named field of a CSR, an `(lsb, msb)` descriptor (10_state.md R36, R41, R43). -/
structure NamedField where
  name : String
  lsb : Nat
  msb : Nat
  kind : FieldKind := .rw
  deriving DecidableEq, Repr

/-- One CSR of `CSR_SET` with its masks, its named fields and its value before `boot()` (10_state.md R36, R41, R42; D29). -/
structure CsrDesc where
  index : CsrIdx
  name : String
  wmask : Word
  rmask : Word
  fields : List NamedField := []
  dflt : Word := 0
  deriving DecidableEq, Repr

/-- `WALK_STRICT`, the six optional checks of the page walk (20_memory.md R129, D11). -/
structure WalkStrict where
  canonicalVa : Bool := false
  user : Bool := false
  ad : Bool := false
  superpageAlign : Bool := false
  reservedPteBits : Bool := false
  nonleafFlags : Bool := false
  deriving DecidableEq, Repr

/-- A region of the external physical memory in which `tryRead` succeeds, and `tryWrite` too where it is writable
(20_memory.md R100 to R103; log 6). -/
structure MemRegion where
  base : Nat
  size : Nat
  writable : Bool := true
  deriving DecidableEq, Repr

/-- Where a word names a destination register: the number in `width` bits from `lsb` on, plus `base`. The standard `rd`
is `⟨.x, 7, 5, 0⟩`, the three-bit `rd'` of a parcel has width 3 and base 8, and a register that the word implies has
width 0 (log 15). -/
structure DestField where
  file : RegFile
  lsb : Nat := 7
  width : Nat := 5
  base : Nat := 0
  deriving DecidableEq, Repr

/-- Words the external decoder knows and whose handler is marked unimplemented (30_encoding.md R156): those with
`bits & mask = pat`, of 16 bits where `short` is set, while the extension letters `needs` are enabled (R153). `mnem` numbers
the mnemonic its chain is cached under (R155); `dests` lists its destination registers, in any of the three files (log 15). -/
structure UnimplementedRow where
  pat : BitVec 32
  mask : BitVec 32
  short : Bool := false
  needs : BitVec 26 := 0
  mnem : Nat := 0
  dests : List DestField := [{ file := .x }]
  deriving DecidableEq, Repr

/-- A 16-bit parcel that the external decoder expands, while the extension letters `needs` are enabled, into one of the
twenty instructions, the one that `word` encodes (30_encoding.md R152; log 15). -/
structure ParcelRow where
  parcel : BitVec 16
  needs : BitVec 26 := 0
  word : BitVec 32
  deriving DecidableEq, Repr

/-- The configuration a hart is constructed with (00_scope.md section 4). `wordNeeds`, `parcels` and `unimplemented` are the
parameter DECODER: the extension letters each of the twenty words needs (one not listed needs none), the parcels it
expands, and the words whose handler is unimplemented (log 15). -/
structure Config where
  xlen : XLen
  hartId : Word
  isaBits : BitVec 26
  csrInit : List (String × Nat)
  csrSet : List CsrDesc
  xregReset : Vector Word 32
  fregReset : Vector Nat 32
  vregReset : Vector Nat 32
  resetPc : Word
  flen : Nat
  vlen : Nat
  delegMGuard : Bool
  walkStrict : WalkStrict
  observers : Nat
  wordNeeds : List (Mnem × BitVec 26)
  parcels : List ParcelRow
  unimplemented : List UnimplementedRow
  rejectedInclusions : List (BitVec 26)
  memory : List MemRegion
  deriving DecidableEq, Repr

/-- FREE VALUE: the n-th value that a destination register of an unimplemented instruction is left with, cut to the width
of its file, "unresolved upstream" (93_implementation_defined.md row U1; log 8). -/
opaque Config.unimplementedDest : Nat → Nat

/-- FREE VALUE: the physical address of a leaf above level 0 whose low PPN bits are not zero, when
`WALK_STRICT.superpage_align` is off (93_implementation_defined.md row U2; log 9). -/
opaque Config.misalignedSuperpagePA : MmuMode → (level : Nat) → (pte va : Word) → Word

/-- How many chains of a `Run` are evaluated by counting before the rest of it is given by the fixed point. It bounds no
run: the two agree (log 18). -/
def Config.runFuel : Nat := 32

end Sys2Proof
end

