-- ==== Sys2Proof/Machine/CsrTable.lean ====
section
/-! DEFINITION. CSR addresses (10_state.md R40, R45, R46, R60, R61) and the default masks of R44 to R61. -/

namespace Sys2Proof.Machine

namespace Csr
def sstatus : CsrIdx := 0x100
def sie : CsrIdx := 0x104
def stvec : CsrIdx := 0x105
def sscratch : CsrIdx := 0x140
def sepc : CsrIdx := 0x141
def scause : CsrIdx := 0x142
def stval : CsrIdx := 0x143
def sip : CsrIdx := 0x144
def satp : CsrIdx := 0x180
def mstatus : CsrIdx := 0x300
def misa : CsrIdx := 0x301
def medeleg : CsrIdx := 0x302
def mideleg : CsrIdx := 0x303
def mie : CsrIdx := 0x304
def mtvec : CsrIdx := 0x305
def mstatush : CsrIdx := 0x310
def mscratch : CsrIdx := 0x340
def mepc : CsrIdx := 0x341
def mcause : CsrIdx := 0x342
def mtval : CsrIdx := 0x343
def mip : CsrIdx := 0x344
def mhartid : CsrIdx := 0xF14
end Csr

/-- All XLEN bits. -/
def allBits (x : XLen) : Word := x.trunc (BitVec.allOnes 64)

/-- R44. -/
def mstatusWMask : XLen → Word
  | .rv64 => 0x000000C0007E7FAA
  | .rv32 => 0x007E7FAA

/-- R44. -/
def mstatusRMask : XLen → Word
  | .rv64 => 0x800000FF007FFFEA
  | .rv32 => 0x807FFFEA

/-- R46. -/
def sstatusRMask : XLen → Word
  | .rv64 => 0x80000003000DE762
  | .rv32 => 0x800DE762

/-- R46. -/
def sstatusWMask : Word := 0x000C6722

/-- R47: the MXL bits and the 26 letters. -/
def misaRMask : XLen → Word
  | .rv64 => 0xC000000003FFFFFF
  | .rv32 => 0xC3FFFFFF

/-- R47. -/
def misaWMask : Word := 0x03FFFFFF

/-- R48. -/
def medelegMask : Word := 0xB3FF

/-- R49. -/
def midelegMask : Word := 0x222

/-- R50, R51: every bit but bit 1. -/
def tvecMask (x : XLen) : Word := x.trunc (~~~2)

/-- R52, R53: every bit but bit 0. -/
def epcMask (x : XLen) : Word := x.trunc (~~~1)

/-- R60: the window of sie onto mie and of sip onto mip. -/
def sieMask : Word := 0x222

/-! ## Named fields (R36, R44 to R61) -/

/-- The fields of mstatus below bit 23 (R44). -/
def mstatusLowFields : List NamedField :=
  [⟨"SIE", 1, 1, .rw⟩, ⟨"MIE", 3, 3, .rw⟩, ⟨"SPIE", 5, 5, .rw⟩, ⟨"UBE", 6, 6, .ro⟩, ⟨"MPIE", 7, 7, .rw⟩,
   ⟨"SPP", 8, 8, .rw⟩, ⟨"VS", 9, 10, .rw⟩, ⟨"MPP", 11, 12, .rw⟩, ⟨"FS", 13, 14, .rw⟩, ⟨"XS", 15, 16, .ro⟩,
   ⟨"MPRV", 17, 17, .rw⟩, ⟨"SUM", 18, 18, .rw⟩, ⟨"MXR", 19, 19, .rw⟩, ⟨"TVM", 20, 20, .rw⟩, ⟨"TW", 21, 21, .rw⟩,
   ⟨"TSR", 22, 22, .rw⟩]

/-- The reserved bits of mstatus below bit 23 (R44). -/
def mstatusReserved : List NamedField :=
  [⟨"reserved", 0, 0, .zero⟩, ⟨"reserved", 2, 2, .zero⟩, ⟨"reserved", 4, 4, .zero⟩]

/-- R44. -/
def mstatusFields : XLen → List NamedField
  | .rv64 =>
    mstatusReserved ++ mstatusLowFields ++
      [⟨"reserved", 23, 31, .zero⟩, ⟨"UXL", 32, 33, .ro⟩, ⟨"SXL", 34, 35, .ro⟩, ⟨"SBE", 36, 36, .ro⟩,
       ⟨"MBE", 37, 37, .ro⟩, ⟨"GVA", 38, 38, .rw⟩, ⟨"MPV", 39, 39, .rw⟩, ⟨"reserved", 40, 62, .zero⟩,
       ⟨"SD", 63, 63, .ro⟩]
  | .rv32 => mstatusReserved ++ mstatusLowFields ++ [⟨"reserved", 23, 30, .zero⟩, ⟨"SD", 31, 31, .ro⟩]

/-- R45. -/
def mstatushFields : List NamedField :=
  [⟨"reserved", 0, 3, .zero⟩, ⟨"SBE", 4, 4, .ro⟩, ⟨"MBE", 5, 5, .ro⟩, ⟨"GVA", 6, 6, .rw⟩, ⟨"MPV", 7, 7, .rw⟩,
   ⟨"reserved", 8, 31, .zero⟩]

/-- R46. -/
def sstatusFields (x : XLen) : List NamedField :=
  [⟨"SIE", 1, 1, .rw⟩, ⟨"SPIE", 5, 5, .rw⟩, ⟨"UBE", 6, 6, .ro⟩, ⟨"SPP", 8, 8, .rw⟩, ⟨"VS", 9, 10, .rw⟩,
   ⟨"FS", 13, 14, .rw⟩, ⟨"XS", 15, 16, .ro⟩, ⟨"SUM", 18, 18, .rw⟩, ⟨"MXR", 19, 19, .rw⟩]
  ++ match x with
     | .rv64 => [⟨"UXL", 32, 33, .ro⟩, ⟨"SD", 63, 63, .ro⟩]
     | .rv32 => [⟨"SD", 31, 31, .ro⟩]

/-- R47. -/
def misaFields : XLen → List NamedField
  | .rv64 => [⟨"EXTENSIONS", 0, 25, .rw⟩, ⟨"reserved", 26, 61, .zero⟩, ⟨"MXL", 62, 63, .ro⟩]
  | .rv32 => [⟨"EXTENSIONS", 0, 25, .rw⟩, ⟨"reserved", 26, 29, .zero⟩, ⟨"MXL", 30, 31, .ro⟩]

/-- One 1-bit field per listed bit, named by its number (R48, R49, R60). -/
def bitFields (names : List (String × Nat)) : List NamedField := names.map (fun n => ⟨n.1, n.2, n.2, .rw⟩)

/-- R48: one field per fault cause that can be delegated. -/
def medelegFields : List NamedField :=
  bitFields [("0", 0), ("1", 1), ("2", 2), ("3", 3), ("4", 4), ("5", 5), ("6", 6), ("7", 7), ("8", 8), ("9", 9),
    ("12", 12), ("13", 13), ("15", 15)]

/-- R49, and the windows of R60: one field per supervisor interrupt cause. -/
def supervisorInterruptFields : List NamedField := bitFields [("1", 1), ("5", 5), ("9", 9)]

/-- R60: one field per interrupt cause of mie's mask. -/
def mieFields : List NamedField := bitFields [("1", 1), ("3", 3), ("5", 5), ("7", 7), ("9", 9), ("11", 11)]

/-- R50, R51: the bit between BASE and MODE is read-only zero. -/
def tvecFields (x : XLen) : List NamedField :=
  [⟨"MODE", 0, 0, .rw⟩, ⟨"reserved", 1, 1, .zero⟩, ⟨"BASE", 2, x.bits - 1, .rw⟩]

/-- R52, R53: bit 0 is read-only zero. -/
def epcFields (x : XLen) : List NamedField := [⟨"reserved", 0, 0, .zero⟩, ⟨"PC", 1, x.bits - 1, .rw⟩]

/-- R54, R55. -/
def causeFields (x : XLen) : List NamedField :=
  [⟨"CODE", 0, x.bits - 2, .rw⟩, ⟨"INTERRUPT", x.bits - 1, x.bits - 1, .rw⟩]

/-- R56, R57, R61: a register that is one field. -/
def wholeField (name : String) (k : FieldKind) (x : XLen) : List NamedField := [⟨name, 0, x.bits - 1, k⟩]

/-- R58. -/
def satpFields : XLen → List NamedField
  | .rv32 => [⟨"PPN", 0, 21, .rw⟩, ⟨"ASID", 22, 30, .rw⟩, ⟨"MODE", 31, 31, .rw⟩]
  | .rv64 => [⟨"PPN", 0, 43, .rw⟩, ⟨"ASID", 44, 59, .rw⟩, ⟨"MODE", 60, 63, .rw⟩]

/-! ## The default CSRs -/

/-- The required set of R40 with the default masks of R44 to R59. Where R52 to R57 state no read mask every bit the
write mask allows is readable. -/
def requiredCsrs (x : XLen) : List CsrDesc :=
  [ ⟨Csr.mstatus, "mstatus", mstatusWMask x, mstatusRMask x, mstatusFields x, 0⟩,
    ⟨Csr.misa, "misa", misaWMask, misaRMask x, misaFields x, 0⟩,
    ⟨Csr.medeleg, "medeleg", medelegMask, medelegMask, medelegFields, 0⟩,
    ⟨Csr.mideleg, "mideleg", midelegMask, midelegMask, supervisorInterruptFields, 0⟩,
    ⟨Csr.mtvec, "mtvec", tvecMask x, tvecMask x, tvecFields x, 0⟩,
    ⟨Csr.mepc, "mepc", epcMask x, epcMask x, epcFields x, 0⟩,
    ⟨Csr.mcause, "mcause", allBits x, allBits x, causeFields x, 0⟩,
    ⟨Csr.mtval, "mtval", allBits x, allBits x, wholeField "VALUE" .rw x, 0⟩,
    ⟨Csr.stvec, "stvec", tvecMask x, tvecMask x, tvecFields x, 0⟩,
    ⟨Csr.sepc, "sepc", epcMask x, epcMask x, epcFields x, 0⟩,
    ⟨Csr.scause, "scause", allBits x, allBits x, causeFields x, 0⟩,
    ⟨Csr.stval, "stval", allBits x, allBits x, wholeField "VALUE" .rw x, 0⟩,
    ⟨Csr.satp, "satp", allBits x, allBits x, satpFields x, 0⟩,
    ⟨Csr.mhartid, "mhartid", 0, allBits x, wholeField "HARTID" .ro x, 0⟩ ]
  ++ match x with
     | .rv32 => [⟨Csr.mstatush, "mstatush", 0xC0, 0xF0, mstatushFields, 0⟩]
     | .rv64 => []

/-- The optional CSRs of R46, R60, R61 that the default `CSR_SET` holds (log 4). -/
def optionalCsrs (x : XLen) : List CsrDesc :=
  [ ⟨Csr.sstatus, "sstatus", sstatusWMask, sstatusRMask x, sstatusFields x, 0⟩,
    ⟨Csr.mscratch, "mscratch", allBits x, allBits x, wholeField "VALUE" .rw x, 0⟩,
    ⟨Csr.sscratch, "sscratch", allBits x, allBits x, wholeField "VALUE" .rw x, 0⟩,
    ⟨Csr.mie, "mie", 0x0AAA, 0x0AAA, mieFields, 0⟩,
    ⟨Csr.mip, "mip", 0x0222, 0x0222, supervisorInterruptFields, 0⟩,
    ⟨Csr.sie, "sie", sieMask, sieMask, supervisorInterruptFields, 0⟩,
    ⟨Csr.sip, "sip", sieMask, sieMask, supervisorInterruptFields, 0⟩ ]

/-- The default `CSR_SET`. -/
def defaultCsrs (x : XLen) : List CsrDesc := requiredCsrs x ++ optionalCsrs x

end Sys2Proof.Machine
end

