-- ==== Sys2Proof/Machine/Flags.lean ====
section
/-! DEFINITION. Fields of registers by their `(lsb, msb)` descriptors (10_state.md R43), and the descriptors of mstatus,
mstatush and satp (R44, R45, R58). The block has no arithmetic flags (R63): these fields are its status bits. -/

namespace Sys2Proof.Machine

/-- A field descriptor `(lsb, msb)`. -/
structure Field where
  lsb : Nat
  msb : Nat
  deriving DecidableEq, Repr

/-- `(1 << (msb - lsb + 1)) - 1`. R43 admits only `msb ≥ lsb`; a descriptor with `msb < lsb`, which only a host call can
carry, is taken as the one bit `lsb` (DESIGN CHOICE, log 29). -/
def Field.ones (F : Field) : Word := ((1 : Word) <<< (F.msb - F.lsb + 1)) - 1

/-- `fmask`, the field's bits in place. -/
def Field.mask (F : Field) : Word := F.ones <<< F.lsb

/-- `(reg >> lsb) & ((1 << (msb - lsb + 1)) - 1)`. -/
def Field.get (F : Field) (v : Word) : Word := (v >>> F.lsb) &&& F.ones

/-- `(old & ~fmask) | ((v << lsb) & fmask)`: the field replaced, bits of `v` above its width dropped. -/
def Field.put (F : Field) (old v : Word) : Word := (old &&& ~~~F.mask) ||| ((v <<< F.lsb) &&& F.mask)

/-! mstatus (R44). -/
def Field.SIE : Field := ⟨1, 1⟩
def Field.MIE : Field := ⟨3, 3⟩
def Field.SPIE : Field := ⟨5, 5⟩
def Field.UBE : Field := ⟨6, 6⟩
def Field.MPIE : Field := ⟨7, 7⟩
def Field.SPP : Field := ⟨8, 8⟩
def Field.VS : Field := ⟨9, 10⟩
def Field.MPP : Field := ⟨11, 12⟩
def Field.FS : Field := ⟨13, 14⟩
def Field.XS : Field := ⟨15, 16⟩
def Field.MPRV : Field := ⟨17, 17⟩
def Field.SUM : Field := ⟨18, 18⟩
def Field.MXR : Field := ⟨19, 19⟩
def Field.TVM : Field := ⟨20, 20⟩
def Field.TW : Field := ⟨21, 21⟩
def Field.TSR : Field := ⟨22, 22⟩
def Field.UXL : Field := ⟨32, 33⟩
def Field.SXL : Field := ⟨34, 35⟩
def Field.SBE : Field := ⟨36, 36⟩
def Field.MBE : Field := ⟨37, 37⟩
/-- GVA of mstatus, XLEN = 64. -/
def Field.GVA : Field := ⟨38, 38⟩
/-- MPV of mstatus, XLEN = 64. -/
def Field.MPV : Field := ⟨39, 39⟩

/-! mstatush (R45), XLEN = 32. -/
def Field.hGVA : Field := ⟨6, 6⟩
def Field.hMPV : Field := ⟨7, 7⟩

/-- satp.MODE (R58). -/
def Field.satpMode : XLen → Field
  | .rv32 => ⟨31, 31⟩
  | .rv64 => ⟨60, 63⟩

/-- satp.PPN (R58). -/
def Field.satpPpn : XLen → Field
  | .rv32 => ⟨0, 21⟩
  | .rv64 => ⟨0, 43⟩

end Sys2Proof.Machine
end

