-- ==== Sys2Proof/Machine/CsrFile.lean ====
section
/-! DEFINITION. The CSR file as data, and the read, masked store, peek and poke of 41_register_access.md R234 to R239
without their side effects, which need the whole state (Machine/Ops.lean). -/

namespace Sys2Proof.Machine

/-- The CSR file: index and raw value (10_state.md R36). -/
abbrev CsrFile := List (CsrIdx × Word)

/-- The raw content of a CSR; a CSR with no entry holds 0. -/
def CsrFile.raw : CsrFile → CsrIdx → Word
  | [], _ => 0
  | (j, v) :: r, i => if j = i then v else CsrFile.raw r i

/-- Replaces the raw content of a CSR. -/
def CsrFile.set : CsrFile → CsrIdx → Word → CsrFile
  | [], i, v => [(i, v)]
  | (j, w) :: r, i, v => if j = i then (j, v) :: r else (j, w) :: CsrFile.set r i v

/-- A window: a CSR index with no storage of its own, shown through masks (10_state.md R46, R60). -/
structure Window where
  target : CsrIdx
  rmask : Word
  wmask : Word
  deriving DecidableEq, Repr

/-- The window at an index, if it is one: sstatus onto mstatus, sie onto mie, sip onto mip. -/
def window (x : XLen) (i : CsrIdx) : Option Window :=
  if i = Csr.sstatus then some ⟨Csr.mstatus, sstatusRMask x, sstatusWMask⟩
  else if i = Csr.sie then some ⟨Csr.mie, sieMask, sieMask⟩
  else if i = Csr.sip then some ⟨Csr.mip, sieMask, sieMask⟩
  else none

/-- The index whose storage an access to `i` reaches. -/
def csrHome (i : CsrIdx) : CsrIdx :=
  if i = Csr.sstatus then Csr.mstatus
  else if i = Csr.sie then Csr.mie
  else if i = Csr.sip then Csr.mip
  else i

end Sys2Proof.Machine

namespace Sys2Proof

open Sys2Proof.Machine

/-- The description of a CSR, if it is in `CSR_SET`. -/
def Config.csr? (c : Config) (i : CsrIdx) : Option CsrDesc := c.csrSet.find? (fun d => d.index = i)

/-- Membership in `CSR_SET`. -/
def Config.hasCsr (c : Config) (i : CsrIdx) : Bool := (c.csr? i).isSome

/-- `CSR_WMASK(i)`. Of a CSR outside `CSR_SET` it is 0: a write through sie or sip is dropped where `CSR_SET` holds the
window but not mie or mip (DESIGN CHOICE, log 22). -/
def Config.wmask (c : Config) (i : CsrIdx) : Word :=
  match c.csr? i with
  | some d => d.wmask
  | none => 0

/-- `CSR_RMASK(i)`. Of a CSR outside `CSR_SET` it is 0: sie or sip reads 0 where `CSR_SET` holds the window but not mie
or mip (DESIGN CHOICE, log 22). -/
def Config.rmask (c : Config) (i : CsrIdx) : Word :=
  match c.csr? i with
  | some d => d.rmask
  | none => 0

end Sys2Proof

namespace Sys2Proof.Machine

/-- The masked read of R234 and of the windows, without the hiding of bit 1 of an exception PC. -/
def CsrFile.readMasked (c : Config) (f : CsrFile) (i : CsrIdx) : Word :=
  match window c.xlen i with
  | some w => (f.raw w.target &&& c.rmask w.target) &&& w.rmask
  | none => f.raw i &&& c.rmask i

/-- `csr_read(i)` (R234); `align32` says that ialign is 32, when mepc and sepc hide bit 1 (10_state.md R52). -/
def CsrFile.read (c : Config) (align32 : Bool) (f : CsrFile) (i : CsrIdx) : Word :=
  if align32 = true ∧ (i = Csr.mepc ∨ i = Csr.sepc) then f.readMasked c i &&& ~~~2 else f.readMasked c i

/-- `new = (old & ~mask) | (value & mask)` (10_state.md R41). -/
def maskedNew (old mask value : Word) : Word := (old &&& ~~~mask) ||| (value &&& mask)

/-- The store of `csr_write(i, v)` (R235); through a window the unselected bits of the target are written back
unchanged (10_state.md R46). -/
def CsrFile.store (c : Config) (f : CsrFile) (i : CsrIdx) (v : Word) : CsrFile :=
  match window c.xlen i with
  | some w =>
    f.set w.target
      (maskedNew (f.raw w.target) (c.wmask w.target) (maskedNew (f.raw w.target) w.wmask (c.xlen.trunc v)))
  | none => f.set i (maskedNew (f.raw i) (c.wmask i) (c.xlen.trunc v))

/-- `csr_peek(i)` (R236). -/
def CsrFile.peek (c : Config) (f : CsrFile) (i : CsrIdx) : Word :=
  match window c.xlen i with
  | some w => f.raw w.target &&& w.rmask
  | none => f.raw i

/-- `csr_poke(i, v)` (R237); a window pokes only its own bits (70_reset_and_hazards.md R602; log 21). -/
def CsrFile.poke (c : Config) (f : CsrFile) (i : CsrIdx) (v : Word) : CsrFile :=
  match window c.xlen i with
  | some w => f.set w.target (maskedNew (f.raw w.target) w.rmask (c.xlen.trunc v))
  | none => f.set i (c.xlen.trunc v)

/-- `field_read` (R238) of the masked value, for fields of CSRs other than the exception PCs. -/
def CsrFile.field (c : Config) (f : CsrFile) (i : CsrIdx) (F : Field) : Word := F.get (f.readMasked c i)

end Sys2Proof.Machine
end

