-- ==== Sys2Proof/Machine/Derived.lean ====
section
/-! DEFINITION. The derived state as functions of the CSRs and the privilege mode: inclusions and ialign (10_state.md R29,
R31), the effective privilege and the MMU modes (20_memory.md R112 to R114). -/

namespace Sys2Proof.Machine

/-- The 2-bit encodings of 10_state.md R25. -/
def Priv.enc : Priv → BitVec 2
  | .user => 0
  | .supervisor => 1
  | .machine => 3

/-- The mode with an encoding; 2 is reserved (93_implementation_defined.md row U6). -/
def Priv.ofEnc (e : BitVec 2) : Option Priv :=
  if e = 0 then some .user
  else if e = 1 then some .supervisor
  else if e = 3 then some .machine
  else none

/-- The bit of an extension letter, `index('A') = 0` (R29). -/
def letterBit (k : Nat) : BitVec 26 := (1 : BitVec 26) <<< k

/-- C, index 2. -/
def letterC : BitVec 26 := letterBit 2

/-- D, index 3, and F, index 5. -/
def lettersFD : BitVec 26 := letterBit 3 ||| letterBit 5

/-- `inclusions`: the letters of the set misa bits, minus F and D when mstatus.FS = 0 (R29). -/
def deriveInclusions (c : Config) (f : CsrFile) : BitVec 26 :=
  let letters := (f.readMasked c Csr.misa).setWidth 26
  if f.field c Csr.mstatus Field.FS = 0 then letters &&& ~~~lettersFD else letters

/-- Whether 'C' is in a set of extensions. -/
def hasC (inc : BitVec 26) : Bool := decide (inc &&& letterC ≠ 0)

/-- Whether all of some extension letters are enabled (30_encoding.md R153). -/
def enables (inc needs : BitVec 26) : Bool := decide (inc &&& needs = needs)

/-- `mode_of(XLEN, m)` (R112). -/
def modeOf : XLen → Word → MmuMode
  | .rv32, m => if m = 0 then .bare else .sv32
  | .rv64, m =>
    if m = 0 then .bare
    else if m = 8 then .sv39
    else if m = 9 then .sv48
    else if m = 10 then .sv57
    else .invalid

/-- The mode of satp.MODE. -/
def satpMode (c : Config) (f : CsrFile) : MmuMode :=
  modeOf c.xlen (f.field c Csr.satp (Field.satpMode c.xlen))

/-- The encoding of the effective privilege of a load or store: MPP when MPRV = 1, else `priv_mode` (R113). -/
def lsPrivEnc (c : Config) (f : CsrFile) (p : Priv) : BitVec 2 :=
  if f.field c Csr.mstatus Field.MPRV = 1 then (f.field c Csr.mstatus Field.MPP).setWidth 2 else p.enc

/-- `fetch_mode` (R114). -/
def deriveFetchMode (c : Config) (f : CsrFile) (p : Priv) : MmuMode :=
  if p = .machine then .bare else satpMode c f

/-- `ls_mode` (R114). -/
def deriveLsMode (c : Config) (f : CsrFile) (p : Priv) : MmuMode :=
  if lsPrivEnc c f p = Priv.machine.enc then .bare else satpMode c f

/-- Whether the decoder accepts a set of extensions (70_reset_and_hazards.md R610, D28; log 26). -/
def isaAccepted (c : Config) (inc : BitVec 26) : Bool := !c.rejectedInclusions.contains inc

end Sys2Proof.Machine
end

