-- ==== Sys2Proof/Machine/Boot.lean ====
section
/-! DEFINITION. What reset does to the CSR file: defaults, `boot()`, the `CSR_INIT` list (70_reset_and_hazards.md R600 to
R603). All through the poke path, hence without side effects. -/

namespace Sys2Proof.Machine

/-- Step 1 of R600: every CSR of `CSR_SET` at its default; a window has no storage. -/
def csrDefaults (c : Config) : CsrFile :=
  c.csrSet.foldl (fun f d => if (window c.xlen d.index).isSome then f else f.set d.index (c.xlen.trunc d.dflt)) []

/-- `(MXL << (XLEN-2)) | ISA_BITS`, MXL = 1 for XLEN = 32 and 2 for XLEN = 64. -/
def misaBoot (c : Config) : Word :=
  (match c.xlen with
    | .rv32 => 0x40000000
    | .rv64 => 0x8000000000000000) ||| c.isaBits.setWidth 64

/-- `boot()` (R601): hart ID, ISA bits, XLEN-dependent status fields (UXL = SXL = 2 when XLEN = 64). -/
def bootCsrs (c : Config) (f : CsrFile) : CsrFile :=
  let f := f.poke c Csr.mhartid c.hartId
  let f := f.poke c Csr.misa (misaBoot c)
  match c.xlen with
  | .rv32 => f
  | .rv64 =>
    f.poke c Csr.mstatus ((f.peek c Csr.mstatus &&& ~~~(0x0000000F00000000 : Word)) ||| 0x0000000A00000000)

/-- One `InitCsr(name, value)` (R602, R603): the CSR file and the unknown names so far. -/
def initCsr (c : Config) (s : CsrFile × List String) (e : String × Nat) : CsrFile × List String :=
  match c.csrSet.find? (fun d => d.name == e.1) with
  | some d => (s.1.poke c d.index (BitVec.ofNat 64 e.2), s.2)
  | none => (s.1, s.2 ++ [e.1])

/-- The CSR file after reset and the names that were reported as unknown. -/
def resetCsrs (c : Config) : CsrFile × List String :=
  c.csrInit.foldl (initCsr c) (bootCsrs c (csrDefaults c), [])

end Sys2Proof.Machine
end

