-- ==== Sys2Proof/Machine/Chains.lean ====
section
/-! DEFINITION. Chains as data, the five edit operations on them and the assembly of the chain graph
(40_microop_chain.md R202, R210 to R215; 42_pipeline_microops.md R261; 70_reset_and_hazards.md R605). -/

namespace Sys2Proof.Machine

/-- One position of a chain: a micro-op and its optional tag. -/
structure Entry where
  op : MicroOp
  tag : Option Tag := none
  deriving DecidableEq, Repr

/-- A chain: its positions in order and its optional `next` link (R202). -/
structure Chain where
  ops : List Entry := []
  next : Option ChainId := none
  deriving DecidableEq, Repr

/-- `append(c, op)` (R210). -/
def Chain.append (c : Chain) (e : Entry) : Chain := { c with ops := c.ops ++ [e] }

/-- Inserts before the first position that carries the tag; `none` where no position does. -/
def insertBeforeOps : List Entry → Tag → Entry → Option (List Entry)
  | [], _, _ => none
  | x :: xs, t, e => if x.tag = some t then some (e :: x :: xs) else (insertBeforeOps xs t e).map (x :: ·)

/-- Inserts after the first position that carries the tag. -/
def insertAfterOps : List Entry → Tag → Entry → Option (List Entry)
  | [], _, _ => none
  | x :: xs, t, e => if x.tag = some t then some (x :: e :: xs) else (insertAfterOps xs t e).map (x :: ·)

/-- Replaces the micro-op of the first position that carries the tag, which keeps its tag. -/
def replaceOps : List Entry → Tag → MicroOp → Option (List Entry)
  | [], _, _ => none
  | x :: xs, t, op => if x.tag = some t then some ({ x with op := op } :: xs) else (replaceOps xs t op).map (x :: ·)

/-- `insertBefore(c, tag, op)` (R211); `none` is the tag not found. -/
def Chain.insertBefore (c : Chain) (t : Tag) (e : Entry) : Option Chain :=
  (insertBeforeOps c.ops t e).map (fun o => { c with ops := o })

/-- `insertAfter(c, tag, op)` (R212). -/
def Chain.insertAfter (c : Chain) (t : Tag) (e : Entry) : Option Chain :=
  (insertAfterOps c.ops t e).map (fun o => { c with ops := o })

/-- `replace(c, tag, op)` (R213). -/
def Chain.replace (c : Chain) (t : Tag) (op : MicroOp) : Option Chain :=
  (replaceOps c.ops t op).map (fun o => { c with ops := o })

/-- `setNext(c, d)` (R214). -/
def Chain.setNext (c : Chain) (d : Option ChainId) : Chain := { c with next := d }

/-- The chain arena: identifiers and their chains (R202). -/
abbrev Chains := List (ChainId × Chain)

/-- The chain with an identifier; one that was never made is empty with no `next` (log 17). -/
def Chains.get : Chains → ChainId → Chain
  | [], _ => {}
  | (j, c) :: r, i => if j = i then c else Chains.get r i

/-- Puts a chain into the arena. -/
def Chains.set : Chains → ChainId → Chain → Chains
  | [], i, c => [(i, c)]
  | (j, d) :: r, i, c => if j = i then (j, c) :: r else (j, d) :: Chains.set r i c

/-- The mnemonics whose chain has the two memory steps: the load and the store of 44_reference_handlers.md. -/
def Mnem.isMemory (m : Mnem) : Bool := m = .lw || m = .sw

/-- Inserts one hook per observer `0 .. n-1` in list order before the tag (R605). -/
def hooksBefore (mk : Nat → MicroOp) (t : Tag) (n : Nat) (c : Chain) : Chain :=
  (List.range n).foldl (fun c k => (c.insertBefore t { op := mk k }).getD c) c

/-- Appends one hook per observer. -/
def hooksAppend (mk : Nat → MicroOp) (n : Nat) (c : Chain) : Chain :=
  (List.range n).foldl (fun c k => c.append { op := mk k }) c

/-- The FETCH chain. -/
def fetchChain : Chain :=
  ((({} : Chain).append { op := .fetch }).append { op := .instTranslate, tag := some .instructionTranslate }).append
    { op := .decode }

/-- The EXCEPTION chain with `n` observers; its `next` is FINISH (42_pipeline_microops.md R296). -/
def exceptionChain (n : Nat) : Chain :=
  hooksBefore .preExceptionHook .exception n
    ((({} : Chain).append { op := .exception, tag := some .exception }).setNext (some .finish))

/-- The FINISH chain. -/
def finishChain (n : Nat) : Chain :=
  hooksAppend .postExecuteHook n (({} : Chain).append { op := .finishUpdate })

/-- The STOP chain; its last micro-op sets `stopped`. -/
def stopChain (n : Nat) : Chain :=
  (hooksAppend (fun k => .stopNotify (some k)) n {}).append { op := .stopNotify none }

/-- What the handler set gives a mnemonic, before the block's own splices. -/
def handlerChain (m : Mnem) : Chain :=
  if Mnem.isMemory m = true then
    (({} : Chain).append { op := .computeAddress, tag := some .computeAddress }).append
      { op := .execute, tag := some .execute }
  else ({} : Chain).append { op := .execute, tag := some .execute }

/-- An instruction chain: DATA_TRANSLATE after "compute-address" for a memory instruction, the pre-execute hooks
before "execute", `next` = FINISH (R605). -/
def instChain (n : Nat) (m : Mnem) : Chain :=
  let c := handlerChain m
  let c :=
    if Mnem.isMemory m = true then
      (c.insertAfter .computeAddress { op := .dataTranslate, tag := some .dataTranslate }).getD c
    else c
  (hooksBefore .preExecuteHook .execute n c).setNext (some .finish)

/-- The mnemonics of the twenty instruction words. -/
def wordMnems : List Mnem :=
  [.csrrw, .csrrs, .csrrc, .csrrwi, .csrrsi, .csrrci, .ecall, .ebreak, .mret, .sret, .wfi, .sfenceVma, .fence,
   .fenceI, .lui, .addi, .lw, .sw, .jal, .bne]

/-- A list with each value once. -/
def distinct : List Nat → List Nat
  | [] => []
  | n :: r => if (distinct r).contains n then distinct r else n :: distinct r

/-- `AssembleChains()` (R605), the graph of 42_pipeline_microops.md R261, for `n` observers and the external decoder's
mnemonics: each mnemonic is registered once at start-up (30_encoding.md R155). -/
def assembleChains (n : Nat) (external : List Nat) : Chains :=
  [(.fetch, fetchChain), (.exception, exceptionChain n), (.finish, finishChain n), (.stop, stopChain n)]
  ++ (wordMnems ++ (distinct external).map Mnem.external).map (fun m => (.inst m, instChain n m))

end Sys2Proof.Machine

namespace Sys2Proof

/-- The mnemonics of the words whose handler is unimplemented. -/
def Config.externalMnems (c : Config) : List Nat := c.unimplemented.map (·.mnem)

/-- The chain graph a configuration gives. -/
def Config.chains (c : Config) : Machine.Chains := Machine.assembleChains c.observers c.externalMnems

end Sys2Proof
end

