-- ==== Sys2Proof/Machine/Defaults.lean ====
section
/-! DEFINITION. The configuration `State.reset` is built from (DESIGN CHOICE, log 2): configuration CFG-A of
95_test_vectors.md section 0 with the `RESET_PC` of its vector Z1, and zero where no file names a value. -/

namespace Sys2Proof

open Sys2Proof.Machine

/-- The default configuration for a native width and a set of extension bits. -/
def Config.standard (x : XLen) (isa : BitVec 26) : Config where
  xlen := x
  hartId := 0
  isaBits := isa
  csrInit := []
  csrSet := defaultCsrs x
  xregReset := Vector.replicate 32 0
  fregReset := Vector.replicate 32 0
  vregReset := Vector.replicate 32 0
  resetPc := 0x80000000
  flen := 64
  vlen := 128
  delegMGuard := false
  walkStrict := {}
  observers := 0
  wordNeeds := []
  parcels := []
  unimplemented := []
  rejectedInclusions := []
  memory := [{ base := 0, size := 2 ^ 64 }]

/-- CFG-A: XLEN = 64, letters A, C, D, F, I, M, S, U. -/
def Config.default : Config := Config.standard .rv64 0x014112D

end Sys2Proof
end

