-- ==== Sys2Proof/Machine/Memory.lean ====
section
/-! DEFINITION. The external physical memory as a sorted list of bytes, and little-endian accesses built from byte accesses
(20_memory.md R100 to R104). -/

namespace Sys2Proof.Machine

/-- Physical memory: addresses strictly rising, no entry equal to `Memory.unlisted` (`Memory.wf`). -/
abbrev Memory := List Host.Cell

/-- What a byte nothing has written reads as (DESIGN CHOICE, log 5). -/
def Memory.unlisted : Byte := 0

/-- The canonical form. -/
abbrev Memory.wf (m : Memory) : Prop :=
  m.Pairwise (fun p q => p.1 < q.1) ∧ ∀ p ∈ m, p.2 ≠ Memory.unlisted

/-- The byte at an address. -/
def Memory.get : Memory → Nat → Byte
  | [], _ => Memory.unlisted
  | (b, v) :: r, a => if a = b then v else Memory.get r a

/-- Writes one byte, keeping the canonical form. -/
def Memory.set : Memory → Nat → Byte → Memory
  | [], a, v => if v = Memory.unlisted then [] else [(a, v)]
  | (b, w) :: r, a, v =>
    if a < b then (if v = Memory.unlisted then (b, w) :: r else (a, v) :: (b, w) :: r)
    else if a = b then (if v = Memory.unlisted then r else (a, v) :: r)
    else (b, w) :: Memory.set r a v

/-- `n` bytes from `a` as one number, the byte at `a` least significant (R101, R104). -/
def Memory.readLE (m : Memory) (a : Nat) : Nat → Nat
  | 0 => 0
  | n + 1 => (m.get a).toNat + 256 * Memory.readLE m (a + 1) n

/-- The low `n` bytes of `v` to `a`, least significant first (R102, R104). -/
def Memory.writeLE (m : Memory) (a : Nat) : Nat → Nat → Memory
  | 0, _ => m
  | n + 1, v => Memory.writeLE (m.set a (BitVec.ofNat 8 v)) (a + 1) n (v / 256)

/-- Whether the external memory has a byte at an address, writable where `wr` asks for it. -/
def present (rs : List MemRegion) (wr : Bool) (a : Nat) : Bool :=
  rs.any (fun r => decide (r.base ≤ a) && decide (a < r.base + r.size) && (!wr || r.writable))

/-- Whether it has `n` bytes from `a` (the success of `tryRead` and `tryWrite`, R101, R102). -/
def presentAll (rs : List MemRegion) (wr : Bool) (a : Nat) : Nat → Bool
  | 0 => true
  | n + 1 => present rs wr a && presentAll rs wr (a + 1) n

end Sys2Proof.Machine
end

