-- ==== Sys2Proof/Machine/State.lean ====
section
/-! DEFINITION. The state of the block as plain data (10_state.md), the reasons a step can stop, and the state after reset
(10_state.md R70, 70_reset_and_hazards.md R600). -/

namespace Sys2Proof.Machine

/-- A pending translation request (10_state.md R37). -/
structure Request where
  vaddr : Word
  size : Nat
  deriving DecidableEq, Repr

/-- A resolved translation (R37). -/
structure Resolved where
  paddr : Word
  size : Nat
  deriving DecidableEq, Repr

/-- A Translation queue: requests and results, oldest first (R37). -/
structure Queue where
  pending : List Request := []
  results : List Resolved := []
  deriving DecidableEq, Repr

/-- The slot `current_inst` (R32): the opcode bits and length, the decoded instruction, the `unimplemented` marker and the
data queue. The operand handles, immediate, mnemonic and memory kind of an instruction are read off `instr`
(Machine/Operands.lean). Where `instr` is `none` the slot holds a word whose handler is unimplemented, and `external` and
`dests` are its mnemonic and its destination registers. -/
structure CurrentInst where
  opcode : BitVec 32
  len : Nat
  instr : Option Instr
  external : Nat := 0
  dests : List DestReg := []
  unimplemented : Bool := false
  dataQueue : Queue := {}
  deriving DecidableEq, Repr

/-- The exception cause latch (R39). -/
structure CauseLatch where
  faultValid : Bool := false
  interruptValid : Bool := false
  code : BitVec 6 := 0
  info : Word := 0
  deriving DecidableEq, Repr

/-- The control-transfer signal a micro-op returns (40_microop_chain.md R200, R201). -/
inductive Signal where
  | proceed
  | redirect (c : ChainId)
  deriving DecidableEq, Repr

/-- What an observer answers at one hook: a chain to redirect to, or null (40_microop_chain.md R208), and an exit code
it sets, if any (10_state.md R30). -/
structure HookReply where
  redirect : Option ChainId := none
  exitCode : Option Word := none
  deriving DecidableEq, Repr

/-- The occasions on which an observer is notified (42_pipeline_microops.md R300 to R302, R308, R309). -/
inductive HookKind where
  | preExecute
  | postExecute
  | preException
  | shutdown
  | cleanup
  deriving DecidableEq, Repr

/-- One notification: its kind, the observer, and the `unimplemented` marker it is shown (R286). -/
structure Notice where
  kind : HookKind
  observer : Nat
  unimplemented : Bool
  deriving DecidableEq, Repr

/-- A call waiting on the host's interface (70_reset_and_hazards.md R612, R613; log 16). -/
inductive PortCall where
  | op (i : Instr)          -- an interface operation, or a micro-op step invoked alone
  | recomputeDerived        -- `RecomputeDerived()` (R604, R623)
  | runStop                 -- the scheduler running the STOP chain directly (42_pipeline_microops.md R308)
  | setExitCode (v : Word)  -- the host sets `exit_code` (10_state.md R30, D23)
  deriving DecidableEq, Repr

/-- The state of the hart, of the external memory and of the ports. -/
structure State where
  cfg : Config
  pc : Word
  nextPc : Word
  prevPc : Word
  priv : Priv
  nextPriv : Priv
  icount : BitVec 64
  inclusions : BitVec 26
  stopped : Bool
  exitCode : Word
  currentInst : Option CurrentInst
  xregs : Vector Word 32
  fregs : Vector Nat 32
  vregs : Vector Nat 32
  csrs : CsrFile
  fetchQueue : Queue
  fetchMode : MmuMode
  lsMode : MmuMode
  latch : CauseLatch
  cosimCode : BitVec 8
  chains : Chains
  csrInitUnknown : List String
  mem : Memory
  irqInput : List (Option (BitVec 6))
  hookReplies : List HookReply
  cosimReplies : List (BitVec 8)
  port : List PortCall
  notices : List Notice
  reply : Option Nat
  signal : Signal
  booted : Bool
  staleIsa : Bool
  staleMmu : Bool
  lastUnimplemented : Bool
  freeCtr : Nat
  deriving DecidableEq, Repr

/-- Why the machine stops: the host errors of class 2 (00_scope.md R4), "the block stops at once with a diagnostic",
and a `Run` that never ends. The machine has no next state. All are safe: nothing is claimed of what follows (log 7). -/
inductive Fault where
  /-- Raised by MemRead when `tryRead` fails (20_memory.md R101, R103): DECODE, the walker, LW. Safe. -/
  | memoryReadFailure
  /-- Raised by MemWrite when `tryWrite` fails (20_memory.md R102, R103): SW. Safe. -/
  | memoryWriteFailure
  /-- Raised by Translate under the MMU mode INVALID (20_memory.md R120). Safe. -/
  | invalidMmuMode
  /-- Raised by a compute-address handler pushing while an earlier request is pending (20_memory.md R111), and by FETCH
pushing on a queue that is not empty (42_pipeline_microops.md R262, log 28). Safe. -/
  | secondTranslationRequest
  /-- Raised by DECODE, LW and SW popping a result that is not there (20_memory.md R111). Safe. -/
  | emptyTranslationResult
  /-- Raised by Rebuild and RecomputeDerived when the decoder refuses the extension set (70_reset_and_hazards.md R604,
  R610). Safe. -/
  | malformedIsaConfiguration
  /-- Raised by insertBefore, insertAfter and replace on a tag that is not in the chain (40_microop_chain.md R211 to
  R213). Safe. -/
  | tagNotFound
  /-- Raised by `raise` while a cause is pending (60_exceptions.md R510). Safe. -/
  | causeAlreadyPending
  /-- Raised by EXCEPTION when both or neither valid bit is set (60_exceptions.md R512, R520). Safe. -/
  | notExactlyOneCause
  /-- Raised by a Run that enters chains without end (40_microop_chain.md R203, R214: "would make `Run` loop for ever"):
  there is no next state; a Run that ends, after however many chains, never raises it (log 18). Safe. -/
  | runDoesNotEnd
  deriving DecidableEq, Repr

/-- What the model gives no meaning, because the spec gives it none. All are safe: no claim follows. -/
inductive Refusal where
  /-- An arm of exec with no meaning yet. -/
  | notModelled (mnemonic : String)
  /-- DECODE, DATA_TRANSLATE: an access crossing a page under a translating mode (93_implementation_defined.md row U3;
  log 10). Safe. -/
  | pageCrossingAccess
  /-- MRET, and load/store translation with MPRV = 1, when MPP = 2 (93_implementation_defined.md row U6; log 11). Safe. -/
  | reservedPrivilege
  /-- boot: a second call (93_implementation_defined.md row U5, 70_reset_and_hazards.md R601; log 20). Safe. -/
  | secondBoot
  /-- step: a poke to misa, mstatus or satp was not followed by RecomputeDerived (row U5, 70_reset_and_hazards.md R623;
  log 19). Safe. -/
  | stalePoke
  /-- EXECUTE, COMPUTE_ADDRESS, DATA_TRANSLATE invoked with no current instruction (log 29). Safe. -/
  | noCurrentInstruction
  /-- COMPUTE_ADDRESS invoked for an instruction that is no memory instruction, DATA_TRANSLATE for one with a request
  pending, or EXECUTE for a term that is no instruction word (log 29). Safe. -/
  | noHandler
  /-- An interface operation names a CSR that is not in `CSR_SET` (41_register_access.md R234, R235: "CSR index i in
  CSR_SET"; log 29). Safe. -/
  | noSuchCsr
  /-- The port holds a call of an instruction word, which is no interface operation (log 16). Safe. -/
  | notAnInterfaceOperation
  deriving DecidableEq, Repr

/-- `Reset(config)` (R600), its steps 1 to 6. -/
def State.initial (c : Config) : State :=
  let csrs := (resetCsrs c).1
  { cfg := c
    pc := c.xlen.trunc c.resetPc
    nextPc := 0
    prevPc := 0
    priv := .machine
    nextPriv := .machine
    icount := 0
    inclusions := deriveInclusions c csrs
    stopped := false
    exitCode := 0
    currentInst := none
    xregs := c.xregReset.map c.xlen.trunc
    fregs := c.fregReset.map (· % 2 ^ c.flen)
    vregs := c.vregReset.map (· % 2 ^ c.vlen)
    csrs := csrs
    fetchQueue := {}
    fetchMode := deriveFetchMode c csrs .machine
    lsMode := deriveLsMode c csrs .machine
    latch := {}
    cosimCode := 0x00
    chains := c.chains
    csrInitUnknown := (resetCsrs c).2
    mem := []
    irqInput := []
    hookReplies := []
    cosimReplies := []
    port := []
    notices := []
    reply := none
    signal := .proceed
    booted := true
    staleIsa := false
    staleMmu := false
    lastUnimplemented := false
    freeCtr := 0 }

/-- The reset sequence as the host sees it: it aborts on a malformed ISA configuration (R604). -/
def State.construct (c : Config) : Host.Outcome State Fault Refusal :=
  if isaAccepted c (State.initial c).inclusions then .next (State.initial c) else .fault .malformedIsaConfiguration

/-- The state after reset with the default configuration. -/
def State.reset : State := State.initial Config.default

end Sys2Proof.Machine
end

