-- ==== Sys2Proof/Machine/Operands.lean ====
section
/-! DEFINITION. Operand forms: sign and zero extension, the immediates of 30_encoding.md R158 as XLEN-bit values, and the
operand handles, mnemonic and memory kind an Instruction exposes (10_state.md R32, 42_pipeline_microops.md R271). -/

namespace Sys2Proof.Machine

/-- `sext_N(v)`: the XLEN-bit two's-complement image of an N-bit field. -/
def sextTo (x : XLen) {n : Nat} (v : BitVec n) : Word := x.trunc (v.signExtend 64)

/-- `zext_N(v)`, for N at most XLEN. -/
def zextTo {n : Nat} (v : BitVec n) : Word := v.setWidth 64

end Sys2Proof.Machine

namespace Sys2Proof

open Sys2Proof.Machine

/-- The destination register a word names (30_encoding.md R158; log 15). -/
def DestField.reg (d : DestField) (bits : BitVec 32) : DestReg :=
  ⟨d.file, BitVec.ofNat 5 (d.base + (bits.extractLsb' d.lsb d.width).toNat)⟩

/-- The mnemonic under which an instruction word's chain is cached; a row that is no instruction word has none. -/
def Instr.mnem : Instr → Option Mnem
  | .csrrw _ _ _ => some .csrrw
  | .csrrs _ _ _ => some .csrrs
  | .csrrc _ _ _ => some .csrrc
  | .csrrwi _ _ _ => some .csrrwi
  | .csrrsi _ _ _ => some .csrrsi
  | .csrrci _ _ _ => some .csrrci
  | .ecall => some .ecall
  | .ebreak => some .ebreak
  | .mret => some .mret
  | .sret => some .sret
  | .wfi => some .wfi
  | .sfenceVma _ _ => some .sfenceVma
  | .fence _ _ _ _ _ => some .fence
  | .fenceI _ _ _ => some .fenceI
  | .lui _ _ => some .lui
  | .addi _ _ _ => some .addi
  | .lw _ _ _ => some .lw
  | .sw _ _ _ => some .sw
  | .jal _ _ => some .jal
  | .bne _ _ _ => some .bne
  | .stepFetch | .stepInstTranslate | .stepDecode | .stepComputeAddress | .stepDataTranslate
  | .stepPreExecuteHook _ | .stepExecute | .stepPreExceptionHook _ | .stepException
  | .stepFinishUpdate | .stepPostExecuteHook _ | .stepStopNotify _
  | .opAppend _ _ _ | .opInsertBefore _ _ _ _ | .opInsertAfter _ _ _ _ | .opReplace _ _ _
  | .opSetNext _ _ | .opRead _ | .opWrite _ _ | .opPeek _ | .opPoke _ _ | .opFieldRead _ _ _
  | .opFieldWrite _ _ _ _ | .opBoot | .opCleanup | .opStep => none

/-- The chain an instruction word runs. -/
def Instr.chain (i : Instr) : ChainId := .inst (i.mnem.getD (.external 0))

/-- The operand handle `rd`, which "may be absent" (10_state.md R32). -/
def Instr.rd? : Instr → Option Reg
  | .csrrw rd _ _ | .csrrs rd _ _ | .csrrc rd _ _ | .csrrwi rd _ _ | .csrrsi rd _ _ | .csrrci rd _ _
  | .lui rd _ | .addi rd _ _ | .lw rd _ _ | .jal rd _ => some rd
  | _ => none

/-- The operand handle `rs1`. The fences name no operand: their fields are ignored (43_system_instructions.md R357). -/
def Instr.rs1? : Instr → Option Reg
  | .csrrw _ rs1 _ | .csrrs _ rs1 _ | .csrrc _ rs1 _ | .sfenceVma rs1 _ | .addi _ rs1 _ | .lw _ rs1 _
  | .sw rs1 _ _ | .bne rs1 _ _ => some rs1
  | _ => none

/-- The operand handle `rs2`. -/
def Instr.rs2? : Instr → Option Reg
  | .sfenceVma _ rs2 | .sw _ rs2 _ | .bne _ rs2 _ => some rs2
  | _ => none

/-- The operand handle `rs3`: none of the listed instructions has one. -/
def Instr.rs3? (_ : Instr) : Option Reg := none

/-- The immediate as an XLEN-bit value (30_encoding.md R158). -/
def Instr.imm? (x : XLen) : Instr → Option Word
  | .csrrwi _ u _ | .csrrsi _ u _ | .csrrci _ u _ => some (zextTo u)
  | .lui _ imm => some (sextTo x (imm ++ 0#12))
  | .addi _ _ imm | .lw _ _ imm | .sw _ _ imm => some (sextTo x imm)
  | .jal _ off => some (sextTo x off)
  | .bne _ _ off => some (sextTo x off)
  | _ => none

/-- `mem_kind` (42_pipeline_microops.md R271). -/
def Instr.memKind : Instr → MemKind
  | .lw _ _ _ => .load
  | .sw _ _ _ => .store
  | _ => .none

end Sys2Proof
end

