-- ==== Sys2Proof/Machine/Ops.lean ====
section
/-! DEFINITION. The named operations every meaning is written over: registers, CSRs with their side effects, memory, the
translation queues, raising a cause, taking a trap, returning from one, finishing an instruction, calling a hook. -/

namespace Sys2Proof.Machine

/-- What invoking a micro-op gives: `Continue`, `Redirect(chain)` (40_microop_chain.md R200, R201), a host error
(00_scope.md R4) or a refusal. -/
inductive MicroOut where
  | cont (s : State)
  | redirect (c : ChainId) (s : State)
  | abort (f : Fault)
  | refuse (r : Refusal)

/-! ## Integer, floating-point and vector registers (41_register_access.md R230 to R232) -/

/-- `x[i]`: register 0 reads 0 (R230). -/
def State.readX (s : State) (i : Reg) : Word :=
  if i = 0 then 0 else s.cfg.xlen.trunc (s.xregs.get i.toFin)

/-- `x[i] <- v`: a write to register 0 does nothing (R231). -/
def State.writeX (s : State) (i : Reg) (v : Word) : State :=
  if i = 0 then s else { s with xregs := s.xregs.set i.toNat (s.cfg.xlen.trunc v) i.isLt }

/-- The raw pattern of a floating-point register (R232). -/
def State.readF (s : State) (i : Reg) : Nat := s.fregs.get i.toFin

/-- Stores a raw pattern of FLEN bits. -/
def State.writeF (s : State) (i : Reg) (v : Nat) : State :=
  { s with fregs := s.fregs.set i.toNat (v % 2 ^ s.cfg.flen) i.isLt }

/-- The raw pattern of a vector register (R232). -/
def State.readV (s : State) (i : Reg) : Nat := s.vregs.get i.toFin

/-- Stores a raw pattern of VLEN bits. -/
def State.writeV (s : State) (i : Reg) (v : Nat) : State :=
  { s with vregs := s.vregs.set i.toNat (v % 2 ^ s.cfg.vlen) i.isLt }

/-! ## CSRs (41_register_access.md R234 to R240) and derived state (70_reset_and_hazards.md R604, R610) -/

/-- Whether `ialign` is 32 (10_state.md R31). -/
def State.align32 (s : State) : Bool := !hasC s.inclusions

/-- `ialign` in bits. -/
def State.ialign (s : State) : Nat := if s.align32 then 32 else 16

/-- The extension part of `Rebuild` (R610). -/
def State.recomputeIsa (s : State) : State :=
  { s with inclusions := deriveInclusions s.cfg s.csrs, staleIsa := false }

/-- The MMU part of `Rebuild` (R610). Swapping the translate micro-ops has no visible effect (20_memory.md R134): they
read the cached mode. A micro-op that the host has put at the tag instruction-translate or data-translate stays there, where
R610's `replace` would install the walk again (DESIGN CHOICE, log 17). -/
def State.recomputeMmu (s : State) : State :=
  { s with fetchMode := deriveFetchMode s.cfg s.csrs s.priv, lsMode := deriveLsMode s.cfg s.csrs s.priv,
           staleMmu := false }

/-- `csr_read(i)` (R234). -/
def State.csrRead (s : State) (i : CsrIdx) : Word := s.csrs.read s.cfg s.align32 i

/-- Whether a write to `i` re-derives the extension set: misa, mstatus or its window (R240). -/
def touchesIsa (i : CsrIdx) : Bool := csrHome i = Csr.misa || csrHome i = Csr.mstatus

/-- Whether a write to `i` recomputes the MMU modes: satp, mstatus or its window (R240). -/
def touchesMmu (i : CsrIdx) : Bool := csrHome i = Csr.satp || csrHome i = Csr.mstatus

/-- The side effects of a write-path write, in the order of R240. -/
def State.csrSideEffects (s : State) (i : CsrIdx) : State :=
  let s := if touchesIsa i then s.recomputeIsa else s
  if touchesMmu i then s.recomputeMmu else s

/-- `csr_write(i, v)` (R235): the masked store, then the side effects. -/
def State.csrWrite (s : State) (i : CsrIdx) (v : Word) : State :=
  State.csrSideEffects { s with csrs := s.csrs.store s.cfg i v } i

/-- `csr_peek(i)` (R236). -/
def State.csrPeek (s : State) (i : CsrIdx) : Word := s.csrs.peek s.cfg i

/-- `csr_poke(i, v)` (R237): no side effect, so derived state may be stale afterwards (70_reset_and_hazards.md R623). -/
def State.csrPoke (s : State) (i : CsrIdx) (v : Word) : State :=
  { s with csrs := s.csrs.poke s.cfg i v, staleIsa := s.staleIsa || touchesIsa i,
           staleMmu := s.staleMmu || touchesMmu i }

/-- `CSR[i].F` (R238). -/
def State.fieldRead (s : State) (i : CsrIdx) (F : Field) : Word := F.get (s.csrRead i)

/-- `CSR[i].F <- v` (R239). -/
def State.fieldWrite (s : State) (i : CsrIdx) (F : Field) (v : Word) : State := s.csrWrite i (F.put (s.csrPeek i) v)

/-- Ends a micro-op that wrote misa or mstatus: `Rebuild` aborts when the decoder refuses the extension set (R610;
log 26). -/
def checkIsa (s : State) : MicroOut :=
  if isaAccepted s.cfg s.inclusions then .cont s else .abort .malformedIsaConfiguration

/-- `RecomputeDerived()` (R604): both parts, aborting on a malformed ISA configuration. -/
def recomputeDerived (s : State) : MicroOut := checkIsa s.recomputeIsa.recomputeMmu

/-! ## Physical memory (20_memory.md R101 to R104) -/

/-- `MemRead(paddr, n)`; `none` is the failed `tryRead`, an abort (R103). -/
def State.memRead (s : State) (pa : Word) (n : Nat) : Option Nat :=
  if presentAll s.cfg.memory false pa.toNat n then some (s.mem.readLE pa.toNat n) else none

/-- `MemWrite(paddr, n, v)`; `none` is the failed `tryWrite`. -/
def State.memWrite (s : State) (pa : Word) (n : Nat) (v : Nat) : Option State :=
  if presentAll s.cfg.memory true pa.toNat n then some { s with mem := s.mem.writeLE pa.toNat n v } else none

/-! ## Translation queues (20_memory.md R109 to R111) -/

/-- Pushes a request on a scalar path: while an earlier one is pending it is a host error (R111). Results not yet
consumed stay. -/
def Queue.push (q : Queue) (r : Request) : Option Queue :=
  if q.pending.isEmpty then some { q with pending := [r] } else none

/-- FETCH's push, a host error on a queue that is not empty (42_pipeline_microops.md R262); that a result not yet consumed
makes it non-empty is DEDUCED (log 28). -/
def Queue.pushFetch (q : Queue) (r : Request) : Option Queue := if q.results.isEmpty then q.push r else none

/-- Pops the oldest result. -/
def Queue.pop (q : Queue) : Option (Resolved × Queue) :=
  match q.results with
  | [] => none
  | r :: rs => some (r, { q with results := rs })

/-- The pending requests replaced by their results, appended in order (R110). -/
def Queue.resolved (q : Queue) (rs : List Resolved) : Queue := { pending := [], results := q.results ++ rs }

/-! ## Raising a cause (60_exceptions.md R510, R511) -/

/-- Whether a cause is pending. -/
def CauseLatch.pending (l : CauseLatch) : Bool := l.faultValid || l.interruptValid

/-- `raise Fault(c, info)` (R510). -/
def raiseFault (c : BitVec 6) (info : Word) (s : State) : MicroOut :=
  if s.latch.pending then .abort .causeAlreadyPending
  else .redirect .exception { s with latch := { s.latch with faultValid := true, code := c, info := info } }

/-- `raise Interrupt(c)` (R511). -/
def raiseInterrupt (c : BitVec 6) (s : State) : MicroOut :=
  if s.latch.pending then .abort .causeAlreadyPending
  else .redirect .exception { s with latch := { s.latch with interruptValid := true, code := c, info := 0 } }

/-- `illegal`: the illegal-instruction fault with the opcode bits (43_system_instructions.md section 0). -/
def illegal (s : State) : MicroOut :=
  raiseFault 2 (match s.currentInst with | some ci => zextTo ci.opcode | none => 0) s

/-! ## Taking a trap (60_exceptions.md R520 to R531) -/

/-- The value for the cause CSR: the code, with bit XLEN-1 set for an interrupt (R524). -/
def trapCause (x : XLen) (isInt : Bool) (code : BitVec 6) : Word :=
  zextTo code ||| (if isInt then (match x with | .rv32 => 0x80000000 | .rv64 => 0x8000000000000000) else 0)

/-- Codes whose trap value is the current PC (R525). -/
def trapValueIsPc (code : BitVec 6) : Bool := code = 0 || code = 1 || code = 12

/-- Codes whose trap value is what the raiser recorded: opcode bits or a faulting address (R525). -/
def trapValueIsInfo (code : BitVec 6) : Bool :=
  code = 2 || code = 4 || code = 5 || code = 6 || code = 7 || code = 13 || code = 15

/-- `TrapValue(is_int, code)` (R525). -/
def trapValue (s : State) (isInt : Bool) (code : BitVec 6) : Word :=
  if isInt then 0
  else if trapValueIsPc code then s.pc
  else if trapValueIsInfo code then s.latch.info
  else 0

/-- The privilege-mode router: whether the pending cause goes to SUPERVISOR (R522). -/
def trapToS (s : State) : Bool :=
  let deleg := if s.latch.interruptValid then s.csrRead Csr.mideleg else s.csrRead Csr.medeleg
  decide (s.latch.code.toNat < s.cfg.xlen.bits) && deleg.getLsbD s.latch.code.toNat
    && !(s.cfg.delegMGuard && s.priv = .machine)

/-- `next_pc <- v`. -/
def State.setNextPc (s : State) (v : Word) : State := { s with nextPc := v }

/-- `next_priv_mode <- p`. -/
def State.setNextPriv (s : State) (p : Priv) : State := { s with nextPriv := p }

/-- Step 3 of the dispatcher at SUPERVISOR level (R523 to R526). -/
def trapEntryS (s : State) (cause tval : Word) : State :=
  let s := s.setNextPc (s.csrRead Csr.stvec &&& ~~~1)
  let s := s.csrWrite Csr.sepc s.pc
  let s := s.csrWrite Csr.scause cause
  let s := s.csrWrite Csr.stval tval
  let s := s.fieldWrite Csr.mstatus Field.SPIE (s.fieldRead Csr.mstatus Field.SIE)
  let s := s.fieldWrite Csr.mstatus Field.SPP (zextTo (s.priv.enc.extractLsb' 0 1))
  let s := s.fieldWrite Csr.mstatus Field.SIE 0
  s.setNextPriv .supervisor

/-- Clears MPV and GVA, in mstatus for XLEN = 64 and in mstatush for XLEN = 32 (R528). -/
def clearVirtualization (s : State) : State :=
  match s.cfg.xlen with
  | .rv64 => (s.fieldWrite Csr.mstatus Field.MPV 0).fieldWrite Csr.mstatus Field.GVA 0
  | .rv32 => (s.fieldWrite Csr.mstatush Field.hMPV 0).fieldWrite Csr.mstatush Field.hGVA 0

/-- Step 3 of the dispatcher at MACHINE level (R523 to R528). -/
def trapEntryM (s : State) (cause tval : Word) : State :=
  let s := s.setNextPc (s.csrRead Csr.mtvec &&& ~~~1)
  let s := s.csrWrite Csr.mepc s.pc
  let s := s.csrWrite Csr.mcause cause
  let s := s.csrWrite Csr.mtval tval
  let s := s.fieldWrite Csr.mstatus Field.MPIE (s.fieldRead Csr.mstatus Field.MIE)
  let s := s.fieldWrite Csr.mstatus Field.MPP (zextTo s.priv.enc)
  let s := s.fieldWrite Csr.mstatus Field.MIE 0
  let s := clearVirtualization s
  s.setNextPriv .machine

/-- Step 4: the oracle's answer goes into `cosim_code` and nowhere else (R529); 0x00 where it is absent (log 14). -/
def cosimSync (s : State) : State :=
  { s with cosimCode := s.cosimReplies.headD 0x00, cosimReplies := s.cosimReplies.tail }

/-- Step 5: both valid bits cleared; code and info keep stale values (R531). -/
def clearCause (s : State) : State :=
  { s with latch := { s.latch with faultValid := false, interruptValid := false } }

/-- Step 3 of the dispatcher, at the level step 2 chose, with the values of step 1 (R520 to R526). -/
def trapEntry (cause tval : Word) (s : State) : State :=
  if trapToS s then trapEntryS s cause tval else trapEntryM s cause tval

/-- TAKING A TRAP: the dispatcher's steps 1 to 5 for the cause in the latch (R520). -/
def takeTrap (s : State) : State :=
  clearCause (cosimSync (trapEntry (trapCause s.cfg.xlen s.latch.interruptValid s.latch.code)
    (trapValue s s.latch.interruptValid s.latch.code) s))

/-- RETURNING FROM A TRAP, the inverse of the stacking (43_system_instructions.md R350, R351): xIE from xPIE, xPIE set, xPP
to USER, MPRV cleared unless the new mode is MACHINE, the new mode and the exception PC. -/
def trapReturn (IE PIE PP : Field) (epc : CsrIdx) (p : Priv) (s : State) : State :=
  let s := s.fieldWrite Csr.mstatus IE (s.fieldRead Csr.mstatus PIE)
  let s := s.fieldWrite Csr.mstatus PIE 1
  let s := s.fieldWrite Csr.mstatus PP 0
  let s := if p = .machine then s else s.fieldWrite Csr.mstatus Field.MPRV 0
  (s.setNextPriv p).setNextPc (s.csrRead epc)

/-! ## Finishing an instruction (42_pipeline_microops.md R290) -/

/-- The `unimplemented` marker of the current instruction. -/
def State.marker (s : State) : Bool :=
  match s.currentInst with
  | some ci => ci.unimplemented
  | none => false

/-- The commit of `priv_mode`, with the MMU modes recomputed when it changed (R290). -/
def State.commitPriv (s : State) : State :=
  if s.nextPriv = s.priv then s else State.recomputeMmu { s with priv := s.nextPriv }

/-- FINISH_UPDATE (R290). The released instruction's marker stays visible to the post-execute hooks (R286; log 25). -/
def finishUpdate (s : State) : State :=
  let m := s.marker
  let s := State.commitPriv { s with prevPc := s.pc, pc := s.nextPc }
  { s with icount := s.icount + 1, currentInst := none, lastUnimplemented := m }

/-! ## Observers (42_pipeline_microops.md R300 to R309) -/

/-- Records that an observer was notified. -/
def State.notify (s : State) (kind : HookKind) (obs : Nat) (m : Bool) : State :=
  { s with notices := s.notices ++ [⟨kind, obs, m⟩] }

/-- Calls an observer's hook and takes its answer: null continues, a chain redirects (40_microop_chain.md R208). A hook
invoked alone for a number no observer of the configuration has does the same (DESIGN CHOICE, log 30). -/
def hookCall (kind : HookKind) (obs : Nat) (m : Bool) (s : State) : MicroOut :=
  let s := s.notify kind obs m
  match s.hookReplies with
  | [] => .cont s
  | r :: rs =>
    let s := { s with hookReplies := rs,
                      exitCode := match r.exitCode with | some v => s.cfg.xlen.trunc v | none => s.exitCode }
    match r.redirect with
    | none => .cont s
    | some c => .redirect c s

end Sys2Proof.Machine
end

