-- ==== Sys2Proof/Machine/ReferenceBodies.lean ====
section
/-! DEFINITION. The step bodies of the six reference handlers (44_reference_handlers.md). Arithmetic is modulo 2^XLEN (R407). -/

namespace Sys2Proof.Machine

/-- `pc + offset` modulo 2^XLEN (10_state.md R22, R407). -/
def State.pcPlus (s : State) (off : Word) : Word := s.cfg.xlen.trunc (s.pc + off)

/-- The effective address of a load or store: `x[rs1] + sext_12(imm)` modulo 2^XLEN (R403, R404, R407). -/
def effAddr (s : State) (rs1 : Reg) (imm : BitVec 12) : Word :=
  s.cfg.xlen.trunc (s.readX rs1 + sextTo s.cfg.xlen imm)

/-- LUI (R401). -/
def luiBody (rd : Reg) (imm : BitVec 20) (s : State) : MicroOut :=
  .cont (s.writeX rd (sextTo s.cfg.xlen (imm ++ 0#12)))

/-- ADDI (R402). -/
def addiBody (rd rs1 : Reg) (imm : BitVec 12) (s : State) : MicroOut :=
  .cont (s.writeX rd (s.readX rs1 + sextTo s.cfg.xlen imm))

/-- Pushes one scalar request on the current instruction's data queue (42_pipeline_microops.md R270). -/
def pushData (va : Word) (size : Nat) (s : State) : MicroOut :=
  match s.currentInst with
  | none => .refuse .noCurrentInstruction
  | some ci =>
    match ci.dataQueue.push ⟨va, size⟩ with
    | none => .abort .secondTranslationRequest
    | some q => .cont { s with currentInst := some { ci with dataQueue := q } }

/-- Pops the oldest result of the data queue and hands it on (42_pipeline_microops.md R283). -/
def withData (k : Resolved → State → MicroOut) (s : State) : MicroOut :=
  match s.currentInst with
  | none => .refuse .noCurrentInstruction
  | some ci =>
    match ci.dataQueue.pop with
    | none => .abort .emptyTranslationResult
    | some (r, q) => k r { s with currentInst := some { ci with dataQueue := q } }

/-- LW.compute_address (R403). -/
def lwAddress (rs1 : Reg) (imm : BitVec 12) (s : State) : MicroOut := pushData (effAddr s rs1 imm) 4 s

/-- LW.execute (R403): four bytes, sign-extended; the read happens for rd = x0 too. -/
def lwBody (rd : Reg) (s : State) : MicroOut :=
  withData (fun r s =>
    match s.memRead r.paddr 4 with
    | none => .abort .memoryReadFailure
    | some n => .cont (s.writeX rd (sextTo s.cfg.xlen (BitVec.ofNat 32 n)))) s

/-- SW.compute_address (R404). -/
def swAddress (rs1 : Reg) (imm : BitVec 12) (s : State) : MicroOut := pushData (effAddr s rs1 imm) 4 s

/-- SW.execute (R404): the low four bytes of `x[rs2]`. -/
def swBody (rs2 : Reg) (s : State) : MicroOut :=
  withData (fun r s =>
    match s.memWrite r.paddr 4 (s.readX rs2).toNat with
    | none => .abort .memoryWriteFailure
    | some s => .cont s) s

/-- JAL (R405): the link value and the target are both computed from the old `pc`. -/
def jalBody (rd : Reg) (off : BitVec 21) (s : State) : MicroOut :=
  .cont { s.writeX rd (s.pcPlus 4) with nextPc := s.pcPlus (sextTo s.cfg.xlen off) }

/-- BNE (R406). -/
def bneBody (rs1 rs2 : Reg) (off : BitVec 13) (s : State) : MicroOut :=
  if s.readX rs1 ≠ s.readX rs2 then .cont { s with nextPc := s.pcPlus (sextTo s.cfg.xlen off) } else .cont s

end Sys2Proof.Machine
end

