-- ==== Sys2Proof/Machine/SystemBodies.lean ====
section
/-! DEFINITION. The EXECUTE bodies of the system instructions (43_system_instructions.md). -/

namespace Sys2Proof.Machine

/-- `CsrCheck(csr, will_write)` (R341): whether every check passes. -/
def csrLegal (s : State) (csr : CsrIdx) (willWrite : Bool) : Bool :=
  s.cfg.hasCsr csr
    && !(s.cfg.xlen = .rv64 && csr = Csr.mstatush)
    && decide (csr.extractLsb' 8 2 ≤ s.priv.enc)
    && !(willWrite && csr.extractLsb' 10 2 = 0b11#2)
    && !(csr = Csr.satp && s.priv = .supervisor && s.fieldRead Csr.mstatus Field.TVM = 1)

/-- A masked write with its side effects, then the old value to `rd` (R340). -/
def csrWriteThen (csr : CsrIdx) (new : Word) (rd : Reg) (old : Word) (s : State) : MicroOut :=
  let s := (s.csrWrite csr new).writeX rd old
  if touchesIsa csr then checkIsa s else .cont s

/-- CSRRW (R342). With rd = x0 no read is made, which is unobservable. -/
def csrrwBody (rd rs1 : Reg) (csr : CsrIdx) (s : State) : MicroOut :=
  if csrLegal s csr true then csrWriteThen csr (s.readX rs1) rd (s.csrRead csr) s else illegal s

/-- CSRRS (R343). -/
def csrrsBody (rd rs1 : Reg) (csr : CsrIdx) (s : State) : MicroOut :=
  if csrLegal s csr (rs1 ≠ 0) then
    let t := s.csrRead csr
    if rs1 ≠ 0 then csrWriteThen csr (t ||| s.readX rs1) rd t s else .cont (s.writeX rd t)
  else illegal s

/-- CSRRC (R344). -/
def csrrcBody (rd rs1 : Reg) (csr : CsrIdx) (s : State) : MicroOut :=
  if csrLegal s csr (rs1 ≠ 0) then
    let t := s.csrRead csr
    if rs1 ≠ 0 then csrWriteThen csr (t &&& ~~~s.readX rs1) rd t s else .cont (s.writeX rd t)
  else illegal s

/-- CSRRWI (R345). -/
def csrrwiBody (rd : Reg) (uimm : BitVec 5) (csr : CsrIdx) (s : State) : MicroOut :=
  if csrLegal s csr true then csrWriteThen csr (zextTo uimm) rd (s.csrRead csr) s else illegal s

/-- CSRRSI (R346). -/
def csrrsiBody (rd : Reg) (uimm : BitVec 5) (csr : CsrIdx) (s : State) : MicroOut :=
  if csrLegal s csr (uimm ≠ 0) then
    let t := s.csrRead csr
    if uimm ≠ 0 then csrWriteThen csr (t ||| zextTo uimm) rd t s else .cont (s.writeX rd t)
  else illegal s

/-- CSRRCI (R347). -/
def csrrciBody (rd : Reg) (uimm : BitVec 5) (csr : CsrIdx) (s : State) : MicroOut :=
  if csrLegal s csr (uimm ≠ 0) then
    let t := s.csrRead csr
    if uimm ≠ 0 then csrWriteThen csr (t &&& ~~~zextTo uimm) rd t s else .cont (s.writeX rd t)
  else illegal s

/-- ECALL (R348): cause 8 + the encoding of the mode, trap value 0. -/
def ecallBody (s : State) : MicroOut := raiseFault (8 + s.priv.enc.setWidth 6) 0 s

/-- EBREAK (R349): cause 3, trap value 0. -/
def ebreakBody (s : State) : MicroOut := raiseFault 3 0 s

/-- MRET (R350). MPP = 2 is not defined (93_implementation_defined.md row U6). -/
def mretBody (s : State) : MicroOut :=
  if s.priv ≠ .machine then illegal s
  else
    match Priv.ofEnc ((s.fieldRead Csr.mstatus Field.MPP).setWidth 2) with
    | none => .refuse .reservedPrivilege
    | some p => checkIsa (trapReturn Field.MIE Field.MPIE Field.MPP Csr.mepc p s)

/-- SRET (R351). -/
def sretBody (s : State) : MicroOut :=
  if s.priv = .user then illegal s
  else if s.priv = .supervisor ∧ s.fieldRead Csr.mstatus Field.TSR = 1 then illegal s
  else
    let p := if s.fieldRead Csr.mstatus Field.SPP = 1 then Priv.supervisor else Priv.user
    checkIsa (trapReturn Field.SIE Field.SPIE Field.SPP Csr.sepc p s)

/-- WFI (R354): a no-operation, illegal below MACHINE with TW = 1. -/
def wfiBody (s : State) : MicroOut :=
  if s.priv ≠ .machine ∧ s.fieldRead Csr.mstatus Field.TW = 1 then illegal s else .cont s

/-- SFENCE.VMA (R356): a no-operation after its privilege checks; its registers are not read. -/
def sfenceVmaBody (_rs1 _rs2 : Reg) (s : State) : MicroOut :=
  if s.priv = .user then illegal s
  else if s.priv = .supervisor ∧ s.fieldRead Csr.mstatus Field.TVM = 1 then illegal s
  else .cont s

/-- FENCE (R357): a no-operation; every field is ignored. -/
def fenceBody (_fm _pred _succ : BitVec 4) (_rs1 _rd : Reg) (s : State) : MicroOut := .cont s

/-- FENCE.I (R358): a no-operation; every field is ignored. -/
def fenceIBody (_imm : BitVec 12) (_rs1 _rd : Reg) (s : State) : MicroOut := .cont s

end Sys2Proof.Machine
end

