-- ==== Sys2Proof/Machine/Translate.lean ====
section
/-! DEFINITION. Address translation: `Translate`, the page-table walk and the resolution of a translation queue
(20_memory.md R110, R112 to R133). -/

namespace Sys2Proof.Machine

/-- What a translation gives. -/
inductive TransResult where
  | ok (pa : Word)
  | pageFault
  | abort (f : Fault)
  | refuse (r : Refusal)
  deriving DecidableEq, Repr

/-! ## Walk parameters (R116) -/

/-- LEVELS. -/
def MmuMode.levels : MmuMode → Nat
  | .sv32 => 2
  | .sv39 => 3
  | .sv48 => 4
  | .sv57 => 5
  | .bare | .invalid => 0

/-- VPNBITS per level. -/
def MmuMode.vpnBits : MmuMode → Nat
  | .sv32 => 10
  | .sv39 | .sv48 | .sv57 | .bare | .invalid => 9

/-- PTESIZE in bytes. -/
def MmuMode.pteSize : MmuMode → Nat
  | .sv32 => 4
  | .sv39 | .sv48 | .sv57 | .bare | .invalid => 8

/-- Bits of the PPN of a PTE (R117). -/
def MmuMode.ppnBits : MmuMode → Nat
  | .sv32 => 22
  | .sv39 | .sv48 | .sv57 | .bare | .invalid => 44

/-- Virtual address bits used. -/
def MmuMode.vaBits (m : MmuMode) : Nat := 12 + m.vpnBits * m.levels

/-- PALEN (00_scope.md section 5). -/
def MmuMode.palen (m : MmuMode) : Nat := 12 + m.ppnBits

/-- Whether a mode walks page tables. -/
def MmuMode.translating : MmuMode → Bool
  | .sv32 | .sv39 | .sv48 | .sv57 => true
  | .bare | .invalid => false

/-- The low `n` bits set. -/
def lowMask (n : Nat) : Word := (1 <<< n) - 1

/-- `VPN[i]` (R118). -/
def vpn (m : MmuMode) (i : Nat) (va : Word) : Word := (va >>> (12 + m.vpnBits * i)) &&& lowMask m.vpnBits

/-! ## Page-table entries (R117, R122 to R125) -/

def pteV (pte : Word) : Bool := pte.getLsbD 0
def pteR (pte : Word) : Bool := pte.getLsbD 1
def pteW (pte : Word) : Bool := pte.getLsbD 2
def pteX (pte : Word) : Bool := pte.getLsbD 3
def pteU (pte : Word) : Bool := pte.getLsbD 4
def pteA (pte : Word) : Bool := pte.getLsbD 6
def pteD (pte : Word) : Bool := pte.getLsbD 7

/-- The PPN field of a PTE. -/
def ptePpn (m : MmuMode) (pte : Word) : Word := (pte >>> 10) &&& lowMask m.ppnBits

/-- `Invalid(pte)` (R122). -/
def pteInvalid (pte : Word) : Bool := !pteV pte || (!pteR pte && pteW pte)

/-- `Leaf(pte)` (R123). -/
def pteLeaf (pte : Word) : Bool := pteR pte || pteX pte

/-- The access kind's page-fault code (R128). -/
def pageFaultCode : AccessKind → BitVec 6
  | .fetch => 12
  | .load => 13
  | .store => 15

/-- The cached mode of an access kind (R120). -/
def modeFor (kind : AccessKind) (s : State) : MmuMode :=
  match kind with
  | .fetch => s.fetchMode
  | .load | .store => s.lsMode

/-- The encoding of the effective privilege of an access (R113). -/
def effPrivEnc (kind : AccessKind) (s : State) : BitVec 2 :=
  match kind with
  | .fetch => s.priv.enc
  | .load | .store => lsPrivEnc s.cfg s.csrs s.priv

/-- `Permitted(kind, pte)` (R124); `WALK_STRICT.user` with MXR widens a load (R129). -/
def permitted (kind : AccessKind) (s : State) (pte : Word) : Bool :=
  match kind with
  | .store => pteW pte
  | .fetch => pteX pte
  | .load =>
    pteR pte || (s.cfg.walkStrict.user && pteX pte && s.fieldRead Csr.mstatus Field.MXR = 1)

/-- The `user` check of R129 on a leaf. -/
def userOk (kind : AccessKind) (s : State) (pte : Word) : Bool :=
  if effPrivEnc kind s = Priv.user.enc then pteU pte
  else if effPrivEnc kind s = Priv.supervisor.enc then
    !pteU pte || (kind ≠ .fetch && s.fieldRead Csr.mstatus Field.SUM = 1)
  else true

/-- Whether a leaf at level `i` has low PPN bits set (R125). -/
def misalignedLeaf (m : MmuMode) (i : Nat) (pte : Word) : Bool :=
  decide (0 < i) && decide (ptePpn m pte &&& lowMask (m.vpnBits * i) ≠ 0)

/-- The `reserved_pte_bits` check of R129 (log 34). -/
def reservedOk (m : MmuMode) (pte : Word) : Bool := m = .sv32 || pte.extractLsb' 54 10 = 0

/-- `StrictLeafChecks(kind, pte, i)` (R129): every enabled check holds. -/
def strictLeafOk (kind : AccessKind) (s : State) (m : MmuMode) (i : Nat) (pte : Word) : Bool :=
  (!s.cfg.walkStrict.user || userOk kind s pte)
    && (!s.cfg.walkStrict.ad || (pteA pte && (kind ≠ .store || pteD pte)))
    && (!s.cfg.walkStrict.superpageAlign || !misalignedLeaf m i pte)
    && (!s.cfg.walkStrict.reservedPteBits || reservedOk m pte)

/-- `StrictNonLeafChecks(pte)` (R129). -/
def strictNonLeafOk (s : State) (m : MmuMode) (pte : Word) : Bool :=
  (!s.cfg.walkStrict.nonleafFlags || (!pteD pte && !pteA pte && !pteU pte))
    && (!s.cfg.walkStrict.reservedPteBits || reservedOk m pte)

/-- `Canonical(va, mode)` (R129): every bit above the used ones equals the top used one. -/
def canonical (m : MmuMode) (va : Word) : Bool :=
  m = .sv32 || va.sshiftRight (m.vaBits - 1) = 0 || va.sshiftRight (m.vaBits - 1) = BitVec.allOnes 64

/-- `Compose(pte, va, i)` (R125). A misaligned superpage gives a free physical address of PALEN bits (log 9). -/
def composePA (m : MmuMode) (i : Nat) (pte va : Word) : Word :=
  if misalignedLeaf m i pte then Config.misalignedSuperpagePA m i pte va &&& lowMask m.palen
  else
    ((ptePpn m pte >>> (m.vpnBits * i)) <<< (12 + m.vpnBits * i)) ||| (va &&& lowMask (12 + m.vpnBits * i))

/-- The address of the PTE at level `i` (R121). -/
def pteAddr (m : MmuMode) (i : Nat) (ppn va : Word) : Word :=
  (ppn <<< 12) + vpn m i va * BitVec.ofNat 64 m.pteSize

/-- The loop of R121 with `n` levels left to read; no level left is the exhaustion of R127. -/
def walkFrom (kind : AccessKind) (s : State) (m : MmuMode) (va : Word) : Nat → Word → TransResult
  | 0, _ => .pageFault
  | i + 1, ppn =>
    match s.memRead (pteAddr m i ppn va) m.pteSize with
    | none => .abort .memoryReadFailure
    | some n =>
      let pte := BitVec.ofNat 64 n
      if pteInvalid pte then .pageFault
      else if pteLeaf pte then
        if permitted kind s pte && strictLeafOk kind s m i pte then .ok (composePA m i pte va)
        else .pageFault
      else if strictNonLeafOk s m pte then walkFrom kind s m va i (ptePpn m pte)
      else .pageFault

/-- `Walk(kind, va, mode)` (R121). -/
def walk (kind : AccessKind) (s : State) (m : MmuMode) (va : Word) : TransResult :=
  if s.cfg.walkStrict.canonicalVa && !canonical m va then .pageFault
  else walkFrom kind s m va m.levels (s.fieldRead Csr.satp (Field.satpPpn s.cfg.xlen))

/-- Whether an access would need the privilege encoding 2 (93_implementation_defined.md row U6; log 11). -/
def reservedEffPriv (kind : AccessKind) (s : State) : Bool := effPrivEnc kind s = 2

/-- `Translate(kind, vaddr)` (R120). -/
def translate (kind : AccessKind) (s : State) (va : Word) : TransResult :=
  match modeFor kind s with
  | .bare => .ok va
  | .invalid => if reservedEffPriv kind s then .refuse .reservedPrivilege else .abort .invalidMmuMode
  | .sv32 => if reservedEffPriv kind s then .refuse .reservedPrivilege else walk kind s .sv32 va
  | .sv39 => if reservedEffPriv kind s then .refuse .reservedPrivilege else walk kind s .sv39 va
  | .sv48 => if reservedEffPriv kind s then .refuse .reservedPrivilege else walk kind s .sv48 va
  | .sv57 => if reservedEffPriv kind s then .refuse .reservedPrivilege else walk kind s .sv57 va

/-- Whether the bytes of a request cross a 4 KiB boundary (R105 c). -/
def crossesPage (r : Request) : Bool := decide (4096 < r.vaddr.toNat % 4096 + r.size)

/-- One data or fetch request: one translation, of its first byte (R133). A data request that crosses a page under a
translating mode has no meaning (row U3, log 10); for a fetch DECODE decides it (42_pipeline_microops.md R265). -/
def resolveRequest (kind : AccessKind) (s : State) (r : Request) : TransResult :=
  if kind ≠ .fetch && (modeFor kind s).translating && crossesPage r then .refuse .pageCrossingAccess
  else translate kind s r.vaddr

/-- What resolving a list of requests gives. -/
inductive ResolveResult where
  | done (rs : List Resolved)
  | pageFault (va : Word)
  | abort (f : Fault)
  | refuse (r : Refusal)
  deriving DecidableEq, Repr

/-- Resolves requests in order, stopping at the first that fails (R110). -/
def resolveAll (kind : AccessKind) (s : State) : List Request → ResolveResult
  | [] => .done []
  | r :: rs =>
    match resolveRequest kind s r with
    | .ok pa =>
      match resolveAll kind s rs with
      | .done out => .done (⟨pa, r.size⟩ :: out)
      | .pageFault va => .pageFault va
      | .abort f => .abort f
      | .refuse e => .refuse e
    | .pageFault => .pageFault r.vaddr
    | .abort f => .abort f
    | .refuse e => .refuse e

end Sys2Proof.Machine
end

