-- ==== Sys2Proof/Machine/Pipeline.lean ====
section
/-! DEFINITION. The micro-op steps, the evaluation of chains and the scheduler's invocation (42_pipeline_microops.md,
40_microop_chain.md R200 to R208). -/

namespace Sys2Proof.Machine

/-! ## Fetch chain -/

/-- The value of `irq_req` this FETCH samples (60_exceptions.md R540; log 12). -/
def State.irqReq (s : State) : Option (BitVec 6) :=
  match s.irqInput with
  | [] => none
  | r :: _ => r

/-- The state FETCH leaves before it can raise: `next_priv_mode` set and the sample consumed. -/
def State.sampled (s : State) : State := { s with nextPriv := s.priv, irqInput := s.irqInput.tail }

/-- Whether `pc` is not a multiple of `ialign/8` (20_memory.md R105 a). -/
def State.pcMisaligned (s : State) : Bool := if s.align32 then s.pc &&& 3 ≠ 0 else s.pc &&& 1 ≠ 0

/-- FETCH (R262). -/
def fetchStep (s : State) : MicroOut :=
  match s.irqReq with
  | some c => raiseInterrupt c s.sampled
  | none =>
    if s.pcMisaligned then raiseFault 0 s.pc s.sampled
    else
      match s.fetchQueue.pushFetch ⟨s.pc, 4⟩ with
      | none => .abort .secondTranslationRequest
      | some q => .cont { s.sampled with fetchQueue := q }

/-- INST_TRANSLATE (R263). -/
def instTranslateStep (s : State) : MicroOut :=
  match resolveAll .fetch s s.fetchQueue.pending with
  | .done rs => .cont { s with fetchQueue := s.fetchQueue.resolved rs }
  | .pageFault va => raiseFault (pageFaultCode .fetch) va { s with fetchQueue := {} }
  | .abort f => .abort f
  | .refuse r => .refuse r

/-- What the decoder makes of instruction bits (30_encoding.md R150, R153, R156). -/
inductive Decoded where
  | known (i : Instr)
  | unimplemented (external : Nat) (dests : List DestReg)
  | illegal
  deriving DecidableEq, Repr

/-- The extension letters one of the twenty words needs. -/
def needsOf (c : Config) (i : Instr) : BitVec 26 :=
  match c.wordNeeds.find? (fun e => i.mnem = some e.1) with
  | some e => e.2
  | none => 0

/-- The one of the twenty instructions that some bits stand for, if its extension letters are enabled: a word itself, a
parcel by the configuration's expansion (30_encoding.md R152, R153). -/
def decodeKnown (c : Config) (inc : BitVec 26) (short : Bool) (bits : BitVec 32) : Option Instr :=
  if short then
    match c.parcels.find? (fun r => r.parcel = bits.setWidth 16 && enables inc r.needs) with
    | some r => decodeWord r.word
    | none => none
  else
    match decodeWord bits with
    | some i => if enables inc (needsOf c i) then some i else none
    | none => none

/-- `DECODER(bits, inclusions, XLEN)` (30_encoding.md R150): the twenty instructions, then the words whose handler is
unimplemented, else `illegal`. It has no other input; XLEN is the configuration's (log 15). -/
def decodeBits (c : Config) (inc : BitVec 26) (short : Bool) (bits : BitVec 32) : Decoded :=
  match decodeKnown c inc short bits with
  | some i => .known i
  | none =>
    match c.unimplemented.find? (fun r => r.short = short && bits &&& r.mask = r.pat && enables inc r.needs) with
    | some r => .unimplemented r.mnem (r.dests.map (·.reg bits))
    | none => .illegal

/-- Whether the word at `pc` is a 16-bit parcel (30_encoding.md R151). -/
def State.isShort (s : State) (w : BitVec 32) : Bool := hasC s.inclusions && w.extractLsb' 0 2 ≠ 3

/-- The slot filled by DECODE and the default `next_pc` (R264). -/
def loadInst (ci : CurrentInst) (s : State) : State :=
  { s with currentInst := some ci, nextPc := s.pcPlus (BitVec.ofNat 64 ci.len) }

/-- DECODE (R264, R265). -/
def decodeStep (s : State) : MicroOut :=
  match s.fetchQueue.pop with
  | none => .abort .emptyTranslationResult
  | some (r, q) =>
    match s.memRead r.paddr 4 with
    | none => .abort .memoryReadFailure
    | some n =>
      let w := BitVec.ofNat 32 n
      let short := s.isShort w
      let bits := if short then w &&& 0xFFFF else w
      let len := if short then 2 else 4
      let s := { s with fetchQueue := q }
      if !short && s.fetchMode ≠ .bare && s.pc &&& 0xFFF = 0xFFE then .refuse .pageCrossingAccess
      else
        match decodeBits s.cfg s.inclusions short bits with
        | .illegal => raiseFault 2 (zextTo bits) s
        | .known i => .redirect i.chain (loadInst { opcode := bits, len := len, instr := some i } s)
        | .unimplemented k ds =>
          .redirect (.inst (.external k))
            (loadInst { opcode := bits, len := len, instr := none, external := k, dests := ds } s)

/-! ## Instruction chain -/

/-- The compute-address body of an instruction (R270); only memory instructions have one. -/
def addressBody (i : Instr) (s : State) : MicroOut :=
  match i with
  | .lw _ rs1 imm => lwAddress rs1 imm s
  | .sw rs1 _ imm => swAddress rs1 imm s
  | _ => .refuse .noHandler

/-- COMPUTE_ADDRESS (R270). -/
def computeAddressStep (s : State) : MicroOut :=
  match s.currentInst with
  | none => .refuse .noCurrentInstruction
  | some ci =>
    match ci.instr with
    | none => .refuse .noHandler
    | some i => addressBody i s

/-- Resolves the data queue with an access kind (R272). -/
def translateData (kind : AccessKind) (ci : CurrentInst) (s : State) : MicroOut :=
  match resolveAll kind s ci.dataQueue.pending with
  | .done rs => .cont { s with currentInst := some { ci with dataQueue := ci.dataQueue.resolved rs } }
  | .pageFault va =>
    raiseFault (pageFaultCode kind) va { s with currentInst := some { ci with dataQueue := {} } }
  | .abort f => .abort f
  | .refuse r => .refuse r

/-- The memory kind of the slot. -/
def CurrentInst.memKind (ci : CurrentInst) : MemKind :=
  match ci.instr with
  | some i => i.memKind
  | none => .none

/-- DATA_TRANSLATE (R272). An instruction that is no memory instruction has no access kind; with no pending request
there is nothing to resolve. -/
def dataTranslateStep (s : State) : MicroOut :=
  match s.currentInst with
  | none => .refuse .noCurrentInstruction
  | some ci =>
    match ci.memKind with
    | .load => translateData .load ci s
    | .store => translateData .store ci s
    | .none => if ci.dataQueue.pending = [] then .cont s else .refuse .noHandler

/-- Leaves a destination register with the next free value (93_implementation_defined.md row U1; log 8). -/
def freeDest (d : DestReg) (s : State) : State :=
  let v := Config.unimplementedDest s.freeCtr
  let s := { s with freeCtr := s.freeCtr + 1 }
  match d.file with
  | .x => s.writeX d.index (BitVec.ofNat 64 v)
  | .f => s.writeF d.index v
  | .v => s.writeV d.index v

/-- The unimplemented handler (R286): the marker is set. What the destination registers hold afterwards, in whichever file,
is unresolved (93_implementation_defined.md row U1), so each becomes a free value (log 8). -/
def unimplementedBody (ci : CurrentInst) (s : State) : MicroOut :=
  .cont (ci.dests.foldl (fun s d => freeDest d s) { s with currentInst := some { ci with unimplemented := true } })

/-- The execute body of an instruction word. -/
def executeBody (i : Instr) (s : State) : MicroOut :=
  match i with
  | .csrrw rd rs1 csr => csrrwBody rd rs1 csr s
  | .csrrs rd rs1 csr => csrrsBody rd rs1 csr s
  | .csrrc rd rs1 csr => csrrcBody rd rs1 csr s
  | .csrrwi rd uimm csr => csrrwiBody rd uimm csr s
  | .csrrsi rd uimm csr => csrrsiBody rd uimm csr s
  | .csrrci rd uimm csr => csrrciBody rd uimm csr s
  | .ecall => ecallBody s
  | .ebreak => ebreakBody s
  | .mret => mretBody s
  | .sret => sretBody s
  | .wfi => wfiBody s
  | .sfenceVma rs1 rs2 => sfenceVmaBody rs1 rs2 s
  | .fence fm pred succ rs1 rd => fenceBody fm pred succ rs1 rd s
  | .fenceI imm rs1 rd => fenceIBody imm rs1 rd s
  | .lui rd imm => luiBody rd imm s
  | .addi rd rs1 imm => addiBody rd rs1 imm s
  | .lw rd _ _ => lwBody rd s
  | .sw _ rs2 _ => swBody rs2 s
  | .jal rd off => jalBody rd off s
  | .bne rs1 rs2 off => bneBody rs1 rs2 off s
  | .stepFetch | .stepInstTranslate | .stepDecode | .stepComputeAddress | .stepDataTranslate
  | .stepPreExecuteHook _ | .stepExecute | .stepPreExceptionHook _ | .stepException
  | .stepFinishUpdate | .stepPostExecuteHook _ | .stepStopNotify _
  | .opAppend _ _ _ | .opInsertBefore _ _ _ _ | .opInsertAfter _ _ _ _ | .opReplace _ _ _
  | .opSetNext _ _ | .opRead _ | .opWrite _ _ | .opPeek _ | .opPoke _ _ | .opFieldRead _ _ _
  | .opFieldWrite _ _ _ _ | .opBoot | .opCleanup | .opStep => .refuse .noHandler

/-- EXECUTE (R280). -/
def executeStep (s : State) : MicroOut :=
  match s.currentInst with
  | none => .refuse .noCurrentInstruction
  | some ci =>
    match ci.instr with
    | none => unimplementedBody ci s
    | some i => executeBody i s

/-! ## Exception, finish and stop chains -/

/-- EXCEPTION, the dispatcher (60_exceptions.md R520): exactly one cause must be valid. -/
def exceptionStep (s : State) : MicroOut :=
  if s.latch.faultValid = s.latch.interruptValid then .abort .notExactlyOneCause else checkIsa (takeTrap s)

/-- STOP_NOTIFY (R308): one notification per observer, and a last micro-op that sets `stopped`. Invoked alone for a number
no observer of the configuration has, it notifies that number (DESIGN CHOICE, log 30). An observer notified here sets no
`exit_code`: who sets it is not in the source, and the model leaves it to hook answers and the host (DESIGN CHOICE, log 13). -/
def stopNotifyStep (obs : Option Nat) (s : State) : MicroOut :=
  match obs with
  | some k => .cont (s.notify .shutdown k s.marker)
  | none => .cont { s with stopped := true }

/-- Invokes a micro-op (40_microop_chain.md R200). -/
def invoke (op : MicroOp) (s : State) : MicroOut :=
  match op with
  | .fetch => fetchStep s
  | .instTranslate => instTranslateStep s
  | .decode => decodeStep s
  | .computeAddress => computeAddressStep s
  | .dataTranslate => dataTranslateStep s
  | .preExecuteHook k => hookCall .preExecute k s.marker s
  | .execute => executeStep s
  | .preExceptionHook k => hookCall .preException k s.marker s
  | .exception => exceptionStep s
  | .finishUpdate => .cont (finishUpdate s)
  | .postExecuteHook k => hookCall .postExecute k s.lastUnimplemented s
  | .stopNotify k => stopNotifyStep k s

/-! ## Evaluation of chains (40_microop_chain.md R203) -/

/-- Runs the micro-ops of one chain in list order until one does not continue. The list is the chain as it stood when
it was entered: a chain is never edited while it is evaluated (R207). -/
def runOps : List Entry → State → MicroOut
  | [], s => .cont s
  | e :: es, s =>
    match invoke e.op s with
    | .cont s' => runOps es s'
    | .redirect c s' => .redirect c s'
    | .abort f => .abort f
    | .refuse r => .refuse r

/-- Where a chain leads when it has been run: the Run is over with an outcome, or another chain is entered. -/
inductive Hop where
  | halt (r : Host.Outcome State Fault Refusal)
  | enter (c : ChainId) (s : State)

/-- The chain's `next` after its last micro-op, the chain a micro-op redirects to, or the end (R201, R203, R204). -/
def hopOf (next : Option ChainId) (o : MicroOut) : Hop :=
  match o with
  | .cont s =>
    match next with
    | none => .halt (.next s)
    | some d => .enter d s
  | .redirect d s => .enter d s
  | .abort f => .halt (.fault f)
  | .refuse r => .halt (.refused r)

/-- Runs one chain, as it stands when it is entered. -/
def chainHop (c : ChainId) (s : State) : Hop := hopOf (s.chains.get c).next (runOps (s.chains.get c).ops s)

/-- `Run(c)` (R203) as the fixed point it is: its outcome, and `none` exactly if it enters chains without end. -/
def runOn (c : ChainId) (s : State) : Option (Host.Outcome State Fault Refusal) :=
  match chainHop c s with
  | .halt r => some r
  | .enter d t => runOn d t
partial_fixpoint

/-- `Run(c)` for at most `fuel` chains, by counting, so that it can be evaluated. -/
def runUpTo : Nat → ChainId → State → Option (Host.Outcome State Fault Refusal)
  | 0, _, _ => none
  | fuel + 1, c, s =>
    match chainHop c s with
    | .halt r => some r
    | .enter d t => runUpTo fuel d t

/-- `Run(c)` (R203), over however many chains it enters; counting first, then the fixed point (log 18). -/
def runChain (c : ChainId) (s : State) : Host.Outcome State Fault Refusal :=
  match runUpTo Config.runFuel c s with
  | some r => r
  | none =>
    match runOn c s with
    | some r => r
    | none => .fault .runDoesNotEnd

/-- The scheduler's invocation, the interface operation `step` (R260). While `stopped` nothing happens. A poke whose
derived state was not recomputed leaves the run without meaning (70_reset_and_hazards.md R623; log 19). -/
def schedulerStep (s : State) : Host.Outcome State Fault Refusal :=
  if s.stopped then .next s
  else if s.staleIsa || s.staleMmu then .refused .stalePoke
  else runChain .fetch s

/-- RUNNING A DECODED INSTRUCTION that stands in some bits: the slot filled as DECODE fills it, then the instruction's own
chain and wherever control leads until it halts (R261, R264). -/
def runLoaded (bits : BitVec 32) (len : Nat) (i : Instr) (s : State) : Host.Outcome State Fault Refusal :=
  runChain i.chain (loadInst { opcode := bits, len := len, instr := some i } s)

/-- The same for the instruction's own four-byte word. -/
def runInst (i : Instr) (s : State) : Host.Outcome State Fault Refusal := runLoaded (encodedWord i) 4 i s

/-- INVOKING ONE MICRO-OP ALONE: its state change, and the control-transfer signal it returns (R200; log 16). -/
def invokeAlone (op : MicroOp) (s : State) : Host.Outcome State Fault Refusal :=
  match invoke op s with
  | .cont s' => .next { s' with signal := .proceed }
  | .redirect c s' => .next { s' with signal := .redirect c }
  | .abort f => .fault f
  | .refuse r => .refused r

end Sys2Proof.Machine
end

