-- ==== Sys2Proof/Machine/Interface.lean ====
section
/-! DEFINITION. The interface operations (30_encoding.md R162): chain edits (40_microop_chain.md R210 to R215), register and
CSR access (41_register_access.md), boot, cleanup and step. A read answers in `reply` (log 16). -/

namespace Sys2Proof.Machine

/-! ## Shared shapes -/

/-- A chain edit that finds its tag, or the abort "tag not found" (D20). -/
def editChain (s : State) (c : ChainId) (e : Option Chain) : Host.Outcome State Fault Refusal :=
  match e with
  | some ch => .next { s with chains := s.chains.set c ch }
  | none => .fault .tagNotFound

/-- Answers a value to the host. -/
def answer (s : State) (v : Nat) : Host.Outcome State Fault Refusal := .next { s with reply := some v }

/-- Ends a host write to a CSR: `Rebuild` may abort (70_reset_and_hazards.md R610). -/
def endWrite (csr : CsrIdx) (s : State) : Host.Outcome State Fault Refusal :=
  if touchesIsa csr && !isaAccepted s.cfg s.inclusions then .fault .malformedIsaConfiguration else .next s

/-! ## Chain edits -/

/-- append (R210). -/
def execOpAppend (c : ChainId) (op : MicroOp) (tag : Option Tag) (s : State) : Host.Outcome State Fault Refusal :=
  editChain s c (some ((s.chains.get c).append ⟨op, tag⟩))

/-- insertBefore (R211). -/
def execOpInsertBefore (c : ChainId) (place : Tag) (op : MicroOp) (tag : Option Tag) (s : State) :
    Host.Outcome State Fault Refusal :=
  editChain s c ((s.chains.get c).insertBefore place ⟨op, tag⟩)

/-- insertAfter (R212). -/
def execOpInsertAfter (c : ChainId) (place : Tag) (op : MicroOp) (tag : Option Tag) (s : State) :
    Host.Outcome State Fault Refusal :=
  editChain s c ((s.chains.get c).insertAfter place ⟨op, tag⟩)

/-- replace (R213). -/
def execOpReplace (c : ChainId) (place : Tag) (op : MicroOp) (s : State) : Host.Outcome State Fault Refusal :=
  editChain s c ((s.chains.get c).replace place op)

/-- setNext (R214). -/
def execOpSetNext (c : ChainId) (d : Option ChainId) (s : State) : Host.Outcome State Fault Refusal :=
  editChain s c (some ((s.chains.get c).setNext d))

/-! ## Register access -/

/-- read (R230, R232, R234): a CSR outside `CSR_SET` is no operand (log 29). -/
def execOpRead (r : RegRef) (s : State) : Host.Outcome State Fault Refusal :=
  match r with
  | .x i => answer s (s.readX i).toNat
  | .f i => answer s (s.readF i)
  | .v i => answer s (s.readV i)
  | .csr i => if s.cfg.hasCsr i then answer s (s.csrRead i).toNat else .refused .noSuchCsr

/-- write (R231, R232, R235). -/
def execOpWrite (r : RegRef) (value : Nat) (s : State) : Host.Outcome State Fault Refusal :=
  match r with
  | .x i => .next (s.writeX i (BitVec.ofNat 64 value))
  | .f i => .next (s.writeF i value)
  | .v i => .next (s.writeV i value)
  | .csr i => if s.cfg.hasCsr i then endWrite i (s.csrWrite i (BitVec.ofNat 64 value)) else .refused .noSuchCsr

/-- peek (R231, R232, R236). -/
def execOpPeek (r : RegRef) (s : State) : Host.Outcome State Fault Refusal :=
  match r with
  | .x i => answer s (s.readX i).toNat
  | .f i => answer s (s.readF i)
  | .v i => answer s (s.readV i)
  | .csr i => if s.cfg.hasCsr i then answer s (s.csrPeek i).toNat else .refused .noSuchCsr

/-- poke (R231, R232, R237). -/
def execOpPoke (r : RegRef) (value : Nat) (s : State) : Host.Outcome State Fault Refusal :=
  match r with
  | .x i => .next (s.writeX i (BitVec.ofNat 64 value))
  | .f i => .next (s.writeF i value)
  | .v i => .next (s.writeV i value)
  | .csr i => if s.cfg.hasCsr i then .next (s.csrPoke i (BitVec.ofNat 64 value)) else .refused .noSuchCsr

/-- field_read (R238). A descriptor with `msb < lsb` is one bit at `lsb` (DESIGN CHOICE, log 29). -/
def execOpFieldRead (csr : CsrIdx) (lsb msb : Nat) (s : State) : Host.Outcome State Fault Refusal :=
  if s.cfg.hasCsr csr then answer s (s.fieldRead csr ⟨lsb, msb⟩).toNat else .refused .noSuchCsr

/-- field_write (R239). A descriptor with `msb < lsb` is one bit at `lsb` (DESIGN CHOICE, log 29). -/
def execOpFieldWrite (csr : CsrIdx) (lsb msb : Nat) (value : Nat) (s : State) : Host.Outcome State Fault Refusal :=
  if s.cfg.hasCsr csr then endWrite csr (s.fieldWrite csr ⟨lsb, msb⟩ (BitVec.ofNat 64 value))
  else .refused .noSuchCsr

/-! ## Lifecycle -/

/-- boot (70_reset_and_hazards.md R601), once (log 20). Its pokes leave the derived state to RecomputeDerived (R604). -/
def execOpBoot (s : State) : Host.Outcome State Fault Refusal :=
  if s.booted then .refused .secondBoot
  else
    .next { s with csrs := bootCsrs s.cfg s.csrs, booted := true, staleIsa := true,
                   staleMmu := s.staleMmu || s.cfg.xlen = .rv64 }

/-- cleanup (42_pipeline_microops.md R309): every observer is notified, nothing else changes. -/
def execOpCleanup (s : State) : Host.Outcome State Fault Refusal :=
  .next { s with notices := s.notices ++ (List.range s.cfg.observers).map (fun k => ⟨.cleanup, k, s.marker⟩) }

/-- step (42_pipeline_microops.md R260). -/
def execOpStep (s : State) : Host.Outcome State Fault Refusal := schedulerStep s

end Sys2Proof.Machine
end

