-- ==== Sys2Proof/Machine/Reference.lean ====
section
/-! DEFINITION. The six reference handlers (44_reference_handlers.md): each runs its own chain, whose step
bodies are in Machine/ReferenceBodies.lean. -/

namespace Sys2Proof.Machine

/-- LUI (R401). -/
def execLui (rd : Reg) (imm : BitVec 20) (s : State) : Host.Outcome State Fault Refusal :=
  runInst (.lui rd imm) s

/-- ADDI (R402). -/
def execAddi (rd rs1 : Reg) (imm : BitVec 12) (s : State) : Host.Outcome State Fault Refusal :=
  runInst (.addi rd rs1 imm) s

/-- LW (R403): compute-address, data-translate, execute. -/
def execLw (rd rs1 : Reg) (imm : BitVec 12) (s : State) : Host.Outcome State Fault Refusal :=
  runInst (.lw rd rs1 imm) s

/-- SW (R404): compute-address, data-translate, execute. -/
def execSw (rs1 rs2 : Reg) (imm : BitVec 12) (s : State) : Host.Outcome State Fault Refusal :=
  runInst (.sw rs1 rs2 imm) s

/-- JAL (R405). -/
def execJal (rd : Reg) (off : BitVec 21) (s : State) : Host.Outcome State Fault Refusal :=
  runInst (.jal rd off) s

/-- BNE (R406). -/
def execBne (rs1 rs2 : Reg) (off : BitVec 13) (s : State) : Host.Outcome State Fault Refusal :=
  runInst (.bne rs1 rs2 off) s

end Sys2Proof.Machine
end

