-- ==== Sys2Proof/Machine/Steps.lean ====
section
/-! DEFINITION. The micro-op steps (30_encoding.md R162, 42_pipeline_microops.md), each invoked alone. -/

namespace Sys2Proof.Machine

/-- FETCH, step code 0000 (R262). -/
def execStepFetch (s : State) : Host.Outcome State Fault Refusal :=
  invokeAlone .fetch s

/-- INST_TRANSLATE, step code 0001 (R263). -/
def execStepInstTranslate (s : State) : Host.Outcome State Fault Refusal :=
  invokeAlone .instTranslate s

/-- DECODE, step code 0010 (R264). -/
def execStepDecode (s : State) : Host.Outcome State Fault Refusal :=
  invokeAlone .decode s

/-- COMPUTE_ADDRESS, step code 0011 (R270). -/
def execStepComputeAddress (s : State) : Host.Outcome State Fault Refusal :=
  invokeAlone .computeAddress s

/-- DATA_TRANSLATE, step code 0100 (R272). -/
def execStepDataTranslate (s : State) : Host.Outcome State Fault Refusal :=
  invokeAlone .dataTranslate s

/-- PRE_EXECUTE_HOOK, step code 0101 (R300). -/
def execStepPreExecuteHook (obs : Nat) (s : State) : Host.Outcome State Fault Refusal :=
  invokeAlone (.preExecuteHook obs) s

/-- EXECUTE, step code 0110 (R280). -/
def execStepExecute (s : State) : Host.Outcome State Fault Refusal :=
  invokeAlone .execute s

/-- PRE_EXCEPTION_HOOK, step code 0111 (R302). -/
def execStepPreExceptionHook (obs : Nat) (s : State) : Host.Outcome State Fault Refusal :=
  invokeAlone (.preExceptionHook obs) s

/-- EXCEPTION, step code 1000 (60_exceptions.md R520). -/
def execStepException (s : State) : Host.Outcome State Fault Refusal :=
  invokeAlone .exception s

/-- FINISH_UPDATE, step code 1001 (R290). -/
def execStepFinishUpdate (s : State) : Host.Outcome State Fault Refusal :=
  invokeAlone .finishUpdate s

/-- POST_EXECUTE_HOOK, step code 1010 (R301). -/
def execStepPostExecuteHook (obs : Nat) (s : State) : Host.Outcome State Fault Refusal :=
  invokeAlone (.postExecuteHook obs) s

/-- STOP_NOTIFY, step code 1011 (R308). -/
def execStepStopNotify (obs : Option Nat) (s : State) : Host.Outcome State Fault Refusal :=
  invokeAlone (.stopNotify obs) s

end Sys2Proof.Machine
end

