-- ==== Sys2Proof/Machine/System.lean ====
section
/-! DEFINITION. The system instructions (43_system_instructions.md): each runs its own chain, whose EXECUTE
body is in Machine/SystemBodies.lean. -/

namespace Sys2Proof.Machine

/-- CSRRW, atomic read and write CSR (R342); its body is `csrrwBody`. -/
def execCsrrw (rd rs1 : Reg) (csr : CsrIdx) (s : State) : Host.Outcome State Fault Refusal :=
  runInst (.csrrw rd rs1 csr) s

/-- CSRRS, atomic read and set bits (R343). -/
def execCsrrs (rd rs1 : Reg) (csr : CsrIdx) (s : State) : Host.Outcome State Fault Refusal :=
  runInst (.csrrs rd rs1 csr) s

/-- CSRRC, atomic read and clear bits (R344). -/
def execCsrrc (rd rs1 : Reg) (csr : CsrIdx) (s : State) : Host.Outcome State Fault Refusal :=
  runInst (.csrrc rd rs1 csr) s

/-- CSRRWI (R345). -/
def execCsrrwi (rd : Reg) (uimm : BitVec 5) (csr : CsrIdx) (s : State) : Host.Outcome State Fault Refusal :=
  runInst (.csrrwi rd uimm csr) s

/-- CSRRSI (R346). -/
def execCsrrsi (rd : Reg) (uimm : BitVec 5) (csr : CsrIdx) (s : State) : Host.Outcome State Fault Refusal :=
  runInst (.csrrsi rd uimm csr) s

/-- CSRRCI (R347). -/
def execCsrrci (rd : Reg) (uimm : BitVec 5) (csr : CsrIdx) (s : State) : Host.Outcome State Fault Refusal :=
  runInst (.csrrci rd uimm csr) s

/-- ECALL (R348): always takes its trap. -/
def execEcall (s : State) : Host.Outcome State Fault Refusal :=
  runInst .ecall s

/-- EBREAK (R349): always takes its trap. -/
def execEbreak (s : State) : Host.Outcome State Fault Refusal :=
  runInst .ebreak s

/-- MRET (R350). -/
def execMret (s : State) : Host.Outcome State Fault Refusal :=
  runInst .mret s

/-- SRET (R351). -/
def execSret (s : State) : Host.Outcome State Fault Refusal :=
  runInst .sret s

/-- WFI (R354). -/
def execWfi (s : State) : Host.Outcome State Fault Refusal :=
  runInst .wfi s

/-- SFENCE.VMA (R356). -/
def execSfenceVma (rs1 rs2 : Reg) (s : State) : Host.Outcome State Fault Refusal :=
  runInst (.sfenceVma rs1 rs2) s

/-- FENCE (R357). -/
def execFence (fm pred succ : BitVec 4) (rs1 rd : Reg) (s : State) : Host.Outcome State Fault Refusal :=
  runInst (.fence fm pred succ rs1 rd) s

/-- FENCE.I (R358). -/
def execFenceI (imm : BitVec 12) (rs1 rd : Reg) (s : State) : Host.Outcome State Fault Refusal :=
  runInst (.fenceI imm rs1 rd) s

end Sys2Proof.Machine
end

