-- ==== Sys2Proof/Machine/Dispatch.lean ====
section
/-! DEFINITION. The meaning of every row of spec/opcode_table.json. -/

namespace Sys2Proof.Machine

def exec (i : Instr) (s : State) : Host.Outcome State Fault Refusal :=
  match i with
  | .csrrw rd rs1 csr => Sys2Proof.Machine.execCsrrw rd rs1 csr s
  | .csrrs rd rs1 csr => Sys2Proof.Machine.execCsrrs rd rs1 csr s
  | .csrrc rd rs1 csr => Sys2Proof.Machine.execCsrrc rd rs1 csr s
  | .csrrwi rd uimm csr => Sys2Proof.Machine.execCsrrwi rd uimm csr s
  | .csrrsi rd uimm csr => Sys2Proof.Machine.execCsrrsi rd uimm csr s
  | .csrrci rd uimm csr => Sys2Proof.Machine.execCsrrci rd uimm csr s
  | .ecall => Sys2Proof.Machine.execEcall s
  | .ebreak => Sys2Proof.Machine.execEbreak s
  | .mret => Sys2Proof.Machine.execMret s
  | .sret => Sys2Proof.Machine.execSret s
  | .wfi => Sys2Proof.Machine.execWfi s
  | .sfenceVma rs1 rs2 => Sys2Proof.Machine.execSfenceVma rs1 rs2 s
  | .fence fm pred succ rs1 rd => Sys2Proof.Machine.execFence fm pred succ rs1 rd s
  | .fenceI imm rs1 rd => Sys2Proof.Machine.execFenceI imm rs1 rd s
  | .lui rd imm => Sys2Proof.Machine.execLui rd imm s
  | .addi rd rs1 imm => Sys2Proof.Machine.execAddi rd rs1 imm s
  | .lw rd rs1 imm => Sys2Proof.Machine.execLw rd rs1 imm s
  | .sw rs1 rs2 imm => Sys2Proof.Machine.execSw rs1 rs2 imm s
  | .jal rd off => Sys2Proof.Machine.execJal rd off s
  | .bne rs1 rs2 off => Sys2Proof.Machine.execBne rs1 rs2 off s
  | .stepFetch => Sys2Proof.Machine.execStepFetch s
  | .stepInstTranslate => Sys2Proof.Machine.execStepInstTranslate s
  | .stepDecode => Sys2Proof.Machine.execStepDecode s
  | .stepComputeAddress => Sys2Proof.Machine.execStepComputeAddress s
  | .stepDataTranslate => Sys2Proof.Machine.execStepDataTranslate s
  | .stepPreExecuteHook obs => Sys2Proof.Machine.execStepPreExecuteHook obs s
  | .stepExecute => Sys2Proof.Machine.execStepExecute s
  | .stepPreExceptionHook obs => Sys2Proof.Machine.execStepPreExceptionHook obs s
  | .stepException => Sys2Proof.Machine.execStepException s
  | .stepFinishUpdate => Sys2Proof.Machine.execStepFinishUpdate s
  | .stepPostExecuteHook obs => Sys2Proof.Machine.execStepPostExecuteHook obs s
  | .stepStopNotify obs => Sys2Proof.Machine.execStepStopNotify obs s
  | .opAppend c op tag => Sys2Proof.Machine.execOpAppend c op tag s
  | .opInsertBefore c place op tag => Sys2Proof.Machine.execOpInsertBefore c place op tag s
  | .opInsertAfter c place op tag => Sys2Proof.Machine.execOpInsertAfter c place op tag s
  | .opReplace c place op => Sys2Proof.Machine.execOpReplace c place op s
  | .opSetNext c d => Sys2Proof.Machine.execOpSetNext c d s
  | .opRead r => Sys2Proof.Machine.execOpRead r s
  | .opWrite r value => Sys2Proof.Machine.execOpWrite r value s
  | .opPeek r => Sys2Proof.Machine.execOpPeek r s
  | .opPoke r value => Sys2Proof.Machine.execOpPoke r value s
  | .opFieldRead csr lsb msb => Sys2Proof.Machine.execOpFieldRead csr lsb msb s
  | .opFieldWrite csr lsb msb value => Sys2Proof.Machine.execOpFieldWrite csr lsb msb value s
  | .opBoot => Sys2Proof.Machine.execOpBoot s
  | .opCleanup => Sys2Proof.Machine.execOpCleanup s
  | .opStep => Sys2Proof.Machine.execOpStep s

end Sys2Proof.Machine
end

