-- ==== Sys2Proof/Machine/Port.lean ====
section
/-! DEFINITION. The host's calls (70_reset_and_hazards.md R612, R613) and where the fetch finds its word, for Step.lean to call. -/

namespace Sys2Proof.Machine

/-- A micro-op's outcome as a step's outcome, for calls that return to the host. -/
def toHost : MicroOut → Host.Outcome State Fault Refusal
  | .cont s => .next s
  | .redirect c s => .next { s with signal := .redirect c }
  | .abort f => .fault f
  | .refuse r => .refused r

/-- Serves one call of the host. An instruction word is no interface operation (log 16). -/
def servePort (c : PortCall) (s : State) : Host.Outcome State Fault Refusal :=
  match c with
  | .op i =>
    match i.kind with
    | .word => .refused .notAnInterfaceOperation
    | .microStep => exec i s
    | .interfaceOp => exec i s
  | .recomputeDerived => toHost (recomputeDerived s)
  | .runStop => runChain .stop s
  | .setExitCode v => .next { s with exitCode := s.cfg.xlen.trunc v }

/-- One step of the machine: the oldest waiting call, or else the scheduler's invocation (log 16). -/
def machineStep (s : State) : Host.Outcome State Fault Refusal :=
  match s.port with
  | [] => schedulerStep s
  | c :: cs => servePort c { s with port := cs }

/-- The physical address the next fetch reads: that of `pc`, or `pc` itself where it does not translate. -/
def fetchAddress (s : State) : Nat :=
  match translate .fetch s s.pc with
  | .ok pa => pa.toNat
  | .pageFault => s.pc.toNat
  | .abort _ => s.pc.toNat
  | .refuse _ => s.pc.toNat

/-- A state whose very next step runs the given row (log 27): an instruction word is stored where the fetch reads it,
with no interrupt, no stop and no waiting call in the way; a step or operation code becomes the waiting call, and for
boot the one-time call is still to come. -/
def placeForFetch (s : State) (nbits w : Nat) : State :=
  if 8 < nbits then
    { s with mem := s.mem.writeLE (fetchAddress s) 4 (w % 2 ^ nbits), irqInput := [], stopped := false, port := [] }
  else
    match decodeTableWord nbits w with
    | some i => { s with port := [.op i], booted := s.booted && i ≠ .opBoot }
    | none => s

end Sys2Proof.Machine
end

