-- ==== Sys2Proof/Machine/Step.lean ====
section
/-! DEFINITION. The step function and the placing of an instruction where the next step fetches it. -/

namespace Sys2Proof.Machine

/-- One step (00_scope.md R1, 42_pipeline_microops.md R260, R628). -/
def step (s : State) : Host.Outcome State Fault Refusal := machineStep s

/-- `s` with an instruction placed so that `step` runs exactly it. -/
def State.withFetchWord (s : State) (nbits w : Nat) : State := placeForFetch s nbits w

end Sys2Proof.Machine
end

