-- ==== Sys2Proof/Safety.lean ====
section
/-! DEFINITION. What claims are stated in: the states between two instructions, the states an instruction starts from, and the
effects every instruction shares (retiring, trapping, being observed). -/

namespace Sys2Proof

/-- The CSR a CSR instruction names. -/
def Instr.csr? : Instr → Option CsrIdx
  | .csrrw _ _ csr | .csrrs _ _ csr | .csrrc _ _ csr | .csrrwi _ _ csr | .csrrsi _ _ csr | .csrrci _ _ csr => some csr
  | _ => none

/-- Whether a CSR instruction counts as a write (43_system_instructions.md R342 to R347). -/
def Instr.willWrite : Instr → Bool
  | .csrrw _ _ _ | .csrrwi _ _ _ => true
  | .csrrs _ rs1 _ | .csrrc _ rs1 _ => rs1 ≠ 0
  | .csrrsi _ u _ | .csrrci _ u _ => u ≠ 0
  | _ => false

end Sys2Proof

namespace Sys2Proof.Machine

/-! ## Conditions on a state -/

/-- The chain graph is the one `AssembleChains()` builds (70_reset_and_hazards.md R605). -/
def State.Assembled (s : State) : Prop := s.chains = s.cfg.chains

/-- Every observer answers null from here on: it "continues" (40_microop_chain.md R208). -/
def State.Quiet (s : State) : Prop := ∀ r ∈ s.hookReplies, r.redirect = none

/-- The cached derived state is what the CSRs and the mode say (10_state.md R29, 20_memory.md R114). -/
structure State.Derived (s : State) : Prop where
  isa : s.inclusions = deriveInclusions s.cfg s.csrs
  fetch : s.fetchMode = deriveFetchMode s.cfg s.csrs s.priv
  data : s.lsMode = deriveLsMode s.cfg s.csrs s.priv
  notStaleIsa : s.staleIsa = false
  notStaleMmu : s.staleMmu = false

/-- A state between two instructions of a run the host does not interfere with: nothing is left over from the last
instruction, and the caches are up to date. -/
structure State.Idle (s : State) : Prop where
  assembled : s.Assembled
  quiet : s.Quiet
  noCall : s.port = []
  noInst : s.currentInst = none
  noRequest : s.fetchQueue = {}
  noCause : s.latch.pending = false
  derived : s.Derived

/-- A state in which an instruction's own chain may be entered: the chains are assembled, no observer redirects, no
cause is pending and FETCH has set `next_priv_mode` (42_pipeline_microops.md R262). -/
structure State.Ready (s : State) : Prop where
  assembled : s.Assembled
  quiet : s.Quiet
  noCause : s.latch.pending = false
  noReturn : s.nextPriv = s.priv

/-- The scheduler's next invocation reads the four bytes of `w` at `pc`: it runs, no interrupt is requested, `pc` is
aligned and translates to memory that is present. -/
structure State.Fetches (s : State) (w : BitVec 32) : Prop where
  running : s.stopped = false
  noInterrupt : s.irqReq = none
  aligned : s.pcMisaligned = false
  found : ∃ pa n, translate .fetch s.sampled s.pc = .ok pa ∧ s.memRead pa 4 = some n ∧ BitVec.ofNat 32 n = w
  onePage : s.isShort w = false → s.fetchMode = .bare ∨ s.pc &&& 0xFFF ≠ 0xFFE

/-- The write and read masks and the CSRs are the default ones (10_state.md R44 to R61; log 4). -/
def defaultMasks (c : Config) : Prop := c.csrSet = defaultCsrs c.xlen

/-- A value of XLEN bits. -/
def fitsXlen (x : XLen) (v : Word) : Prop := x.trunc v = v

/-- Every value that is XLEN bits wide fits XLEN bits (10_state.md R22 to R24, R30, R34, R36, R39). -/
structure State.Fits (s : State) : Prop where
  pc : fitsXlen s.cfg.xlen s.pc
  nextPc : fitsXlen s.cfg.xlen s.nextPc
  prevPc : fitsXlen s.cfg.xlen s.prevPc
  exitCode : fitsXlen s.cfg.xlen s.exitCode
  info : fitsXlen s.cfg.xlen s.latch.info
  xregs : ∀ i : Fin 32, fitsXlen s.cfg.xlen (s.xregs.get i)
  csrs : ∀ i, fitsXlen s.cfg.xlen (s.csrs.raw i)

/-! ## The CSR instructions -/

/-- A check of R341 fails for an access to `csr`: it does not exist, is mstatush with XLEN = 64, belongs to a higher mode,
is written in the read-only range, or is satp in SUPERVISOR mode with TVM = 1. -/
def csrCheckFails (s : State) (csr : CsrIdx) (willWrite : Bool) : Prop :=
  s.cfg.hasCsr csr = false ∨ s.cfg.xlen = .rv64 ∧ csr = 0x310 ∨ s.priv.enc < csr.extractLsb' 8 2
    ∨ willWrite = true ∧ csr.extractLsb' 10 2 = 0b11#2
    ∨ csr = 0x180 ∧ s.priv = .supervisor ∧ s.fieldRead Csr.mstatus Field.TVM = 1

/-! ## Frames -/

/-- Every byte of memory reads as before. -/
def State.SameMemory (s t : State) : Prop := ∀ a, t.mem.get a = s.mem.get a

/-- Every integer register but `rd` reads as before. -/
def State.SameXBut (rd : Reg) (s t : State) : Prop := ∀ r, r ≠ rd → t.readX r = s.readX r

/-- Every integer register reads as before. -/
def State.SameX (s t : State) : Prop := ∀ r, t.readX r = s.readX r

/-- The floating-point and vector files, the chains, `stopped`, the fetch queue and the configuration are as before. -/
structure State.SameFiles (s t : State) : Prop where
  fregs : t.fregs = s.fregs
  vregs : t.vregs = s.vregs
  chains : t.chains = s.chains
  stopped : t.stopped = s.stopped
  fetchQueue : t.fetchQueue = s.fetchQueue
  cfg : t.cfg = s.cfg

/-- The CSR file, the privilege mode, the derived state, the cause latch and `cosim_code` are as before. -/
structure State.SameSystem (s t : State) : Prop where
  csrs : t.csrs = s.csrs
  priv : t.priv = s.priv
  inclusions : t.inclusions = s.inclusions
  fetchMode : t.fetchMode = s.fetchMode
  lsMode : t.lsMode = s.lsMode
  latch : t.latch = s.latch
  cosimCode : t.cosimCode = s.cosimCode

/-! ## Effects every instruction shares -/

/-- The exit code after some replies of observers (10_state.md R30). -/
def exitAfter (x : XLen) (e : Word) (rs : List HookReply) : Word :=
  rs.foldl (fun e r => match r.exitCode with | some v => x.trunc v | none => e) e

/-- `n` observers notified in list order, each of whom answers null. -/
def State.observedN (k : HookKind) (m : Bool) (n : Nat) (s : State) : State :=
  { s with notices := s.notices ++ (List.range n).map (fun o => ⟨k, o, m⟩)
           hookReplies := s.hookReplies.drop n
           exitCode := exitAfter s.cfg.xlen s.exitCode (s.hookReplies.take n) }

/-- Every observer notified. -/
def State.observed (k : HookKind) (m : Bool) (s : State) : State := s.observedN k m s.cfg.observers

/-- An instruction retired from `s`, its effect on registers, CSRs, memory and mode already made: `prev_pc` is the old
`pc`, `pc` is `next`, `icount` counts one more, the slot is empty (42_pipeline_microops.md R290). -/
def State.advance (next : Word) (s : State) : State :=
  { s with pc := next, nextPc := next, prevPc := s.pc, icount := s.icount + 1, currentInst := none,
           lastUnimplemented := false }

/-- Completing without a trap from `s`, its effect already made: the pre-execute hooks, the advance, the post-execute
hooks. -/
def State.completes (next : Word) (s : State) : State :=
  ((s.observed .preExecute false).advance next).observed .postExecute false

/-- The latch holding a fault (60_exceptions.md R510). -/
def State.faulting (code : BitVec 6) (info : Word) (s : State) : State :=
  { s with latch := { s.latch with faultValid := true, code := code, info := info } }

/-- The latch holding an interrupt (60_exceptions.md R511). -/
def State.interrupted (code : BitVec 6) (s : State) : State :=
  { s with latch := { s.latch with interruptValid := true, code := code, info := 0 } }

/-- The trap for the cause in the latch taken, the new mode entered, the handler's address the new `pc`, then the
post-execute hooks (60_exceptions.md R520, 42_pipeline_microops.md R290, R296). -/
def State.trapped (s : State) : State :=
  ((takeTrap s).commitPriv.advance (takeTrap s).nextPc).observed .postExecute false

/-- A trap raised before the pre-execute hooks, the cause already in the latch. -/
def State.trapsEarly (s : State) : State := (s.observed .preException false).trapped

/-- A trap raised by EXECUTE, the cause already in the latch. -/
def State.trapsInExecute (s : State) : State :=
  ((s.observed .preExecute false).observed .preException false).trapped

end Sys2Proof.Machine
end

