-- ==== Sys2Proof/Certificates/Slice0/Obligations.lean ====
section
/-! DEFINITION. The statements for the provers, one per numbered rule or group of rules of spec/ and one per law of the whole
machine. Each is a Prop; nothing is proved here. -/

open Sys2Proof Sys2Proof.Machine

/-! ## Encoding (30_encoding.md) -/

/-- Decoding the code of a well-formed instruction, with its operands beside it, gives the instruction back: all 46
rows, every operand at every value. -/
def Obligations.DecodeOfEncode : Prop :=
  ∀ i : Instr, i.wellFormed = true → decode (encode i) (callArgs i) = some i

/-- R159: a 32-bit word is one of the twenty instruction words exactly if it matches a row of the table. -/
def Obligations.DecodedWordsAreTheTableRows : Prop :=
  ∀ w : BitVec 32, (decodeWord w).isSome = true ↔ ∃ r ∈ opcodeRows, w &&& r.2 = r.1

/-- Words the spec writes out decode to the instructions it says they are. -/
def Obligations.SpecWordsDecode : Prop :=
  decodeWord 0x30029373 = some (.csrrw 6 5 Csr.mstatus) ∧ decodeWord 0x30226073 = some (.csrrsi 0 4 Csr.medeleg)
    ∧ decodeWord 0x30200073 = some .mret ∧ decodeWord 0x800002B7 = some (.lui 5 0x80000)
    ∧ decodeWord 0x00128313 = some (.addi 6 5 1) ∧ decodeWord 0x0003A303 = some (.lw 6 7 0)
    ∧ decodeWord 0x0063A223 = some (.sw 7 6 4) ∧ decodeWord 0x008000EF = some (.jal 1 8)
    ∧ decodeWord 0x12000073 = some (.sfenceVma 0 0) ∧ decodeStepCode 0b0010#4 {} = some .stepDecode
    ∧ decodeOpCode 0b1011#4 {} = some .opBoot

/-! ## The step (42_pipeline_microops.md section 1) -/

/-- A step runs the decoded instruction: from a state between two instructions, when the four bytes at `pc` are the word of
an instruction `i` whose extension is enabled, `step` is `exec i` after FETCH has sampled the inputs and set
`next_priv_mode`; when they begin with a parcel that the configured decoder expands to `i`, it is the run of `i` with the
parcel as opcode bits and length 2 (log 15). -/
def Obligations.StepRunsTheDecodedInstruction : Prop :=
  ∀ (s : State) (w : BitVec 32) (i : Instr), s.Idle → s.Fetches w →
    (decodeWord w = some i → enables s.inclusions (needsOf s.cfg i) = true → step s = exec i s.sampled)
    ∧ (s.isShort w = true → decodeBits s.cfg s.inclusions true (w &&& 0xFFFF) = .known i →
        step s = runLoaded (w &&& 0xFFFF) 2 i s.sampled)

/-- A waiting call of the host is served before the scheduler's invocation: a micro-op step or an interface operation
is `exec` of it (the model's own convention, log 16). -/
def Obligations.StepServesTheOldestCall : Prop :=
  ∀ (s : State) (i : Instr) (cs : List PortCall), s.port = .op i :: cs → i.kind ≠ .word →
    step s = exec i { s with port := cs }

/-- R260: while `stopped` is 1 the scheduler's invocation changes nothing. -/
def Obligations.StoppedStepChangesNothing : Prop :=
  ∀ s : State, s.stopped = true → s.port = [] → step s = .next s ∧ exec .opStep s = .next s

/-- The interface operation `step` processes one retirement slot: `exec .opStep` is `exec i` of the instruction `i` whose
word is at `pc`, after FETCH. For an ADDI that is the state in which it has retired at `pc + 4`, and at `pc + 2` where a
parcel stands for it (log 15). -/
def Obligations.OpStepRunsOneSlot : Prop :=
  ∀ (s : State) (w : BitVec 32), s.Idle → s.Fetches w →
    (∀ i, decodeWord w = some i → enables s.inclusions (needsOf s.cfg i) = true → exec .opStep s = exec i s.sampled)
    ∧ ∀ (rd rs1 : Reg) (imm : BitVec 12),
      let t := s.sampled.writeX rd (s.readX rs1 + sextTo s.cfg.xlen imm)
      (w = encodeI imm rs1 0b000#3 rd 0b0010011#7 → enables s.inclusions (needsOf s.cfg (.addi rd rs1 imm)) = true →
        exec .opStep s = .next (t.completes (s.pcPlus 4)))
      ∧ (s.isShort w = true → decodeBits s.cfg s.inclusions true (w &&& 0xFFFF) = .known (.addi rd rs1 imm) →
        exec .opStep s = .next (t.completes (s.pcPlus 2)))

/-! ## Laws of the whole machine -/

/-- From a state between two instructions, with no host interference, a step leads to a state between two
instructions: the slot and the fetch queue are empty, no cause is pending, and the extension set and the two MMU modes
are what the CSRs and the mode say (10_state.md R29, R32, R38, R39; 70_reset_and_hazards.md R625). -/
def Obligations.StepKeepsIdle : Prop :=
  ∀ s t : State, s.Idle → step s = .next t → t.Idle

/-- The state after reset (with the values the model chose where the spec leaves them open, logs 2, 3, 4, 5) is between two
instructions, its memory is canonical and its values fit XLEN bits. -/
def Obligations.ResetIsIdle : Prop :=
  State.reset.Idle ∧ State.reset.mem.wf ∧ State.reset.Fits

/-- Every step of every state, host calls included, keeps the memory in canonical form (the model's own representation of
the memory, listed against the byte it chose for unwritten addresses, log 5). -/
def Obligations.StepKeepsMemoryCanonical : Prop :=
  ∀ s t : State, s.mem.wf → step s = .next t → t.mem.wf

/-- No step of any state changes the configuration, XLEN among it: that every parameter is fixed data is the model's reading
(log 1). -/
def Obligations.StepKeepsConfiguration : Prop :=
  ∀ s t : State, step s = .next t → t.cfg = s.cfg

/-- Every step of a running hart retires one slot: one more is counted (R27), `prev_pc` is the address it began at, and the
slot is empty; an instruction that traps and a taken interrupt count alike. -/
def Obligations.StepRetiresOneSlot : Prop :=
  ∀ s t : State, s.Idle → s.stopped = false → step s = .next t →
    t.icount = s.icount + 1 ∧ t.prevPc = s.pc ∧ t.currentInst = none ∧ t.stopped = false

/-- Every step keeps the values of the registers that are XLEN bits wide within XLEN bits (the model stores them in 64 bits,
log 23). -/
def Obligations.StepKeepsWidths : Prop :=
  ∀ s t : State, s.Idle → s.Fits → step s = .next t → t.Fits

/-- R235, the guarantee: no invocation of the scheduler, from any state and over any chains, alters a bit of any CSR
outside its write mask. -/
def Obligations.ReadOnlyBitsNeverChange : Prop :=
  ∀ (s t : State) (i : CsrIdx), s.port = [] → step s = .next t →
    t.csrs.raw i &&& ~~~s.cfg.wmask i = s.csrs.raw i &&& ~~~s.cfg.wmask i

/-- A step that begins and ends in USER mode changes no CSR whose address belongs to a higher mode. -/
def Obligations.UserModeKeepsPrivilegedCsrs : Prop :=
  ∀ (s t : State) (i : CsrIdx), s.Idle → s.priv = .user → step s = .next t → t.priv = .user →
    i.extractLsb' 8 2 ≠ 0 → t.csrs.raw i = s.csrs.raw i

/-- USER mode is left only through a trap: to the address in the trap-vector register of the mode entered. -/
def Obligations.UserModeIsLeftThroughTheVector : Prop :=
  ∀ s t : State, s.Idle → s.priv = .user → step s = .next t → t.priv ≠ .user →
    (t.priv = .supervisor ∧ t.pc = s.csrRead Csr.stvec &&& ~~~1)
      ∨ (t.priv = .machine ∧ t.pc = s.csrRead Csr.mtvec &&& ~~~1)

/-! ## Reset (10_state.md R70, 70_reset_and_hazards.md) -/

/-- What the reset sequence leaves outside the CSR file, for every configuration. -/
def Obligations.ResetValues : Prop :=
  ∀ c : Config, let s := State.initial c
    s.pc = c.xlen.trunc c.resetPc ∧ s.priv = .machine ∧ s.nextPriv = .machine ∧ s.icount = 0 ∧ s.stopped = false
      ∧ s.currentInst = none ∧ s.fetchQueue = {} ∧ s.latch.faultValid = false ∧ s.latch.interruptValid = false
      ∧ s.cosimCode = 0x00 ∧ s.readX 0 = 0 ∧ s.chains = assembleChains c.observers c.externalMnems
      ∧ s.inclusions = deriveInclusions c s.csrs ∧ s.fetchMode = .bare

/-- What it leaves in the CSR file with the default CSRs, `CSR_DEFAULT` = 0 and an empty `CSR_INIT`. -/
def Obligations.ResetCsrValues : Prop :=
  ∀ c : Config, defaultMasks c → c.csrInit = [] → let s := State.initial c
    s.csrs.raw Csr.mhartid = c.xlen.trunc c.hartId
      ∧ s.csrs.raw Csr.misa
          = (match c.xlen with | .rv32 => 0x40000000 | .rv64 => 0x8000000000000000) ||| c.isaBits.setWidth 64
      ∧ s.csrs.raw Csr.mstatus = (match c.xlen with | .rv32 => 0 | .rv64 => 0x0000000A00000000)
      ∧ (∀ i, i ≠ Csr.mhartid → i ≠ Csr.misa → i ≠ Csr.mstatus → s.csrs.raw i = 0)
      ∧ s.lsMode = .bare

/-- R601: `boot()` pokes the hart ID, the ISA bits and, for XLEN = 64, UXL = SXL = 2, and no other CSR. -/
def Obligations.BootPokes : Prop :=
  ∀ s : State, s.booted = false → ∃ t, exec .opBoot s = .next t
    ∧ t.csrs.raw Csr.mhartid = s.cfg.xlen.trunc s.cfg.hartId
    ∧ t.csrs.raw Csr.misa
        = (match s.cfg.xlen with | .rv32 => 0x40000000 | .rv64 => 0x8000000000000000) ||| s.cfg.isaBits.setWidth 64
    ∧ t.csrs.raw Csr.mstatus = (match s.cfg.xlen with
        | .rv32 => s.csrs.raw Csr.mstatus
        | .rv64 => (s.csrs.raw Csr.mstatus &&& ~~~0x0000000F00000000) ||| 0x0000000A00000000)
    ∧ (∀ i, i ≠ Csr.mhartid → i ≠ Csr.misa → i ≠ Csr.mstatus → t.csrs.raw i = s.csrs.raw i)
    ∧ t = { s with csrs := t.csrs, booted := true, staleIsa := t.staleIsa, staleMmu := t.staleMmu }

/-! ## Register and CSR access (41_register_access.md) -/

/-- R230, R231, R232: reading and peeking a register of the integer, floating-point and vector files. -/
def Obligations.OpReadsRegisterFiles : Prop :=
  ∀ (s : State) (i : Reg) (op : RegRef → Instr), op = .opRead ∨ op = .opPeek →
    exec (op (.x i)) s
        = .next { s with reply := some (if i = 0 then 0 else (s.cfg.xlen.trunc (s.xregs.get i.toFin)).toNat) }
      ∧ exec (op (.f i)) s = .next { s with reply := some (s.fregs.get i.toFin) }
      ∧ exec (op (.v i)) s = .next { s with reply := some (s.vregs.get i.toFin) }

/-- R231, R232: writing and poking a register: the register reads as written (x0 as 0), every other as before. -/
def Obligations.OpWritesRegisterFiles : Prop :=
  ∀ (s : State) (i : Reg) (n : Nat) (op : RegRef → Nat → Instr), op = .opWrite ∨ op = .opPoke →
    (∃ t, exec (op (.x i) n) s = .next t ∧ t = { s with xregs := t.xregs }
        ∧ ∀ j, t.readX j = if j = i ∧ i ≠ 0 then s.cfg.xlen.trunc (BitVec.ofNat 64 n) else s.readX j)
      ∧ (∃ t, exec (op (.f i) n) s = .next t ∧ t = { s with fregs := t.fregs }
        ∧ ∀ j, t.readF j = if j = i then n % 2 ^ s.cfg.flen else s.readF j)
      ∧ (∃ t, exec (op (.v i) n) s = .next t ∧ t = { s with vregs := t.vregs }
        ∧ ∀ j, t.readV j = if j = i then n % 2 ^ s.cfg.vlen else s.readV j)

/-- R235, R240: `csr_write`: the masked store, the derived state the CSR has an influence on, and nothing else; through
the windows sie and sip (R60, read as log 22 says) the bits of the mask 0x222 of mie and mip, and nothing else. That chains
the host has edited at a translate tag stay too is the model's choice (log 17). -/
def Obligations.OpWritesCsr : Prop :=
  ∀ (s : State) (i : CsrIdx) (n : Nat), s.cfg.hasCsr i = true →
    (window s.cfg.xlen i = none →
      (touchesIsa i = true → isaAccepted s.cfg (s.csrWrite i (BitVec.ofNat 64 n)).inclusions = true) →
      ∃ t, exec (.opWrite (.csr i) n) s = .next t
        ∧ t.csrs.raw i = (s.csrs.raw i &&& ~~~s.cfg.wmask i)
            ||| (s.cfg.xlen.trunc (BitVec.ofNat 64 n) &&& s.cfg.wmask i)
        ∧ (∀ j, j ≠ i → t.csrs.raw j = s.csrs.raw j)
        ∧ t.inclusions = (if i = Csr.misa ∨ i = Csr.mstatus then deriveInclusions s.cfg t.csrs else s.inclusions)
        ∧ t.fetchMode = (if i = Csr.satp ∨ i = Csr.mstatus then deriveFetchMode s.cfg t.csrs s.priv else s.fetchMode)
        ∧ t.lsMode = (if i = Csr.satp ∨ i = Csr.mstatus then deriveLsMode s.cfg t.csrs s.priv else s.lsMode)
        ∧ t = { s with csrs := t.csrs, inclusions := t.inclusions, fetchMode := t.fetchMode, lsMode := t.lsMode,
                       staleIsa := t.staleIsa, staleMmu := t.staleMmu })
    ∧ ∀ home : CsrIdx, (i = 0x104 ∧ home = 0x304 ∨ i = 0x144 ∧ home = 0x344) →
      ∃ t, exec (.opWrite (.csr i) n) s = .next t
        ∧ t.csrs.raw home = (s.csrs.raw home &&& ~~~(s.cfg.wmask home &&& 0x222))
            ||| (BitVec.ofNat 64 n &&& (s.cfg.wmask home &&& 0x222))
        ∧ (∀ j, j ≠ home → t.csrs.raw j = s.csrs.raw j)
        ∧ t = { s with csrs := t.csrs }

/-- R46: `sstatus` is a window onto mstatus: a read shows mstatus through the mask, a write changes only the window's
bits, there is no storage of its own, and the side effects of a write of mstatus apply: the extension set and both MMU modes
are derived anew. That chains the host has edited at a translate tag stay is the model's choice (log 17). -/
def Obligations.SstatusIsAWindow : Prop :=
  ∀ (s : State) (n : Nat), defaultMasks s.cfg →
    isaAccepted s.cfg (s.csrWrite Csr.sstatus (BitVec.ofNat 64 n)).inclusions = true →
    exec (.opRead (.csr Csr.sstatus)) s
        = .next { s with reply := some (s.csrRead Csr.mstatus
            &&& match s.cfg.xlen with | .rv32 => 0x800DE762 | .rv64 => 0x80000003000DE762).toNat }
      ∧ ∃ t, exec (.opWrite (.csr Csr.sstatus) n) s = .next t
          ∧ t.csrs.raw Csr.mstatus
              = (s.csrs.raw Csr.mstatus &&& ~~~0x000C6722) ||| (BitVec.ofNat 64 n &&& 0x000C6722)
          ∧ (∀ j, j ≠ Csr.mstatus → t.csrs.raw j = s.csrs.raw j)
          ∧ t.inclusions = deriveInclusions s.cfg t.csrs
          ∧ t.fetchMode = deriveFetchMode s.cfg t.csrs s.priv ∧ t.lsMode = deriveLsMode s.cfg t.csrs s.priv
          ∧ t = { s with csrs := t.csrs, inclusions := t.inclusions, fetchMode := t.fetchMode, lsMode := t.lsMode,
                         staleIsa := t.staleIsa, staleMmu := t.staleMmu }

/-- R234, R236, R237: `csr_read` is the raw value through the read mask, an exception PC without bit 1 when `ialign` is
32; of the windows sie and sip it is the read value of mie and mip under 0x222 (R60, read as log 22 says); `csr_peek` is the
raw value, of a window its target's through the window's read mask; `csr_poke` stores without mask and side effect, through a
window only the window's bits (as R602 says of `InitCsr`; for the operation itself that is the model's choice, log 21). -/
def Obligations.OpReadsPeeksAndPokesCsr : Prop :=
  ∀ (s : State) (i : CsrIdx) (n : Nat), s.cfg.hasCsr i = true →
    (window s.cfg.xlen i = none →
      let v := s.csrs.raw i &&& s.cfg.rmask i
      let r := if s.ialign = 32 ∧ (i = Csr.mepc ∨ i = Csr.sepc) then v &&& ~~~2 else v
      exec (.opRead (.csr i)) s = .next { s with reply := some r.toNat })
    ∧ (∀ home : CsrIdx, (i = 0x104 ∧ home = 0x304 ∨ i = 0x144 ∧ home = 0x344) →
      exec (.opRead (.csr i)) s
        = .next { s with reply := some (s.csrs.raw home &&& s.cfg.rmask home &&& 0x222).toNat })
    ∧ (let v := match window s.cfg.xlen i with
        | none => s.csrs.raw i
        | some w => s.csrs.raw w.target &&& w.rmask
      exec (.opPeek (.csr i)) s = .next { s with reply := some v.toNat })
    ∧ ∃ t, exec (.opPoke (.csr i) n) s = .next t
      ∧ t.csrs.raw (csrHome i) = (match window s.cfg.xlen i with
          | none => s.cfg.xlen.trunc (BitVec.ofNat 64 n)
          | some w => (s.csrs.raw w.target &&& ~~~w.rmask) ||| (s.cfg.xlen.trunc (BitVec.ofNat 64 n) &&& w.rmask))
      ∧ (∀ j, j ≠ csrHome i → t.csrs.raw j = s.csrs.raw j)
      ∧ t = { s with csrs := t.csrs, staleIsa := t.staleIsa, staleMmu := t.staleMmu }

/-- R238, R239: a field is read by shift and mask of the read value and written by a masked write of the raw value with
the field replaced; for a window the raw value is the peeked one, which is the model's choice (log 21), as is that the write
leaves chains the host has edited at a translate tag (log 17). -/
def Obligations.OpReadsAndWritesFields : Prop :=
  ∀ (s : State) (i : CsrIdx) (lsb msb n : Nat), s.cfg.hasCsr i = true → fieldWellFormed lsb msb = true →
    let ones : Word := ((1 : Word) <<< (msb - lsb + 1)) - 1
    let new : Word := (s.csrPeek i &&& ~~~(ones <<< lsb)) ||| ((BitVec.ofNat 64 n <<< lsb) &&& (ones <<< lsb))
    exec (.opFieldRead i lsb msb) s = .next { s with reply := some ((s.csrRead i >>> lsb) &&& ones).toNat }
      ∧ ((touchesIsa i = true → isaAccepted s.cfg (s.csrWrite i new).inclusions = true) →
          exec (.opFieldWrite i lsb msb n) s = .next (s.csrWrite i new))

/-! ## Chains (40_microop_chain.md section 2) -/

/-- R210, R214: appending a micro-op and setting the link change that chain and nothing else. And what a Run makes of a
chain (R203, R204): its micro-ops, then the chain its link names, the chain a micro-op redirects to, or the end; over
however many chains (log 18). -/
def Obligations.OpAppendsAndLinks : Prop :=
  ∀ (s : State) (c : ChainId) (op : MicroOp) (tag : Option Tag) (d : Option ChainId),
    (∃ t, exec (.opAppend c op tag) s = .next t
        ∧ t.chains.get c = ⟨(s.chains.get c).ops ++ [⟨op, tag⟩], (s.chains.get c).next⟩
        ∧ (∀ e, e ≠ c → t.chains.get e = s.chains.get e) ∧ t = { s with chains := t.chains })
      ∧ (∃ t, exec (.opSetNext c d) s = .next t ∧ t.chains.get c = ⟨(s.chains.get c).ops, d⟩
        ∧ (∀ e, e ≠ c → t.chains.get e = s.chains.get e) ∧ t = { s with chains := t.chains })
      ∧ runChain c s = match runOps (s.chains.get c).ops s with
        | .cont u => (match (s.chains.get c).next with | none => .next u | some e => runChain e u)
        | .redirect e u => runChain e u
        | .abort f => .fault f
        | .refuse r => .refused r

/-- R211, R212, R213, R215: an edit relative to a tag acts at the first position that carries it, on that chain alone,
and aborts where no position does. -/
def Obligations.OpEditsAtTheFirstTag : Prop :=
  ∀ (s : State) (c : ChainId) (place : Tag) (op : MicroOp) (tag : Option Tag),
    (∀ (pre post : List Entry) (x : Entry), (s.chains.get c).ops = pre ++ x :: post → x.tag = some place →
      (∀ e ∈ pre, e.tag ≠ some place) →
      (∃ t, exec (.opInsertBefore c place op tag) s = .next t
          ∧ t.chains.get c = ⟨pre ++ ⟨op, tag⟩ :: x :: post, (s.chains.get c).next⟩
          ∧ (∀ e, e ≠ c → t.chains.get e = s.chains.get e) ∧ t = { s with chains := t.chains })
        ∧ (∃ t, exec (.opInsertAfter c place op tag) s = .next t
          ∧ t.chains.get c = ⟨pre ++ x :: ⟨op, tag⟩ :: post, (s.chains.get c).next⟩
          ∧ (∀ e, e ≠ c → t.chains.get e = s.chains.get e) ∧ t = { s with chains := t.chains })
        ∧ (∃ t, exec (.opReplace c place op) s = .next t
          ∧ t.chains.get c = ⟨pre ++ ⟨op, some place⟩ :: post, (s.chains.get c).next⟩
          ∧ (∀ e, e ≠ c → t.chains.get e = s.chains.get e) ∧ t = { s with chains := t.chains }))
    ∧ ((∀ e ∈ (s.chains.get c).ops, e.tag ≠ some place) →
      exec (.opInsertBefore c place op tag) s = .fault .tagNotFound
        ∧ exec (.opInsertAfter c place op tag) s = .fault .tagNotFound
        ∧ exec (.opReplace c place op) s = .fault .tagNotFound)

/-! ## The micro-op steps, each invoked alone -/

/-- R262: FETCH sets `next_priv_mode`; it raises a requested interrupt first, then a misaligned `pc`, and otherwise
pushes one request of 4 bytes at `pc`, which on a non-empty queue is a host error (with a result alone: log 28). -/
def Obligations.FetchStep : Prop :=
  ∀ s : State, s.latch.pending = false →
    (s.fetchQueue = {} → exec .stepFetch s = .next
      (match s.irqReq with
      | some c => { s.sampled.interrupted c with signal := .redirect .exception }
      | none =>
        if s.pc.toNat % (s.ialign / 8) ≠ 0 then
          { s.sampled.faulting 0 s.pc with signal := .redirect .exception }
        else { s.sampled with fetchQueue := { pending := [⟨s.pc, 4⟩] }, signal := .proceed }))
    ∧ (s.fetchQueue ≠ {} → s.irqReq = none → s.pc.toNat % (s.ialign / 8) = 0 →
      exec .stepFetch s = .fault .secondTranslationRequest)

/-- R110, R263, R272: a translate step resolves the one pending request with its access kind and keeps the size, or
raises the page fault of that kind with the request's address and discards the queue. Results waiting there come first. -/
def Obligations.TranslateSteps : Prop :=
  ∀ (s : State) (r : Request), s.latch.pending = false →
    (s.fetchQueue.pending = [r] →
      (∀ pa, translate .fetch s r.vaddr = .ok pa →
        exec .stepInstTranslate s
          = .next { s with fetchQueue := { results := s.fetchQueue.results ++ [⟨pa, r.size⟩] }, signal := .proceed })
      ∧ (translate .fetch s r.vaddr = .pageFault →
        exec .stepInstTranslate s
          = .next { ({ s with fetchQueue := {} } : State).faulting 12 r.vaddr with signal := .redirect .exception }))
    ∧ ∀ (ci : CurrentInst) (kind : AccessKind), s.currentInst = some ci → ci.dataQueue.pending = [r] →
        (ci.memKind = .load ∧ kind = .load ∨ ci.memKind = .store ∧ kind = .store) →
        (s.lsMode.translating = true → crossesPage r = false) →
      (∀ pa, translate kind s r.vaddr = .ok pa →
        exec .stepDataTranslate s
          = .next { s with currentInst := some { ci with dataQueue := { results := ci.dataQueue.results ++ [⟨pa, r.size⟩] } }
                           signal := .proceed })
      ∧ (translate kind s r.vaddr = .pageFault →
        exec .stepDataTranslate s
          = .next { ({ s with currentInst := some { ci with dataQueue := {} } } : State).faulting
                      (if kind = .load then 13 else 15) r.vaddr with signal := .redirect .exception })

/-- R264: DECODE pops the result, reads 4 bytes, takes 16 bits of them where C is enabled and the low bits are not 11,
fills the slot, sets the default `next_pc` and redirects to the instruction's chain, found by its mnemonic (R155); an illegal
word raises cause 2. A word is known exactly if it is one of the twenty and its extension is enabled (R153); a word that is
not known, and a parcel that is not expanded, is illegal where no enabled word without a handler matches it; which letters
each needs, which parcels are expanded and which words have an unimplemented handler is a parameter (log 15). -/
def Obligations.DecodeStep : Prop :=
  ∀ (s : State) (r : Resolved) (rs : List Resolved) (n : Nat), s.latch.pending = false →
    s.fetchQueue.results = r :: rs → s.memRead r.paddr 4 = some n →
    let w := BitVec.ofNat 32 n
    let short := hasC s.inclusions && w.extractLsb' 0 2 ≠ 3
    let bits := if short then w &&& 0xFFFF else w
    let len := if short then 2 else 4
    let u : State := { s with fetchQueue := { s.fetchQueue with results := rs } }
    let v : State := { u with nextPc := s.cfg.xlen.trunc (s.pc + BitVec.ofNat 64 len) }
    (short = true ∨ s.fetchMode = .bare ∨ s.pc &&& 0xFFF ≠ 0xFFE) →
    (∀ i, decodeBits s.cfg s.inclusions short bits = .known i →
      exec .stepDecode s = .next { v with
        currentInst := some { opcode := bits, len := len, instr := some i }, signal := .redirect i.chain })
      ∧ (∀ k ds, decodeBits s.cfg s.inclusions short bits = .unimplemented k ds →
        exec .stepDecode s = .next { v with
          currentInst := some { opcode := bits, len := len, instr := none, external := k, dests := ds }
          signal := .redirect (.inst (.external k)) })
      ∧ (decodeBits s.cfg s.inclusions short bits = .illegal →
        exec .stepDecode s = .next { u.faulting 2 (bits.setWidth 64) with signal := .redirect .exception })
      ∧ (short = false → ∀ i, decodeBits s.cfg s.inclusions short bits = .known i ↔
          decodeWord w = some i ∧ s.inclusions &&& needsOf s.cfg i = needsOf s.cfg i)
      ∧ ((∀ r ∈ s.cfg.unimplemented, r.short = short → bits &&& r.mask = r.pat → s.inclusions &&& r.needs ≠ r.needs) →
          (short = false → (∀ i, decodeWord w = some i → s.inclusions &&& needsOf s.cfg i ≠ needsOf s.cfg i) →
            decodeBits s.cfg s.inclusions short bits = .illegal)
          ∧ (short = true → (∀ r ∈ s.cfg.parcels, r.parcel = w.setWidth 16 → s.inclusions &&& r.needs ≠ r.needs) →
            decodeBits s.cfg s.inclusions short bits = .illegal))

/-- R111, R270, R403, R404: COMPUTE_ADDRESS of a load or store pushes one request, of 4 bytes at `x[rs1] + imm`; while an
earlier request is pending that is a host error, and a result not yet consumed stays. -/
def Obligations.ComputeAddressStep : Prop :=
  ∀ (s : State) (ci : CurrentInst) (rd rs1 rs2 : Reg) (imm : BitVec 12), s.currentInst = some ci →
    (ci.instr = some (.lw rd rs1 imm) ∨ ci.instr = some (.sw rs1 rs2 imm)) →
    (ci.dataQueue.pending = [] → exec .stepComputeAddress s = .next
      { s with currentInst := some { ci with dataQueue := { ci.dataQueue with
                 pending := [⟨s.cfg.xlen.trunc (s.readX rs1 + sextTo s.cfg.xlen imm), 4⟩] } },
               signal := .proceed })
    ∧ (ci.dataQueue.pending ≠ [] → exec .stepComputeAddress s = .fault .secondTranslationRequest)

/-- R280 to R286: EXECUTE invoked alone runs the handler of the instruction in the slot: its effect and `Continue`, or, where
it raises, the cause in the latch and the redirection to EXCEPTION. Where the handler is unimplemented it sets the marker, and
of the registers only the destinations may hold another value afterwards (93_implementation_defined.md row U1, log 8). That a
change of the MMU modes leaves chains the host has edited at a translate tag is the model's choice (log 17). -/
def Obligations.ExecuteStep : Prop :=
  ∀ (s : State) (ci : CurrentInst), s.currentInst = some ci →
    let go (u : State) : Host.Outcome State Fault Refusal := .next { u with signal := .proceed }
    let raises (code : BitVec 6) (info : Word) : Host.Outcome State Fault Refusal :=
      .next { s.faulting code info with signal := .redirect .exception }
    let popped (rs : List Resolved) : State :=
      { s with currentInst := some { ci with dataQueue := { ci.dataQueue with results := rs } } }
    (∀ (rd rs1 rs2 : Reg) (u : BitVec 20) (imm : BitVec 12) (off : BitVec 21) (b : BitVec 13),
      (ci.instr = some (.lui rd u) → exec .stepExecute s = go (s.writeX rd (sextTo s.cfg.xlen (u ++ 0#12))))
      ∧ (ci.instr = some (.addi rd rs1 imm) →
          exec .stepExecute s = go (s.writeX rd (s.readX rs1 + sextTo s.cfg.xlen imm)))
      ∧ (ci.instr = some (.jal rd off) → exec .stepExecute s
          = go { s.writeX rd (s.pcPlus 4) with nextPc := s.pcPlus (sextTo s.cfg.xlen off) })
      ∧ (ci.instr = some (.bne rs1 rs2 b) → exec .stepExecute s
          = go (if s.readX rs1 ≠ s.readX rs2 then { s with nextPc := s.pcPlus (sextTo s.cfg.xlen b) } else s))
      ∧ (ci.instr = some (.lw rd rs1 imm) ∨ ci.instr = some (.sw rs1 rs2 imm) → ci.dataQueue.results = [] →
          exec .stepExecute s = .fault .emptyTranslationResult)
      ∧ ∀ (r : Resolved) (rs : List Resolved), ci.dataQueue.results = r :: rs →
        (∀ n, ci.instr = some (.lw rd rs1 imm) → s.memRead r.paddr 4 = some n →
          exec .stepExecute s = go ((popped rs).writeX rd (sextTo s.cfg.xlen (BitVec.ofNat 32 n))))
        ∧ (ci.instr = some (.sw rs1 rs2 imm) → presentAll s.cfg.memory true r.paddr.toNat 4 = true →
          exec .stepExecute s
            = go { popped rs with mem := s.mem.writeLE r.paddr.toNat 4 (s.readX rs2).toNat }))
    ∧ (∀ (rs1 rs2 rd : Reg) (fm pred succ : BitVec 4) (imm : BitVec 12), s.latch.pending = false →
      (ci.instr = some .ecall → exec .stepExecute s
        = raises (match s.priv with | .user => 8 | .supervisor => 9 | .machine => 11) 0)
      ∧ (ci.instr = some .ebreak → exec .stepExecute s = raises 3 0)
      ∧ (ci.instr = some .mret → s.priv ≠ .machine → exec .stepExecute s = raises 2 (ci.opcode.setWidth 64))
      ∧ (ci.instr = some .mret → s.priv = .machine →
          ∀ p : Priv, s.fieldRead Csr.mstatus Field.MPP = p.enc.setWidth 64 →
          isaAccepted s.cfg (trapReturn Field.MIE Field.MPIE Field.MPP Csr.mepc p s).inclusions = true →
          exec .stepExecute s = go (trapReturn Field.MIE Field.MPIE Field.MPP Csr.mepc p s))
      ∧ (ci.instr = some .sret →
          let p := if s.fieldRead Csr.mstatus Field.SPP = 1 then Priv.supervisor else Priv.user
          if s.priv = .user ∨ s.priv = .supervisor ∧ s.fieldRead Csr.mstatus Field.TSR = 1 then
            exec .stepExecute s = raises 2 (ci.opcode.setWidth 64)
          else isaAccepted s.cfg (trapReturn Field.SIE Field.SPIE Field.SPP Csr.sepc p s).inclusions = true →
            exec .stepExecute s = go (trapReturn Field.SIE Field.SPIE Field.SPP Csr.sepc p s))
      ∧ (ci.instr = some .wfi → exec .stepExecute s =
          if s.priv ≠ .machine ∧ s.fieldRead Csr.mstatus Field.TW = 1 then raises 2 (ci.opcode.setWidth 64) else go s)
      ∧ (ci.instr = some (.sfenceVma rs1 rs2) → exec .stepExecute s =
          if s.priv = .user ∨ s.priv = .supervisor ∧ s.fieldRead Csr.mstatus Field.TVM = 1 then
            raises 2 (ci.opcode.setWidth 64)
          else go s)
      ∧ (ci.instr = some (.fence fm pred succ rs1 rd) ∨ ci.instr = some (.fenceI imm rs1 rd) →
          exec .stepExecute s = go s))
    ∧ (∀ (i : Instr) (csr : CsrIdx) (rd : Reg) (new : Word), ci.instr = some i → s.latch.pending = false →
      ((∃ rs1, i = .csrrw rd rs1 csr ∧ new = s.readX rs1)
        ∨ (∃ rs1, i = .csrrs rd rs1 csr ∧ new = s.csrRead csr ||| s.readX rs1)
        ∨ (∃ rs1, i = .csrrc rd rs1 csr ∧ new = s.csrRead csr &&& ~~~s.readX rs1)
        ∨ (∃ u, i = .csrrwi rd u csr ∧ new = u.setWidth 64)
        ∨ (∃ u, i = .csrrsi rd u csr ∧ new = s.csrRead csr ||| u.setWidth 64)
        ∨ (∃ u, i = .csrrci rd u csr ∧ new = s.csrRead csr &&& ~~~u.setWidth 64)) →
      (csrLegal s csr i.willWrite = true →
        (i.willWrite = true → touchesIsa csr = true → isaAccepted s.cfg (s.csrWrite csr new).inclusions = true) →
        exec .stepExecute s = go ((if i.willWrite then s.csrWrite csr new else s).writeX rd (s.csrRead csr)))
      ∧ (csrLegal s csr i.willWrite = false → exec .stepExecute s = raises 2 (ci.opcode.setWidth 64)))
    ∧ (ci.instr = none → ∃ t, exec .stepExecute s = .next t
      ∧ t.currentInst = some { ci with unimplemented := true }
      ∧ (∀ r, (⟨.x, r⟩ ∉ ci.dests → t.readX r = s.readX r) ∧ (⟨.f, r⟩ ∉ ci.dests → t.readF r = s.readF r)
          ∧ (⟨.v, r⟩ ∉ ci.dests → t.readV r = s.readV r))
      ∧ t = { s with currentInst := t.currentInst, xregs := t.xregs, fregs := t.fregs, vregs := t.vregs,
                     freeCtr := t.freeCtr, signal := .proceed })

/-- R208, R300, R301, R302: a hook notifies its observer; a null answer continues, a chain redirects. Where the answers come
from, and that an observer may set the exit code, are the model's choice (logs 13, 30). -/
def Obligations.HookSteps : Prop :=
  ∀ (s : State) (k : Nat) (i : Instr) (kind : HookKind) (m : Bool),
    (i = .stepPreExecuteHook k ∧ kind = .preExecute ∧ m = s.marker
      ∨ i = .stepPostExecuteHook k ∧ kind = .postExecute ∧ m = s.lastUnimplemented
      ∨ i = .stepPreExceptionHook k ∧ kind = .preException ∧ m = s.marker) →
    (s.hookReplies = [] →
      exec i s = .next { s with notices := s.notices ++ [⟨kind, k, m⟩], signal := .proceed })
    ∧ ∀ (r : HookReply) (rs : List HookReply), s.hookReplies = r :: rs →
      exec i s = .next { s with
        notices := s.notices ++ [⟨kind, k, m⟩], hookReplies := rs
        exitCode := exitAfter s.cfg.xlen s.exitCode [r]
        signal := match r.redirect with | none => .proceed | some c => .redirect c }

/-- R520: EXCEPTION with exactly one valid cause takes the trap and continues; with both or neither it aborts. That its writes
of mstatus leave chains the host has edited at a translate tag is the model's choice (log 17). -/
def Obligations.ExceptionStep : Prop :=
  ∀ s : State,
    (s.latch.faultValid = s.latch.interruptValid → exec .stepException s = .fault .notExactlyOneCause)
    ∧ (s.latch.faultValid ≠ s.latch.interruptValid → isaAccepted s.cfg (takeTrap s).inclusions = true →
        exec .stepException s = .next { takeTrap s with signal := .proceed })

/-- R290: FINISH_UPDATE: `prev_pc`, `pc`, `priv_mode` with the MMU modes, `icount` and the slot. That a change of mode leaves
chains the host has edited at a translate tag is the model's choice (log 17). -/
def Obligations.FinishUpdateStep : Prop :=
  ∀ s : State, ∃ t, exec .stepFinishUpdate s = .next t
    ∧ t.prevPc = s.pc ∧ t.pc = s.nextPc ∧ t.priv = s.nextPriv ∧ t.icount = s.icount + 1 ∧ t.currentInst = none
    ∧ (s.nextPriv ≠ s.priv → t.fetchMode = deriveFetchMode s.cfg s.csrs s.nextPriv
        ∧ t.lsMode = deriveLsMode s.cfg s.csrs s.nextPriv)
    ∧ (s.nextPriv = s.priv → t.fetchMode = s.fetchMode ∧ t.lsMode = s.lsMode ∧ t.staleMmu = s.staleMmu)
    ∧ t = { s with prevPc := t.prevPc, pc := t.pc, priv := t.priv, icount := t.icount, currentInst := none,
                   fetchMode := t.fetchMode, lsMode := t.lsMode, staleMmu := t.staleMmu,
                   lastUnimplemented := s.marker, signal := .proceed }

/-- R308, R309: a STOP_NOTIFY notifies its observer, the last one sets `stopped`; `cleanup` notifies every observer. That
the step's operand tells the two apart is the model's choice (log 30), and so is that an observer so notified sets no
`exit_code` (log 13). -/
def Obligations.StopAndCleanupNotify : Prop :=
  ∀ (s : State) (k : Nat),
    exec (.stepStopNotify (some k)) s
        = .next { s with notices := s.notices ++ [⟨.shutdown, k, s.marker⟩], signal := .proceed }
      ∧ exec (.stepStopNotify none) s = .next { s with stopped := true, signal := .proceed }
      ∧ exec .opCleanup s = .next { s with
          notices := s.notices ++ (List.range s.cfg.observers).map (fun o => ⟨.cleanup, o, s.marker⟩) }

/-! ## Instructions (43_system_instructions.md, 44_reference_handlers.md) -/

/-- R401, R402: LUI and ADDI write their result to `rd` (x0 keeps 0), fall through to `pc + 4`, and do nothing else. -/
def Obligations.LuiAndAddi : Prop :=
  ∀ (s : State) (rd rs1 : Reg) (u : BitVec 20) (imm : BitVec 12), s.Ready →
    exec (.lui rd u) s = .next ((s.writeX rd (s.cfg.xlen.trunc ((u ++ 0#12).signExtend 64))).completes (s.pcPlus 4))
      ∧ exec (.addi rd rs1 imm) s
          = .next ((s.writeX rd (s.readX rs1 + s.cfg.xlen.trunc (imm.signExtend 64))).completes (s.pcPlus 4))

/-- R405, R406: JAL links `pc + 4` and jumps to `pc + offset`; BNE jumps there where the registers differ and falls
through where they do not. -/
def Obligations.JalAndBne : Prop :=
  ∀ (s : State) (rd rs1 rs2 : Reg) (off : BitVec 21) (b : BitVec 13), s.Ready →
    exec (.jal rd off) s = .next ((s.writeX rd (s.pcPlus 4)).completes (s.pcPlus (sextTo s.cfg.xlen off)))
      ∧ exec (.bne rs1 rs2 b) s = .next
        (s.completes (if s.readX rs1 ≠ s.readX rs2 then s.pcPlus (sextTo s.cfg.xlen b) else s.pcPlus 4))

/-- R403, R404, R104: LW loads four bytes, least significant first, sign-extended, from the translated address; SW stores
the low four bytes of `x[rs2]` there, least significant first, and no other byte. That a stored byte reads back is said of a
canonical memory (StepKeepsMemoryCanonical). -/
def Obligations.LwAndSw : Prop :=
  ∀ (s : State) (rd rs1 rs2 : Reg) (imm : BitVec 12) (pa : Word), s.Ready →
    let va := s.cfg.xlen.trunc (s.readX rs1 + sextTo s.cfg.xlen imm)
    let byte (k : Nat) : Nat := (s.mem.get (pa.toNat + k)).toNat
    (s.lsMode.translating = true → crossesPage ⟨va, 4⟩ = false) →
    (translate .load s va = .ok pa → presentAll s.cfg.memory false pa.toNat 4 = true →
      exec (.lw rd rs1 imm) s = .next ((s.writeX rd (sextTo s.cfg.xlen (BitVec.ofNat 32
        (byte 0 + 2 ^ 8 * byte 1 + 2 ^ 16 * byte 2 + 2 ^ 24 * byte 3)))).completes (s.pcPlus 4)))
    ∧ (translate .store s va = .ok pa → presentAll s.cfg.memory true pa.toNat 4 = true →
      ∃ m : Memory, exec (.sw rs1 rs2 imm) s = .next (({ s with mem := m } : State).completes (s.pcPlus 4))
        ∧ (s.mem.wf → ∀ k, k < 4 → m.get (pa.toNat + k) = (s.readX rs2).extractLsb' (8 * k) 8)
        ∧ ∀ a, a < pa.toNat ∨ pa.toNat + 4 ≤ a → m.get a = s.mem.get a)

/-- R403, R404, R128: a load or store whose translation faults takes cause 13 or 15 with the effective address. -/
def Obligations.LoadAndStorePageFaults : Prop :=
  ∀ (s : State) (rd rs1 rs2 : Reg) (imm : BitVec 12), s.Ready →
    (s.lsMode.translating = true → crossesPage ⟨effAddr s rs1 imm, 4⟩ = false) →
    (translate .load s (effAddr s rs1 imm) = .pageFault →
      isaAccepted s.cfg (takeTrap (s.faulting 13 (effAddr s rs1 imm))).inclusions = true →
      exec (.lw rd rs1 imm) s = .next (s.faulting 13 (effAddr s rs1 imm)).trapsEarly)
    ∧ (translate .store s (effAddr s rs1 imm) = .pageFault →
      isaAccepted s.cfg (takeTrap (s.faulting 15 (effAddr s rs1 imm))).inclusions = true →
      exec (.sw rs1 rs2 imm) s = .next (s.faulting 15 (effAddr s rs1 imm)).trapsEarly)

/-- R342, R345: CSRRW and CSRRWI: the old value to `rd`, the operand written through the mask; where the check of
R341 fails, an illegal-instruction trap with the opcode bits. -/
def Obligations.CsrWrites : Prop :=
  ∀ (s : State) (rd rs1 : Reg) (uimm : BitVec 5) (csr : CsrIdx), s.Ready →
    (csrLegal s csr true = true →
      ((touchesIsa csr = true → isaAccepted s.cfg (s.csrWrite csr (s.readX rs1)).inclusions = true) →
        exec (.csrrw rd rs1 csr) s
          = .next (((s.csrWrite csr (s.readX rs1)).writeX rd (s.csrRead csr)).completes (s.pcPlus 4)))
      ∧ ((touchesIsa csr = true → isaAccepted s.cfg (s.csrWrite csr (uimm.setWidth 64)).inclusions = true) →
        exec (.csrrwi rd uimm csr) s
          = .next (((s.csrWrite csr (uimm.setWidth 64)).writeX rd (s.csrRead csr)).completes (s.pcPlus 4))))
    ∧ (csrLegal s csr true = false → ∀ i ∈ [.csrrw rd rs1 csr, .csrrwi rd uimm csr],
      isaAccepted s.cfg (takeTrap (s.faulting 2 ((encodedWord i).setWidth 64))).inclusions = true →
      exec i s = .next (s.faulting 2 ((encodedWord i).setWidth 64)).trapsInExecute)

/-- R343, R344, R346, R347: CSRRS, CSRRC and their immediate forms: the old value to `rd`; unless `rs1` is x0 or the
immediate 0, the old value with the operand's bits set or cleared is written; where the check of R341 fails, an
illegal-instruction trap with the opcode bits. -/
def Obligations.CsrSetsAndClears : Prop :=
  ∀ (s : State) (i : Instr) (rd : Reg) (csr : CsrIdx) (operand : Word) (willWrite : Bool) (new : Word), s.Ready →
    ((∃ rs1, i = .csrrs rd rs1 csr ∧ willWrite = decide (rs1 ≠ 0) ∧ operand = s.readX rs1
        ∧ new = s.csrRead csr ||| operand)
      ∨ (∃ rs1, i = .csrrc rd rs1 csr ∧ willWrite = decide (rs1 ≠ 0) ∧ operand = s.readX rs1
        ∧ new = s.csrRead csr &&& ~~~operand)
      ∨ (∃ u, i = .csrrsi rd u csr ∧ willWrite = decide (u ≠ 0) ∧ operand = u.setWidth 64
        ∧ new = s.csrRead csr ||| operand)
      ∨ (∃ u, i = .csrrci rd u csr ∧ willWrite = decide (u ≠ 0) ∧ operand = u.setWidth 64
        ∧ new = s.csrRead csr &&& ~~~operand)) →
    (csrLegal s csr willWrite = true →
      (willWrite = true → touchesIsa csr = true → isaAccepted s.cfg (s.csrWrite csr new).inclusions = true) →
      exec i s = .next
        (((if willWrite then s.csrWrite csr new else s).writeX rd (s.csrRead csr)).completes (s.pcPlus 4)))
    ∧ (csrLegal s csr willWrite = false →
      isaAccepted s.cfg (takeTrap (s.faulting 2 ((encodedWord i).setWidth 64))).inclusions = true →
      exec i s = .next (s.faulting 2 ((encodedWord i).setWidth 64)).trapsInExecute)

/-- R341: the check of a CSR instruction passes exactly if none of its five conditions fails: the CSR is in `CSR_SET`, is not
mstatush with XLEN = 64, does not belong to a higher mode, is not written in the read-only range, and is not satp in SUPERVISOR
mode with TVM = 1. Where one fails the instruction takes an illegal-instruction trap with its opcode bits and does nothing
else. -/
def Obligations.CsrCheckFails : Prop :=
  ∀ (s : State) (csr : CsrIdx),
    (∀ willWrite, csrLegal s csr willWrite = true ↔ ¬ csrCheckFails s csr willWrite)
    ∧ ∀ i : Instr, s.Ready → i.csr? = some csr → csrCheckFails s csr i.willWrite →
      isaAccepted s.cfg (takeTrap (s.faulting 2 ((encodedWord i).setWidth 64))).inclusions = true →
      exec i s = .next (s.faulting 2 ((encodedWord i).setWidth 64)).trapsInExecute

/-- R348, R349: ECALL traps with cause 8 from USER, 9 from SUPERVISOR, 11 from MACHINE, EBREAK with cause 3. -/
def Obligations.EcallAndEbreakTrap : Prop :=
  ∀ s : State, s.Ready →
    (let code : BitVec 6 := match s.priv with | .user => 8 | .supervisor => 9 | .machine => 11
      isaAccepted s.cfg (takeTrap (s.faulting code 0)).inclusions = true →
      exec .ecall s = .next (s.faulting code 0).trapsInExecute)
    ∧ (isaAccepted s.cfg (takeTrap (s.faulting 3 0)).inclusions = true →
      exec .ebreak s = .next (s.faulting 3 0).trapsInExecute)

/-- R350, R351: MRET in MACHINE mode with a legal MPP and SRET where it is legal: the status unstacked, MPRV cleared
unless the new mode is MACHINE, the mode and the `pc` taken back. -/
def Obligations.MretAndSretReturn : Prop :=
  ∀ s : State, s.Ready →
    (∀ p : Priv, s.priv = .machine → s.fieldRead Csr.mstatus Field.MPP = p.enc.setWidth 64 →
      let a := s.fieldWrite Csr.mstatus Field.MIE (s.fieldRead Csr.mstatus Field.MPIE)
      let b := (a.fieldWrite Csr.mstatus Field.MPIE 1).fieldWrite Csr.mstatus Field.MPP 0
      let d := if p = .machine then b else b.fieldWrite Csr.mstatus Field.MPRV 0
      isaAccepted s.cfg d.inclusions = true →
      exec .mret s = .next ((({ d with nextPriv := p } : State).commitPriv).completes (d.csrRead Csr.mepc)))
    ∧ ((s.priv = .machine ∨ s.priv = .supervisor ∧ s.fieldRead Csr.mstatus Field.TSR = 0) →
      let p := if s.fieldRead Csr.mstatus Field.SPP = 1 then Priv.supervisor else Priv.user
      let a := s.fieldWrite Csr.mstatus Field.SIE (s.fieldRead Csr.mstatus Field.SPIE)
      let b := (a.fieldWrite Csr.mstatus Field.SPIE 1).fieldWrite Csr.mstatus Field.SPP 0
      let d := b.fieldWrite Csr.mstatus Field.MPRV 0
      isaAccepted s.cfg d.inclusions = true →
      exec .sret s = .next ((({ d with nextPriv := p } : State).commitPriv).completes (d.csrRead Csr.sepc)))

/-- R354, R356, R357, R358: WFI, SFENCE.VMA, FENCE and FENCE.I do nothing where they are legal. -/
def Obligations.WaitAndFencesDoNothing : Prop :=
  ∀ (s : State) (rs1 rs2 rd : Reg) (fm pred succ : BitVec 4) (imm : BitVec 12), s.Ready →
    ((s.priv = .machine ∨ s.fieldRead Csr.mstatus Field.TW = 0) → exec .wfi s = .next (s.completes (s.pcPlus 4)))
    ∧ ((s.priv = .machine ∨ s.priv = .supervisor ∧ s.fieldRead Csr.mstatus Field.TVM = 0) →
      exec (.sfenceVma rs1 rs2) s = .next (s.completes (s.pcPlus 4)))
    ∧ exec (.fence fm pred succ rs1 rd) s = .next (s.completes (s.pcPlus 4))
    ∧ exec (.fenceI imm rs1 rd) s = .next (s.completes (s.pcPlus 4))

/-- R350, R351, R354, R356: the privileged instructions below the mode they need take an illegal-instruction trap with
their opcode bits. -/
def Obligations.PrivilegedInstructionsTrap : Prop :=
  ∀ (s : State) (i : Instr), s.Ready →
    (i = .mret ∧ s.priv ≠ .machine
      ∨ i = .sret ∧ (s.priv = .user ∨ s.priv = .supervisor ∧ s.fieldRead Csr.mstatus Field.TSR = 1)
      ∨ i = .wfi ∧ s.priv ≠ .machine ∧ s.fieldRead Csr.mstatus Field.TW = 1
      ∨ (∃ rs1 rs2, i = .sfenceVma rs1 rs2)
        ∧ (s.priv = .user ∨ s.priv = .supervisor ∧ s.fieldRead Csr.mstatus Field.TVM = 1)) →
    isaAccepted s.cfg (takeTrap (s.faulting 2 ((encodedWord i).setWidth 64))).inclusions = true →
    exec i s = .next (s.faulting 2 ((encodedWord i).setWidth 64)).trapsInExecute

/-! ## Traps (60_exceptions.md) -/

/-- R522: the cause goes to SUPERVISOR exactly if its bit of the delegation register is set, it has one, and the
guard for MACHINE mode does not hold it back. -/
def Obligations.DelegationChoosesTheLevel : Prop :=
  ∀ s : State,
    ((takeTrap s).nextPriv = .supervisor ↔
      (s.latch.code.toNat < s.cfg.xlen.bits
        ∧ (if s.latch.interruptValid then s.csrRead Csr.mideleg else s.csrRead Csr.medeleg).getLsbD
            s.latch.code.toNat = true
        ∧ ¬ (s.cfg.delegMGuard = true ∧ s.priv = .machine)))
    ∧ ((takeTrap s).nextPriv = .supervisor ∨ (takeTrap s).nextPriv = .machine)

/-- R520 to R527, R531 at SUPERVISOR level, with the default masks: what the trap saves, where it goes, what it leaves. -/
def Obligations.TrapToSupervisor : Prop :=
  ∀ s : State, defaultMasks s.cfg → trapToS s = true →
    let t := takeTrap s
    t.nextPc = s.csrRead Csr.stvec &&& ~~~1 ∧ t.nextPriv = .supervisor
      ∧ t.csrs.raw Csr.sepc = (s.csrs.raw Csr.sepc &&& ~~~epcMask s.cfg.xlen) ||| (s.pc &&& epcMask s.cfg.xlen)
      ∧ t.csrs.raw Csr.scause = (s.csrs.raw Csr.scause &&& ~~~allBits s.cfg.xlen)
          ||| (trapCause s.cfg.xlen s.latch.interruptValid s.latch.code &&& allBits s.cfg.xlen)
      ∧ t.csrs.raw Csr.stval = (s.csrs.raw Csr.stval &&& ~~~allBits s.cfg.xlen)
          ||| (trapValue s s.latch.interruptValid s.latch.code &&& allBits s.cfg.xlen)
      ∧ Field.SPIE.get (t.csrs.raw Csr.mstatus) = Field.SIE.get (s.csrs.raw Csr.mstatus)
      ∧ Field.SPP.get (t.csrs.raw Csr.mstatus) = (if s.priv = .user then 0 else 1)
      ∧ Field.SIE.get (t.csrs.raw Csr.mstatus) = 0
      ∧ t.csrs.raw Csr.mstatus &&& ~~~0x122 = s.csrs.raw Csr.mstatus &&& ~~~0x122
      ∧ (∀ i, i ≠ Csr.sepc → i ≠ Csr.scause → i ≠ Csr.stval → i ≠ Csr.mstatus → t.csrs.raw i = s.csrs.raw i)
      ∧ t.latch = { s.latch with faultValid := false, interruptValid := false }
      ∧ t.pc = s.pc ∧ t.priv = s.priv ∧ t.xregs = s.xregs ∧ t.mem = s.mem

/-- R520 to R528, R531 at MACHINE level, with the default masks. -/
def Obligations.TrapToMachine : Prop :=
  ∀ s : State, defaultMasks s.cfg → trapToS s = false →
    let t := takeTrap s
    t.nextPc = s.csrRead Csr.mtvec &&& ~~~1 ∧ t.nextPriv = .machine
      ∧ t.csrs.raw Csr.mepc = (s.csrs.raw Csr.mepc &&& ~~~epcMask s.cfg.xlen) ||| (s.pc &&& epcMask s.cfg.xlen)
      ∧ t.csrs.raw Csr.mcause = (s.csrs.raw Csr.mcause &&& ~~~allBits s.cfg.xlen)
          ||| (trapCause s.cfg.xlen s.latch.interruptValid s.latch.code &&& allBits s.cfg.xlen)
      ∧ t.csrs.raw Csr.mtval = (s.csrs.raw Csr.mtval &&& ~~~allBits s.cfg.xlen)
          ||| (trapValue s s.latch.interruptValid s.latch.code &&& allBits s.cfg.xlen)
      ∧ Field.MPIE.get (t.csrs.raw Csr.mstatus) = Field.MIE.get (s.csrs.raw Csr.mstatus)
      ∧ Field.MPP.get (t.csrs.raw Csr.mstatus) = s.priv.enc.setWidth 64
      ∧ Field.MIE.get (t.csrs.raw Csr.mstatus) = 0
      ∧ (match s.cfg.xlen with
        | .rv64 => Field.MPV.get (t.csrs.raw Csr.mstatus) = 0 ∧ Field.GVA.get (t.csrs.raw Csr.mstatus) = 0
            ∧ t.csrs.raw Csr.mstatus &&& ~~~0xC000001888 = s.csrs.raw Csr.mstatus &&& ~~~0xC000001888
            ∧ t.csrs.raw Csr.mstatush = s.csrs.raw Csr.mstatush
        | .rv32 => Field.hMPV.get (t.csrs.raw Csr.mstatush) = 0 ∧ Field.hGVA.get (t.csrs.raw Csr.mstatush) = 0
            ∧ t.csrs.raw Csr.mstatush &&& ~~~0xC0 = s.csrs.raw Csr.mstatush &&& ~~~0xC0
            ∧ t.csrs.raw Csr.mstatus &&& ~~~0x1888 = s.csrs.raw Csr.mstatus &&& ~~~0x1888)
      ∧ (∀ i, i ≠ Csr.mepc → i ≠ Csr.mcause → i ≠ Csr.mtval → i ≠ Csr.mstatus → i ≠ Csr.mstatush →
          t.csrs.raw i = s.csrs.raw i)
      ∧ t.latch = { s.latch with faultValid := false, interruptValid := false }
      ∧ t.pc = s.pc ∧ t.priv = s.priv ∧ t.xregs = s.xregs ∧ t.mem = s.mem

/-- R524, R525: the cause value carries the interrupt bit at the top; the trap value is 0 of an interrupt, `pc` of the
codes 0, 1 and 12, what the raiser recorded of 2, 4 to 7, 13 and 15, and 0 otherwise. -/
def Obligations.TrapCauseAndValue : Prop :=
  ∀ (s : State) (code : BitVec 6),
    trapCause .rv64 true code = (0x8000000000000000 : Word) + code.setWidth 64
      ∧ trapCause .rv32 true code = (0x80000000 : Word) + code.setWidth 64
      ∧ (∀ x, trapCause x false code = code.setWidth 64)
      ∧ trapValue s true code = 0
      ∧ (code.toNat ∈ [0, 1, 12] → trapValue s false code = s.pc)
      ∧ (code.toNat ∈ [2, 4, 5, 6, 7, 13, 15] → trapValue s false code = s.latch.info)
      ∧ (code.toNat ∉ [0, 1, 12, 2, 4, 5, 6, 7, 13, 15] → trapValue s false code = 0)

/-- R262, R263, R153, R540: what a step takes before it executes anything, first match first: a requested interrupt; a
misaligned `pc`, cause 0; a `pc` that does not translate, cause 12; a word the decoder rejects, cause 2 with its 16 or
32 bits. How a request reaches the block is the model's choice (log 12). -/
def Obligations.FetchPhaseTraps : Prop :=
  ∀ s : State, s.Idle → s.stopped = false →
    (∀ c, s.irqReq = some c → isaAccepted s.cfg (takeTrap (s.sampled.interrupted c)).inclusions = true →
      step s = .next (s.sampled.interrupted c).trapsEarly)
    ∧ (s.irqReq = none → s.pcMisaligned = true →
      isaAccepted s.cfg (takeTrap (s.sampled.faulting 0 s.pc)).inclusions = true →
      step s = .next (s.sampled.faulting 0 s.pc).trapsEarly)
    ∧ (s.irqReq = none → s.pcMisaligned = false → translate .fetch s.sampled s.pc = .pageFault →
      isaAccepted s.cfg (takeTrap (s.sampled.faulting 12 s.pc)).inclusions = true →
      step s = .next (s.sampled.faulting 12 s.pc).trapsEarly)
    ∧ (∀ w, s.Fetches w → let bits := if s.isShort w then w &&& 0xFFFF else w
      decodeBits s.cfg s.inclusions (s.isShort w) bits = .illegal →
      isaAccepted s.cfg (takeTrap (s.sampled.faulting 2 (bits.setWidth 64))).inclusions = true →
      step s = .next (s.sampled.faulting 2 (bits.setWidth 64)).trapsEarly)

/-- R286: a word whose handler is unimplemented retires normally; the post-execute hooks see the marker (log 25). What its
destination registers hold, in whichever file, is a free value (log 8); every other register stays. -/
def Obligations.UnimplementedWordRetires : Prop :=
  ∀ (s : State) (w : BitVec 32) (k : Nat) (ds : List DestReg), s.Idle → s.Fetches w →
    let bits := if s.isShort w then w &&& 0xFFFF else w
    decodeBits s.cfg s.inclusions (s.isShort w) bits = .unimplemented k ds →
    ∃ t, step s = .next t ∧ t.pc = s.pcPlus (if s.isShort w then 2 else 4) ∧ t.prevPc = s.pc
      ∧ t.icount = s.icount + 1 ∧ t.lastUnimplemented = true
      ∧ (∀ r, (⟨.x, r⟩ ∉ ds → t.readX r = s.readX r) ∧ (⟨.f, r⟩ ∉ ds → t.readF r = s.readF r)
          ∧ (⟨.v, r⟩ ∉ ds → t.readV r = s.readV r))
      ∧ State.SameMemory s t ∧ State.SameSystem s t
      ∧ t.chains = s.chains ∧ t.stopped = false ∧ t.fetchQueue = {} ∧ t.cfg = s.cfg

/-! ## Translation (20_memory.md) -/

/-- R112, R114, R120: where the mode is MACHINE or `satp.MODE` is 0 an address translates to itself. That a load or store
does so with `satp.MODE` = 0 under the reserved effective privilege too (MPRV = 1 and MPP = 2), to which row U6 gives no
meaning, is the model's reading, log 11. -/
def Obligations.BareTranslationIsIdentity : Prop :=
  ∀ (s : State) (va : Word), s.Derived →
    (s.priv = .machine ∨ s.fieldRead Csr.satp (Field.satpMode s.cfg.xlen) = 0 → translate .fetch s va = .ok va)
    ∧ (lsPrivEnc s.cfg s.csrs s.priv = 3 ∨ s.fieldRead Csr.satp (Field.satpMode s.cfg.xlen) = 0 →
      translate .load s va = .ok va ∧ translate .store s va = .ok va)

/-- R112, R114, R116, R120 to R127: the numbers of the modes and the parameters of each; what mode the cache holds; that
`Translate` under a walking mode, with no canonical-address check, is the walk from the root page number in satp over that
mode's levels, and aborts under INVALID; and, with no optional check enabled, one level of the walk. For the reserved effective
privilege 2 (MPRV = 1 and MPP = 2) two things are the model's: that the cached data mode is that of satp then too (log 31),
and that `Translate` refuses there, which the clause on `Translate` leaves out (log 11). -/
def Obligations.WalkOneLevel : Prop :=
  (modeOf .rv32 0 = .bare ∧ modeOf .rv32 1 = .sv32 ∧ modeOf .rv64 0 = .bare ∧ modeOf .rv64 8 = .sv39
      ∧ modeOf .rv64 9 = .sv48 ∧ modeOf .rv64 10 = .sv57
      ∧ ∀ m : Word, m ≠ 0 → m ≠ 8 → m ≠ 9 → m ≠ 10 → modeOf .rv64 m = .invalid)
  ∧ ([MmuMode.sv32, .sv39, .sv48, .sv57].map (fun m => (m.levels, m.vpnBits, m.pteSize, m.vaBits, m.ppnBits))
      = [(2, 10, 4, 32, 22), (3, 9, 8, 39, 44), (4, 9, 8, 48, 44), (5, 9, 8, 57, 44)])
  ∧ (∀ s : State, s.Derived →
      let mode := modeOf s.cfg.xlen (match s.cfg.xlen with
        | .rv32 => (s.csrRead 0x180 >>> 31) &&& 1
        | .rv64 => (s.csrRead 0x180 >>> 60) &&& 15)
      (s.priv ≠ .machine → s.fetchMode = mode) ∧ (lsPrivEnc s.cfg s.csrs s.priv ≠ 3 → s.lsMode = mode))
  ∧ (∀ (kind : AccessKind) (s : State) (va : Word), effPrivEnc kind s ≠ 2 →
      let mode := match kind with | .fetch => s.fetchMode | .load => s.lsMode | .store => s.lsMode
      let root := s.csrRead 0x180 &&& match s.cfg.xlen with | .rv32 => 0x3FFFFF | .rv64 => 0xFFFFFFFFFFF
      (mode = .invalid → translate kind s va = .abort .invalidMmuMode)
        ∧ (mode.translating = true → s.cfg.walkStrict.canonicalVa = false →
            translate kind s va = walkFrom kind s mode va mode.levels root))
  ∧ ∀ (kind : AccessKind) (s : State) (m : MmuMode) (va ppn : Word) (i n : Nat),
    s.cfg.walkStrict = {} → m.translating = true → i < m.levels →
    s.memRead ((ppn <<< 12) + ((va >>> (12 + m.vpnBits * i)) &&& (((1 : Word) <<< m.vpnBits) - 1)) * BitVec.ofNat 64 m.pteSize)
      m.pteSize = some n →
    let pte : Word := BitVec.ofNat 64 n
    let valid := pte.getLsbD 0 = true ∧ ¬ (pte.getLsbD 1 = false ∧ pte.getLsbD 2 = true)
    let leaf := pte.getLsbD 1 = true ∨ pte.getLsbD 3 = true
    let allowed := match kind with
      | .store => pte.getLsbD 2 | .load => pte.getLsbD 1 | .fetch => pte.getLsbD 3
    let pp := (pte >>> 10) &&& (((1 : Word) <<< m.ppnBits) - 1)
    let low := 12 + m.vpnBits * i
    (¬ valid → walkFrom kind s m va (i + 1) ppn = .pageFault)
      ∧ (valid → leaf → allowed = false → walkFrom kind s m va (i + 1) ppn = .pageFault)
      ∧ (valid → leaf → allowed = true → (i = 0 ∨ pp &&& (((1 : Word) <<< (m.vpnBits * i)) - 1) = 0) →
          walkFrom kind s m va (i + 1) ppn
            = .ok (((pp >>> (m.vpnBits * i)) <<< low) ||| (va &&& (((1 : Word) <<< low) - 1))))
      ∧ (valid → ¬ leaf → walkFrom kind s m va (i + 1) ppn = walkFrom kind s m va i pp)
      ∧ walkFrom kind s m va 0 ppn = .pageFault

/-- Every translated address has at most PALEN bits: 34 for Sv32, 56 for the others, the undefined ones among them. -/
def Obligations.TranslatedAddressesArePhysical : Prop :=
  ∀ (kind : AccessKind) (s : State) (va pa : Word), (modeFor kind s).translating = true →
    translate kind s va = .ok pa → pa.toNat < 2 ^ (if modeFor kind s = .sv32 then 34 else 56)

/-! ## Frames -/

/-- LUI, ADDI, JAL and LW, whatever they end in, change no byte of memory and no integer register but `rd`; the first
three change nothing of the system state either. -/
def Obligations.FrameOfRegisterForms : Prop :=
  ∀ (s t : State) (rd rs1 : Reg) (u : BitVec 20) (imm : BitVec 12) (off : BitVec 21), s.Ready →
    (exec (.lui rd u) s = .next t ∨ exec (.addi rd rs1 imm) s = .next t ∨ exec (.jal rd off) s = .next t →
      s.SameXBut rd t ∧ s.SameMemory t ∧ s.SameFiles t ∧ s.SameSystem t)
    ∧ (exec (.lw rd rs1 imm) s = .next t → s.SameXBut rd t ∧ s.SameMemory t ∧ s.SameFiles t)

/-- The six CSR instructions, whatever they end in, change no byte of memory and no integer register but `rd`; where
the check passes the only CSR storage they change is that of `csr`, and none where the form does not write. -/
def Obligations.FrameOfCsrForms : Prop :=
  ∀ (s t : State) (i : Instr) (rd : Reg) (csr : CsrIdx), s.Ready → i.csr? = some csr → i.rd? = some rd →
    exec i s = .next t →
    s.SameXBut rd t ∧ s.SameMemory t ∧ s.SameFiles t
      ∧ (csrLegal s csr i.willWrite = true → (∀ j, j ≠ csrHome csr → t.csrs.raw j = s.csrs.raw j)
          ∧ (i.willWrite = false → t.csrs = s.csrs)
          ∧ t.priv = s.priv ∧ t.latch = s.latch ∧ t.cosimCode = s.cosimCode)

/-- The instructions without a destination register, whatever they end in, change no integer register; none of them but
SW changes a byte of memory, and SW changes only the four bytes at its translated address. -/
def Obligations.FrameOfFormsWithoutDestination : Prop :=
  ∀ (s t : State) (rs1 rs2 rd : Reg) (fm pred succ : BitVec 4) (imm : BitVec 12) (off : BitVec 13), s.Ready →
    (∀ i ∈ [.ecall, .ebreak, .mret, .sret, .wfi, .sfenceVma rs1 rs2, .fence fm pred succ rs1 rd, .fenceI imm rs1 rd,
        .bne rs1 rs2 off], exec i s = .next t → s.SameX t ∧ s.SameMemory t ∧ s.SameFiles t)
    ∧ (exec (.sw rs1 rs2 imm) s = .next t → s.SameX t ∧ s.SameFiles t
        ∧ (∀ pa, translate .store s (effAddr s rs1 imm) = .ok pa →
            ∀ a, a < pa.toNat ∨ pa.toNat + 4 ≤ a → t.mem.get a = s.mem.get a)
        ∧ (translate .store s (effAddr s rs1 imm) = .pageFault → s.SameMemory t))

/-! ## Stops -/

/-- Where the spec gives no meaning the model refuses by name: MRET with MPP = 2, and a load or store that translates with
MPRV = 1 and MPP = 2 (row U6); a data access, and a four-byte instruction, that crosses a page under translation (row U3, R265);
a second boot, and a step after a poke that nothing recomputed (row U5). -/
def Obligations.UndefinedCasesAreRefused : Prop :=
  (∀ (s : State) (rd rs1 rs2 : Reg) (imm : BitVec 12), s.Ready →
    (s.priv = .machine → s.fieldRead Csr.mstatus Field.MPP = 2 → exec .mret s = .refused .reservedPrivilege)
    ∧ (s.fieldRead Csr.mstatus Field.MPRV = 1 → s.fieldRead Csr.mstatus Field.MPP = 2 → s.lsMode ≠ .bare →
        (s.lsMode.translating = true → crossesPage ⟨effAddr s rs1 imm, 4⟩ = false) →
        exec (.lw rd rs1 imm) s = .refused .reservedPrivilege
          ∧ exec (.sw rs1 rs2 imm) s = .refused .reservedPrivilege)
    ∧ (s.lsMode.translating = true → crossesPage ⟨effAddr s rs1 imm, 4⟩ = true →
        exec (.lw rd rs1 imm) s = .refused .pageCrossingAccess
          ∧ exec (.sw rs1 rs2 imm) s = .refused .pageCrossingAccess)
    ∧ (s.booted = true → exec .opBoot s = .refused .secondBoot)
    ∧ (s.stopped = false → s.staleIsa = true ∨ s.staleMmu = true → exec .opStep s = .refused .stalePoke))
  ∧ ∀ (s : State) (pa : Word) (n : Nat), s.Idle → s.stopped = false → s.irqReq = none → s.pcMisaligned = false →
    translate .fetch s.sampled s.pc = .ok pa → s.memRead pa 4 = some n → s.isShort (BitVec.ofNat 32 n) = false →
    s.fetchMode ≠ .bare → s.pc &&& 0xFFF = 0xFFE → step s = .refused .pageCrossingAccess
end

