-- ==== Sys2Proof/Laws/State.lean ====
section
/-! SUPPORT. For every shared operation and every field of State it leaves alone: the field afterwards is the field before. -/

namespace Sys2Proof.Machine

/-! writeX -/
@[simp] theorem writeX_cfg (s : State) (i : Reg) (v : Word) : (s.writeX i v).cfg = s.cfg := by unfold State.writeX; split <;> rfl
@[simp] theorem writeX_pc (s : State) (i : Reg) (v : Word) : (s.writeX i v).pc = s.pc := by unfold State.writeX; split <;> rfl
@[simp] theorem writeX_nextPc (s : State) (i : Reg) (v : Word) : (s.writeX i v).nextPc = s.nextPc := by unfold State.writeX; split <;> rfl
@[simp] theorem writeX_prevPc (s : State) (i : Reg) (v : Word) : (s.writeX i v).prevPc = s.prevPc := by unfold State.writeX; split <;> rfl
@[simp] theorem writeX_priv (s : State) (i : Reg) (v : Word) : (s.writeX i v).priv = s.priv := by unfold State.writeX; split <;> rfl
@[simp] theorem writeX_nextPriv (s : State) (i : Reg) (v : Word) : (s.writeX i v).nextPriv = s.nextPriv := by unfold State.writeX; split <;> rfl
@[simp] theorem writeX_icount (s : State) (i : Reg) (v : Word) : (s.writeX i v).icount = s.icount := by unfold State.writeX; split <;> rfl
@[simp] theorem writeX_inclusions (s : State) (i : Reg) (v : Word) : (s.writeX i v).inclusions = s.inclusions := by unfold State.writeX; split <;> rfl
@[simp] theorem writeX_stopped (s : State) (i : Reg) (v : Word) : (s.writeX i v).stopped = s.stopped := by unfold State.writeX; split <;> rfl
@[simp] theorem writeX_exitCode (s : State) (i : Reg) (v : Word) : (s.writeX i v).exitCode = s.exitCode := by unfold State.writeX; split <;> rfl
@[simp] theorem writeX_currentInst (s : State) (i : Reg) (v : Word) : (s.writeX i v).currentInst = s.currentInst := by unfold State.writeX; split <;> rfl
@[simp] theorem writeX_fregs (s : State) (i : Reg) (v : Word) : (s.writeX i v).fregs = s.fregs := by unfold State.writeX; split <;> rfl
@[simp] theorem writeX_vregs (s : State) (i : Reg) (v : Word) : (s.writeX i v).vregs = s.vregs := by unfold State.writeX; split <;> rfl
@[simp] theorem writeX_csrs (s : State) (i : Reg) (v : Word) : (s.writeX i v).csrs = s.csrs := by unfold State.writeX; split <;> rfl
@[simp] theorem writeX_fetchQueue (s : State) (i : Reg) (v : Word) : (s.writeX i v).fetchQueue = s.fetchQueue := by unfold State.writeX; split <;> rfl
@[simp] theorem writeX_fetchMode (s : State) (i : Reg) (v : Word) : (s.writeX i v).fetchMode = s.fetchMode := by unfold State.writeX; split <;> rfl
@[simp] theorem writeX_lsMode (s : State) (i : Reg) (v : Word) : (s.writeX i v).lsMode = s.lsMode := by unfold State.writeX; split <;> rfl
@[simp] theorem writeX_latch (s : State) (i : Reg) (v : Word) : (s.writeX i v).latch = s.latch := by unfold State.writeX; split <;> rfl
@[simp] theorem writeX_cosimCode (s : State) (i : Reg) (v : Word) : (s.writeX i v).cosimCode = s.cosimCode := by unfold State.writeX; split <;> rfl
@[simp] theorem writeX_chains (s : State) (i : Reg) (v : Word) : (s.writeX i v).chains = s.chains := by unfold State.writeX; split <;> rfl
@[simp] theorem writeX_csrInitUnknown (s : State) (i : Reg) (v : Word) : (s.writeX i v).csrInitUnknown = s.csrInitUnknown := by unfold State.writeX; split <;> rfl
@[simp] theorem writeX_mem (s : State) (i : Reg) (v : Word) : (s.writeX i v).mem = s.mem := by unfold State.writeX; split <;> rfl
@[simp] theorem writeX_irqInput (s : State) (i : Reg) (v : Word) : (s.writeX i v).irqInput = s.irqInput := by unfold State.writeX; split <;> rfl
@[simp] theorem writeX_hookReplies (s : State) (i : Reg) (v : Word) : (s.writeX i v).hookReplies = s.hookReplies := by unfold State.writeX; split <;> rfl
@[simp] theorem writeX_cosimReplies (s : State) (i : Reg) (v : Word) : (s.writeX i v).cosimReplies = s.cosimReplies := by unfold State.writeX; split <;> rfl
@[simp] theorem writeX_port (s : State) (i : Reg) (v : Word) : (s.writeX i v).port = s.port := by unfold State.writeX; split <;> rfl
@[simp] theorem writeX_notices (s : State) (i : Reg) (v : Word) : (s.writeX i v).notices = s.notices := by unfold State.writeX; split <;> rfl
@[simp] theorem writeX_reply (s : State) (i : Reg) (v : Word) : (s.writeX i v).reply = s.reply := by unfold State.writeX; split <;> rfl
@[simp] theorem writeX_signal (s : State) (i : Reg) (v : Word) : (s.writeX i v).signal = s.signal := by unfold State.writeX; split <;> rfl
@[simp] theorem writeX_booted (s : State) (i : Reg) (v : Word) : (s.writeX i v).booted = s.booted := by unfold State.writeX; split <;> rfl
@[simp] theorem writeX_staleIsa (s : State) (i : Reg) (v : Word) : (s.writeX i v).staleIsa = s.staleIsa := by unfold State.writeX; split <;> rfl
@[simp] theorem writeX_staleMmu (s : State) (i : Reg) (v : Word) : (s.writeX i v).staleMmu = s.staleMmu := by unfold State.writeX; split <;> rfl
@[simp] theorem writeX_lastUnimplemented (s : State) (i : Reg) (v : Word) : (s.writeX i v).lastUnimplemented = s.lastUnimplemented := by unfold State.writeX; split <;> rfl
@[simp] theorem writeX_freeCtr (s : State) (i : Reg) (v : Word) : (s.writeX i v).freeCtr = s.freeCtr := by unfold State.writeX; split <;> rfl

/-! writeF -/
@[simp] theorem writeF_cfg (s : State) (i : Reg) (v : Nat) : (s.writeF i v).cfg = s.cfg := by cases s; rfl
@[simp] theorem writeF_pc (s : State) (i : Reg) (v : Nat) : (s.writeF i v).pc = s.pc := by cases s; rfl
@[simp] theorem writeF_nextPc (s : State) (i : Reg) (v : Nat) : (s.writeF i v).nextPc = s.nextPc := by cases s; rfl
@[simp] theorem writeF_prevPc (s : State) (i : Reg) (v : Nat) : (s.writeF i v).prevPc = s.prevPc := by cases s; rfl
@[simp] theorem writeF_priv (s : State) (i : Reg) (v : Nat) : (s.writeF i v).priv = s.priv := by cases s; rfl
@[simp] theorem writeF_nextPriv (s : State) (i : Reg) (v : Nat) : (s.writeF i v).nextPriv = s.nextPriv := by cases s; rfl
@[simp] theorem writeF_icount (s : State) (i : Reg) (v : Nat) : (s.writeF i v).icount = s.icount := by cases s; rfl
@[simp] theorem writeF_inclusions (s : State) (i : Reg) (v : Nat) : (s.writeF i v).inclusions = s.inclusions := by cases s; rfl
@[simp] theorem writeF_stopped (s : State) (i : Reg) (v : Nat) : (s.writeF i v).stopped = s.stopped := by cases s; rfl
@[simp] theorem writeF_exitCode (s : State) (i : Reg) (v : Nat) : (s.writeF i v).exitCode = s.exitCode := by cases s; rfl
@[simp] theorem writeF_currentInst (s : State) (i : Reg) (v : Nat) : (s.writeF i v).currentInst = s.currentInst := by cases s; rfl
@[simp] theorem writeF_xregs (s : State) (i : Reg) (v : Nat) : (s.writeF i v).xregs = s.xregs := by cases s; rfl
@[simp] theorem writeF_vregs (s : State) (i : Reg) (v : Nat) : (s.writeF i v).vregs = s.vregs := by cases s; rfl
@[simp] theorem writeF_csrs (s : State) (i : Reg) (v : Nat) : (s.writeF i v).csrs = s.csrs := by cases s; rfl
@[simp] theorem writeF_fetchQueue (s : State) (i : Reg) (v : Nat) : (s.writeF i v).fetchQueue = s.fetchQueue := by cases s; rfl
@[simp] theorem writeF_fetchMode (s : State) (i : Reg) (v : Nat) : (s.writeF i v).fetchMode = s.fetchMode := by cases s; rfl
@[simp] theorem writeF_lsMode (s : State) (i : Reg) (v : Nat) : (s.writeF i v).lsMode = s.lsMode := by cases s; rfl
@[simp] theorem writeF_latch (s : State) (i : Reg) (v : Nat) : (s.writeF i v).latch = s.latch := by cases s; rfl
@[simp] theorem writeF_cosimCode (s : State) (i : Reg) (v : Nat) : (s.writeF i v).cosimCode = s.cosimCode := by cases s; rfl
@[simp] theorem writeF_chains (s : State) (i : Reg) (v : Nat) : (s.writeF i v).chains = s.chains := by cases s; rfl
@[simp] theorem writeF_csrInitUnknown (s : State) (i : Reg) (v : Nat) : (s.writeF i v).csrInitUnknown = s.csrInitUnknown := by cases s; rfl
@[simp] theorem writeF_mem (s : State) (i : Reg) (v : Nat) : (s.writeF i v).mem = s.mem := by cases s; rfl
@[simp] theorem writeF_irqInput (s : State) (i : Reg) (v : Nat) : (s.writeF i v).irqInput = s.irqInput := by cases s; rfl
@[simp] theorem writeF_hookReplies (s : State) (i : Reg) (v : Nat) : (s.writeF i v).hookReplies = s.hookReplies := by cases s; rfl
@[simp] theorem writeF_cosimReplies (s : State) (i : Reg) (v : Nat) : (s.writeF i v).cosimReplies = s.cosimReplies := by cases s; rfl
@[simp] theorem writeF_port (s : State) (i : Reg) (v : Nat) : (s.writeF i v).port = s.port := by cases s; rfl
@[simp] theorem writeF_notices (s : State) (i : Reg) (v : Nat) : (s.writeF i v).notices = s.notices := by cases s; rfl
@[simp] theorem writeF_reply (s : State) (i : Reg) (v : Nat) : (s.writeF i v).reply = s.reply := by cases s; rfl
@[simp] theorem writeF_signal (s : State) (i : Reg) (v : Nat) : (s.writeF i v).signal = s.signal := by cases s; rfl
@[simp] theorem writeF_booted (s : State) (i : Reg) (v : Nat) : (s.writeF i v).booted = s.booted := by cases s; rfl
@[simp] theorem writeF_staleIsa (s : State) (i : Reg) (v : Nat) : (s.writeF i v).staleIsa = s.staleIsa := by cases s; rfl
@[simp] theorem writeF_staleMmu (s : State) (i : Reg) (v : Nat) : (s.writeF i v).staleMmu = s.staleMmu := by cases s; rfl
@[simp] theorem writeF_lastUnimplemented (s : State) (i : Reg) (v : Nat) : (s.writeF i v).lastUnimplemented = s.lastUnimplemented := by cases s; rfl
@[simp] theorem writeF_freeCtr (s : State) (i : Reg) (v : Nat) : (s.writeF i v).freeCtr = s.freeCtr := by cases s; rfl

/-! writeV -/
@[simp] theorem writeV_cfg (s : State) (i : Reg) (v : Nat) : (s.writeV i v).cfg = s.cfg := by cases s; rfl
@[simp] theorem writeV_pc (s : State) (i : Reg) (v : Nat) : (s.writeV i v).pc = s.pc := by cases s; rfl
@[simp] theorem writeV_nextPc (s : State) (i : Reg) (v : Nat) : (s.writeV i v).nextPc = s.nextPc := by cases s; rfl
@[simp] theorem writeV_prevPc (s : State) (i : Reg) (v : Nat) : (s.writeV i v).prevPc = s.prevPc := by cases s; rfl
@[simp] theorem writeV_priv (s : State) (i : Reg) (v : Nat) : (s.writeV i v).priv = s.priv := by cases s; rfl
@[simp] theorem writeV_nextPriv (s : State) (i : Reg) (v : Nat) : (s.writeV i v).nextPriv = s.nextPriv := by cases s; rfl
@[simp] theorem writeV_icount (s : State) (i : Reg) (v : Nat) : (s.writeV i v).icount = s.icount := by cases s; rfl
@[simp] theorem writeV_inclusions (s : State) (i : Reg) (v : Nat) : (s.writeV i v).inclusions = s.inclusions := by cases s; rfl
@[simp] theorem writeV_stopped (s : State) (i : Reg) (v : Nat) : (s.writeV i v).stopped = s.stopped := by cases s; rfl
@[simp] theorem writeV_exitCode (s : State) (i : Reg) (v : Nat) : (s.writeV i v).exitCode = s.exitCode := by cases s; rfl
@[simp] theorem writeV_currentInst (s : State) (i : Reg) (v : Nat) : (s.writeV i v).currentInst = s.currentInst := by cases s; rfl
@[simp] theorem writeV_xregs (s : State) (i : Reg) (v : Nat) : (s.writeV i v).xregs = s.xregs := by cases s; rfl
@[simp] theorem writeV_fregs (s : State) (i : Reg) (v : Nat) : (s.writeV i v).fregs = s.fregs := by cases s; rfl
@[simp] theorem writeV_csrs (s : State) (i : Reg) (v : Nat) : (s.writeV i v).csrs = s.csrs := by cases s; rfl
@[simp] theorem writeV_fetchQueue (s : State) (i : Reg) (v : Nat) : (s.writeV i v).fetchQueue = s.fetchQueue := by cases s; rfl
@[simp] theorem writeV_fetchMode (s : State) (i : Reg) (v : Nat) : (s.writeV i v).fetchMode = s.fetchMode := by cases s; rfl
@[simp] theorem writeV_lsMode (s : State) (i : Reg) (v : Nat) : (s.writeV i v).lsMode = s.lsMode := by cases s; rfl
@[simp] theorem writeV_latch (s : State) (i : Reg) (v : Nat) : (s.writeV i v).latch = s.latch := by cases s; rfl
@[simp] theorem writeV_cosimCode (s : State) (i : Reg) (v : Nat) : (s.writeV i v).cosimCode = s.cosimCode := by cases s; rfl
@[simp] theorem writeV_chains (s : State) (i : Reg) (v : Nat) : (s.writeV i v).chains = s.chains := by cases s; rfl
@[simp] theorem writeV_csrInitUnknown (s : State) (i : Reg) (v : Nat) : (s.writeV i v).csrInitUnknown = s.csrInitUnknown := by cases s; rfl
@[simp] theorem writeV_mem (s : State) (i : Reg) (v : Nat) : (s.writeV i v).mem = s.mem := by cases s; rfl
@[simp] theorem writeV_irqInput (s : State) (i : Reg) (v : Nat) : (s.writeV i v).irqInput = s.irqInput := by cases s; rfl
@[simp] theorem writeV_hookReplies (s : State) (i : Reg) (v : Nat) : (s.writeV i v).hookReplies = s.hookReplies := by cases s; rfl
@[simp] theorem writeV_cosimReplies (s : State) (i : Reg) (v : Nat) : (s.writeV i v).cosimReplies = s.cosimReplies := by cases s; rfl
@[simp] theorem writeV_port (s : State) (i : Reg) (v : Nat) : (s.writeV i v).port = s.port := by cases s; rfl
@[simp] theorem writeV_notices (s : State) (i : Reg) (v : Nat) : (s.writeV i v).notices = s.notices := by cases s; rfl
@[simp] theorem writeV_reply (s : State) (i : Reg) (v : Nat) : (s.writeV i v).reply = s.reply := by cases s; rfl
@[simp] theorem writeV_signal (s : State) (i : Reg) (v : Nat) : (s.writeV i v).signal = s.signal := by cases s; rfl
@[simp] theorem writeV_booted (s : State) (i : Reg) (v : Nat) : (s.writeV i v).booted = s.booted := by cases s; rfl
@[simp] theorem writeV_staleIsa (s : State) (i : Reg) (v : Nat) : (s.writeV i v).staleIsa = s.staleIsa := by cases s; rfl
@[simp] theorem writeV_staleMmu (s : State) (i : Reg) (v : Nat) : (s.writeV i v).staleMmu = s.staleMmu := by cases s; rfl
@[simp] theorem writeV_lastUnimplemented (s : State) (i : Reg) (v : Nat) : (s.writeV i v).lastUnimplemented = s.lastUnimplemented := by cases s; rfl
@[simp] theorem writeV_freeCtr (s : State) (i : Reg) (v : Nat) : (s.writeV i v).freeCtr = s.freeCtr := by cases s; rfl

/-! recomputeIsa -/
@[simp] theorem recomputeIsa_cfg (s : State) : (s.recomputeIsa).cfg = s.cfg := by cases s; rfl
@[simp] theorem recomputeIsa_pc (s : State) : (s.recomputeIsa).pc = s.pc := by cases s; rfl
@[simp] theorem recomputeIsa_nextPc (s : State) : (s.recomputeIsa).nextPc = s.nextPc := by cases s; rfl
@[simp] theorem recomputeIsa_prevPc (s : State) : (s.recomputeIsa).prevPc = s.prevPc := by cases s; rfl
@[simp] theorem recomputeIsa_priv (s : State) : (s.recomputeIsa).priv = s.priv := by cases s; rfl
@[simp] theorem recomputeIsa_nextPriv (s : State) : (s.recomputeIsa).nextPriv = s.nextPriv := by cases s; rfl
@[simp] theorem recomputeIsa_icount (s : State) : (s.recomputeIsa).icount = s.icount := by cases s; rfl
@[simp] theorem recomputeIsa_stopped (s : State) : (s.recomputeIsa).stopped = s.stopped := by cases s; rfl
@[simp] theorem recomputeIsa_exitCode (s : State) : (s.recomputeIsa).exitCode = s.exitCode := by cases s; rfl
@[simp] theorem recomputeIsa_currentInst (s : State) : (s.recomputeIsa).currentInst = s.currentInst := by cases s; rfl
@[simp] theorem recomputeIsa_xregs (s : State) : (s.recomputeIsa).xregs = s.xregs := by cases s; rfl
@[simp] theorem recomputeIsa_fregs (s : State) : (s.recomputeIsa).fregs = s.fregs := by cases s; rfl
@[simp] theorem recomputeIsa_vregs (s : State) : (s.recomputeIsa).vregs = s.vregs := by cases s; rfl
@[simp] theorem recomputeIsa_csrs (s : State) : (s.recomputeIsa).csrs = s.csrs := by cases s; rfl
@[simp] theorem recomputeIsa_fetchQueue (s : State) : (s.recomputeIsa).fetchQueue = s.fetchQueue := by cases s; rfl
@[simp] theorem recomputeIsa_fetchMode (s : State) : (s.recomputeIsa).fetchMode = s.fetchMode := by cases s; rfl
@[simp] theorem recomputeIsa_lsMode (s : State) : (s.recomputeIsa).lsMode = s.lsMode := by cases s; rfl
@[simp] theorem recomputeIsa_latch (s : State) : (s.recomputeIsa).latch = s.latch := by cases s; rfl
@[simp] theorem recomputeIsa_cosimCode (s : State) : (s.recomputeIsa).cosimCode = s.cosimCode := by cases s; rfl
@[simp] theorem recomputeIsa_chains (s : State) : (s.recomputeIsa).chains = s.chains := by cases s; rfl
@[simp] theorem recomputeIsa_csrInitUnknown (s : State) : (s.recomputeIsa).csrInitUnknown = s.csrInitUnknown := by cases s; rfl
@[simp] theorem recomputeIsa_mem (s : State) : (s.recomputeIsa).mem = s.mem := by cases s; rfl
@[simp] theorem recomputeIsa_irqInput (s : State) : (s.recomputeIsa).irqInput = s.irqInput := by cases s; rfl
@[simp] theorem recomputeIsa_hookReplies (s : State) : (s.recomputeIsa).hookReplies = s.hookReplies := by cases s; rfl
@[simp] theorem recomputeIsa_cosimReplies (s : State) : (s.recomputeIsa).cosimReplies = s.cosimReplies := by cases s; rfl
@[simp] theorem recomputeIsa_port (s : State) : (s.recomputeIsa).port = s.port := by cases s; rfl
@[simp] theorem recomputeIsa_notices (s : State) : (s.recomputeIsa).notices = s.notices := by cases s; rfl
@[simp] theorem recomputeIsa_reply (s : State) : (s.recomputeIsa).reply = s.reply := by cases s; rfl
@[simp] theorem recomputeIsa_signal (s : State) : (s.recomputeIsa).signal = s.signal := by cases s; rfl
@[simp] theorem recomputeIsa_booted (s : State) : (s.recomputeIsa).booted = s.booted := by cases s; rfl
@[simp] theorem recomputeIsa_staleMmu (s : State) : (s.recomputeIsa).staleMmu = s.staleMmu := by cases s; rfl
@[simp] theorem recomputeIsa_lastUnimplemented (s : State) : (s.recomputeIsa).lastUnimplemented = s.lastUnimplemented := by cases s; rfl
@[simp] theorem recomputeIsa_freeCtr (s : State) : (s.recomputeIsa).freeCtr = s.freeCtr := by cases s; rfl

/-! recomputeMmu -/
@[simp] theorem recomputeMmu_cfg (s : State) : (s.recomputeMmu).cfg = s.cfg := by cases s; rfl
@[simp] theorem recomputeMmu_pc (s : State) : (s.recomputeMmu).pc = s.pc := by cases s; rfl
@[simp] theorem recomputeMmu_nextPc (s : State) : (s.recomputeMmu).nextPc = s.nextPc := by cases s; rfl
@[simp] theorem recomputeMmu_prevPc (s : State) : (s.recomputeMmu).prevPc = s.prevPc := by cases s; rfl
@[simp] theorem recomputeMmu_priv (s : State) : (s.recomputeMmu).priv = s.priv := by cases s; rfl
@[simp] theorem recomputeMmu_nextPriv (s : State) : (s.recomputeMmu).nextPriv = s.nextPriv := by cases s; rfl
@[simp] theorem recomputeMmu_icount (s : State) : (s.recomputeMmu).icount = s.icount := by cases s; rfl
@[simp] theorem recomputeMmu_inclusions (s : State) : (s.recomputeMmu).inclusions = s.inclusions := by cases s; rfl
@[simp] theorem recomputeMmu_stopped (s : State) : (s.recomputeMmu).stopped = s.stopped := by cases s; rfl
@[simp] theorem recomputeMmu_exitCode (s : State) : (s.recomputeMmu).exitCode = s.exitCode := by cases s; rfl
@[simp] theorem recomputeMmu_currentInst (s : State) : (s.recomputeMmu).currentInst = s.currentInst := by cases s; rfl
@[simp] theorem recomputeMmu_xregs (s : State) : (s.recomputeMmu).xregs = s.xregs := by cases s; rfl
@[simp] theorem recomputeMmu_fregs (s : State) : (s.recomputeMmu).fregs = s.fregs := by cases s; rfl
@[simp] theorem recomputeMmu_vregs (s : State) : (s.recomputeMmu).vregs = s.vregs := by cases s; rfl
@[simp] theorem recomputeMmu_csrs (s : State) : (s.recomputeMmu).csrs = s.csrs := by cases s; rfl
@[simp] theorem recomputeMmu_fetchQueue (s : State) : (s.recomputeMmu).fetchQueue = s.fetchQueue := by cases s; rfl
@[simp] theorem recomputeMmu_latch (s : State) : (s.recomputeMmu).latch = s.latch := by cases s; rfl
@[simp] theorem recomputeMmu_cosimCode (s : State) : (s.recomputeMmu).cosimCode = s.cosimCode := by cases s; rfl
@[simp] theorem recomputeMmu_chains (s : State) : (s.recomputeMmu).chains = s.chains := by cases s; rfl
@[simp] theorem recomputeMmu_csrInitUnknown (s : State) : (s.recomputeMmu).csrInitUnknown = s.csrInitUnknown := by cases s; rfl
@[simp] theorem recomputeMmu_mem (s : State) : (s.recomputeMmu).mem = s.mem := by cases s; rfl
@[simp] theorem recomputeMmu_irqInput (s : State) : (s.recomputeMmu).irqInput = s.irqInput := by cases s; rfl
@[simp] theorem recomputeMmu_hookReplies (s : State) : (s.recomputeMmu).hookReplies = s.hookReplies := by cases s; rfl
@[simp] theorem recomputeMmu_cosimReplies (s : State) : (s.recomputeMmu).cosimReplies = s.cosimReplies := by cases s; rfl
@[simp] theorem recomputeMmu_port (s : State) : (s.recomputeMmu).port = s.port := by cases s; rfl
@[simp] theorem recomputeMmu_notices (s : State) : (s.recomputeMmu).notices = s.notices := by cases s; rfl
@[simp] theorem recomputeMmu_reply (s : State) : (s.recomputeMmu).reply = s.reply := by cases s; rfl
@[simp] theorem recomputeMmu_signal (s : State) : (s.recomputeMmu).signal = s.signal := by cases s; rfl
@[simp] theorem recomputeMmu_booted (s : State) : (s.recomputeMmu).booted = s.booted := by cases s; rfl
@[simp] theorem recomputeMmu_staleIsa (s : State) : (s.recomputeMmu).staleIsa = s.staleIsa := by cases s; rfl
@[simp] theorem recomputeMmu_lastUnimplemented (s : State) : (s.recomputeMmu).lastUnimplemented = s.lastUnimplemented := by cases s; rfl
@[simp] theorem recomputeMmu_freeCtr (s : State) : (s.recomputeMmu).freeCtr = s.freeCtr := by cases s; rfl

/-! csrSideEffects -/
@[simp] theorem csrSideEffects_cfg (s : State) (i : CsrIdx) : (s.csrSideEffects i).cfg = s.cfg := by
  simp only [State.csrSideEffects]; split <;> split <;> rfl
@[simp] theorem csrSideEffects_pc (s : State) (i : CsrIdx) : (s.csrSideEffects i).pc = s.pc := by
  simp only [State.csrSideEffects]; split <;> split <;> rfl
@[simp] theorem csrSideEffects_nextPc (s : State) (i : CsrIdx) : (s.csrSideEffects i).nextPc = s.nextPc := by
  simp only [State.csrSideEffects]; split <;> split <;> rfl
@[simp] theorem csrSideEffects_prevPc (s : State) (i : CsrIdx) : (s.csrSideEffects i).prevPc = s.prevPc := by
  simp only [State.csrSideEffects]; split <;> split <;> rfl
@[simp] theorem csrSideEffects_priv (s : State) (i : CsrIdx) : (s.csrSideEffects i).priv = s.priv := by
  simp only [State.csrSideEffects]; split <;> split <;> rfl
@[simp] theorem csrSideEffects_nextPriv (s : State) (i : CsrIdx) : (s.csrSideEffects i).nextPriv = s.nextPriv := by
  simp only [State.csrSideEffects]; split <;> split <;> rfl
@[simp] theorem csrSideEffects_icount (s : State) (i : CsrIdx) : (s.csrSideEffects i).icount = s.icount := by
  simp only [State.csrSideEffects]; split <;> split <;> rfl
@[simp] theorem csrSideEffects_stopped (s : State) (i : CsrIdx) : (s.csrSideEffects i).stopped = s.stopped := by
  simp only [State.csrSideEffects]; split <;> split <;> rfl
@[simp] theorem csrSideEffects_exitCode (s : State) (i : CsrIdx) : (s.csrSideEffects i).exitCode = s.exitCode := by
  simp only [State.csrSideEffects]; split <;> split <;> rfl
@[simp] theorem csrSideEffects_currentInst (s : State) (i : CsrIdx) : (s.csrSideEffects i).currentInst = s.currentInst := by
  simp only [State.csrSideEffects]; split <;> split <;> rfl
@[simp] theorem csrSideEffects_xregs (s : State) (i : CsrIdx) : (s.csrSideEffects i).xregs = s.xregs := by
  simp only [State.csrSideEffects]; split <;> split <;> rfl
@[simp] theorem csrSideEffects_fregs (s : State) (i : CsrIdx) : (s.csrSideEffects i).fregs = s.fregs := by
  simp only [State.csrSideEffects]; split <;> split <;> rfl
@[simp] theorem csrSideEffects_vregs (s : State) (i : CsrIdx) : (s.csrSideEffects i).vregs = s.vregs := by
  simp only [State.csrSideEffects]; split <;> split <;> rfl
@[simp] theorem csrSideEffects_csrs (s : State) (i : CsrIdx) : (s.csrSideEffects i).csrs = s.csrs := by
  simp only [State.csrSideEffects]; split <;> split <;> rfl
@[simp] theorem csrSideEffects_fetchQueue (s : State) (i : CsrIdx) : (s.csrSideEffects i).fetchQueue = s.fetchQueue := by
  simp only [State.csrSideEffects]; split <;> split <;> rfl
@[simp] theorem csrSideEffects_latch (s : State) (i : CsrIdx) : (s.csrSideEffects i).latch = s.latch := by
  simp only [State.csrSideEffects]; split <;> split <;> rfl
@[simp] theorem csrSideEffects_cosimCode (s : State) (i : CsrIdx) : (s.csrSideEffects i).cosimCode = s.cosimCode := by
  simp only [State.csrSideEffects]; split <;> split <;> rfl
@[simp] theorem csrSideEffects_chains (s : State) (i : CsrIdx) : (s.csrSideEffects i).chains = s.chains := by
  simp only [State.csrSideEffects]; split <;> split <;> rfl
@[simp] theorem csrSideEffects_csrInitUnknown (s : State) (i : CsrIdx) : (s.csrSideEffects i).csrInitUnknown = s.csrInitUnknown := by
  simp only [State.csrSideEffects]; split <;> split <;> rfl
@[simp] theorem csrSideEffects_mem (s : State) (i : CsrIdx) : (s.csrSideEffects i).mem = s.mem := by
  simp only [State.csrSideEffects]; split <;> split <;> rfl
@[simp] theorem csrSideEffects_irqInput (s : State) (i : CsrIdx) : (s.csrSideEffects i).irqInput = s.irqInput := by
  simp only [State.csrSideEffects]; split <;> split <;> rfl
@[simp] theorem csrSideEffects_hookReplies (s : State) (i : CsrIdx) : (s.csrSideEffects i).hookReplies = s.hookReplies := by
  simp only [State.csrSideEffects]; split <;> split <;> rfl
@[simp] theorem csrSideEffects_cosimReplies (s : State) (i : CsrIdx) : (s.csrSideEffects i).cosimReplies = s.cosimReplies := by
  simp only [State.csrSideEffects]; split <;> split <;> rfl
@[simp] theorem csrSideEffects_port (s : State) (i : CsrIdx) : (s.csrSideEffects i).port = s.port := by
  simp only [State.csrSideEffects]; split <;> split <;> rfl
@[simp] theorem csrSideEffects_notices (s : State) (i : CsrIdx) : (s.csrSideEffects i).notices = s.notices := by
  simp only [State.csrSideEffects]; split <;> split <;> rfl
@[simp] theorem csrSideEffects_reply (s : State) (i : CsrIdx) : (s.csrSideEffects i).reply = s.reply := by
  simp only [State.csrSideEffects]; split <;> split <;> rfl
@[simp] theorem csrSideEffects_signal (s : State) (i : CsrIdx) : (s.csrSideEffects i).signal = s.signal := by
  simp only [State.csrSideEffects]; split <;> split <;> rfl
@[simp] theorem csrSideEffects_booted (s : State) (i : CsrIdx) : (s.csrSideEffects i).booted = s.booted := by
  simp only [State.csrSideEffects]; split <;> split <;> rfl
@[simp] theorem csrSideEffects_lastUnimplemented (s : State) (i : CsrIdx) : (s.csrSideEffects i).lastUnimplemented = s.lastUnimplemented := by
  simp only [State.csrSideEffects]; split <;> split <;> rfl
@[simp] theorem csrSideEffects_freeCtr (s : State) (i : CsrIdx) : (s.csrSideEffects i).freeCtr = s.freeCtr := by
  simp only [State.csrSideEffects]; split <;> split <;> rfl

/-! csrWrite -/
@[simp] theorem csrWrite_cfg (s : State) (i : CsrIdx) (v : Word) : (s.csrWrite i v).cfg = s.cfg := by simp [State.csrWrite]
@[simp] theorem csrWrite_pc (s : State) (i : CsrIdx) (v : Word) : (s.csrWrite i v).pc = s.pc := by simp [State.csrWrite]
@[simp] theorem csrWrite_nextPc (s : State) (i : CsrIdx) (v : Word) : (s.csrWrite i v).nextPc = s.nextPc := by simp [State.csrWrite]
@[simp] theorem csrWrite_prevPc (s : State) (i : CsrIdx) (v : Word) : (s.csrWrite i v).prevPc = s.prevPc := by simp [State.csrWrite]
@[simp] theorem csrWrite_priv (s : State) (i : CsrIdx) (v : Word) : (s.csrWrite i v).priv = s.priv := by simp [State.csrWrite]
@[simp] theorem csrWrite_nextPriv (s : State) (i : CsrIdx) (v : Word) : (s.csrWrite i v).nextPriv = s.nextPriv := by simp [State.csrWrite]
@[simp] theorem csrWrite_icount (s : State) (i : CsrIdx) (v : Word) : (s.csrWrite i v).icount = s.icount := by simp [State.csrWrite]
@[simp] theorem csrWrite_stopped (s : State) (i : CsrIdx) (v : Word) : (s.csrWrite i v).stopped = s.stopped := by simp [State.csrWrite]
@[simp] theorem csrWrite_exitCode (s : State) (i : CsrIdx) (v : Word) : (s.csrWrite i v).exitCode = s.exitCode := by simp [State.csrWrite]
@[simp] theorem csrWrite_currentInst (s : State) (i : CsrIdx) (v : Word) : (s.csrWrite i v).currentInst = s.currentInst := by simp [State.csrWrite]
@[simp] theorem csrWrite_xregs (s : State) (i : CsrIdx) (v : Word) : (s.csrWrite i v).xregs = s.xregs := by simp [State.csrWrite]
@[simp] theorem csrWrite_fregs (s : State) (i : CsrIdx) (v : Word) : (s.csrWrite i v).fregs = s.fregs := by simp [State.csrWrite]
@[simp] theorem csrWrite_vregs (s : State) (i : CsrIdx) (v : Word) : (s.csrWrite i v).vregs = s.vregs := by simp [State.csrWrite]
@[simp] theorem csrWrite_fetchQueue (s : State) (i : CsrIdx) (v : Word) : (s.csrWrite i v).fetchQueue = s.fetchQueue := by simp [State.csrWrite]
@[simp] theorem csrWrite_latch (s : State) (i : CsrIdx) (v : Word) : (s.csrWrite i v).latch = s.latch := by simp [State.csrWrite]
@[simp] theorem csrWrite_cosimCode (s : State) (i : CsrIdx) (v : Word) : (s.csrWrite i v).cosimCode = s.cosimCode := by simp [State.csrWrite]
@[simp] theorem csrWrite_chains (s : State) (i : CsrIdx) (v : Word) : (s.csrWrite i v).chains = s.chains := by simp [State.csrWrite]
@[simp] theorem csrWrite_csrInitUnknown (s : State) (i : CsrIdx) (v : Word) : (s.csrWrite i v).csrInitUnknown = s.csrInitUnknown := by simp [State.csrWrite]
@[simp] theorem csrWrite_mem (s : State) (i : CsrIdx) (v : Word) : (s.csrWrite i v).mem = s.mem := by simp [State.csrWrite]
@[simp] theorem csrWrite_irqInput (s : State) (i : CsrIdx) (v : Word) : (s.csrWrite i v).irqInput = s.irqInput := by simp [State.csrWrite]
@[simp] theorem csrWrite_hookReplies (s : State) (i : CsrIdx) (v : Word) : (s.csrWrite i v).hookReplies = s.hookReplies := by simp [State.csrWrite]
@[simp] theorem csrWrite_cosimReplies (s : State) (i : CsrIdx) (v : Word) : (s.csrWrite i v).cosimReplies = s.cosimReplies := by simp [State.csrWrite]
@[simp] theorem csrWrite_port (s : State) (i : CsrIdx) (v : Word) : (s.csrWrite i v).port = s.port := by simp [State.csrWrite]
@[simp] theorem csrWrite_notices (s : State) (i : CsrIdx) (v : Word) : (s.csrWrite i v).notices = s.notices := by simp [State.csrWrite]
@[simp] theorem csrWrite_reply (s : State) (i : CsrIdx) (v : Word) : (s.csrWrite i v).reply = s.reply := by simp [State.csrWrite]
@[simp] theorem csrWrite_signal (s : State) (i : CsrIdx) (v : Word) : (s.csrWrite i v).signal = s.signal := by simp [State.csrWrite]
@[simp] theorem csrWrite_booted (s : State) (i : CsrIdx) (v : Word) : (s.csrWrite i v).booted = s.booted := by simp [State.csrWrite]
@[simp] theorem csrWrite_lastUnimplemented (s : State) (i : CsrIdx) (v : Word) : (s.csrWrite i v).lastUnimplemented = s.lastUnimplemented := by simp [State.csrWrite]
@[simp] theorem csrWrite_freeCtr (s : State) (i : CsrIdx) (v : Word) : (s.csrWrite i v).freeCtr = s.freeCtr := by simp [State.csrWrite]

/-! csrPoke -/
@[simp] theorem csrPoke_cfg (s : State) (i : CsrIdx) (v : Word) : (s.csrPoke i v).cfg = s.cfg := by cases s; rfl
@[simp] theorem csrPoke_pc (s : State) (i : CsrIdx) (v : Word) : (s.csrPoke i v).pc = s.pc := by cases s; rfl
@[simp] theorem csrPoke_nextPc (s : State) (i : CsrIdx) (v : Word) : (s.csrPoke i v).nextPc = s.nextPc := by cases s; rfl
@[simp] theorem csrPoke_prevPc (s : State) (i : CsrIdx) (v : Word) : (s.csrPoke i v).prevPc = s.prevPc := by cases s; rfl
@[simp] theorem csrPoke_priv (s : State) (i : CsrIdx) (v : Word) : (s.csrPoke i v).priv = s.priv := by cases s; rfl
@[simp] theorem csrPoke_nextPriv (s : State) (i : CsrIdx) (v : Word) : (s.csrPoke i v).nextPriv = s.nextPriv := by cases s; rfl
@[simp] theorem csrPoke_icount (s : State) (i : CsrIdx) (v : Word) : (s.csrPoke i v).icount = s.icount := by cases s; rfl
@[simp] theorem csrPoke_inclusions (s : State) (i : CsrIdx) (v : Word) : (s.csrPoke i v).inclusions = s.inclusions := by cases s; rfl
@[simp] theorem csrPoke_stopped (s : State) (i : CsrIdx) (v : Word) : (s.csrPoke i v).stopped = s.stopped := by cases s; rfl
@[simp] theorem csrPoke_exitCode (s : State) (i : CsrIdx) (v : Word) : (s.csrPoke i v).exitCode = s.exitCode := by cases s; rfl
@[simp] theorem csrPoke_currentInst (s : State) (i : CsrIdx) (v : Word) : (s.csrPoke i v).currentInst = s.currentInst := by cases s; rfl
@[simp] theorem csrPoke_xregs (s : State) (i : CsrIdx) (v : Word) : (s.csrPoke i v).xregs = s.xregs := by cases s; rfl
@[simp] theorem csrPoke_fregs (s : State) (i : CsrIdx) (v : Word) : (s.csrPoke i v).fregs = s.fregs := by cases s; rfl
@[simp] theorem csrPoke_vregs (s : State) (i : CsrIdx) (v : Word) : (s.csrPoke i v).vregs = s.vregs := by cases s; rfl
@[simp] theorem csrPoke_fetchQueue (s : State) (i : CsrIdx) (v : Word) : (s.csrPoke i v).fetchQueue = s.fetchQueue := by cases s; rfl
@[simp] theorem csrPoke_fetchMode (s : State) (i : CsrIdx) (v : Word) : (s.csrPoke i v).fetchMode = s.fetchMode := by cases s; rfl
@[simp] theorem csrPoke_lsMode (s : State) (i : CsrIdx) (v : Word) : (s.csrPoke i v).lsMode = s.lsMode := by cases s; rfl
@[simp] theorem csrPoke_latch (s : State) (i : CsrIdx) (v : Word) : (s.csrPoke i v).latch = s.latch := by cases s; rfl
@[simp] theorem csrPoke_cosimCode (s : State) (i : CsrIdx) (v : Word) : (s.csrPoke i v).cosimCode = s.cosimCode := by cases s; rfl
@[simp] theorem csrPoke_chains (s : State) (i : CsrIdx) (v : Word) : (s.csrPoke i v).chains = s.chains := by cases s; rfl
@[simp] theorem csrPoke_csrInitUnknown (s : State) (i : CsrIdx) (v : Word) : (s.csrPoke i v).csrInitUnknown = s.csrInitUnknown := by cases s; rfl
@[simp] theorem csrPoke_mem (s : State) (i : CsrIdx) (v : Word) : (s.csrPoke i v).mem = s.mem := by cases s; rfl
@[simp] theorem csrPoke_irqInput (s : State) (i : CsrIdx) (v : Word) : (s.csrPoke i v).irqInput = s.irqInput := by cases s; rfl
@[simp] theorem csrPoke_hookReplies (s : State) (i : CsrIdx) (v : Word) : (s.csrPoke i v).hookReplies = s.hookReplies := by cases s; rfl
@[simp] theorem csrPoke_cosimReplies (s : State) (i : CsrIdx) (v : Word) : (s.csrPoke i v).cosimReplies = s.cosimReplies := by cases s; rfl
@[simp] theorem csrPoke_port (s : State) (i : CsrIdx) (v : Word) : (s.csrPoke i v).port = s.port := by cases s; rfl
@[simp] theorem csrPoke_notices (s : State) (i : CsrIdx) (v : Word) : (s.csrPoke i v).notices = s.notices := by cases s; rfl
@[simp] theorem csrPoke_reply (s : State) (i : CsrIdx) (v : Word) : (s.csrPoke i v).reply = s.reply := by cases s; rfl
@[simp] theorem csrPoke_signal (s : State) (i : CsrIdx) (v : Word) : (s.csrPoke i v).signal = s.signal := by cases s; rfl
@[simp] theorem csrPoke_booted (s : State) (i : CsrIdx) (v : Word) : (s.csrPoke i v).booted = s.booted := by cases s; rfl
@[simp] theorem csrPoke_lastUnimplemented (s : State) (i : CsrIdx) (v : Word) : (s.csrPoke i v).lastUnimplemented = s.lastUnimplemented := by cases s; rfl
@[simp] theorem csrPoke_freeCtr (s : State) (i : CsrIdx) (v : Word) : (s.csrPoke i v).freeCtr = s.freeCtr := by cases s; rfl

/-! fieldWrite -/
@[simp] theorem fieldWrite_cfg (s : State) (i : CsrIdx) (F : Field) (v : Word) : (s.fieldWrite i F v).cfg = s.cfg := by simp [State.fieldWrite]
@[simp] theorem fieldWrite_pc (s : State) (i : CsrIdx) (F : Field) (v : Word) : (s.fieldWrite i F v).pc = s.pc := by simp [State.fieldWrite]
@[simp] theorem fieldWrite_nextPc (s : State) (i : CsrIdx) (F : Field) (v : Word) : (s.fieldWrite i F v).nextPc = s.nextPc := by simp [State.fieldWrite]
@[simp] theorem fieldWrite_prevPc (s : State) (i : CsrIdx) (F : Field) (v : Word) : (s.fieldWrite i F v).prevPc = s.prevPc := by simp [State.fieldWrite]
@[simp] theorem fieldWrite_priv (s : State) (i : CsrIdx) (F : Field) (v : Word) : (s.fieldWrite i F v).priv = s.priv := by simp [State.fieldWrite]
@[simp] theorem fieldWrite_nextPriv (s : State) (i : CsrIdx) (F : Field) (v : Word) : (s.fieldWrite i F v).nextPriv = s.nextPriv := by simp [State.fieldWrite]
@[simp] theorem fieldWrite_icount (s : State) (i : CsrIdx) (F : Field) (v : Word) : (s.fieldWrite i F v).icount = s.icount := by simp [State.fieldWrite]
@[simp] theorem fieldWrite_stopped (s : State) (i : CsrIdx) (F : Field) (v : Word) : (s.fieldWrite i F v).stopped = s.stopped := by simp [State.fieldWrite]
@[simp] theorem fieldWrite_exitCode (s : State) (i : CsrIdx) (F : Field) (v : Word) : (s.fieldWrite i F v).exitCode = s.exitCode := by simp [State.fieldWrite]
@[simp] theorem fieldWrite_currentInst (s : State) (i : CsrIdx) (F : Field) (v : Word) : (s.fieldWrite i F v).currentInst = s.currentInst := by simp [State.fieldWrite]
@[simp] theorem fieldWrite_xregs (s : State) (i : CsrIdx) (F : Field) (v : Word) : (s.fieldWrite i F v).xregs = s.xregs := by simp [State.fieldWrite]
@[simp] theorem fieldWrite_fregs (s : State) (i : CsrIdx) (F : Field) (v : Word) : (s.fieldWrite i F v).fregs = s.fregs := by simp [State.fieldWrite]
@[simp] theorem fieldWrite_vregs (s : State) (i : CsrIdx) (F : Field) (v : Word) : (s.fieldWrite i F v).vregs = s.vregs := by simp [State.fieldWrite]
@[simp] theorem fieldWrite_fetchQueue (s : State) (i : CsrIdx) (F : Field) (v : Word) : (s.fieldWrite i F v).fetchQueue = s.fetchQueue := by simp [State.fieldWrite]
@[simp] theorem fieldWrite_latch (s : State) (i : CsrIdx) (F : Field) (v : Word) : (s.fieldWrite i F v).latch = s.latch := by simp [State.fieldWrite]
@[simp] theorem fieldWrite_cosimCode (s : State) (i : CsrIdx) (F : Field) (v : Word) : (s.fieldWrite i F v).cosimCode = s.cosimCode := by simp [State.fieldWrite]
@[simp] theorem fieldWrite_chains (s : State) (i : CsrIdx) (F : Field) (v : Word) : (s.fieldWrite i F v).chains = s.chains := by simp [State.fieldWrite]
@[simp] theorem fieldWrite_csrInitUnknown (s : State) (i : CsrIdx) (F : Field) (v : Word) : (s.fieldWrite i F v).csrInitUnknown = s.csrInitUnknown := by simp [State.fieldWrite]
@[simp] theorem fieldWrite_mem (s : State) (i : CsrIdx) (F : Field) (v : Word) : (s.fieldWrite i F v).mem = s.mem := by simp [State.fieldWrite]
@[simp] theorem fieldWrite_irqInput (s : State) (i : CsrIdx) (F : Field) (v : Word) : (s.fieldWrite i F v).irqInput = s.irqInput := by simp [State.fieldWrite]
@[simp] theorem fieldWrite_hookReplies (s : State) (i : CsrIdx) (F : Field) (v : Word) : (s.fieldWrite i F v).hookReplies = s.hookReplies := by simp [State.fieldWrite]
@[simp] theorem fieldWrite_cosimReplies (s : State) (i : CsrIdx) (F : Field) (v : Word) : (s.fieldWrite i F v).cosimReplies = s.cosimReplies := by simp [State.fieldWrite]
@[simp] theorem fieldWrite_port (s : State) (i : CsrIdx) (F : Field) (v : Word) : (s.fieldWrite i F v).port = s.port := by simp [State.fieldWrite]
@[simp] theorem fieldWrite_notices (s : State) (i : CsrIdx) (F : Field) (v : Word) : (s.fieldWrite i F v).notices = s.notices := by simp [State.fieldWrite]
@[simp] theorem fieldWrite_reply (s : State) (i : CsrIdx) (F : Field) (v : Word) : (s.fieldWrite i F v).reply = s.reply := by simp [State.fieldWrite]
@[simp] theorem fieldWrite_signal (s : State) (i : CsrIdx) (F : Field) (v : Word) : (s.fieldWrite i F v).signal = s.signal := by simp [State.fieldWrite]
@[simp] theorem fieldWrite_booted (s : State) (i : CsrIdx) (F : Field) (v : Word) : (s.fieldWrite i F v).booted = s.booted := by simp [State.fieldWrite]
@[simp] theorem fieldWrite_lastUnimplemented (s : State) (i : CsrIdx) (F : Field) (v : Word) : (s.fieldWrite i F v).lastUnimplemented = s.lastUnimplemented := by simp [State.fieldWrite]
@[simp] theorem fieldWrite_freeCtr (s : State) (i : CsrIdx) (F : Field) (v : Word) : (s.fieldWrite i F v).freeCtr = s.freeCtr := by simp [State.fieldWrite]

/-! sampled -/
@[simp] theorem sampled_cfg (s : State) : (s.sampled).cfg = s.cfg := by cases s; rfl
@[simp] theorem sampled_pc (s : State) : (s.sampled).pc = s.pc := by cases s; rfl
@[simp] theorem sampled_nextPc (s : State) : (s.sampled).nextPc = s.nextPc := by cases s; rfl
@[simp] theorem sampled_prevPc (s : State) : (s.sampled).prevPc = s.prevPc := by cases s; rfl
@[simp] theorem sampled_priv (s : State) : (s.sampled).priv = s.priv := by cases s; rfl
@[simp] theorem sampled_icount (s : State) : (s.sampled).icount = s.icount := by cases s; rfl
@[simp] theorem sampled_inclusions (s : State) : (s.sampled).inclusions = s.inclusions := by cases s; rfl
@[simp] theorem sampled_stopped (s : State) : (s.sampled).stopped = s.stopped := by cases s; rfl
@[simp] theorem sampled_exitCode (s : State) : (s.sampled).exitCode = s.exitCode := by cases s; rfl
@[simp] theorem sampled_currentInst (s : State) : (s.sampled).currentInst = s.currentInst := by cases s; rfl
@[simp] theorem sampled_xregs (s : State) : (s.sampled).xregs = s.xregs := by cases s; rfl
@[simp] theorem sampled_fregs (s : State) : (s.sampled).fregs = s.fregs := by cases s; rfl
@[simp] theorem sampled_vregs (s : State) : (s.sampled).vregs = s.vregs := by cases s; rfl
@[simp] theorem sampled_csrs (s : State) : (s.sampled).csrs = s.csrs := by cases s; rfl
@[simp] theorem sampled_fetchQueue (s : State) : (s.sampled).fetchQueue = s.fetchQueue := by cases s; rfl
@[simp] theorem sampled_fetchMode (s : State) : (s.sampled).fetchMode = s.fetchMode := by cases s; rfl
@[simp] theorem sampled_lsMode (s : State) : (s.sampled).lsMode = s.lsMode := by cases s; rfl
@[simp] theorem sampled_latch (s : State) : (s.sampled).latch = s.latch := by cases s; rfl
@[simp] theorem sampled_cosimCode (s : State) : (s.sampled).cosimCode = s.cosimCode := by cases s; rfl
@[simp] theorem sampled_chains (s : State) : (s.sampled).chains = s.chains := by cases s; rfl
@[simp] theorem sampled_csrInitUnknown (s : State) : (s.sampled).csrInitUnknown = s.csrInitUnknown := by cases s; rfl
@[simp] theorem sampled_mem (s : State) : (s.sampled).mem = s.mem := by cases s; rfl
@[simp] theorem sampled_hookReplies (s : State) : (s.sampled).hookReplies = s.hookReplies := by cases s; rfl
@[simp] theorem sampled_cosimReplies (s : State) : (s.sampled).cosimReplies = s.cosimReplies := by cases s; rfl
@[simp] theorem sampled_port (s : State) : (s.sampled).port = s.port := by cases s; rfl
@[simp] theorem sampled_notices (s : State) : (s.sampled).notices = s.notices := by cases s; rfl
@[simp] theorem sampled_reply (s : State) : (s.sampled).reply = s.reply := by cases s; rfl
@[simp] theorem sampled_signal (s : State) : (s.sampled).signal = s.signal := by cases s; rfl
@[simp] theorem sampled_booted (s : State) : (s.sampled).booted = s.booted := by cases s; rfl
@[simp] theorem sampled_staleIsa (s : State) : (s.sampled).staleIsa = s.staleIsa := by cases s; rfl
@[simp] theorem sampled_staleMmu (s : State) : (s.sampled).staleMmu = s.staleMmu := by cases s; rfl
@[simp] theorem sampled_lastUnimplemented (s : State) : (s.sampled).lastUnimplemented = s.lastUnimplemented := by cases s; rfl
@[simp] theorem sampled_freeCtr (s : State) : (s.sampled).freeCtr = s.freeCtr := by cases s; rfl

/-! loadInst -/
@[simp] theorem loadInst_cfg (ci : CurrentInst) (s : State) : (loadInst ci s).cfg = s.cfg := by cases s; rfl
@[simp] theorem loadInst_pc (ci : CurrentInst) (s : State) : (loadInst ci s).pc = s.pc := by cases s; rfl
@[simp] theorem loadInst_prevPc (ci : CurrentInst) (s : State) : (loadInst ci s).prevPc = s.prevPc := by cases s; rfl
@[simp] theorem loadInst_priv (ci : CurrentInst) (s : State) : (loadInst ci s).priv = s.priv := by cases s; rfl
@[simp] theorem loadInst_nextPriv (ci : CurrentInst) (s : State) : (loadInst ci s).nextPriv = s.nextPriv := by cases s; rfl
@[simp] theorem loadInst_icount (ci : CurrentInst) (s : State) : (loadInst ci s).icount = s.icount := by cases s; rfl
@[simp] theorem loadInst_inclusions (ci : CurrentInst) (s : State) : (loadInst ci s).inclusions = s.inclusions := by cases s; rfl
@[simp] theorem loadInst_stopped (ci : CurrentInst) (s : State) : (loadInst ci s).stopped = s.stopped := by cases s; rfl
@[simp] theorem loadInst_exitCode (ci : CurrentInst) (s : State) : (loadInst ci s).exitCode = s.exitCode := by cases s; rfl
@[simp] theorem loadInst_xregs (ci : CurrentInst) (s : State) : (loadInst ci s).xregs = s.xregs := by cases s; rfl
@[simp] theorem loadInst_fregs (ci : CurrentInst) (s : State) : (loadInst ci s).fregs = s.fregs := by cases s; rfl
@[simp] theorem loadInst_vregs (ci : CurrentInst) (s : State) : (loadInst ci s).vregs = s.vregs := by cases s; rfl
@[simp] theorem loadInst_csrs (ci : CurrentInst) (s : State) : (loadInst ci s).csrs = s.csrs := by cases s; rfl
@[simp] theorem loadInst_fetchQueue (ci : CurrentInst) (s : State) : (loadInst ci s).fetchQueue = s.fetchQueue := by cases s; rfl
@[simp] theorem loadInst_fetchMode (ci : CurrentInst) (s : State) : (loadInst ci s).fetchMode = s.fetchMode := by cases s; rfl
@[simp] theorem loadInst_lsMode (ci : CurrentInst) (s : State) : (loadInst ci s).lsMode = s.lsMode := by cases s; rfl
@[simp] theorem loadInst_latch (ci : CurrentInst) (s : State) : (loadInst ci s).latch = s.latch := by cases s; rfl
@[simp] theorem loadInst_cosimCode (ci : CurrentInst) (s : State) : (loadInst ci s).cosimCode = s.cosimCode := by cases s; rfl
@[simp] theorem loadInst_chains (ci : CurrentInst) (s : State) : (loadInst ci s).chains = s.chains := by cases s; rfl
@[simp] theorem loadInst_csrInitUnknown (ci : CurrentInst) (s : State) : (loadInst ci s).csrInitUnknown = s.csrInitUnknown := by cases s; rfl
@[simp] theorem loadInst_mem (ci : CurrentInst) (s : State) : (loadInst ci s).mem = s.mem := by cases s; rfl
@[simp] theorem loadInst_irqInput (ci : CurrentInst) (s : State) : (loadInst ci s).irqInput = s.irqInput := by cases s; rfl
@[simp] theorem loadInst_hookReplies (ci : CurrentInst) (s : State) : (loadInst ci s).hookReplies = s.hookReplies := by cases s; rfl
@[simp] theorem loadInst_cosimReplies (ci : CurrentInst) (s : State) : (loadInst ci s).cosimReplies = s.cosimReplies := by cases s; rfl
@[simp] theorem loadInst_port (ci : CurrentInst) (s : State) : (loadInst ci s).port = s.port := by cases s; rfl
@[simp] theorem loadInst_notices (ci : CurrentInst) (s : State) : (loadInst ci s).notices = s.notices := by cases s; rfl
@[simp] theorem loadInst_reply (ci : CurrentInst) (s : State) : (loadInst ci s).reply = s.reply := by cases s; rfl
@[simp] theorem loadInst_signal (ci : CurrentInst) (s : State) : (loadInst ci s).signal = s.signal := by cases s; rfl
@[simp] theorem loadInst_booted (ci : CurrentInst) (s : State) : (loadInst ci s).booted = s.booted := by cases s; rfl
@[simp] theorem loadInst_staleIsa (ci : CurrentInst) (s : State) : (loadInst ci s).staleIsa = s.staleIsa := by cases s; rfl
@[simp] theorem loadInst_staleMmu (ci : CurrentInst) (s : State) : (loadInst ci s).staleMmu = s.staleMmu := by cases s; rfl
@[simp] theorem loadInst_lastUnimplemented (ci : CurrentInst) (s : State) : (loadInst ci s).lastUnimplemented = s.lastUnimplemented := by cases s; rfl
@[simp] theorem loadInst_freeCtr (ci : CurrentInst) (s : State) : (loadInst ci s).freeCtr = s.freeCtr := by cases s; rfl

/-! setNextPc -/
@[simp] theorem setNextPc_cfg (s : State) (v : Word) : (s.setNextPc v).cfg = s.cfg := by cases s; rfl
@[simp] theorem setNextPc_pc (s : State) (v : Word) : (s.setNextPc v).pc = s.pc := by cases s; rfl
@[simp] theorem setNextPc_prevPc (s : State) (v : Word) : (s.setNextPc v).prevPc = s.prevPc := by cases s; rfl
@[simp] theorem setNextPc_priv (s : State) (v : Word) : (s.setNextPc v).priv = s.priv := by cases s; rfl
@[simp] theorem setNextPc_nextPriv (s : State) (v : Word) : (s.setNextPc v).nextPriv = s.nextPriv := by cases s; rfl
@[simp] theorem setNextPc_icount (s : State) (v : Word) : (s.setNextPc v).icount = s.icount := by cases s; rfl
@[simp] theorem setNextPc_inclusions (s : State) (v : Word) : (s.setNextPc v).inclusions = s.inclusions := by cases s; rfl
@[simp] theorem setNextPc_stopped (s : State) (v : Word) : (s.setNextPc v).stopped = s.stopped := by cases s; rfl
@[simp] theorem setNextPc_exitCode (s : State) (v : Word) : (s.setNextPc v).exitCode = s.exitCode := by cases s; rfl
@[simp] theorem setNextPc_currentInst (s : State) (v : Word) : (s.setNextPc v).currentInst = s.currentInst := by cases s; rfl
@[simp] theorem setNextPc_xregs (s : State) (v : Word) : (s.setNextPc v).xregs = s.xregs := by cases s; rfl
@[simp] theorem setNextPc_fregs (s : State) (v : Word) : (s.setNextPc v).fregs = s.fregs := by cases s; rfl
@[simp] theorem setNextPc_vregs (s : State) (v : Word) : (s.setNextPc v).vregs = s.vregs := by cases s; rfl
@[simp] theorem setNextPc_csrs (s : State) (v : Word) : (s.setNextPc v).csrs = s.csrs := by cases s; rfl
@[simp] theorem setNextPc_fetchQueue (s : State) (v : Word) : (s.setNextPc v).fetchQueue = s.fetchQueue := by cases s; rfl
@[simp] theorem setNextPc_fetchMode (s : State) (v : Word) : (s.setNextPc v).fetchMode = s.fetchMode := by cases s; rfl
@[simp] theorem setNextPc_lsMode (s : State) (v : Word) : (s.setNextPc v).lsMode = s.lsMode := by cases s; rfl
@[simp] theorem setNextPc_latch (s : State) (v : Word) : (s.setNextPc v).latch = s.latch := by cases s; rfl
@[simp] theorem setNextPc_cosimCode (s : State) (v : Word) : (s.setNextPc v).cosimCode = s.cosimCode := by cases s; rfl
@[simp] theorem setNextPc_chains (s : State) (v : Word) : (s.setNextPc v).chains = s.chains := by cases s; rfl
@[simp] theorem setNextPc_csrInitUnknown (s : State) (v : Word) : (s.setNextPc v).csrInitUnknown = s.csrInitUnknown := by cases s; rfl
@[simp] theorem setNextPc_mem (s : State) (v : Word) : (s.setNextPc v).mem = s.mem := by cases s; rfl
@[simp] theorem setNextPc_irqInput (s : State) (v : Word) : (s.setNextPc v).irqInput = s.irqInput := by cases s; rfl
@[simp] theorem setNextPc_hookReplies (s : State) (v : Word) : (s.setNextPc v).hookReplies = s.hookReplies := by cases s; rfl
@[simp] theorem setNextPc_cosimReplies (s : State) (v : Word) : (s.setNextPc v).cosimReplies = s.cosimReplies := by cases s; rfl
@[simp] theorem setNextPc_port (s : State) (v : Word) : (s.setNextPc v).port = s.port := by cases s; rfl
@[simp] theorem setNextPc_notices (s : State) (v : Word) : (s.setNextPc v).notices = s.notices := by cases s; rfl
@[simp] theorem setNextPc_reply (s : State) (v : Word) : (s.setNextPc v).reply = s.reply := by cases s; rfl
@[simp] theorem setNextPc_signal (s : State) (v : Word) : (s.setNextPc v).signal = s.signal := by cases s; rfl
@[simp] theorem setNextPc_booted (s : State) (v : Word) : (s.setNextPc v).booted = s.booted := by cases s; rfl
@[simp] theorem setNextPc_staleIsa (s : State) (v : Word) : (s.setNextPc v).staleIsa = s.staleIsa := by cases s; rfl
@[simp] theorem setNextPc_staleMmu (s : State) (v : Word) : (s.setNextPc v).staleMmu = s.staleMmu := by cases s; rfl
@[simp] theorem setNextPc_lastUnimplemented (s : State) (v : Word) : (s.setNextPc v).lastUnimplemented = s.lastUnimplemented := by cases s; rfl
@[simp] theorem setNextPc_freeCtr (s : State) (v : Word) : (s.setNextPc v).freeCtr = s.freeCtr := by cases s; rfl

/-! setNextPriv -/
@[simp] theorem setNextPriv_cfg (s : State) (p : Priv) : (s.setNextPriv p).cfg = s.cfg := by cases s; rfl
@[simp] theorem setNextPriv_pc (s : State) (p : Priv) : (s.setNextPriv p).pc = s.pc := by cases s; rfl
@[simp] theorem setNextPriv_nextPc (s : State) (p : Priv) : (s.setNextPriv p).nextPc = s.nextPc := by cases s; rfl
@[simp] theorem setNextPriv_prevPc (s : State) (p : Priv) : (s.setNextPriv p).prevPc = s.prevPc := by cases s; rfl
@[simp] theorem setNextPriv_priv (s : State) (p : Priv) : (s.setNextPriv p).priv = s.priv := by cases s; rfl
@[simp] theorem setNextPriv_icount (s : State) (p : Priv) : (s.setNextPriv p).icount = s.icount := by cases s; rfl
@[simp] theorem setNextPriv_inclusions (s : State) (p : Priv) : (s.setNextPriv p).inclusions = s.inclusions := by cases s; rfl
@[simp] theorem setNextPriv_stopped (s : State) (p : Priv) : (s.setNextPriv p).stopped = s.stopped := by cases s; rfl
@[simp] theorem setNextPriv_exitCode (s : State) (p : Priv) : (s.setNextPriv p).exitCode = s.exitCode := by cases s; rfl
@[simp] theorem setNextPriv_currentInst (s : State) (p : Priv) : (s.setNextPriv p).currentInst = s.currentInst := by cases s; rfl
@[simp] theorem setNextPriv_xregs (s : State) (p : Priv) : (s.setNextPriv p).xregs = s.xregs := by cases s; rfl
@[simp] theorem setNextPriv_fregs (s : State) (p : Priv) : (s.setNextPriv p).fregs = s.fregs := by cases s; rfl
@[simp] theorem setNextPriv_vregs (s : State) (p : Priv) : (s.setNextPriv p).vregs = s.vregs := by cases s; rfl
@[simp] theorem setNextPriv_csrs (s : State) (p : Priv) : (s.setNextPriv p).csrs = s.csrs := by cases s; rfl
@[simp] theorem setNextPriv_fetchQueue (s : State) (p : Priv) : (s.setNextPriv p).fetchQueue = s.fetchQueue := by cases s; rfl
@[simp] theorem setNextPriv_fetchMode (s : State) (p : Priv) : (s.setNextPriv p).fetchMode = s.fetchMode := by cases s; rfl
@[simp] theorem setNextPriv_lsMode (s : State) (p : Priv) : (s.setNextPriv p).lsMode = s.lsMode := by cases s; rfl
@[simp] theorem setNextPriv_latch (s : State) (p : Priv) : (s.setNextPriv p).latch = s.latch := by cases s; rfl
@[simp] theorem setNextPriv_cosimCode (s : State) (p : Priv) : (s.setNextPriv p).cosimCode = s.cosimCode := by cases s; rfl
@[simp] theorem setNextPriv_chains (s : State) (p : Priv) : (s.setNextPriv p).chains = s.chains := by cases s; rfl
@[simp] theorem setNextPriv_csrInitUnknown (s : State) (p : Priv) : (s.setNextPriv p).csrInitUnknown = s.csrInitUnknown := by cases s; rfl
@[simp] theorem setNextPriv_mem (s : State) (p : Priv) : (s.setNextPriv p).mem = s.mem := by cases s; rfl
@[simp] theorem setNextPriv_irqInput (s : State) (p : Priv) : (s.setNextPriv p).irqInput = s.irqInput := by cases s; rfl
@[simp] theorem setNextPriv_hookReplies (s : State) (p : Priv) : (s.setNextPriv p).hookReplies = s.hookReplies := by cases s; rfl
@[simp] theorem setNextPriv_cosimReplies (s : State) (p : Priv) : (s.setNextPriv p).cosimReplies = s.cosimReplies := by cases s; rfl
@[simp] theorem setNextPriv_port (s : State) (p : Priv) : (s.setNextPriv p).port = s.port := by cases s; rfl
@[simp] theorem setNextPriv_notices (s : State) (p : Priv) : (s.setNextPriv p).notices = s.notices := by cases s; rfl
@[simp] theorem setNextPriv_reply (s : State) (p : Priv) : (s.setNextPriv p).reply = s.reply := by cases s; rfl
@[simp] theorem setNextPriv_signal (s : State) (p : Priv) : (s.setNextPriv p).signal = s.signal := by cases s; rfl
@[simp] theorem setNextPriv_booted (s : State) (p : Priv) : (s.setNextPriv p).booted = s.booted := by cases s; rfl
@[simp] theorem setNextPriv_staleIsa (s : State) (p : Priv) : (s.setNextPriv p).staleIsa = s.staleIsa := by cases s; rfl
@[simp] theorem setNextPriv_staleMmu (s : State) (p : Priv) : (s.setNextPriv p).staleMmu = s.staleMmu := by cases s; rfl
@[simp] theorem setNextPriv_lastUnimplemented (s : State) (p : Priv) : (s.setNextPriv p).lastUnimplemented = s.lastUnimplemented := by cases s; rfl
@[simp] theorem setNextPriv_freeCtr (s : State) (p : Priv) : (s.setNextPriv p).freeCtr = s.freeCtr := by cases s; rfl

/-! clearVirtualization -/
@[simp] theorem clearVirtualization_cfg (s : State) : (clearVirtualization s).cfg = s.cfg := by
  unfold clearVirtualization; split <;> simp
@[simp] theorem clearVirtualization_pc (s : State) : (clearVirtualization s).pc = s.pc := by
  unfold clearVirtualization; split <;> simp
@[simp] theorem clearVirtualization_nextPc (s : State) : (clearVirtualization s).nextPc = s.nextPc := by
  unfold clearVirtualization; split <;> simp
@[simp] theorem clearVirtualization_prevPc (s : State) : (clearVirtualization s).prevPc = s.prevPc := by
  unfold clearVirtualization; split <;> simp
@[simp] theorem clearVirtualization_priv (s : State) : (clearVirtualization s).priv = s.priv := by
  unfold clearVirtualization; split <;> simp
@[simp] theorem clearVirtualization_nextPriv (s : State) : (clearVirtualization s).nextPriv = s.nextPriv := by
  unfold clearVirtualization; split <;> simp
@[simp] theorem clearVirtualization_icount (s : State) : (clearVirtualization s).icount = s.icount := by
  unfold clearVirtualization; split <;> simp
@[simp] theorem clearVirtualization_stopped (s : State) : (clearVirtualization s).stopped = s.stopped := by
  unfold clearVirtualization; split <;> simp
@[simp] theorem clearVirtualization_exitCode (s : State) : (clearVirtualization s).exitCode = s.exitCode := by
  unfold clearVirtualization; split <;> simp
@[simp] theorem clearVirtualization_currentInst (s : State) : (clearVirtualization s).currentInst = s.currentInst := by
  unfold clearVirtualization; split <;> simp
@[simp] theorem clearVirtualization_xregs (s : State) : (clearVirtualization s).xregs = s.xregs := by
  unfold clearVirtualization; split <;> simp
@[simp] theorem clearVirtualization_fregs (s : State) : (clearVirtualization s).fregs = s.fregs := by
  unfold clearVirtualization; split <;> simp
@[simp] theorem clearVirtualization_vregs (s : State) : (clearVirtualization s).vregs = s.vregs := by
  unfold clearVirtualization; split <;> simp
@[simp] theorem clearVirtualization_fetchQueue (s : State) : (clearVirtualization s).fetchQueue = s.fetchQueue := by
  unfold clearVirtualization; split <;> simp
@[simp] theorem clearVirtualization_latch (s : State) : (clearVirtualization s).latch = s.latch := by
  unfold clearVirtualization; split <;> simp
@[simp] theorem clearVirtualization_cosimCode (s : State) : (clearVirtualization s).cosimCode = s.cosimCode := by
  unfold clearVirtualization; split <;> simp
@[simp] theorem clearVirtualization_chains (s : State) : (clearVirtualization s).chains = s.chains := by
  unfold clearVirtualization; split <;> simp
@[simp] theorem clearVirtualization_csrInitUnknown (s : State) : (clearVirtualization s).csrInitUnknown = s.csrInitUnknown := by
  unfold clearVirtualization; split <;> simp
@[simp] theorem clearVirtualization_mem (s : State) : (clearVirtualization s).mem = s.mem := by
  unfold clearVirtualization; split <;> simp
@[simp] theorem clearVirtualization_irqInput (s : State) : (clearVirtualization s).irqInput = s.irqInput := by
  unfold clearVirtualization; split <;> simp
@[simp] theorem clearVirtualization_hookReplies (s : State) : (clearVirtualization s).hookReplies = s.hookReplies := by
  unfold clearVirtualization; split <;> simp
@[simp] theorem clearVirtualization_cosimReplies (s : State) : (clearVirtualization s).cosimReplies = s.cosimReplies := by
  unfold clearVirtualization; split <;> simp
@[simp] theorem clearVirtualization_port (s : State) : (clearVirtualization s).port = s.port := by
  unfold clearVirtualization; split <;> simp
@[simp] theorem clearVirtualization_notices (s : State) : (clearVirtualization s).notices = s.notices := by
  unfold clearVirtualization; split <;> simp
@[simp] theorem clearVirtualization_reply (s : State) : (clearVirtualization s).reply = s.reply := by
  unfold clearVirtualization; split <;> simp
@[simp] theorem clearVirtualization_signal (s : State) : (clearVirtualization s).signal = s.signal := by
  unfold clearVirtualization; split <;> simp
@[simp] theorem clearVirtualization_booted (s : State) : (clearVirtualization s).booted = s.booted := by
  unfold clearVirtualization; split <;> simp
@[simp] theorem clearVirtualization_lastUnimplemented (s : State) : (clearVirtualization s).lastUnimplemented = s.lastUnimplemented := by
  unfold clearVirtualization; split <;> simp
@[simp] theorem clearVirtualization_freeCtr (s : State) : (clearVirtualization s).freeCtr = s.freeCtr := by
  unfold clearVirtualization; split <;> simp

/-! cosimSync -/
@[simp] theorem cosimSync_cfg (s : State) : (cosimSync s).cfg = s.cfg := by cases s; rfl
@[simp] theorem cosimSync_pc (s : State) : (cosimSync s).pc = s.pc := by cases s; rfl
@[simp] theorem cosimSync_nextPc (s : State) : (cosimSync s).nextPc = s.nextPc := by cases s; rfl
@[simp] theorem cosimSync_prevPc (s : State) : (cosimSync s).prevPc = s.prevPc := by cases s; rfl
@[simp] theorem cosimSync_priv (s : State) : (cosimSync s).priv = s.priv := by cases s; rfl
@[simp] theorem cosimSync_nextPriv (s : State) : (cosimSync s).nextPriv = s.nextPriv := by cases s; rfl
@[simp] theorem cosimSync_icount (s : State) : (cosimSync s).icount = s.icount := by cases s; rfl
@[simp] theorem cosimSync_inclusions (s : State) : (cosimSync s).inclusions = s.inclusions := by cases s; rfl
@[simp] theorem cosimSync_stopped (s : State) : (cosimSync s).stopped = s.stopped := by cases s; rfl
@[simp] theorem cosimSync_exitCode (s : State) : (cosimSync s).exitCode = s.exitCode := by cases s; rfl
@[simp] theorem cosimSync_currentInst (s : State) : (cosimSync s).currentInst = s.currentInst := by cases s; rfl
@[simp] theorem cosimSync_xregs (s : State) : (cosimSync s).xregs = s.xregs := by cases s; rfl
@[simp] theorem cosimSync_fregs (s : State) : (cosimSync s).fregs = s.fregs := by cases s; rfl
@[simp] theorem cosimSync_vregs (s : State) : (cosimSync s).vregs = s.vregs := by cases s; rfl
@[simp] theorem cosimSync_csrs (s : State) : (cosimSync s).csrs = s.csrs := by cases s; rfl
@[simp] theorem cosimSync_fetchQueue (s : State) : (cosimSync s).fetchQueue = s.fetchQueue := by cases s; rfl
@[simp] theorem cosimSync_fetchMode (s : State) : (cosimSync s).fetchMode = s.fetchMode := by cases s; rfl
@[simp] theorem cosimSync_lsMode (s : State) : (cosimSync s).lsMode = s.lsMode := by cases s; rfl
@[simp] theorem cosimSync_latch (s : State) : (cosimSync s).latch = s.latch := by cases s; rfl
@[simp] theorem cosimSync_chains (s : State) : (cosimSync s).chains = s.chains := by cases s; rfl
@[simp] theorem cosimSync_csrInitUnknown (s : State) : (cosimSync s).csrInitUnknown = s.csrInitUnknown := by cases s; rfl
@[simp] theorem cosimSync_mem (s : State) : (cosimSync s).mem = s.mem := by cases s; rfl
@[simp] theorem cosimSync_irqInput (s : State) : (cosimSync s).irqInput = s.irqInput := by cases s; rfl
@[simp] theorem cosimSync_hookReplies (s : State) : (cosimSync s).hookReplies = s.hookReplies := by cases s; rfl
@[simp] theorem cosimSync_port (s : State) : (cosimSync s).port = s.port := by cases s; rfl
@[simp] theorem cosimSync_notices (s : State) : (cosimSync s).notices = s.notices := by cases s; rfl
@[simp] theorem cosimSync_reply (s : State) : (cosimSync s).reply = s.reply := by cases s; rfl
@[simp] theorem cosimSync_signal (s : State) : (cosimSync s).signal = s.signal := by cases s; rfl
@[simp] theorem cosimSync_booted (s : State) : (cosimSync s).booted = s.booted := by cases s; rfl
@[simp] theorem cosimSync_staleIsa (s : State) : (cosimSync s).staleIsa = s.staleIsa := by cases s; rfl
@[simp] theorem cosimSync_staleMmu (s : State) : (cosimSync s).staleMmu = s.staleMmu := by cases s; rfl
@[simp] theorem cosimSync_lastUnimplemented (s : State) : (cosimSync s).lastUnimplemented = s.lastUnimplemented := by cases s; rfl
@[simp] theorem cosimSync_freeCtr (s : State) : (cosimSync s).freeCtr = s.freeCtr := by cases s; rfl

/-! clearCause -/
@[simp] theorem clearCause_cfg (s : State) : (clearCause s).cfg = s.cfg := by cases s; rfl
@[simp] theorem clearCause_pc (s : State) : (clearCause s).pc = s.pc := by cases s; rfl
@[simp] theorem clearCause_nextPc (s : State) : (clearCause s).nextPc = s.nextPc := by cases s; rfl
@[simp] theorem clearCause_prevPc (s : State) : (clearCause s).prevPc = s.prevPc := by cases s; rfl
@[simp] theorem clearCause_priv (s : State) : (clearCause s).priv = s.priv := by cases s; rfl
@[simp] theorem clearCause_nextPriv (s : State) : (clearCause s).nextPriv = s.nextPriv := by cases s; rfl
@[simp] theorem clearCause_icount (s : State) : (clearCause s).icount = s.icount := by cases s; rfl
@[simp] theorem clearCause_inclusions (s : State) : (clearCause s).inclusions = s.inclusions := by cases s; rfl
@[simp] theorem clearCause_stopped (s : State) : (clearCause s).stopped = s.stopped := by cases s; rfl
@[simp] theorem clearCause_exitCode (s : State) : (clearCause s).exitCode = s.exitCode := by cases s; rfl
@[simp] theorem clearCause_currentInst (s : State) : (clearCause s).currentInst = s.currentInst := by cases s; rfl
@[simp] theorem clearCause_xregs (s : State) : (clearCause s).xregs = s.xregs := by cases s; rfl
@[simp] theorem clearCause_fregs (s : State) : (clearCause s).fregs = s.fregs := by cases s; rfl
@[simp] theorem clearCause_vregs (s : State) : (clearCause s).vregs = s.vregs := by cases s; rfl
@[simp] theorem clearCause_csrs (s : State) : (clearCause s).csrs = s.csrs := by cases s; rfl
@[simp] theorem clearCause_fetchQueue (s : State) : (clearCause s).fetchQueue = s.fetchQueue := by cases s; rfl
@[simp] theorem clearCause_fetchMode (s : State) : (clearCause s).fetchMode = s.fetchMode := by cases s; rfl
@[simp] theorem clearCause_lsMode (s : State) : (clearCause s).lsMode = s.lsMode := by cases s; rfl
@[simp] theorem clearCause_cosimCode (s : State) : (clearCause s).cosimCode = s.cosimCode := by cases s; rfl
@[simp] theorem clearCause_chains (s : State) : (clearCause s).chains = s.chains := by cases s; rfl
@[simp] theorem clearCause_csrInitUnknown (s : State) : (clearCause s).csrInitUnknown = s.csrInitUnknown := by cases s; rfl
@[simp] theorem clearCause_mem (s : State) : (clearCause s).mem = s.mem := by cases s; rfl
@[simp] theorem clearCause_irqInput (s : State) : (clearCause s).irqInput = s.irqInput := by cases s; rfl
@[simp] theorem clearCause_hookReplies (s : State) : (clearCause s).hookReplies = s.hookReplies := by cases s; rfl
@[simp] theorem clearCause_cosimReplies (s : State) : (clearCause s).cosimReplies = s.cosimReplies := by cases s; rfl
@[simp] theorem clearCause_port (s : State) : (clearCause s).port = s.port := by cases s; rfl
@[simp] theorem clearCause_notices (s : State) : (clearCause s).notices = s.notices := by cases s; rfl
@[simp] theorem clearCause_reply (s : State) : (clearCause s).reply = s.reply := by cases s; rfl
@[simp] theorem clearCause_signal (s : State) : (clearCause s).signal = s.signal := by cases s; rfl
@[simp] theorem clearCause_booted (s : State) : (clearCause s).booted = s.booted := by cases s; rfl
@[simp] theorem clearCause_staleIsa (s : State) : (clearCause s).staleIsa = s.staleIsa := by cases s; rfl
@[simp] theorem clearCause_staleMmu (s : State) : (clearCause s).staleMmu = s.staleMmu := by cases s; rfl
@[simp] theorem clearCause_lastUnimplemented (s : State) : (clearCause s).lastUnimplemented = s.lastUnimplemented := by cases s; rfl
@[simp] theorem clearCause_freeCtr (s : State) : (clearCause s).freeCtr = s.freeCtr := by cases s; rfl

/-! trapEntryS -/
@[simp] theorem trapEntryS_cfg (s : State) (c t : Word) : (trapEntryS s c t).cfg = s.cfg := by simp [trapEntryS]
@[simp] theorem trapEntryS_pc (s : State) (c t : Word) : (trapEntryS s c t).pc = s.pc := by simp [trapEntryS]
@[simp] theorem trapEntryS_prevPc (s : State) (c t : Word) : (trapEntryS s c t).prevPc = s.prevPc := by simp [trapEntryS]
@[simp] theorem trapEntryS_priv (s : State) (c t : Word) : (trapEntryS s c t).priv = s.priv := by simp [trapEntryS]
@[simp] theorem trapEntryS_icount (s : State) (c t : Word) : (trapEntryS s c t).icount = s.icount := by simp [trapEntryS]
@[simp] theorem trapEntryS_stopped (s : State) (c t : Word) : (trapEntryS s c t).stopped = s.stopped := by simp [trapEntryS]
@[simp] theorem trapEntryS_exitCode (s : State) (c t : Word) : (trapEntryS s c t).exitCode = s.exitCode := by simp [trapEntryS]
@[simp] theorem trapEntryS_currentInst (s : State) (c t : Word) : (trapEntryS s c t).currentInst = s.currentInst := by simp [trapEntryS]
@[simp] theorem trapEntryS_xregs (s : State) (c t : Word) : (trapEntryS s c t).xregs = s.xregs := by simp [trapEntryS]
@[simp] theorem trapEntryS_fregs (s : State) (c t : Word) : (trapEntryS s c t).fregs = s.fregs := by simp [trapEntryS]
@[simp] theorem trapEntryS_vregs (s : State) (c t : Word) : (trapEntryS s c t).vregs = s.vregs := by simp [trapEntryS]
@[simp] theorem trapEntryS_fetchQueue (s : State) (c t : Word) : (trapEntryS s c t).fetchQueue = s.fetchQueue := by simp [trapEntryS]
@[simp] theorem trapEntryS_latch (s : State) (c t : Word) : (trapEntryS s c t).latch = s.latch := by simp [trapEntryS]
@[simp] theorem trapEntryS_cosimCode (s : State) (c t : Word) : (trapEntryS s c t).cosimCode = s.cosimCode := by simp [trapEntryS]
@[simp] theorem trapEntryS_chains (s : State) (c t : Word) : (trapEntryS s c t).chains = s.chains := by simp [trapEntryS]
@[simp] theorem trapEntryS_csrInitUnknown (s : State) (c t : Word) : (trapEntryS s c t).csrInitUnknown = s.csrInitUnknown := by simp [trapEntryS]
@[simp] theorem trapEntryS_mem (s : State) (c t : Word) : (trapEntryS s c t).mem = s.mem := by simp [trapEntryS]
@[simp] theorem trapEntryS_irqInput (s : State) (c t : Word) : (trapEntryS s c t).irqInput = s.irqInput := by simp [trapEntryS]
@[simp] theorem trapEntryS_hookReplies (s : State) (c t : Word) : (trapEntryS s c t).hookReplies = s.hookReplies := by simp [trapEntryS]
@[simp] theorem trapEntryS_cosimReplies (s : State) (c t : Word) : (trapEntryS s c t).cosimReplies = s.cosimReplies := by simp [trapEntryS]
@[simp] theorem trapEntryS_port (s : State) (c t : Word) : (trapEntryS s c t).port = s.port := by simp [trapEntryS]
@[simp] theorem trapEntryS_notices (s : State) (c t : Word) : (trapEntryS s c t).notices = s.notices := by simp [trapEntryS]
@[simp] theorem trapEntryS_reply (s : State) (c t : Word) : (trapEntryS s c t).reply = s.reply := by simp [trapEntryS]
@[simp] theorem trapEntryS_signal (s : State) (c t : Word) : (trapEntryS s c t).signal = s.signal := by simp [trapEntryS]
@[simp] theorem trapEntryS_booted (s : State) (c t : Word) : (trapEntryS s c t).booted = s.booted := by simp [trapEntryS]
@[simp] theorem trapEntryS_lastUnimplemented (s : State) (c t : Word) : (trapEntryS s c t).lastUnimplemented = s.lastUnimplemented := by simp [trapEntryS]
@[simp] theorem trapEntryS_freeCtr (s : State) (c t : Word) : (trapEntryS s c t).freeCtr = s.freeCtr := by simp [trapEntryS]

/-! trapEntryM -/
@[simp] theorem trapEntryM_cfg (s : State) (c t : Word) : (trapEntryM s c t).cfg = s.cfg := by simp [trapEntryM]
@[simp] theorem trapEntryM_pc (s : State) (c t : Word) : (trapEntryM s c t).pc = s.pc := by simp [trapEntryM]
@[simp] theorem trapEntryM_prevPc (s : State) (c t : Word) : (trapEntryM s c t).prevPc = s.prevPc := by simp [trapEntryM]
@[simp] theorem trapEntryM_priv (s : State) (c t : Word) : (trapEntryM s c t).priv = s.priv := by simp [trapEntryM]
@[simp] theorem trapEntryM_icount (s : State) (c t : Word) : (trapEntryM s c t).icount = s.icount := by simp [trapEntryM]
@[simp] theorem trapEntryM_stopped (s : State) (c t : Word) : (trapEntryM s c t).stopped = s.stopped := by simp [trapEntryM]
@[simp] theorem trapEntryM_exitCode (s : State) (c t : Word) : (trapEntryM s c t).exitCode = s.exitCode := by simp [trapEntryM]
@[simp] theorem trapEntryM_currentInst (s : State) (c t : Word) : (trapEntryM s c t).currentInst = s.currentInst := by simp [trapEntryM]
@[simp] theorem trapEntryM_xregs (s : State) (c t : Word) : (trapEntryM s c t).xregs = s.xregs := by simp [trapEntryM]
@[simp] theorem trapEntryM_fregs (s : State) (c t : Word) : (trapEntryM s c t).fregs = s.fregs := by simp [trapEntryM]
@[simp] theorem trapEntryM_vregs (s : State) (c t : Word) : (trapEntryM s c t).vregs = s.vregs := by simp [trapEntryM]
@[simp] theorem trapEntryM_fetchQueue (s : State) (c t : Word) : (trapEntryM s c t).fetchQueue = s.fetchQueue := by simp [trapEntryM]
@[simp] theorem trapEntryM_latch (s : State) (c t : Word) : (trapEntryM s c t).latch = s.latch := by simp [trapEntryM]
@[simp] theorem trapEntryM_cosimCode (s : State) (c t : Word) : (trapEntryM s c t).cosimCode = s.cosimCode := by simp [trapEntryM]
@[simp] theorem trapEntryM_chains (s : State) (c t : Word) : (trapEntryM s c t).chains = s.chains := by simp [trapEntryM]
@[simp] theorem trapEntryM_csrInitUnknown (s : State) (c t : Word) : (trapEntryM s c t).csrInitUnknown = s.csrInitUnknown := by simp [trapEntryM]
@[simp] theorem trapEntryM_mem (s : State) (c t : Word) : (trapEntryM s c t).mem = s.mem := by simp [trapEntryM]
@[simp] theorem trapEntryM_irqInput (s : State) (c t : Word) : (trapEntryM s c t).irqInput = s.irqInput := by simp [trapEntryM]
@[simp] theorem trapEntryM_hookReplies (s : State) (c t : Word) : (trapEntryM s c t).hookReplies = s.hookReplies := by simp [trapEntryM]
@[simp] theorem trapEntryM_cosimReplies (s : State) (c t : Word) : (trapEntryM s c t).cosimReplies = s.cosimReplies := by simp [trapEntryM]
@[simp] theorem trapEntryM_port (s : State) (c t : Word) : (trapEntryM s c t).port = s.port := by simp [trapEntryM]
@[simp] theorem trapEntryM_notices (s : State) (c t : Word) : (trapEntryM s c t).notices = s.notices := by simp [trapEntryM]
@[simp] theorem trapEntryM_reply (s : State) (c t : Word) : (trapEntryM s c t).reply = s.reply := by simp [trapEntryM]
@[simp] theorem trapEntryM_signal (s : State) (c t : Word) : (trapEntryM s c t).signal = s.signal := by simp [trapEntryM]
@[simp] theorem trapEntryM_booted (s : State) (c t : Word) : (trapEntryM s c t).booted = s.booted := by simp [trapEntryM]
@[simp] theorem trapEntryM_lastUnimplemented (s : State) (c t : Word) : (trapEntryM s c t).lastUnimplemented = s.lastUnimplemented := by simp [trapEntryM]
@[simp] theorem trapEntryM_freeCtr (s : State) (c t : Word) : (trapEntryM s c t).freeCtr = s.freeCtr := by simp [trapEntryM]

/-! trapEntry -/
@[simp] theorem trapEntry_cfg (c t : Word) (s : State) : (trapEntry c t s).cfg = s.cfg := by
  unfold trapEntry; split <;> simp
@[simp] theorem trapEntry_pc (c t : Word) (s : State) : (trapEntry c t s).pc = s.pc := by
  unfold trapEntry; split <;> simp
@[simp] theorem trapEntry_prevPc (c t : Word) (s : State) : (trapEntry c t s).prevPc = s.prevPc := by
  unfold trapEntry; split <;> simp
@[simp] theorem trapEntry_priv (c t : Word) (s : State) : (trapEntry c t s).priv = s.priv := by
  unfold trapEntry; split <;> simp
@[simp] theorem trapEntry_icount (c t : Word) (s : State) : (trapEntry c t s).icount = s.icount := by
  unfold trapEntry; split <;> simp
@[simp] theorem trapEntry_stopped (c t : Word) (s : State) : (trapEntry c t s).stopped = s.stopped := by
  unfold trapEntry; split <;> simp
@[simp] theorem trapEntry_exitCode (c t : Word) (s : State) : (trapEntry c t s).exitCode = s.exitCode := by
  unfold trapEntry; split <;> simp
@[simp] theorem trapEntry_currentInst (c t : Word) (s : State) : (trapEntry c t s).currentInst = s.currentInst := by
  unfold trapEntry; split <;> simp
@[simp] theorem trapEntry_xregs (c t : Word) (s : State) : (trapEntry c t s).xregs = s.xregs := by
  unfold trapEntry; split <;> simp
@[simp] theorem trapEntry_fregs (c t : Word) (s : State) : (trapEntry c t s).fregs = s.fregs := by
  unfold trapEntry; split <;> simp
@[simp] theorem trapEntry_vregs (c t : Word) (s : State) : (trapEntry c t s).vregs = s.vregs := by
  unfold trapEntry; split <;> simp
@[simp] theorem trapEntry_fetchQueue (c t : Word) (s : State) : (trapEntry c t s).fetchQueue = s.fetchQueue := by
  unfold trapEntry; split <;> simp
@[simp] theorem trapEntry_latch (c t : Word) (s : State) : (trapEntry c t s).latch = s.latch := by
  unfold trapEntry; split <;> simp
@[simp] theorem trapEntry_cosimCode (c t : Word) (s : State) : (trapEntry c t s).cosimCode = s.cosimCode := by
  unfold trapEntry; split <;> simp
@[simp] theorem trapEntry_chains (c t : Word) (s : State) : (trapEntry c t s).chains = s.chains := by
  unfold trapEntry; split <;> simp
@[simp] theorem trapEntry_csrInitUnknown (c t : Word) (s : State) : (trapEntry c t s).csrInitUnknown = s.csrInitUnknown := by
  unfold trapEntry; split <;> simp
@[simp] theorem trapEntry_mem (c t : Word) (s : State) : (trapEntry c t s).mem = s.mem := by
  unfold trapEntry; split <;> simp
@[simp] theorem trapEntry_irqInput (c t : Word) (s : State) : (trapEntry c t s).irqInput = s.irqInput := by
  unfold trapEntry; split <;> simp
@[simp] theorem trapEntry_hookReplies (c t : Word) (s : State) : (trapEntry c t s).hookReplies = s.hookReplies := by
  unfold trapEntry; split <;> simp
@[simp] theorem trapEntry_cosimReplies (c t : Word) (s : State) : (trapEntry c t s).cosimReplies = s.cosimReplies := by
  unfold trapEntry; split <;> simp
@[simp] theorem trapEntry_port (c t : Word) (s : State) : (trapEntry c t s).port = s.port := by
  unfold trapEntry; split <;> simp
@[simp] theorem trapEntry_notices (c t : Word) (s : State) : (trapEntry c t s).notices = s.notices := by
  unfold trapEntry; split <;> simp
@[simp] theorem trapEntry_reply (c t : Word) (s : State) : (trapEntry c t s).reply = s.reply := by
  unfold trapEntry; split <;> simp
@[simp] theorem trapEntry_signal (c t : Word) (s : State) : (trapEntry c t s).signal = s.signal := by
  unfold trapEntry; split <;> simp
@[simp] theorem trapEntry_booted (c t : Word) (s : State) : (trapEntry c t s).booted = s.booted := by
  unfold trapEntry; split <;> simp
@[simp] theorem trapEntry_lastUnimplemented (c t : Word) (s : State) : (trapEntry c t s).lastUnimplemented = s.lastUnimplemented := by
  unfold trapEntry; split <;> simp
@[simp] theorem trapEntry_freeCtr (c t : Word) (s : State) : (trapEntry c t s).freeCtr = s.freeCtr := by
  unfold trapEntry; split <;> simp

/-! takeTrap -/
@[simp] theorem takeTrap_cfg (s : State) : (takeTrap s).cfg = s.cfg := by simp [takeTrap]
@[simp] theorem takeTrap_pc (s : State) : (takeTrap s).pc = s.pc := by simp [takeTrap]
@[simp] theorem takeTrap_prevPc (s : State) : (takeTrap s).prevPc = s.prevPc := by simp [takeTrap]
@[simp] theorem takeTrap_priv (s : State) : (takeTrap s).priv = s.priv := by simp [takeTrap]
@[simp] theorem takeTrap_icount (s : State) : (takeTrap s).icount = s.icount := by simp [takeTrap]
@[simp] theorem takeTrap_stopped (s : State) : (takeTrap s).stopped = s.stopped := by simp [takeTrap]
@[simp] theorem takeTrap_exitCode (s : State) : (takeTrap s).exitCode = s.exitCode := by simp [takeTrap]
@[simp] theorem takeTrap_currentInst (s : State) : (takeTrap s).currentInst = s.currentInst := by simp [takeTrap]
@[simp] theorem takeTrap_xregs (s : State) : (takeTrap s).xregs = s.xregs := by simp [takeTrap]
@[simp] theorem takeTrap_fregs (s : State) : (takeTrap s).fregs = s.fregs := by simp [takeTrap]
@[simp] theorem takeTrap_vregs (s : State) : (takeTrap s).vregs = s.vregs := by simp [takeTrap]
@[simp] theorem takeTrap_fetchQueue (s : State) : (takeTrap s).fetchQueue = s.fetchQueue := by simp [takeTrap]
@[simp] theorem takeTrap_chains (s : State) : (takeTrap s).chains = s.chains := by simp [takeTrap]
@[simp] theorem takeTrap_csrInitUnknown (s : State) : (takeTrap s).csrInitUnknown = s.csrInitUnknown := by simp [takeTrap]
@[simp] theorem takeTrap_mem (s : State) : (takeTrap s).mem = s.mem := by simp [takeTrap]
@[simp] theorem takeTrap_irqInput (s : State) : (takeTrap s).irqInput = s.irqInput := by simp [takeTrap]
@[simp] theorem takeTrap_hookReplies (s : State) : (takeTrap s).hookReplies = s.hookReplies := by simp [takeTrap]
@[simp] theorem takeTrap_port (s : State) : (takeTrap s).port = s.port := by simp [takeTrap]
@[simp] theorem takeTrap_notices (s : State) : (takeTrap s).notices = s.notices := by simp [takeTrap]
@[simp] theorem takeTrap_reply (s : State) : (takeTrap s).reply = s.reply := by simp [takeTrap]
@[simp] theorem takeTrap_signal (s : State) : (takeTrap s).signal = s.signal := by simp [takeTrap]
@[simp] theorem takeTrap_booted (s : State) : (takeTrap s).booted = s.booted := by simp [takeTrap]
@[simp] theorem takeTrap_lastUnimplemented (s : State) : (takeTrap s).lastUnimplemented = s.lastUnimplemented := by simp [takeTrap]
@[simp] theorem takeTrap_freeCtr (s : State) : (takeTrap s).freeCtr = s.freeCtr := by simp [takeTrap]

/-! trapReturn -/
@[simp] theorem trapReturn_cfg (IE PIE PP : Field) (e : CsrIdx) (p : Priv) (s : State) : (trapReturn IE PIE PP e p s).cfg = s.cfg := by
  unfold trapReturn; dsimp only; split <;> simp
@[simp] theorem trapReturn_pc (IE PIE PP : Field) (e : CsrIdx) (p : Priv) (s : State) : (trapReturn IE PIE PP e p s).pc = s.pc := by
  unfold trapReturn; dsimp only; split <;> simp
@[simp] theorem trapReturn_prevPc (IE PIE PP : Field) (e : CsrIdx) (p : Priv) (s : State) : (trapReturn IE PIE PP e p s).prevPc = s.prevPc := by
  unfold trapReturn; dsimp only; split <;> simp
@[simp] theorem trapReturn_priv (IE PIE PP : Field) (e : CsrIdx) (p : Priv) (s : State) : (trapReturn IE PIE PP e p s).priv = s.priv := by
  unfold trapReturn; dsimp only; split <;> simp
@[simp] theorem trapReturn_icount (IE PIE PP : Field) (e : CsrIdx) (p : Priv) (s : State) : (trapReturn IE PIE PP e p s).icount = s.icount := by
  unfold trapReturn; dsimp only; split <;> simp
@[simp] theorem trapReturn_stopped (IE PIE PP : Field) (e : CsrIdx) (p : Priv) (s : State) : (trapReturn IE PIE PP e p s).stopped = s.stopped := by
  unfold trapReturn; dsimp only; split <;> simp
@[simp] theorem trapReturn_exitCode (IE PIE PP : Field) (e : CsrIdx) (p : Priv) (s : State) : (trapReturn IE PIE PP e p s).exitCode = s.exitCode := by
  unfold trapReturn; dsimp only; split <;> simp
@[simp] theorem trapReturn_currentInst (IE PIE PP : Field) (e : CsrIdx) (p : Priv) (s : State) : (trapReturn IE PIE PP e p s).currentInst = s.currentInst := by
  unfold trapReturn; dsimp only; split <;> simp
@[simp] theorem trapReturn_xregs (IE PIE PP : Field) (e : CsrIdx) (p : Priv) (s : State) : (trapReturn IE PIE PP e p s).xregs = s.xregs := by
  unfold trapReturn; dsimp only; split <;> simp
@[simp] theorem trapReturn_fregs (IE PIE PP : Field) (e : CsrIdx) (p : Priv) (s : State) : (trapReturn IE PIE PP e p s).fregs = s.fregs := by
  unfold trapReturn; dsimp only; split <;> simp
@[simp] theorem trapReturn_vregs (IE PIE PP : Field) (e : CsrIdx) (p : Priv) (s : State) : (trapReturn IE PIE PP e p s).vregs = s.vregs := by
  unfold trapReturn; dsimp only; split <;> simp
@[simp] theorem trapReturn_fetchQueue (IE PIE PP : Field) (e : CsrIdx) (p : Priv) (s : State) : (trapReturn IE PIE PP e p s).fetchQueue = s.fetchQueue := by
  unfold trapReturn; dsimp only; split <;> simp
@[simp] theorem trapReturn_latch (IE PIE PP : Field) (e : CsrIdx) (p : Priv) (s : State) : (trapReturn IE PIE PP e p s).latch = s.latch := by
  unfold trapReturn; dsimp only; split <;> simp
@[simp] theorem trapReturn_cosimCode (IE PIE PP : Field) (e : CsrIdx) (p : Priv) (s : State) : (trapReturn IE PIE PP e p s).cosimCode = s.cosimCode := by
  unfold trapReturn; dsimp only; split <;> simp
@[simp] theorem trapReturn_chains (IE PIE PP : Field) (e : CsrIdx) (p : Priv) (s : State) : (trapReturn IE PIE PP e p s).chains = s.chains := by
  unfold trapReturn; dsimp only; split <;> simp
@[simp] theorem trapReturn_csrInitUnknown (IE PIE PP : Field) (e : CsrIdx) (p : Priv) (s : State) : (trapReturn IE PIE PP e p s).csrInitUnknown = s.csrInitUnknown := by
  unfold trapReturn; dsimp only; split <;> simp
@[simp] theorem trapReturn_mem (IE PIE PP : Field) (e : CsrIdx) (p : Priv) (s : State) : (trapReturn IE PIE PP e p s).mem = s.mem := by
  unfold trapReturn; dsimp only; split <;> simp
@[simp] theorem trapReturn_irqInput (IE PIE PP : Field) (e : CsrIdx) (p : Priv) (s : State) : (trapReturn IE PIE PP e p s).irqInput = s.irqInput := by
  unfold trapReturn; dsimp only; split <;> simp
@[simp] theorem trapReturn_hookReplies (IE PIE PP : Field) (e : CsrIdx) (p : Priv) (s : State) : (trapReturn IE PIE PP e p s).hookReplies = s.hookReplies := by
  unfold trapReturn; dsimp only; split <;> simp
@[simp] theorem trapReturn_cosimReplies (IE PIE PP : Field) (e : CsrIdx) (p : Priv) (s : State) : (trapReturn IE PIE PP e p s).cosimReplies = s.cosimReplies := by
  unfold trapReturn; dsimp only; split <;> simp
@[simp] theorem trapReturn_port (IE PIE PP : Field) (e : CsrIdx) (p : Priv) (s : State) : (trapReturn IE PIE PP e p s).port = s.port := by
  unfold trapReturn; dsimp only; split <;> simp
@[simp] theorem trapReturn_notices (IE PIE PP : Field) (e : CsrIdx) (p : Priv) (s : State) : (trapReturn IE PIE PP e p s).notices = s.notices := by
  unfold trapReturn; dsimp only; split <;> simp
@[simp] theorem trapReturn_reply (IE PIE PP : Field) (e : CsrIdx) (p : Priv) (s : State) : (trapReturn IE PIE PP e p s).reply = s.reply := by
  unfold trapReturn; dsimp only; split <;> simp
@[simp] theorem trapReturn_signal (IE PIE PP : Field) (e : CsrIdx) (p : Priv) (s : State) : (trapReturn IE PIE PP e p s).signal = s.signal := by
  unfold trapReturn; dsimp only; split <;> simp
@[simp] theorem trapReturn_booted (IE PIE PP : Field) (e : CsrIdx) (p : Priv) (s : State) : (trapReturn IE PIE PP e p s).booted = s.booted := by
  unfold trapReturn; dsimp only; split <;> simp
@[simp] theorem trapReturn_lastUnimplemented (IE PIE PP : Field) (e : CsrIdx) (p : Priv) (s : State) : (trapReturn IE PIE PP e p s).lastUnimplemented = s.lastUnimplemented := by
  unfold trapReturn; dsimp only; split <;> simp
@[simp] theorem trapReturn_freeCtr (IE PIE PP : Field) (e : CsrIdx) (p : Priv) (s : State) : (trapReturn IE PIE PP e p s).freeCtr = s.freeCtr := by
  unfold trapReturn; dsimp only; split <;> simp

/-! commitPriv -/
@[simp] theorem commitPriv_cfg (s : State) : (s.commitPriv).cfg = s.cfg := by unfold State.commitPriv; split <;> rfl
@[simp] theorem commitPriv_pc (s : State) : (s.commitPriv).pc = s.pc := by unfold State.commitPriv; split <;> rfl
@[simp] theorem commitPriv_nextPc (s : State) : (s.commitPriv).nextPc = s.nextPc := by unfold State.commitPriv; split <;> rfl
@[simp] theorem commitPriv_prevPc (s : State) : (s.commitPriv).prevPc = s.prevPc := by unfold State.commitPriv; split <;> rfl
@[simp] theorem commitPriv_nextPriv (s : State) : (s.commitPriv).nextPriv = s.nextPriv := by unfold State.commitPriv; split <;> rfl
@[simp] theorem commitPriv_icount (s : State) : (s.commitPriv).icount = s.icount := by unfold State.commitPriv; split <;> rfl
@[simp] theorem commitPriv_inclusions (s : State) : (s.commitPriv).inclusions = s.inclusions := by unfold State.commitPriv; split <;> rfl
@[simp] theorem commitPriv_stopped (s : State) : (s.commitPriv).stopped = s.stopped := by unfold State.commitPriv; split <;> rfl
@[simp] theorem commitPriv_exitCode (s : State) : (s.commitPriv).exitCode = s.exitCode := by unfold State.commitPriv; split <;> rfl
@[simp] theorem commitPriv_currentInst (s : State) : (s.commitPriv).currentInst = s.currentInst := by unfold State.commitPriv; split <;> rfl
@[simp] theorem commitPriv_xregs (s : State) : (s.commitPriv).xregs = s.xregs := by unfold State.commitPriv; split <;> rfl
@[simp] theorem commitPriv_fregs (s : State) : (s.commitPriv).fregs = s.fregs := by unfold State.commitPriv; split <;> rfl
@[simp] theorem commitPriv_vregs (s : State) : (s.commitPriv).vregs = s.vregs := by unfold State.commitPriv; split <;> rfl
@[simp] theorem commitPriv_csrs (s : State) : (s.commitPriv).csrs = s.csrs := by unfold State.commitPriv; split <;> rfl
@[simp] theorem commitPriv_fetchQueue (s : State) : (s.commitPriv).fetchQueue = s.fetchQueue := by unfold State.commitPriv; split <;> rfl
@[simp] theorem commitPriv_latch (s : State) : (s.commitPriv).latch = s.latch := by unfold State.commitPriv; split <;> rfl
@[simp] theorem commitPriv_cosimCode (s : State) : (s.commitPriv).cosimCode = s.cosimCode := by unfold State.commitPriv; split <;> rfl
@[simp] theorem commitPriv_chains (s : State) : (s.commitPriv).chains = s.chains := by unfold State.commitPriv; split <;> rfl
@[simp] theorem commitPriv_csrInitUnknown (s : State) : (s.commitPriv).csrInitUnknown = s.csrInitUnknown := by unfold State.commitPriv; split <;> rfl
@[simp] theorem commitPriv_mem (s : State) : (s.commitPriv).mem = s.mem := by unfold State.commitPriv; split <;> rfl
@[simp] theorem commitPriv_irqInput (s : State) : (s.commitPriv).irqInput = s.irqInput := by unfold State.commitPriv; split <;> rfl
@[simp] theorem commitPriv_hookReplies (s : State) : (s.commitPriv).hookReplies = s.hookReplies := by unfold State.commitPriv; split <;> rfl
@[simp] theorem commitPriv_cosimReplies (s : State) : (s.commitPriv).cosimReplies = s.cosimReplies := by unfold State.commitPriv; split <;> rfl
@[simp] theorem commitPriv_port (s : State) : (s.commitPriv).port = s.port := by unfold State.commitPriv; split <;> rfl
@[simp] theorem commitPriv_notices (s : State) : (s.commitPriv).notices = s.notices := by unfold State.commitPriv; split <;> rfl
@[simp] theorem commitPriv_reply (s : State) : (s.commitPriv).reply = s.reply := by unfold State.commitPriv; split <;> rfl
@[simp] theorem commitPriv_signal (s : State) : (s.commitPriv).signal = s.signal := by unfold State.commitPriv; split <;> rfl
@[simp] theorem commitPriv_booted (s : State) : (s.commitPriv).booted = s.booted := by unfold State.commitPriv; split <;> rfl
@[simp] theorem commitPriv_staleIsa (s : State) : (s.commitPriv).staleIsa = s.staleIsa := by unfold State.commitPriv; split <;> rfl
@[simp] theorem commitPriv_lastUnimplemented (s : State) : (s.commitPriv).lastUnimplemented = s.lastUnimplemented := by unfold State.commitPriv; split <;> rfl
@[simp] theorem commitPriv_freeCtr (s : State) : (s.commitPriv).freeCtr = s.freeCtr := by unfold State.commitPriv; split <;> rfl

/-! finishUpdate -/
@[simp] theorem finishUpdate_cfg (s : State) : (finishUpdate s).cfg = s.cfg := by simp [finishUpdate]
@[simp] theorem finishUpdate_nextPc (s : State) : (finishUpdate s).nextPc = s.nextPc := by simp [finishUpdate]
@[simp] theorem finishUpdate_nextPriv (s : State) : (finishUpdate s).nextPriv = s.nextPriv := by simp [finishUpdate]
@[simp] theorem finishUpdate_inclusions (s : State) : (finishUpdate s).inclusions = s.inclusions := by simp [finishUpdate]
@[simp] theorem finishUpdate_stopped (s : State) : (finishUpdate s).stopped = s.stopped := by simp [finishUpdate]
@[simp] theorem finishUpdate_exitCode (s : State) : (finishUpdate s).exitCode = s.exitCode := by simp [finishUpdate]
@[simp] theorem finishUpdate_xregs (s : State) : (finishUpdate s).xregs = s.xregs := by simp [finishUpdate]
@[simp] theorem finishUpdate_fregs (s : State) : (finishUpdate s).fregs = s.fregs := by simp [finishUpdate]
@[simp] theorem finishUpdate_vregs (s : State) : (finishUpdate s).vregs = s.vregs := by simp [finishUpdate]
@[simp] theorem finishUpdate_csrs (s : State) : (finishUpdate s).csrs = s.csrs := by simp [finishUpdate]
@[simp] theorem finishUpdate_fetchQueue (s : State) : (finishUpdate s).fetchQueue = s.fetchQueue := by simp [finishUpdate]
@[simp] theorem finishUpdate_latch (s : State) : (finishUpdate s).latch = s.latch := by simp [finishUpdate]
@[simp] theorem finishUpdate_cosimCode (s : State) : (finishUpdate s).cosimCode = s.cosimCode := by simp [finishUpdate]
@[simp] theorem finishUpdate_chains (s : State) : (finishUpdate s).chains = s.chains := by simp [finishUpdate]
@[simp] theorem finishUpdate_csrInitUnknown (s : State) : (finishUpdate s).csrInitUnknown = s.csrInitUnknown := by simp [finishUpdate]
@[simp] theorem finishUpdate_mem (s : State) : (finishUpdate s).mem = s.mem := by simp [finishUpdate]
@[simp] theorem finishUpdate_irqInput (s : State) : (finishUpdate s).irqInput = s.irqInput := by simp [finishUpdate]
@[simp] theorem finishUpdate_hookReplies (s : State) : (finishUpdate s).hookReplies = s.hookReplies := by simp [finishUpdate]
@[simp] theorem finishUpdate_cosimReplies (s : State) : (finishUpdate s).cosimReplies = s.cosimReplies := by simp [finishUpdate]
@[simp] theorem finishUpdate_port (s : State) : (finishUpdate s).port = s.port := by simp [finishUpdate]
@[simp] theorem finishUpdate_notices (s : State) : (finishUpdate s).notices = s.notices := by simp [finishUpdate]
@[simp] theorem finishUpdate_reply (s : State) : (finishUpdate s).reply = s.reply := by simp [finishUpdate]
@[simp] theorem finishUpdate_signal (s : State) : (finishUpdate s).signal = s.signal := by simp [finishUpdate]
@[simp] theorem finishUpdate_booted (s : State) : (finishUpdate s).booted = s.booted := by simp [finishUpdate]
@[simp] theorem finishUpdate_staleIsa (s : State) : (finishUpdate s).staleIsa = s.staleIsa := by simp [finishUpdate]
@[simp] theorem finishUpdate_freeCtr (s : State) : (finishUpdate s).freeCtr = s.freeCtr := by simp [finishUpdate]

/-! notify -/
@[simp] theorem notify_cfg (s : State) (k : HookKind) (o : Nat) (m : Bool) : (s.notify k o m).cfg = s.cfg := by cases s; rfl
@[simp] theorem notify_pc (s : State) (k : HookKind) (o : Nat) (m : Bool) : (s.notify k o m).pc = s.pc := by cases s; rfl
@[simp] theorem notify_nextPc (s : State) (k : HookKind) (o : Nat) (m : Bool) : (s.notify k o m).nextPc = s.nextPc := by cases s; rfl
@[simp] theorem notify_prevPc (s : State) (k : HookKind) (o : Nat) (m : Bool) : (s.notify k o m).prevPc = s.prevPc := by cases s; rfl
@[simp] theorem notify_priv (s : State) (k : HookKind) (o : Nat) (m : Bool) : (s.notify k o m).priv = s.priv := by cases s; rfl
@[simp] theorem notify_nextPriv (s : State) (k : HookKind) (o : Nat) (m : Bool) : (s.notify k o m).nextPriv = s.nextPriv := by cases s; rfl
@[simp] theorem notify_icount (s : State) (k : HookKind) (o : Nat) (m : Bool) : (s.notify k o m).icount = s.icount := by cases s; rfl
@[simp] theorem notify_inclusions (s : State) (k : HookKind) (o : Nat) (m : Bool) : (s.notify k o m).inclusions = s.inclusions := by cases s; rfl
@[simp] theorem notify_stopped (s : State) (k : HookKind) (o : Nat) (m : Bool) : (s.notify k o m).stopped = s.stopped := by cases s; rfl
@[simp] theorem notify_exitCode (s : State) (k : HookKind) (o : Nat) (m : Bool) : (s.notify k o m).exitCode = s.exitCode := by cases s; rfl
@[simp] theorem notify_currentInst (s : State) (k : HookKind) (o : Nat) (m : Bool) : (s.notify k o m).currentInst = s.currentInst := by cases s; rfl
@[simp] theorem notify_xregs (s : State) (k : HookKind) (o : Nat) (m : Bool) : (s.notify k o m).xregs = s.xregs := by cases s; rfl
@[simp] theorem notify_fregs (s : State) (k : HookKind) (o : Nat) (m : Bool) : (s.notify k o m).fregs = s.fregs := by cases s; rfl
@[simp] theorem notify_vregs (s : State) (k : HookKind) (o : Nat) (m : Bool) : (s.notify k o m).vregs = s.vregs := by cases s; rfl
@[simp] theorem notify_csrs (s : State) (k : HookKind) (o : Nat) (m : Bool) : (s.notify k o m).csrs = s.csrs := by cases s; rfl
@[simp] theorem notify_fetchQueue (s : State) (k : HookKind) (o : Nat) (m : Bool) : (s.notify k o m).fetchQueue = s.fetchQueue := by cases s; rfl
@[simp] theorem notify_fetchMode (s : State) (k : HookKind) (o : Nat) (m : Bool) : (s.notify k o m).fetchMode = s.fetchMode := by cases s; rfl
@[simp] theorem notify_lsMode (s : State) (k : HookKind) (o : Nat) (m : Bool) : (s.notify k o m).lsMode = s.lsMode := by cases s; rfl
@[simp] theorem notify_latch (s : State) (k : HookKind) (o : Nat) (m : Bool) : (s.notify k o m).latch = s.latch := by cases s; rfl
@[simp] theorem notify_cosimCode (s : State) (k : HookKind) (o : Nat) (m : Bool) : (s.notify k o m).cosimCode = s.cosimCode := by cases s; rfl
@[simp] theorem notify_chains (s : State) (k : HookKind) (o : Nat) (m : Bool) : (s.notify k o m).chains = s.chains := by cases s; rfl
@[simp] theorem notify_csrInitUnknown (s : State) (k : HookKind) (o : Nat) (m : Bool) : (s.notify k o m).csrInitUnknown = s.csrInitUnknown := by cases s; rfl
@[simp] theorem notify_mem (s : State) (k : HookKind) (o : Nat) (m : Bool) : (s.notify k o m).mem = s.mem := by cases s; rfl
@[simp] theorem notify_irqInput (s : State) (k : HookKind) (o : Nat) (m : Bool) : (s.notify k o m).irqInput = s.irqInput := by cases s; rfl
@[simp] theorem notify_hookReplies (s : State) (k : HookKind) (o : Nat) (m : Bool) : (s.notify k o m).hookReplies = s.hookReplies := by cases s; rfl
@[simp] theorem notify_cosimReplies (s : State) (k : HookKind) (o : Nat) (m : Bool) : (s.notify k o m).cosimReplies = s.cosimReplies := by cases s; rfl
@[simp] theorem notify_port (s : State) (k : HookKind) (o : Nat) (m : Bool) : (s.notify k o m).port = s.port := by cases s; rfl
@[simp] theorem notify_reply (s : State) (k : HookKind) (o : Nat) (m : Bool) : (s.notify k o m).reply = s.reply := by cases s; rfl
@[simp] theorem notify_signal (s : State) (k : HookKind) (o : Nat) (m : Bool) : (s.notify k o m).signal = s.signal := by cases s; rfl
@[simp] theorem notify_booted (s : State) (k : HookKind) (o : Nat) (m : Bool) : (s.notify k o m).booted = s.booted := by cases s; rfl
@[simp] theorem notify_staleIsa (s : State) (k : HookKind) (o : Nat) (m : Bool) : (s.notify k o m).staleIsa = s.staleIsa := by cases s; rfl
@[simp] theorem notify_staleMmu (s : State) (k : HookKind) (o : Nat) (m : Bool) : (s.notify k o m).staleMmu = s.staleMmu := by cases s; rfl
@[simp] theorem notify_lastUnimplemented (s : State) (k : HookKind) (o : Nat) (m : Bool) : (s.notify k o m).lastUnimplemented = s.lastUnimplemented := by cases s; rfl
@[simp] theorem notify_freeCtr (s : State) (k : HookKind) (o : Nat) (m : Bool) : (s.notify k o m).freeCtr = s.freeCtr := by cases s; rfl

/-! observedN -/
@[simp] theorem observedN_cfg (k : HookKind) (m : Bool) (n : Nat) (s : State) : (State.observedN k m n s).cfg = s.cfg := by cases s; rfl
@[simp] theorem observedN_pc (k : HookKind) (m : Bool) (n : Nat) (s : State) : (State.observedN k m n s).pc = s.pc := by cases s; rfl
@[simp] theorem observedN_nextPc (k : HookKind) (m : Bool) (n : Nat) (s : State) : (State.observedN k m n s).nextPc = s.nextPc := by cases s; rfl
@[simp] theorem observedN_prevPc (k : HookKind) (m : Bool) (n : Nat) (s : State) : (State.observedN k m n s).prevPc = s.prevPc := by cases s; rfl
@[simp] theorem observedN_priv (k : HookKind) (m : Bool) (n : Nat) (s : State) : (State.observedN k m n s).priv = s.priv := by cases s; rfl
@[simp] theorem observedN_nextPriv (k : HookKind) (m : Bool) (n : Nat) (s : State) : (State.observedN k m n s).nextPriv = s.nextPriv := by cases s; rfl
@[simp] theorem observedN_icount (k : HookKind) (m : Bool) (n : Nat) (s : State) : (State.observedN k m n s).icount = s.icount := by cases s; rfl
@[simp] theorem observedN_inclusions (k : HookKind) (m : Bool) (n : Nat) (s : State) : (State.observedN k m n s).inclusions = s.inclusions := by cases s; rfl
@[simp] theorem observedN_stopped (k : HookKind) (m : Bool) (n : Nat) (s : State) : (State.observedN k m n s).stopped = s.stopped := by cases s; rfl
@[simp] theorem observedN_currentInst (k : HookKind) (m : Bool) (n : Nat) (s : State) : (State.observedN k m n s).currentInst = s.currentInst := by cases s; rfl
@[simp] theorem observedN_xregs (k : HookKind) (m : Bool) (n : Nat) (s : State) : (State.observedN k m n s).xregs = s.xregs := by cases s; rfl
@[simp] theorem observedN_fregs (k : HookKind) (m : Bool) (n : Nat) (s : State) : (State.observedN k m n s).fregs = s.fregs := by cases s; rfl
@[simp] theorem observedN_vregs (k : HookKind) (m : Bool) (n : Nat) (s : State) : (State.observedN k m n s).vregs = s.vregs := by cases s; rfl
@[simp] theorem observedN_csrs (k : HookKind) (m : Bool) (n : Nat) (s : State) : (State.observedN k m n s).csrs = s.csrs := by cases s; rfl
@[simp] theorem observedN_fetchQueue (k : HookKind) (m : Bool) (n : Nat) (s : State) : (State.observedN k m n s).fetchQueue = s.fetchQueue := by cases s; rfl
@[simp] theorem observedN_fetchMode (k : HookKind) (m : Bool) (n : Nat) (s : State) : (State.observedN k m n s).fetchMode = s.fetchMode := by cases s; rfl
@[simp] theorem observedN_lsMode (k : HookKind) (m : Bool) (n : Nat) (s : State) : (State.observedN k m n s).lsMode = s.lsMode := by cases s; rfl
@[simp] theorem observedN_latch (k : HookKind) (m : Bool) (n : Nat) (s : State) : (State.observedN k m n s).latch = s.latch := by cases s; rfl
@[simp] theorem observedN_cosimCode (k : HookKind) (m : Bool) (n : Nat) (s : State) : (State.observedN k m n s).cosimCode = s.cosimCode := by cases s; rfl
@[simp] theorem observedN_chains (k : HookKind) (m : Bool) (n : Nat) (s : State) : (State.observedN k m n s).chains = s.chains := by cases s; rfl
@[simp] theorem observedN_csrInitUnknown (k : HookKind) (m : Bool) (n : Nat) (s : State) : (State.observedN k m n s).csrInitUnknown = s.csrInitUnknown := by cases s; rfl
@[simp] theorem observedN_mem (k : HookKind) (m : Bool) (n : Nat) (s : State) : (State.observedN k m n s).mem = s.mem := by cases s; rfl
@[simp] theorem observedN_irqInput (k : HookKind) (m : Bool) (n : Nat) (s : State) : (State.observedN k m n s).irqInput = s.irqInput := by cases s; rfl
@[simp] theorem observedN_cosimReplies (k : HookKind) (m : Bool) (n : Nat) (s : State) : (State.observedN k m n s).cosimReplies = s.cosimReplies := by cases s; rfl
@[simp] theorem observedN_port (k : HookKind) (m : Bool) (n : Nat) (s : State) : (State.observedN k m n s).port = s.port := by cases s; rfl
@[simp] theorem observedN_reply (k : HookKind) (m : Bool) (n : Nat) (s : State) : (State.observedN k m n s).reply = s.reply := by cases s; rfl
@[simp] theorem observedN_signal (k : HookKind) (m : Bool) (n : Nat) (s : State) : (State.observedN k m n s).signal = s.signal := by cases s; rfl
@[simp] theorem observedN_booted (k : HookKind) (m : Bool) (n : Nat) (s : State) : (State.observedN k m n s).booted = s.booted := by cases s; rfl
@[simp] theorem observedN_staleIsa (k : HookKind) (m : Bool) (n : Nat) (s : State) : (State.observedN k m n s).staleIsa = s.staleIsa := by cases s; rfl
@[simp] theorem observedN_staleMmu (k : HookKind) (m : Bool) (n : Nat) (s : State) : (State.observedN k m n s).staleMmu = s.staleMmu := by cases s; rfl
@[simp] theorem observedN_lastUnimplemented (k : HookKind) (m : Bool) (n : Nat) (s : State) : (State.observedN k m n s).lastUnimplemented = s.lastUnimplemented := by cases s; rfl
@[simp] theorem observedN_freeCtr (k : HookKind) (m : Bool) (n : Nat) (s : State) : (State.observedN k m n s).freeCtr = s.freeCtr := by cases s; rfl

/-! observed -/
@[simp] theorem observed_cfg (k : HookKind) (m : Bool) (s : State) : (State.observed k m s).cfg = s.cfg := by cases s; rfl
@[simp] theorem observed_pc (k : HookKind) (m : Bool) (s : State) : (State.observed k m s).pc = s.pc := by cases s; rfl
@[simp] theorem observed_nextPc (k : HookKind) (m : Bool) (s : State) : (State.observed k m s).nextPc = s.nextPc := by cases s; rfl
@[simp] theorem observed_prevPc (k : HookKind) (m : Bool) (s : State) : (State.observed k m s).prevPc = s.prevPc := by cases s; rfl
@[simp] theorem observed_priv (k : HookKind) (m : Bool) (s : State) : (State.observed k m s).priv = s.priv := by cases s; rfl
@[simp] theorem observed_nextPriv (k : HookKind) (m : Bool) (s : State) : (State.observed k m s).nextPriv = s.nextPriv := by cases s; rfl
@[simp] theorem observed_icount (k : HookKind) (m : Bool) (s : State) : (State.observed k m s).icount = s.icount := by cases s; rfl
@[simp] theorem observed_inclusions (k : HookKind) (m : Bool) (s : State) : (State.observed k m s).inclusions = s.inclusions := by cases s; rfl
@[simp] theorem observed_stopped (k : HookKind) (m : Bool) (s : State) : (State.observed k m s).stopped = s.stopped := by cases s; rfl
@[simp] theorem observed_currentInst (k : HookKind) (m : Bool) (s : State) : (State.observed k m s).currentInst = s.currentInst := by cases s; rfl
@[simp] theorem observed_xregs (k : HookKind) (m : Bool) (s : State) : (State.observed k m s).xregs = s.xregs := by cases s; rfl
@[simp] theorem observed_fregs (k : HookKind) (m : Bool) (s : State) : (State.observed k m s).fregs = s.fregs := by cases s; rfl
@[simp] theorem observed_vregs (k : HookKind) (m : Bool) (s : State) : (State.observed k m s).vregs = s.vregs := by cases s; rfl
@[simp] theorem observed_csrs (k : HookKind) (m : Bool) (s : State) : (State.observed k m s).csrs = s.csrs := by cases s; rfl
@[simp] theorem observed_fetchQueue (k : HookKind) (m : Bool) (s : State) : (State.observed k m s).fetchQueue = s.fetchQueue := by cases s; rfl
@[simp] theorem observed_fetchMode (k : HookKind) (m : Bool) (s : State) : (State.observed k m s).fetchMode = s.fetchMode := by cases s; rfl
@[simp] theorem observed_lsMode (k : HookKind) (m : Bool) (s : State) : (State.observed k m s).lsMode = s.lsMode := by cases s; rfl
@[simp] theorem observed_latch (k : HookKind) (m : Bool) (s : State) : (State.observed k m s).latch = s.latch := by cases s; rfl
@[simp] theorem observed_cosimCode (k : HookKind) (m : Bool) (s : State) : (State.observed k m s).cosimCode = s.cosimCode := by cases s; rfl
@[simp] theorem observed_chains (k : HookKind) (m : Bool) (s : State) : (State.observed k m s).chains = s.chains := by cases s; rfl
@[simp] theorem observed_csrInitUnknown (k : HookKind) (m : Bool) (s : State) : (State.observed k m s).csrInitUnknown = s.csrInitUnknown := by cases s; rfl
@[simp] theorem observed_mem (k : HookKind) (m : Bool) (s : State) : (State.observed k m s).mem = s.mem := by cases s; rfl
@[simp] theorem observed_irqInput (k : HookKind) (m : Bool) (s : State) : (State.observed k m s).irqInput = s.irqInput := by cases s; rfl
@[simp] theorem observed_cosimReplies (k : HookKind) (m : Bool) (s : State) : (State.observed k m s).cosimReplies = s.cosimReplies := by cases s; rfl
@[simp] theorem observed_port (k : HookKind) (m : Bool) (s : State) : (State.observed k m s).port = s.port := by cases s; rfl
@[simp] theorem observed_reply (k : HookKind) (m : Bool) (s : State) : (State.observed k m s).reply = s.reply := by cases s; rfl
@[simp] theorem observed_signal (k : HookKind) (m : Bool) (s : State) : (State.observed k m s).signal = s.signal := by cases s; rfl
@[simp] theorem observed_booted (k : HookKind) (m : Bool) (s : State) : (State.observed k m s).booted = s.booted := by cases s; rfl
@[simp] theorem observed_staleIsa (k : HookKind) (m : Bool) (s : State) : (State.observed k m s).staleIsa = s.staleIsa := by cases s; rfl
@[simp] theorem observed_staleMmu (k : HookKind) (m : Bool) (s : State) : (State.observed k m s).staleMmu = s.staleMmu := by cases s; rfl
@[simp] theorem observed_lastUnimplemented (k : HookKind) (m : Bool) (s : State) : (State.observed k m s).lastUnimplemented = s.lastUnimplemented := by cases s; rfl
@[simp] theorem observed_freeCtr (k : HookKind) (m : Bool) (s : State) : (State.observed k m s).freeCtr = s.freeCtr := by cases s; rfl

/-! advance -/
@[simp] theorem advance_cfg (n : Word) (s : State) : (State.advance n s).cfg = s.cfg := by cases s; rfl
@[simp] theorem advance_priv (n : Word) (s : State) : (State.advance n s).priv = s.priv := by cases s; rfl
@[simp] theorem advance_nextPriv (n : Word) (s : State) : (State.advance n s).nextPriv = s.nextPriv := by cases s; rfl
@[simp] theorem advance_inclusions (n : Word) (s : State) : (State.advance n s).inclusions = s.inclusions := by cases s; rfl
@[simp] theorem advance_stopped (n : Word) (s : State) : (State.advance n s).stopped = s.stopped := by cases s; rfl
@[simp] theorem advance_exitCode (n : Word) (s : State) : (State.advance n s).exitCode = s.exitCode := by cases s; rfl
@[simp] theorem advance_xregs (n : Word) (s : State) : (State.advance n s).xregs = s.xregs := by cases s; rfl
@[simp] theorem advance_fregs (n : Word) (s : State) : (State.advance n s).fregs = s.fregs := by cases s; rfl
@[simp] theorem advance_vregs (n : Word) (s : State) : (State.advance n s).vregs = s.vregs := by cases s; rfl
@[simp] theorem advance_csrs (n : Word) (s : State) : (State.advance n s).csrs = s.csrs := by cases s; rfl
@[simp] theorem advance_fetchQueue (n : Word) (s : State) : (State.advance n s).fetchQueue = s.fetchQueue := by cases s; rfl
@[simp] theorem advance_fetchMode (n : Word) (s : State) : (State.advance n s).fetchMode = s.fetchMode := by cases s; rfl
@[simp] theorem advance_lsMode (n : Word) (s : State) : (State.advance n s).lsMode = s.lsMode := by cases s; rfl
@[simp] theorem advance_latch (n : Word) (s : State) : (State.advance n s).latch = s.latch := by cases s; rfl
@[simp] theorem advance_cosimCode (n : Word) (s : State) : (State.advance n s).cosimCode = s.cosimCode := by cases s; rfl
@[simp] theorem advance_chains (n : Word) (s : State) : (State.advance n s).chains = s.chains := by cases s; rfl
@[simp] theorem advance_csrInitUnknown (n : Word) (s : State) : (State.advance n s).csrInitUnknown = s.csrInitUnknown := by cases s; rfl
@[simp] theorem advance_mem (n : Word) (s : State) : (State.advance n s).mem = s.mem := by cases s; rfl
@[simp] theorem advance_irqInput (n : Word) (s : State) : (State.advance n s).irqInput = s.irqInput := by cases s; rfl
@[simp] theorem advance_hookReplies (n : Word) (s : State) : (State.advance n s).hookReplies = s.hookReplies := by cases s; rfl
@[simp] theorem advance_cosimReplies (n : Word) (s : State) : (State.advance n s).cosimReplies = s.cosimReplies := by cases s; rfl
@[simp] theorem advance_port (n : Word) (s : State) : (State.advance n s).port = s.port := by cases s; rfl
@[simp] theorem advance_notices (n : Word) (s : State) : (State.advance n s).notices = s.notices := by cases s; rfl
@[simp] theorem advance_reply (n : Word) (s : State) : (State.advance n s).reply = s.reply := by cases s; rfl
@[simp] theorem advance_signal (n : Word) (s : State) : (State.advance n s).signal = s.signal := by cases s; rfl
@[simp] theorem advance_booted (n : Word) (s : State) : (State.advance n s).booted = s.booted := by cases s; rfl
@[simp] theorem advance_staleIsa (n : Word) (s : State) : (State.advance n s).staleIsa = s.staleIsa := by cases s; rfl
@[simp] theorem advance_staleMmu (n : Word) (s : State) : (State.advance n s).staleMmu = s.staleMmu := by cases s; rfl
@[simp] theorem advance_freeCtr (n : Word) (s : State) : (State.advance n s).freeCtr = s.freeCtr := by cases s; rfl

/-! faulting -/
@[simp] theorem faulting_cfg (c : BitVec 6) (v : Word) (s : State) : (State.faulting c v s).cfg = s.cfg := by cases s; rfl
@[simp] theorem faulting_pc (c : BitVec 6) (v : Word) (s : State) : (State.faulting c v s).pc = s.pc := by cases s; rfl
@[simp] theorem faulting_nextPc (c : BitVec 6) (v : Word) (s : State) : (State.faulting c v s).nextPc = s.nextPc := by cases s; rfl
@[simp] theorem faulting_prevPc (c : BitVec 6) (v : Word) (s : State) : (State.faulting c v s).prevPc = s.prevPc := by cases s; rfl
@[simp] theorem faulting_priv (c : BitVec 6) (v : Word) (s : State) : (State.faulting c v s).priv = s.priv := by cases s; rfl
@[simp] theorem faulting_nextPriv (c : BitVec 6) (v : Word) (s : State) : (State.faulting c v s).nextPriv = s.nextPriv := by cases s; rfl
@[simp] theorem faulting_icount (c : BitVec 6) (v : Word) (s : State) : (State.faulting c v s).icount = s.icount := by cases s; rfl
@[simp] theorem faulting_inclusions (c : BitVec 6) (v : Word) (s : State) : (State.faulting c v s).inclusions = s.inclusions := by cases s; rfl
@[simp] theorem faulting_stopped (c : BitVec 6) (v : Word) (s : State) : (State.faulting c v s).stopped = s.stopped := by cases s; rfl
@[simp] theorem faulting_exitCode (c : BitVec 6) (v : Word) (s : State) : (State.faulting c v s).exitCode = s.exitCode := by cases s; rfl
@[simp] theorem faulting_currentInst (c : BitVec 6) (v : Word) (s : State) : (State.faulting c v s).currentInst = s.currentInst := by cases s; rfl
@[simp] theorem faulting_xregs (c : BitVec 6) (v : Word) (s : State) : (State.faulting c v s).xregs = s.xregs := by cases s; rfl
@[simp] theorem faulting_fregs (c : BitVec 6) (v : Word) (s : State) : (State.faulting c v s).fregs = s.fregs := by cases s; rfl
@[simp] theorem faulting_vregs (c : BitVec 6) (v : Word) (s : State) : (State.faulting c v s).vregs = s.vregs := by cases s; rfl
@[simp] theorem faulting_csrs (c : BitVec 6) (v : Word) (s : State) : (State.faulting c v s).csrs = s.csrs := by cases s; rfl
@[simp] theorem faulting_fetchQueue (c : BitVec 6) (v : Word) (s : State) : (State.faulting c v s).fetchQueue = s.fetchQueue := by cases s; rfl
@[simp] theorem faulting_fetchMode (c : BitVec 6) (v : Word) (s : State) : (State.faulting c v s).fetchMode = s.fetchMode := by cases s; rfl
@[simp] theorem faulting_lsMode (c : BitVec 6) (v : Word) (s : State) : (State.faulting c v s).lsMode = s.lsMode := by cases s; rfl
@[simp] theorem faulting_cosimCode (c : BitVec 6) (v : Word) (s : State) : (State.faulting c v s).cosimCode = s.cosimCode := by cases s; rfl
@[simp] theorem faulting_chains (c : BitVec 6) (v : Word) (s : State) : (State.faulting c v s).chains = s.chains := by cases s; rfl
@[simp] theorem faulting_csrInitUnknown (c : BitVec 6) (v : Word) (s : State) : (State.faulting c v s).csrInitUnknown = s.csrInitUnknown := by cases s; rfl
@[simp] theorem faulting_mem (c : BitVec 6) (v : Word) (s : State) : (State.faulting c v s).mem = s.mem := by cases s; rfl
@[simp] theorem faulting_irqInput (c : BitVec 6) (v : Word) (s : State) : (State.faulting c v s).irqInput = s.irqInput := by cases s; rfl
@[simp] theorem faulting_hookReplies (c : BitVec 6) (v : Word) (s : State) : (State.faulting c v s).hookReplies = s.hookReplies := by cases s; rfl
@[simp] theorem faulting_cosimReplies (c : BitVec 6) (v : Word) (s : State) : (State.faulting c v s).cosimReplies = s.cosimReplies := by cases s; rfl
@[simp] theorem faulting_port (c : BitVec 6) (v : Word) (s : State) : (State.faulting c v s).port = s.port := by cases s; rfl
@[simp] theorem faulting_notices (c : BitVec 6) (v : Word) (s : State) : (State.faulting c v s).notices = s.notices := by cases s; rfl
@[simp] theorem faulting_reply (c : BitVec 6) (v : Word) (s : State) : (State.faulting c v s).reply = s.reply := by cases s; rfl
@[simp] theorem faulting_signal (c : BitVec 6) (v : Word) (s : State) : (State.faulting c v s).signal = s.signal := by cases s; rfl
@[simp] theorem faulting_booted (c : BitVec 6) (v : Word) (s : State) : (State.faulting c v s).booted = s.booted := by cases s; rfl
@[simp] theorem faulting_staleIsa (c : BitVec 6) (v : Word) (s : State) : (State.faulting c v s).staleIsa = s.staleIsa := by cases s; rfl
@[simp] theorem faulting_staleMmu (c : BitVec 6) (v : Word) (s : State) : (State.faulting c v s).staleMmu = s.staleMmu := by cases s; rfl
@[simp] theorem faulting_lastUnimplemented (c : BitVec 6) (v : Word) (s : State) : (State.faulting c v s).lastUnimplemented = s.lastUnimplemented := by cases s; rfl
@[simp] theorem faulting_freeCtr (c : BitVec 6) (v : Word) (s : State) : (State.faulting c v s).freeCtr = s.freeCtr := by cases s; rfl

/-! interrupted -/
@[simp] theorem interrupted_cfg (c : BitVec 6) (s : State) : (State.interrupted c s).cfg = s.cfg := by cases s; rfl
@[simp] theorem interrupted_pc (c : BitVec 6) (s : State) : (State.interrupted c s).pc = s.pc := by cases s; rfl
@[simp] theorem interrupted_nextPc (c : BitVec 6) (s : State) : (State.interrupted c s).nextPc = s.nextPc := by cases s; rfl
@[simp] theorem interrupted_prevPc (c : BitVec 6) (s : State) : (State.interrupted c s).prevPc = s.prevPc := by cases s; rfl
@[simp] theorem interrupted_priv (c : BitVec 6) (s : State) : (State.interrupted c s).priv = s.priv := by cases s; rfl
@[simp] theorem interrupted_nextPriv (c : BitVec 6) (s : State) : (State.interrupted c s).nextPriv = s.nextPriv := by cases s; rfl
@[simp] theorem interrupted_icount (c : BitVec 6) (s : State) : (State.interrupted c s).icount = s.icount := by cases s; rfl
@[simp] theorem interrupted_inclusions (c : BitVec 6) (s : State) : (State.interrupted c s).inclusions = s.inclusions := by cases s; rfl
@[simp] theorem interrupted_stopped (c : BitVec 6) (s : State) : (State.interrupted c s).stopped = s.stopped := by cases s; rfl
@[simp] theorem interrupted_exitCode (c : BitVec 6) (s : State) : (State.interrupted c s).exitCode = s.exitCode := by cases s; rfl
@[simp] theorem interrupted_currentInst (c : BitVec 6) (s : State) : (State.interrupted c s).currentInst = s.currentInst := by cases s; rfl
@[simp] theorem interrupted_xregs (c : BitVec 6) (s : State) : (State.interrupted c s).xregs = s.xregs := by cases s; rfl
@[simp] theorem interrupted_fregs (c : BitVec 6) (s : State) : (State.interrupted c s).fregs = s.fregs := by cases s; rfl
@[simp] theorem interrupted_vregs (c : BitVec 6) (s : State) : (State.interrupted c s).vregs = s.vregs := by cases s; rfl
@[simp] theorem interrupted_csrs (c : BitVec 6) (s : State) : (State.interrupted c s).csrs = s.csrs := by cases s; rfl
@[simp] theorem interrupted_fetchQueue (c : BitVec 6) (s : State) : (State.interrupted c s).fetchQueue = s.fetchQueue := by cases s; rfl
@[simp] theorem interrupted_fetchMode (c : BitVec 6) (s : State) : (State.interrupted c s).fetchMode = s.fetchMode := by cases s; rfl
@[simp] theorem interrupted_lsMode (c : BitVec 6) (s : State) : (State.interrupted c s).lsMode = s.lsMode := by cases s; rfl
@[simp] theorem interrupted_cosimCode (c : BitVec 6) (s : State) : (State.interrupted c s).cosimCode = s.cosimCode := by cases s; rfl
@[simp] theorem interrupted_chains (c : BitVec 6) (s : State) : (State.interrupted c s).chains = s.chains := by cases s; rfl
@[simp] theorem interrupted_csrInitUnknown (c : BitVec 6) (s : State) : (State.interrupted c s).csrInitUnknown = s.csrInitUnknown := by cases s; rfl
@[simp] theorem interrupted_mem (c : BitVec 6) (s : State) : (State.interrupted c s).mem = s.mem := by cases s; rfl
@[simp] theorem interrupted_irqInput (c : BitVec 6) (s : State) : (State.interrupted c s).irqInput = s.irqInput := by cases s; rfl
@[simp] theorem interrupted_hookReplies (c : BitVec 6) (s : State) : (State.interrupted c s).hookReplies = s.hookReplies := by cases s; rfl
@[simp] theorem interrupted_cosimReplies (c : BitVec 6) (s : State) : (State.interrupted c s).cosimReplies = s.cosimReplies := by cases s; rfl
@[simp] theorem interrupted_port (c : BitVec 6) (s : State) : (State.interrupted c s).port = s.port := by cases s; rfl
@[simp] theorem interrupted_notices (c : BitVec 6) (s : State) : (State.interrupted c s).notices = s.notices := by cases s; rfl
@[simp] theorem interrupted_reply (c : BitVec 6) (s : State) : (State.interrupted c s).reply = s.reply := by cases s; rfl
@[simp] theorem interrupted_signal (c : BitVec 6) (s : State) : (State.interrupted c s).signal = s.signal := by cases s; rfl
@[simp] theorem interrupted_booted (c : BitVec 6) (s : State) : (State.interrupted c s).booted = s.booted := by cases s; rfl
@[simp] theorem interrupted_staleIsa (c : BitVec 6) (s : State) : (State.interrupted c s).staleIsa = s.staleIsa := by cases s; rfl
@[simp] theorem interrupted_staleMmu (c : BitVec 6) (s : State) : (State.interrupted c s).staleMmu = s.staleMmu := by cases s; rfl
@[simp] theorem interrupted_lastUnimplemented (c : BitVec 6) (s : State) : (State.interrupted c s).lastUnimplemented = s.lastUnimplemented := by cases s; rfl
@[simp] theorem interrupted_freeCtr (c : BitVec 6) (s : State) : (State.interrupted c s).freeCtr = s.freeCtr := by cases s; rfl

end Sys2Proof.Machine
end

