-- ==== Sys2Proof/Laws/Csr.lean ====
section
/-! SUPPORT. The laws of the register files, of the CSR file and of the translation queues. -/

namespace Sys2Proof.Machine

/-! ## The integer file -/

@[simp] theorem readX_zero (s : State) : s.readX 0#5 = 0#64 := rfl

@[simp] theorem writeX_zero (s : State) (v : Word) : s.writeX 0#5 v = s := rfl

@[simp] theorem trunc_trunc (x : XLen) (v : Word) : x.trunc (x.trunc v) = x.trunc v := by
  cases x <;> simp [XLen.trunc]

/-- A register written reads as the value modulo 2^XLEN. -/
theorem readX_writeX_same (s : State) {i : Reg} (h : i ≠ 0) (v : Word) :
    (s.writeX i v).readX i = s.cfg.xlen.trunc v := by
  simp only [State.readX, State.writeX, if_neg h]
  simp [Vector.get_eq_getElem]

/-- Every other register reads as before. -/
theorem readX_writeX_other (s : State) {i j : Reg} (h : j ≠ i) (v : Word) : (s.writeX i v).readX j = s.readX j := by
  unfold State.readX State.writeX
  split
  · rfl
  · split
    · rfl
    · have hij : i.toNat ≠ j.toNat := fun e => h (BitVec.eq_of_toNat_eq e.symm)
      simp only [Vector.get_eq_getElem]
      rw [Vector.getElem_set_ne]
      exact hij

/-! ## The CSR file -/

@[simp] theorem raw_set_same (f : CsrFile) (i : CsrIdx) (v : Word) : (f.set i v).raw i = v := by
  induction f with
  | nil => simp [CsrFile.set, CsrFile.raw]
  | cons p f ih =>
    obtain ⟨j, w⟩ := p
    simp only [CsrFile.set]
    split <;> simp_all [CsrFile.raw]

theorem raw_set_other {i j : CsrIdx} (h : j ≠ i) (f : CsrFile) (v : Word) : (f.set i v).raw j = f.raw j := by
  induction f with
  | nil => simp [CsrFile.set, CsrFile.raw, Ne.symm h]
  | cons p f ih =>
    obtain ⟨k, w⟩ := p
    simp only [CsrFile.set]
    split
    · rename_i hk
      subst hk
      simp [CsrFile.raw, Ne.symm h]
    · simp only [CsrFile.raw, ih]

/-- What holds of 0 and of every listed value holds of every raw value. -/
theorem raw_of_forall {P : Word → Prop} {f : CsrFile} (h0 : P 0) (h : ∀ p ∈ f, P p.2) (i : CsrIdx) : P (f.raw i) := by
  induction f with
  | nil => exact h0
  | cons p f ih =>
    obtain ⟨j, w⟩ := p
    simp only [CsrFile.raw]
    split
    · exact h (j, w) (by simp)
    · exact ih (fun q hq => h q (List.mem_cons_of_mem _ hq))

/-- A window's storage is the target's. -/
theorem window_home {x : XLen} {i : CsrIdx} {w : Window} (h : window x i = some w) : w.target = csrHome i := by
  unfold window at h
  unfold csrHome
  split at h
  · simp_all [← Option.some.inj h]
  · split at h
    · simp_all [← Option.some.inj h]
    · split at h
      · simp_all [← Option.some.inj h]
      · exact absurd h (by simp)

/-- An index that is no window is its own home. -/
theorem window_none_home {x : XLen} {i : CsrIdx} (h : window x i = none) : csrHome i = i := by
  unfold window at h
  unfold csrHome
  split at h
  · exact absurd h (by simp)
  · split at h
    · exact absurd h (by simp)
    · split at h
      · exact absurd h (by simp)
      · simp_all

/-- A masked store changes the home of its index only. -/
theorem store_raw_other {c : Config} {f : CsrFile} {i j : CsrIdx} {v : Word} (h : j ≠ csrHome i) :
    (f.store c i v).raw j = f.raw j := by
  unfold CsrFile.store
  split
  · rename_i w hw
    exact raw_set_other (by rw [window_home hw]; exact h) _ _
  · rename_i hw
    exact raw_set_other (by rw [← window_none_home hw]; exact h) _ _

/-- A masked store never changes a bit that the write mask of the home does not select (R41). -/
theorem store_raw_keeps (c : Config) (f : CsrFile) (i : CsrIdx) (v : Word) :
    (f.store c i v).raw (csrHome i) &&& ~~~c.wmask (csrHome i) = f.raw (csrHome i) &&& ~~~c.wmask (csrHome i) := by
  have key : ∀ (a m b : Word), maskedNew a m b &&& ~~~m = a &&& ~~~m := by
    intro a m b
    ext k hk
    simp only [maskedNew, BitVec.getElem_and, BitVec.getElem_or, BitVec.getElem_not]
    cases a[k] <;> cases m[k] <;> cases b[k] <;> rfl
  unfold CsrFile.store
  split
  · rename_i w hw
    rw [window_home hw, raw_set_same]
    exact key _ _ _
  · rename_i hw
    rw [window_none_home hw, raw_set_same]
    exact key _ _ _

/-- The raw value a masked store leaves in an index that is no window (R235). -/
theorem store_raw_same {c : Config} {f : CsrFile} {i : CsrIdx} (v : Word) (h : window c.xlen i = none) :
    (f.store c i v).raw i = maskedNew (f.raw i) (c.wmask i) (c.xlen.trunc v) := by
  simp [CsrFile.store, h]

@[simp] theorem csrWrite_csrs (s : State) (i : CsrIdx) (v : Word) :
    (s.csrWrite i v).csrs = s.csrs.store s.cfg i v := by
  simp [State.csrWrite]

@[simp] theorem fieldWrite_csrs (s : State) (i : CsrIdx) (F : Field) (v : Word) :
    (s.fieldWrite i F v).csrs = s.csrs.store s.cfg i (F.put (s.csrPeek i) v) := by
  simp [State.fieldWrite]

/-! ## One CSR after an access (41_register_access.md R234 to R239) -/

/-- The three windows, by index, for every width. -/
theorem window_eq_none {i : CsrIdx} (h1 : i ≠ Csr.sstatus) (h2 : i ≠ Csr.sie) (h3 : i ≠ Csr.sip) (x : XLen) :
    window x i = none := by
  unfold window
  simp [h1, h2, h3]

/-- Every raw value after a masked write of an index that is no window. -/
theorem csrWrite_raw {s : State} {i : CsrIdx} (h : window s.cfg.xlen i = none) (v : Word) (j : CsrIdx) :
    (s.csrWrite i v).csrs.raw j
      = if j = i then maskedNew (s.csrs.raw i) (s.cfg.wmask i) (s.cfg.xlen.trunc v) else s.csrs.raw j := by
  rw [csrWrite_csrs]
  split
  · rename_i e
    rw [e]
    exact store_raw_same v h
  · rename_i e
    exact store_raw_other (by rwa [window_none_home h])

/-- Every raw value after a field write of an index that is no window. -/
theorem fieldWrite_raw {s : State} {i : CsrIdx} (h : window s.cfg.xlen i = none) (F : Field) (v : Word) (j : CsrIdx) :
    (s.fieldWrite i F v).csrs.raw j
      = if j = i then maskedNew (s.csrs.raw i) (s.cfg.wmask i) (s.cfg.xlen.trunc (F.put (s.csrs.raw i) v))
        else s.csrs.raw j := by
  have hp : s.csrPeek i = s.csrs.raw i := by
    unfold State.csrPeek CsrFile.peek
    rw [h]
  rw [State.fieldWrite, csrWrite_raw h, hp]

/-- A field of an index that is neither a window nor an exception PC. -/
theorem fieldRead_raw {s : State} {i : CsrIdx} (h : window s.cfg.xlen i = none) (h1 : i ≠ Csr.mepc)
    (h2 : i ≠ Csr.sepc) (F : Field) : s.fieldRead i F = F.get (s.csrs.raw i &&& s.cfg.rmask i) := by
  unfold State.fieldRead State.csrRead CsrFile.read CsrFile.readMasked
  rw [h]
  simp [h1, h2]

/-- Every raw value after a poke of an index that is no window. -/
theorem poke_raw {c : Config} {f : CsrFile} {i : CsrIdx} (h : window c.xlen i = none) (v : Word) (j : CsrIdx) :
    (f.poke c i v).raw j = if j = i then c.xlen.trunc v else f.raw j := by
  unfold CsrFile.poke
  rw [h]
  dsimp only
  split
  · rename_i e
    rw [e, raw_set_same]
  · rename_i e
    exact raw_set_other e _ _

/-! ## Translation queues (20_memory.md R111, 42_pipeline_microops.md R262) -/

/-- With nothing pending the request is queued, results or not. -/
@[simp] theorem push_of_resolved {q : Queue} (h : q.pending = []) (r : Request) :
    q.push r = some { q with pending := [r] } := by
  simp [Queue.push, h]

/-- While a request is pending a second one is the host error. -/
@[simp] theorem push_of_pending {q : Queue} (h : q.pending ≠ []) (r : Request) : q.push r = none := by
  simp [Queue.push, h]

@[simp] theorem pushFetch_of_empty (r : Request) : ({} : Queue).pushFetch r = some { pending := [r] } := rfl

@[simp] theorem pushFetch_of_nonempty {q : Queue} (h : q ≠ {}) (r : Request) : q.pushFetch r = none := by
  obtain ⟨p, rs⟩ := q
  cases p <;> cases rs <;> simp_all [Queue.pushFetch, Queue.push]

/-! ## Free destinations (93_implementation_defined.md row U1) -/

/-- All that leaving some registers with free values does: no field but the three files and the counter changes, and no
register but those named. -/
structure FreesOnly (ds : List DestReg) (s t : State) : Prop where
  rest : t = { s with xregs := t.xregs, fregs := t.fregs, vregs := t.vregs, freeCtr := t.freeCtr }
  xreg : ∀ r, ⟨.x, r⟩ ∉ ds → t.readX r = s.readX r
  freg : ∀ r, ⟨.f, r⟩ ∉ ds → t.readF r = s.readF r
  vreg : ∀ r, ⟨.v, r⟩ ∉ ds → t.readV r = s.readV r

theorem readF_writeF_other (s : State) {i j : Reg} (h : j ≠ i) (n : Nat) : (s.writeF i n).readF j = s.readF j := by
  simp only [State.readF, State.writeF, Vector.get_eq_getElem]
  exact Vector.getElem_set_ne _ _ (fun e => h (BitVec.eq_of_toNat_eq e.symm))

theorem readV_writeV_other (s : State) {i j : Reg} (h : j ≠ i) (n : Nat) : (s.writeV i n).readV j = s.readV j := by
  simp only [State.readV, State.writeV, Vector.get_eq_getElem]
  exact Vector.getElem_set_ne _ _ (fun e => h (BitVec.eq_of_toNat_eq e.symm))

theorem freeDest_frees (d : DestReg) (s : State) : FreesOnly [d] s (freeDest d s) := by
  obtain ⟨file, k⟩ := d
  cases file
  · refine ⟨?_, fun r h => readX_writeX_other _ (by simpa using h) _, fun r _ => ?_, fun r _ => ?_⟩
    · simp only [freeDest, State.writeX]; split <;> rfl
    · simp [freeDest, State.readF]
    · simp [freeDest, State.readV]
  · exact ⟨rfl, fun _ _ => rfl, fun r h => readF_writeF_other _ (by simpa using h) _, fun _ _ => rfl⟩
  · exact ⟨rfl, fun _ _ => rfl, fun _ _ => rfl, fun r h => readV_writeV_other _ (by simpa using h) _⟩

theorem freeDests_frees (ds : List DestReg) (s : State) : FreesOnly ds s (ds.foldl (fun s d => freeDest d s) s) := by
  induction ds generalizing s with
  | nil => exact ⟨rfl, fun _ _ => rfl, fun _ _ => rfl, fun _ _ => rfl⟩
  | cons d ds ih =>
    have a := freeDest_frees d s
    have b := ih (freeDest d s)
    rw [List.foldl_cons]
    generalize List.foldl (fun s d => freeDest d s) (freeDest d s) ds = t at b ⊢
    generalize freeDest d s = u at a b
    refine ⟨?_, fun r h => ?_, fun r h => ?_, fun r h => ?_⟩
    · have ha := a.rest
      have hb := b.rest
      cases t; cases u; cases s; cases ha; cases hb; rfl
    all_goals (simp only [List.mem_cons, not_or] at h)
    · rw [b.xreg r h.2, a.xreg r (by simpa using h.1)]
    · rw [b.freg r h.2, a.freg r (by simpa using h.1)]
    · rw [b.vreg r h.2, a.vreg r (by simpa using h.1)]

end Sys2Proof.Machine
end

