-- ==== Sys2Proof/Laws/Decode.lean ====
section
/-! SUPPORT. The fields of an encoded word, a word rebuilt from its fields, and that a decoded word is the encoding of what it
decodes to. -/

namespace Sys2Proof

/-! ## The fields of an encoded word -/

@[simp] theorem wOpcode_encodeI (imm : BitVec 12) (rs1 : Reg) (f3 : BitVec 3) (rd : Reg) (op : BitVec 7) : wOpcode (encodeI imm rs1 f3 rd op) = op := by
  unfold wOpcode encodeI
  apply BitVec.eq_of_getLsbD_eq
  intro i hi
  simp only [BitVec.getLsbD_extractLsb', BitVec.getLsbD_append]
  interval_cases i <;> simp

@[simp] theorem wRd_encodeI (imm : BitVec 12) (rs1 : Reg) (f3 : BitVec 3) (rd : Reg) (op : BitVec 7) : wRd (encodeI imm rs1 f3 rd op) = rd := by
  unfold wRd encodeI
  apply BitVec.eq_of_getLsbD_eq
  intro i hi
  simp only [BitVec.getLsbD_extractLsb', BitVec.getLsbD_append]
  interval_cases i <;> simp

@[simp] theorem wFunct3_encodeI (imm : BitVec 12) (rs1 : Reg) (f3 : BitVec 3) (rd : Reg) (op : BitVec 7) : wFunct3 (encodeI imm rs1 f3 rd op) = f3 := by
  unfold wFunct3 encodeI
  apply BitVec.eq_of_getLsbD_eq
  intro i hi
  simp only [BitVec.getLsbD_extractLsb', BitVec.getLsbD_append]
  interval_cases i <;> simp

@[simp] theorem wRs1_encodeI (imm : BitVec 12) (rs1 : Reg) (f3 : BitVec 3) (rd : Reg) (op : BitVec 7) : wRs1 (encodeI imm rs1 f3 rd op) = rs1 := by
  unfold wRs1 encodeI
  apply BitVec.eq_of_getLsbD_eq
  intro i hi
  simp only [BitVec.getLsbD_extractLsb', BitVec.getLsbD_append]
  interval_cases i <;> simp

@[simp] theorem wImmI_encodeI (imm : BitVec 12) (rs1 : Reg) (f3 : BitVec 3) (rd : Reg) (op : BitVec 7) : wImmI (encodeI imm rs1 f3 rd op) = imm := by
  unfold wImmI encodeI
  apply BitVec.eq_of_getLsbD_eq
  intro i hi
  simp only [BitVec.getLsbD_extractLsb', BitVec.getLsbD_append]
  interval_cases i <;> simp

@[simp] theorem wOpcode_encodeR (f7 : BitVec 7) (rs2 rs1 : Reg) (f3 : BitVec 3) (rd : Reg) (op : BitVec 7) : wOpcode (encodeR f7 rs2 rs1 f3 rd op) = op := by
  unfold wOpcode encodeR
  apply BitVec.eq_of_getLsbD_eq
  intro i hi
  simp only [BitVec.getLsbD_extractLsb', BitVec.getLsbD_append]
  interval_cases i <;> simp

@[simp] theorem wRd_encodeR (f7 : BitVec 7) (rs2 rs1 : Reg) (f3 : BitVec 3) (rd : Reg) (op : BitVec 7) : wRd (encodeR f7 rs2 rs1 f3 rd op) = rd := by
  unfold wRd encodeR
  apply BitVec.eq_of_getLsbD_eq
  intro i hi
  simp only [BitVec.getLsbD_extractLsb', BitVec.getLsbD_append]
  interval_cases i <;> simp

@[simp] theorem wFunct3_encodeR (f7 : BitVec 7) (rs2 rs1 : Reg) (f3 : BitVec 3) (rd : Reg) (op : BitVec 7) : wFunct3 (encodeR f7 rs2 rs1 f3 rd op) = f3 := by
  unfold wFunct3 encodeR
  apply BitVec.eq_of_getLsbD_eq
  intro i hi
  simp only [BitVec.getLsbD_extractLsb', BitVec.getLsbD_append]
  interval_cases i <;> simp

@[simp] theorem wRs1_encodeR (f7 : BitVec 7) (rs2 rs1 : Reg) (f3 : BitVec 3) (rd : Reg) (op : BitVec 7) : wRs1 (encodeR f7 rs2 rs1 f3 rd op) = rs1 := by
  unfold wRs1 encodeR
  apply BitVec.eq_of_getLsbD_eq
  intro i hi
  simp only [BitVec.getLsbD_extractLsb', BitVec.getLsbD_append]
  interval_cases i <;> simp

@[simp] theorem wRs2_encodeR (f7 : BitVec 7) (rs2 rs1 : Reg) (f3 : BitVec 3) (rd : Reg) (op : BitVec 7) : wRs2 (encodeR f7 rs2 rs1 f3 rd op) = rs2 := by
  unfold wRs2 encodeR
  apply BitVec.eq_of_getLsbD_eq
  intro i hi
  simp only [BitVec.getLsbD_extractLsb', BitVec.getLsbD_append]
  interval_cases i <;> simp

@[simp] theorem wFunct7_encodeR (f7 : BitVec 7) (rs2 rs1 : Reg) (f3 : BitVec 3) (rd : Reg) (op : BitVec 7) : wFunct7 (encodeR f7 rs2 rs1 f3 rd op) = f7 := by
  unfold wFunct7 encodeR
  apply BitVec.eq_of_getLsbD_eq
  intro i hi
  simp only [BitVec.getLsbD_extractLsb', BitVec.getLsbD_append]
  interval_cases i <;> simp

@[simp] theorem wOpcode_encodeS (imm : BitVec 12) (rs2 rs1 : Reg) (f3 : BitVec 3) (op : BitVec 7) : wOpcode (encodeS imm rs2 rs1 f3 op) = op := by
  unfold wOpcode encodeS
  apply BitVec.eq_of_getLsbD_eq
  intro i hi
  simp only [BitVec.getLsbD_extractLsb', BitVec.getLsbD_append]
  interval_cases i <;> simp

@[simp] theorem wFunct3_encodeS (imm : BitVec 12) (rs2 rs1 : Reg) (f3 : BitVec 3) (op : BitVec 7) : wFunct3 (encodeS imm rs2 rs1 f3 op) = f3 := by
  unfold wFunct3 encodeS
  apply BitVec.eq_of_getLsbD_eq
  intro i hi
  simp only [BitVec.getLsbD_extractLsb', BitVec.getLsbD_append]
  interval_cases i <;> simp

@[simp] theorem wRs1_encodeS (imm : BitVec 12) (rs2 rs1 : Reg) (f3 : BitVec 3) (op : BitVec 7) : wRs1 (encodeS imm rs2 rs1 f3 op) = rs1 := by
  unfold wRs1 encodeS
  apply BitVec.eq_of_getLsbD_eq
  intro i hi
  simp only [BitVec.getLsbD_extractLsb', BitVec.getLsbD_append]
  interval_cases i <;> simp

@[simp] theorem wRs2_encodeS (imm : BitVec 12) (rs2 rs1 : Reg) (f3 : BitVec 3) (op : BitVec 7) : wRs2 (encodeS imm rs2 rs1 f3 op) = rs2 := by
  unfold wRs2 encodeS
  apply BitVec.eq_of_getLsbD_eq
  intro i hi
  simp only [BitVec.getLsbD_extractLsb', BitVec.getLsbD_append]
  interval_cases i <;> simp

@[simp] theorem wImmS_encodeS (imm : BitVec 12) (rs2 rs1 : Reg) (f3 : BitVec 3) (op : BitVec 7) : wImmS (encodeS imm rs2 rs1 f3 op) = imm := by
  unfold wImmS encodeS
  apply BitVec.eq_of_getLsbD_eq
  intro i hi
  simp only [BitVec.getLsbD_extractLsb', BitVec.getLsbD_append]
  interval_cases i <;> simp

@[simp] theorem wOpcode_encodeB (off : BitVec 13) (rs2 rs1 : Reg) (f3 : BitVec 3) (op : BitVec 7) : wOpcode (encodeB off rs2 rs1 f3 op) = op := by
  unfold wOpcode encodeB
  apply BitVec.eq_of_getLsbD_eq
  intro i hi
  simp only [BitVec.getLsbD_extractLsb', BitVec.getLsbD_append]
  interval_cases i <;> simp

@[simp] theorem wFunct3_encodeB (off : BitVec 13) (rs2 rs1 : Reg) (f3 : BitVec 3) (op : BitVec 7) : wFunct3 (encodeB off rs2 rs1 f3 op) = f3 := by
  unfold wFunct3 encodeB
  apply BitVec.eq_of_getLsbD_eq
  intro i hi
  simp only [BitVec.getLsbD_extractLsb', BitVec.getLsbD_append]
  interval_cases i <;> simp

@[simp] theorem wRs1_encodeB (off : BitVec 13) (rs2 rs1 : Reg) (f3 : BitVec 3) (op : BitVec 7) : wRs1 (encodeB off rs2 rs1 f3 op) = rs1 := by
  unfold wRs1 encodeB
  apply BitVec.eq_of_getLsbD_eq
  intro i hi
  simp only [BitVec.getLsbD_extractLsb', BitVec.getLsbD_append]
  interval_cases i <;> simp

@[simp] theorem wRs2_encodeB (off : BitVec 13) (rs2 rs1 : Reg) (f3 : BitVec 3) (op : BitVec 7) : wRs2 (encodeB off rs2 rs1 f3 op) = rs2 := by
  unfold wRs2 encodeB
  apply BitVec.eq_of_getLsbD_eq
  intro i hi
  simp only [BitVec.getLsbD_extractLsb', BitVec.getLsbD_append]
  interval_cases i <;> simp

theorem wImmB_encodeB {off : BitVec 13} (h : off.getLsbD 0 = false) (rs2 rs1 : Reg) (f3 : BitVec 3)
    (op : BitVec 7) : wImmB (encodeB off rs2 rs1 f3 op) = off := by
  unfold wImmB encodeB
  apply BitVec.eq_of_getLsbD_eq
  intro i hi
  simp only [BitVec.getLsbD_extractLsb', BitVec.getLsbD_append]
  interval_cases i <;> simp
  simpa using h.symm

@[simp] theorem wOpcode_encodeU (imm : BitVec 20) (rd : Reg) (op : BitVec 7) : wOpcode (encodeU imm rd op) = op := by
  unfold wOpcode encodeU
  apply BitVec.eq_of_getLsbD_eq
  intro i hi
  simp only [BitVec.getLsbD_extractLsb', BitVec.getLsbD_append]
  interval_cases i <;> simp

@[simp] theorem wRd_encodeU (imm : BitVec 20) (rd : Reg) (op : BitVec 7) : wRd (encodeU imm rd op) = rd := by
  unfold wRd encodeU
  apply BitVec.eq_of_getLsbD_eq
  intro i hi
  simp only [BitVec.getLsbD_extractLsb', BitVec.getLsbD_append]
  interval_cases i <;> simp

@[simp] theorem wImmU_encodeU (imm : BitVec 20) (rd : Reg) (op : BitVec 7) : wImmU (encodeU imm rd op) = imm := by
  unfold wImmU encodeU
  apply BitVec.eq_of_getLsbD_eq
  intro i hi
  simp only [BitVec.getLsbD_extractLsb', BitVec.getLsbD_append]
  interval_cases i <;> simp

@[simp] theorem wOpcode_encodeJ (off : BitVec 21) (rd : Reg) (op : BitVec 7) : wOpcode (encodeJ off rd op) = op := by
  unfold wOpcode encodeJ
  apply BitVec.eq_of_getLsbD_eq
  intro i hi
  simp only [BitVec.getLsbD_extractLsb', BitVec.getLsbD_append]
  interval_cases i <;> simp

@[simp] theorem wRd_encodeJ (off : BitVec 21) (rd : Reg) (op : BitVec 7) : wRd (encodeJ off rd op) = rd := by
  unfold wRd encodeJ
  apply BitVec.eq_of_getLsbD_eq
  intro i hi
  simp only [BitVec.getLsbD_extractLsb', BitVec.getLsbD_append]
  interval_cases i <;> simp

theorem wImmJ_encodeJ {off : BitVec 21} (h : off.getLsbD 0 = false) (rd : Reg) (op : BitVec 7) :
    wImmJ (encodeJ off rd op) = off := by
  unfold wImmJ encodeJ
  apply BitVec.eq_of_getLsbD_eq
  intro i hi
  simp only [BitVec.getLsbD_extractLsb', BitVec.getLsbD_append]
  interval_cases i <;> simp
  simpa using h.symm

/-! ## A word rebuilt from its fields -/

theorem encodeI_of_fields (w : BitVec 32) : encodeI (wImmI w) (wRs1 w) (wFunct3 w) (wRd w) (wOpcode w) = w := by
  unfold encodeI wImmI wRs1 wFunct3 wRd wOpcode
  apply BitVec.eq_of_getLsbD_eq
  intro i hi
  simp only [BitVec.getLsbD_extractLsb', BitVec.getLsbD_append]
  interval_cases i <;> simp

theorem encodeR_of_fields (w : BitVec 32) : encodeR (wFunct7 w) (wRs2 w) (wRs1 w) (wFunct3 w) (wRd w) (wOpcode w) = w := by
  unfold encodeR wFunct7 wRs2 wRs1 wFunct3 wRd wOpcode
  apply BitVec.eq_of_getLsbD_eq
  intro i hi
  simp only [BitVec.getLsbD_extractLsb', BitVec.getLsbD_append]
  interval_cases i <;> simp

theorem encodeS_of_fields (w : BitVec 32) : encodeS (wImmS w) (wRs2 w) (wRs1 w) (wFunct3 w) (wOpcode w) = w := by
  unfold encodeS wImmS wRs2 wRs1 wFunct3 wOpcode
  apply BitVec.eq_of_getLsbD_eq
  intro i hi
  simp only [BitVec.getLsbD_extractLsb', BitVec.getLsbD_append]
  interval_cases i <;> simp

theorem encodeB_of_fields (w : BitVec 32) : encodeB (wImmB w) (wRs2 w) (wRs1 w) (wFunct3 w) (wOpcode w) = w := by
  unfold encodeB wImmB wRs2 wRs1 wFunct3 wOpcode
  apply BitVec.eq_of_getLsbD_eq
  intro i hi
  simp only [BitVec.getLsbD_extractLsb', BitVec.getLsbD_append]
  interval_cases i <;> simp

theorem encodeU_of_fields (w : BitVec 32) : encodeU (wImmU w) (wRd w) (wOpcode w) = w := by
  unfold encodeU wImmU wRd wOpcode
  apply BitVec.eq_of_getLsbD_eq
  intro i hi
  simp only [BitVec.getLsbD_extractLsb', BitVec.getLsbD_append]
  interval_cases i <;> simp

theorem encodeJ_of_fields (w : BitVec 32) : encodeJ (wImmJ w) (wRd w) (wOpcode w) = w := by
  unfold encodeJ wImmJ wRd wOpcode
  apply BitVec.eq_of_getLsbD_eq
  intro i hi
  simp only [BitVec.getLsbD_extractLsb', BitVec.getLsbD_append]
  interval_cases i <;> simp

theorem wImmI_fence (w : BitVec 32) : w.extractLsb' 28 4 ++ w.extractLsb' 24 4 ++ w.extractLsb' 20 4 = wImmI w := by
  unfold wImmI
  apply BitVec.eq_of_getLsbD_eq
  intro i hi
  simp only [BitVec.getLsbD_extractLsb', BitVec.getLsbD_append]
  interval_cases i <;> simp

/-! ## What a word decodes to encodes to that word -/

theorem encode_of_decodeSystem {w : BitVec 32} {i : Instr} (ho : wOpcode w = 0b1110011#7)
    (h : decodeSystem w = some i) : encode i = .word w := by
  have key : ∀ f, wFunct3 w = f → encodeI (wImmI w) (wRs1 w) f (wRd w) 0b1110011#7 = w := fun f hf => by
    rw [← hf, ← ho, encodeI_of_fields]
  unfold decodeSystem at h
  by_cases h1 : wFunct3 w = 1#3
  · rw [if_pos h1] at h; cases h; exact congrArg Code.word (key _ h1)
  rw [if_neg h1] at h
  by_cases h2 : wFunct3 w = 2#3
  · rw [if_pos h2] at h; cases h; exact congrArg Code.word (key _ h2)
  rw [if_neg h2] at h
  by_cases h3 : wFunct3 w = 3#3
  · rw [if_pos h3] at h; cases h; exact congrArg Code.word (key _ h3)
  rw [if_neg h3] at h
  by_cases h5 : wFunct3 w = 5#3
  · rw [if_pos h5] at h; cases h; exact congrArg Code.word (key _ h5)
  rw [if_neg h5] at h
  by_cases h6 : wFunct3 w = 6#3
  · rw [if_pos h6] at h; cases h; exact congrArg Code.word (key _ h6)
  rw [if_neg h6] at h
  by_cases h7 : wFunct3 w = 7#3
  · rw [if_pos h7] at h; cases h; exact congrArg Code.word (key _ h7)
  rw [if_neg h7] at h
  by_cases h0 : wFunct3 w = 0#3
  · rw [if_pos h0] at h
    split at h
    · rename_i e; cases h; exact congrArg Code.word e.symm
    split at h
    · rename_i e; cases h; exact congrArg Code.word e.symm
    split at h
    · rename_i e; cases h; exact congrArg Code.word e.symm
    split at h
    · rename_i e; cases h; exact congrArg Code.word e.symm
    split at h
    · rename_i e; cases h; exact congrArg Code.word e.symm
    split at h
    · rename_i e
      cases h
      refine congrArg Code.word ?_
      show encodeR 0b0001001#7 (wRs2 w) (wRs1 w) 0b000#3 0#5 0b1110011#7 = w
      rw [← e.1, ← e.2, ← ho, show (0b000#3 : BitVec 3) = wFunct3 w from h0.symm, encodeR_of_fields]
    · exact absurd h (by simp)
  · rw [if_neg h0] at h; exact absurd h (by simp)

/-- A decoded word is the encoding of what it decodes to: decoding drops no bit. -/
theorem encode_of_decodeWord {w : BitVec 32} {i : Instr} (h : decodeWord w = some i) : encode i = .word w := by
  unfold decodeWord at h
  split at h
  · exact encode_of_decodeSystem ‹_› h
  split at h
  · rename_i ho
    split at h
    · rename_i hf
      cases h
      refine congrArg Code.word ?_
      rw [wImmI_fence, show (0b000#3 : BitVec 3) = wFunct3 w from hf.symm, ← ho, encodeI_of_fields]
    split at h
    · rename_i hf
      cases h
      refine congrArg Code.word ?_
      rw [show (0b001#3 : BitVec 3) = wFunct3 w from hf.symm, ← ho, encodeI_of_fields]
    · exact absurd h (by simp)
  split at h
  · rename_i ho
    cases h
    refine congrArg Code.word ?_
    rw [← ho, encodeU_of_fields]
  split at h
  · rename_i ho
    split at h
    · rename_i hf
      cases h
      refine congrArg Code.word ?_
      rw [show (0b000#3 : BitVec 3) = wFunct3 w from hf.symm, ← ho, encodeI_of_fields]
    · exact absurd h (by simp)
  split at h
  · rename_i ho
    split at h
    · rename_i hf
      cases h
      refine congrArg Code.word ?_
      rw [show (0b010#3 : BitVec 3) = wFunct3 w from hf.symm, ← ho, encodeI_of_fields]
    · exact absurd h (by simp)
  split at h
  · rename_i ho
    split at h
    · rename_i hf
      cases h
      refine congrArg Code.word ?_
      rw [show (0b010#3 : BitVec 3) = wFunct3 w from hf.symm, ← ho, encodeS_of_fields]
    · exact absurd h (by simp)
  split at h
  · rename_i ho
    cases h
    refine congrArg Code.word ?_
    rw [← ho, encodeJ_of_fields]
  split at h
  · rename_i ho
    split at h
    · rename_i hf
      cases h
      refine congrArg Code.word ?_
      rw [show (0b001#3 : BitVec 3) = wFunct3 w from hf.symm, ← ho, encodeB_of_fields]
    · exact absurd h (by simp)
  · exact absurd h (by simp)

/-- The word of a decoded instruction. -/
theorem encodedWord_of_decodeWord {w : BitVec 32} {i : Instr} (h : decodeWord w = some i) : encodedWord i = w := by
  rw [encodedWord, encode_of_decodeWord h]

/-! ## Every instruction word is four bytes long (30_encoding.md R151) -/

/-- The low two bits of a word are those of its opcode. -/
theorem low_bits_of_opcode (w : BitVec 32) : w.extractLsb' 0 2 = (wOpcode w).extractLsb' 0 2 := by
  unfold wOpcode
  apply BitVec.eq_of_getLsbD_eq
  intro i hi
  simp only [BitVec.getLsbD_extractLsb']
  interval_cases i <;> simp

/-- A word that decodes has 11 in its low bits. -/
theorem low_bits_of_decodeWord {w : BitVec 32} {i : Instr} (h : decodeWord w = some i) :
    w.extractLsb' 0 2 = 3#2 := by
  rw [low_bits_of_opcode]
  unfold decodeWord at h
  split at h
  · rename_i ho; rw [ho]; rfl
  split at h
  · rename_i ho; rw [ho]; rfl
  split at h
  · rename_i ho; rw [ho]; rfl
  split at h
  · rename_i ho; rw [ho]; rfl
  split at h
  · rename_i ho; rw [ho]; rfl
  split at h
  · rename_i ho; rw [ho]; rfl
  split at h
  · rename_i ho; rw [ho]; rfl
  split at h
  · rename_i ho; rw [ho]; rfl
  · exact absurd h (by simp)

end Sys2Proof
end

