-- ==== Sys2Proof/Laws/Run.lean ====
section
/-! SUPPORT. What evaluating a chain does: the assembled chains written out, the hooks of quiet observers, and the outcome of
an instruction's run from the outcome of its step bodies (40_microop_chain.md R203, 42_pipeline_microops.md R261). -/

namespace Sys2Proof.Machine

/-! ## The assembled chains -/

/-- One hook per observer, in list order. -/
def hookEntries (mk : Nat → MicroOp) (n : Nat) : List Entry := (List.range n).map (fun k => ⟨mk k, none⟩)

theorem hookEntries_succ (mk : Nat → MicroOp) (n : Nat) :
    hookEntries mk (n + 1) = hookEntries mk n ++ [⟨mk n, none⟩] := by
  simp [hookEntries, List.range_succ]

theorem hooksAppend_ops (mk : Nat → MicroOp) (n : Nat) (c : Chain) :
    hooksAppend mk n c = { c with ops := c.ops ++ hookEntries mk n } := by
  induction n with
  | zero => simp [hooksAppend, hookEntries]
  | succ n ih =>
    unfold hooksAppend at ih ⊢
    rw [List.range_succ, List.foldl_append, ih, hookEntries_succ]
    simp [Chain.append]

theorem insertBeforeOps_skip {pre : List Entry} {t : Tag} (h : ∀ e ∈ pre, e.tag ≠ some t) (x : Entry)
    (hx : x.tag = some t) (rest : List Entry) (e : Entry) :
    insertBeforeOps (pre ++ x :: rest) t e = some (pre ++ e :: x :: rest) := by
  induction pre with
  | nil => simp [insertBeforeOps, hx]
  | cons y ys ih =>
    have hy : y.tag ≠ some t := h y (by simp)
    simp only [List.cons_append, insertBeforeOps, if_neg hy]
    rw [ih (fun e he => h e (List.mem_cons_of_mem _ he))]
    rfl

theorem hooksBefore_ops (mk : Nat → MicroOp) (t : Tag) (n : Nat) (pre : List Entry) (x : Entry) (rest : List Entry)
    (nx : Option ChainId) (h : ∀ e ∈ pre, e.tag ≠ some t) (hx : x.tag = some t) :
    hooksBefore mk t n ⟨pre ++ x :: rest, nx⟩ = ⟨pre ++ hookEntries mk n ++ x :: rest, nx⟩ := by
  induction n with
  | zero => simp [hooksBefore, hookEntries]
  | succ n ih =>
    unfold hooksBefore at ih ⊢
    rw [List.range_succ, List.foldl_append, ih, hookEntries_succ]
    have hp : ∀ e ∈ pre ++ hookEntries mk n, e.tag ≠ some t := by
      intro e he
      rcases List.mem_append.1 he with he | he
      · exact h e he
      · simp only [hookEntries, List.mem_map] at he
        obtain ⟨k, -, rfl⟩ := he
        simp
    simp only [List.foldl_cons, List.foldl_nil, Chain.insertBefore, insertBeforeOps_skip hp x hx, Option.map_some,
      Option.getD_some]
    simp

/-- The chain of an instruction that is no memory instruction. -/
theorem instChain_plain (n : Nat) {m : Mnem} (h : Mnem.isMemory m = false) :
    instChain n m = ⟨hookEntries .preExecuteHook n ++ [⟨.execute, some .execute⟩], some .finish⟩ := by
  have e : handlerChain m = ⟨[] ++ ⟨.execute, some .execute⟩ :: [], none⟩ := by
    simp [handlerChain, h, Chain.append]
  simp only [instChain, h, Bool.false_eq_true, if_false, e]
  rw [hooksBefore_ops _ _ _ [] _ _ _ (by simp) rfl]
  rfl

/-- The chain of a memory instruction. -/
theorem instChain_memory (n : Nat) {m : Mnem} (h : Mnem.isMemory m = true) :
    instChain n m = ⟨⟨.computeAddress, some .computeAddress⟩ :: ⟨.dataTranslate, some .dataTranslate⟩
      :: (hookEntries .preExecuteHook n ++ [⟨.execute, some .execute⟩]), some .finish⟩ := by
  have e : handlerChain m = ⟨[⟨.computeAddress, some .computeAddress⟩, ⟨.execute, some .execute⟩], none⟩ := by
    simp [handlerChain, h, Chain.append]
  have e2 : (Chain.insertAfter ⟨[⟨.computeAddress, some .computeAddress⟩, ⟨.execute, some .execute⟩], none⟩
      .computeAddress ⟨.dataTranslate, some .dataTranslate⟩) =
      some ⟨[⟨.computeAddress, some .computeAddress⟩, ⟨.dataTranslate, some .dataTranslate⟩]
        ++ ⟨.execute, some .execute⟩ :: [], none⟩ := rfl
  simp only [instChain, h, if_true, e, e2, Option.getD_some]
  rw [hooksBefore_ops _ _ _ _ _ _ _ (by simp) rfl]
  rfl

theorem exceptionChain_eq (n : Nat) : exceptionChain n =
    ⟨hookEntries .preExceptionHook n ++ [⟨.exception, some .exception⟩], some .finish⟩ := by
  have e : (({} : Chain).append { op := .exception, tag := some .exception }).setNext (some .finish) =
      ⟨[] ++ ⟨.exception, some .exception⟩ :: [], some .finish⟩ := rfl
  unfold exceptionChain
  rw [e, hooksBefore_ops _ _ _ [] _ _ _ (by simp) rfl]
  rfl

theorem finishChain_eq (n : Nat) : finishChain n = ⟨⟨.finishUpdate, none⟩ :: hookEntries .postExecuteHook n, none⟩ := by
  unfold finishChain
  rw [hooksAppend_ops]
  rfl

theorem stopChain_eq (n : Nat) :
    stopChain n = ⟨hookEntries (fun k => .stopNotify (some k)) n ++ [⟨.stopNotify none, none⟩], none⟩ := by
  unfold stopChain
  rw [hooksAppend_ops]
  rfl

theorem fetchChain_eq : fetchChain =
    ⟨[⟨.fetch, none⟩, ⟨.instTranslate, some .instructionTranslate⟩, ⟨.decode, none⟩], none⟩ := rfl

theorem assembled_fetch {s : State} (h : s.Assembled) : s.chains.get .fetch = fetchChain := by
  rw [show s.chains = _ from h]; rfl

theorem assembled_exception {s : State} (h : s.Assembled) :
    s.chains.get .exception = exceptionChain s.cfg.observers := by
  rw [show s.chains = _ from h]; rfl

theorem assembled_finish {s : State} (h : s.Assembled) : s.chains.get .finish = finishChain s.cfg.observers := by
  rw [show s.chains = _ from h]; rfl

theorem assembled_stop {s : State} (h : s.Assembled) : s.chains.get .stop = stopChain s.cfg.observers := by
  rw [show s.chains = _ from h]; rfl

/-- A mnemonic one of whose chains is assembled: one of the twenty, or one the configuration gives the decoder. -/
def Mnem.known (c : Config) : Mnem → Prop
  | .external k => k ∈ c.externalMnems
  | _ => True

theorem mem_distinct (l : List Nat) (k : Nat) : k ∈ distinct l ↔ k ∈ l := by
  induction l with
  | nil => simp [distinct]
  | cons n r ih =>
    simp only [distinct, List.contains_iff_mem, List.mem_cons]
    split
    · rename_i h
      exact ⟨.inr ∘ ih.1, fun h' => h'.elim (fun e => e ▸ h) ih.2⟩
    · simp [ih]

theorem get_external (n k : Nat) (l : List Nat) (h : k ∈ l) :
    Chains.get (l.map (fun j => (ChainId.inst (.external j), instChain n (.external j)))) (.inst (.external k))
      = instChain n (.external k) := by
  induction l with
  | nil => cases h
  | cons j r ih =>
    simp only [List.map_cons, Chains.get]
    by_cases hj : j = k
    · simp [hj]
    · rw [if_neg (by simpa using hj)]
      exact ih ((List.mem_cons.1 h).resolve_left (fun e => hj e.symm))

theorem assembled_inst {s : State} (h : s.Assembled) {m : Mnem} (hm : Mnem.known s.cfg m) :
    s.chains.get (.inst m) = instChain s.cfg.observers m := by
  rw [show s.chains = _ from h]
  cases m with
  | external k =>
    rw [← get_external s.cfg.observers k _ ((mem_distinct _ _).2 hm)]
    simp only [Config.chains, assembleChains, List.map_append, List.map_map]
    rfl
  | _ => rfl

/-! ## Evaluating a chain -/

/-- What follows a micro-op outcome in a chain. -/
def MicroOut.andThen (o : MicroOut) (k : State → MicroOut) : MicroOut :=
  match o with
  | .cont s => k s
  | .redirect c s => .redirect c s
  | .abort f => .abort f
  | .refuse r => .refuse r

@[simp] theorem andThen_cont (s : State) (k : State → MicroOut) : (MicroOut.cont s).andThen k = k s := rfl
@[simp] theorem andThen_redirect (c : ChainId) (s : State) (k : State → MicroOut) :
    (MicroOut.redirect c s).andThen k = .redirect c s := rfl
@[simp] theorem andThen_abort (f : Fault) (k : State → MicroOut) : (MicroOut.abort f).andThen k = .abort f := rfl
@[simp] theorem andThen_refuse (r : Refusal) (k : State → MicroOut) : (MicroOut.refuse r).andThen k = .refuse r := rfl

@[simp] theorem runOps_nil (s : State) : runOps [] s = .cont s := rfl

theorem runOps_cons (e : Entry) (es : List Entry) (s : State) :
    runOps (e :: es) s = (invoke e.op s).andThen (runOps es) := by
  simp only [runOps]
  cases invoke e.op s <;> rfl

theorem runOps_append (a b : List Entry) (s : State) : runOps (a ++ b) s = (runOps a s).andThen (runOps b) := by
  induction a generalizing s with
  | nil => rfl
  | cons e a ih =>
    simp only [List.cons_append, runOps_cons]
    cases invoke e.op s with
    | cont s' => exact ih s'
    | redirect c s' => rfl
    | abort f => rfl
    | refuse r => rfl

/-! ### Run -/

/-- Counting and the fixed point agree. -/
theorem runOn_of_runUpTo {n : Nat} {c : ChainId} {s : State} {r : Host.Outcome State Fault Refusal}
    (h : runUpTo n c s = some r) : runOn c s = some r := by
  induction n generalizing c s with
  | zero => cases h
  | succ n ih =>
    rw [runOn]
    simp only [runUpTo] at h
    cases e : chainHop c s with
    | halt q => rw [e] at h; exact h
    | enter d t => rw [e] at h; exact ih h

/-- A Run is its fixed point; the counting does not show. -/
theorem runChain_eq_runOn (c : ChainId) (s : State) : runChain c s = (runOn c s).getD (.fault .runDoesNotEnd) := by
  unfold runChain
  cases e : runUpTo Config.runFuel c s with
  | some r => rw [runOn_of_runUpTo e]; rfl
  | none => cases runOn c s <;> rfl

/-- A Run whose outcome counting finds, with any number of chains. -/
theorem runChain_of_runUpTo {n : Nat} {c : ChainId} {s : State} {r : Host.Outcome State Fault Refusal}
    (h : runUpTo n c s = some r) : runChain c s = r := by
  rw [runChain_eq_runOn, runOn_of_runUpTo h, Option.getD_some]

/-- Where a chain's outcome leads: its `next`, the chain it redirects to, or the end (R203). -/
def afterChain (nx : Option ChainId) : MicroOut → Host.Outcome State Fault Refusal
  | .cont s => match nx with
    | none => .next s
    | some d => runChain d s
  | .redirect d s => runChain d s
  | .abort f => .fault f
  | .refuse r => .refused r

/-- One chain of a Run: its micro-ops, then wherever that leads. -/
theorem runChain_unfold (c : ChainId) (s : State) :
    runChain c s = afterChain (s.chains.get c).next (runOps (s.chains.get c).ops s) := by
  rw [runChain_eq_runOn, runOn]
  simp only [chainHop]
  cases runOps (s.chains.get c).ops s with
  | cont s' =>
    cases (s.chains.get c).next with
    | none => rfl
    | some d => exact (runChain_eq_runOn d s').symm
  | redirect d s' => exact (runChain_eq_runOn d s').symm
  | abort f => rfl
  | refuse r => rfl

/-- What holds of the state of a micro-op outcome that has one. -/
def MicroOut.holds (P : State → Prop) : MicroOut → Prop
  | .cont s => P s
  | .redirect _ s => P s
  | .abort _ => True
  | .refuse _ => True

/-- THE INDUCTION OVER CHAINS: what every micro-op keeps, running the micro-ops of a chain keeps. -/
theorem runOps_keeps {P : State → Prop} (hop : ∀ op s, P s → (invoke op s).holds P) (es : List Entry) (s : State)
    (h : P s) : (runOps es s).holds P := by
  induction es generalizing s with
  | nil => exact h
  | cons e es ih =>
    have he := hop e.op s h
    rw [runOps_cons]
    cases e' : invoke e.op s with
    | cont s' => rw [e'] at he; exact ih s' he
    | redirect d s' => rw [e'] at he; exact he
    | abort f => trivial
    | refuse r => trivial

/-- THE INDUCTION OVER RUNS: what every micro-op keeps holds of the state in which a Run ends, over any chains. -/
theorem runChain_keeps {P : State → Prop} (hop : ∀ op s, P s → (invoke op s).holds P) {c : ChainId} {s t : State}
    (h : P s) (hr : runChain c s = .next t) : P t := by
  have key : ∀ c s r, runOn c s = some r → P s → ∀ t, r = .next t → P t := by
    refine runOn.partial_correctness (fun _ s r => P s → ∀ t, r = .next t → P t) ?_
    intro f ih c s r hf hs t ht
    have ho := runOps_keeps hop (s.chains.get c).ops s hs
    simp only [chainHop, hopOf] at hf
    cases e : runOps (s.chains.get c).ops s with
    | cont s' =>
      rw [e] at hf ho
      cases en : (s.chains.get c).next with
      | none =>
        rw [en] at hf
        cases Option.some.inj hf
        cases ht
        exact ho
      | some d =>
        rw [en] at hf
        exact ih d s' r hf ho t ht
    | redirect d s' =>
      rw [e] at hf ho
      exact ih d s' r hf ho t ht
    | abort f' => rw [e] at hf; cases Option.some.inj hf; cases ht
    | refuse r' => rw [e] at hf; cases Option.some.inj hf; cases ht
  rw [runChain_eq_runOn] at hr
  cases e : runOn c s with
  | none => rw [e] at hr; cases hr
  | some r => rw [e] at hr; exact key c s r e h t hr

/-! ## The hooks of quiet observers -/

theorem quiet_observedN {s : State} (h : s.Quiet) (k : HookKind) (m : Bool) (n : Nat) : (s.observedN k m n).Quiet :=
  fun r hr => h r (List.drop_subset _ _ hr)

theorem observedN_zero (k : HookKind) (m : Bool) (s : State) : s.observedN k m 0 = s := by
  cases s
  simp [State.observedN, exitAfter]

theorem hookCall_observedN {s : State} (h : s.Quiet) (k : HookKind) (m : Bool) (n : Nat) :
    hookCall k n m (s.observedN k m n) = .cont (s.observedN k m (n + 1)) := by
  have hd : ∀ r rs, s.hookReplies.drop n = r :: rs → r.redirect = none := fun r rs e =>
    h r (List.drop_subset n _ (e ▸ List.mem_cons_self))
  unfold hookCall
  simp only [State.notify, State.observedN]
  cases e : s.hookReplies.drop n with
  | nil =>
    have hl : s.hookReplies.length ≤ n := List.drop_eq_nil_iff.1 e
    have e1 : s.hookReplies.drop (n + 1) = [] := List.drop_eq_nil_iff.2 (by omega)
    have e2 : s.hookReplies.take (n + 1) = s.hookReplies.take n := by
      rw [List.take_of_length_le (by omega), List.take_of_length_le hl]
    simp [e1, e2, List.range_succ]
  | cons r rs =>
    have hl : n < s.hookReplies.length := by
      by_contra hn
      rw [List.drop_eq_nil_iff.2 (by omega)] at e
      exact absurd e (by simp)
    have e1 : s.hookReplies.drop (n + 1) = rs := by
      rw [← List.drop_drop, e]
      rfl
    have e2 : s.hookReplies.take (n + 1) = s.hookReplies.take n ++ [r] := by
      have hr : s.hookReplies[n] = r := by
        rw [List.drop_eq_getElem_cons hl] at e
        exact (List.cons.inj e).1
      rw [List.take_succ_eq_append_getElem hl, hr]
    simp only [hd r rs e, e1, e2, List.range_succ, List.map_append, List.map_cons, List.map_nil]
    simp only [exitAfter, List.foldl_append, List.foldl_cons, List.foldl_nil, List.append_assoc]
    all_goals (cases r.exitCode <;> rfl)

/-- The hooks of quiet observers only notify (40_microop_chain.md R208). -/
theorem runOps_hooks {s : State} (h : s.Quiet) (mk : Nat → MicroOp) (k : HookKind) (m : Bool) (n : Nat)
    (hmk : ∀ j, j ≤ n → invoke (mk j) (s.observedN k m j) = hookCall k j m (s.observedN k m j)) :
    runOps (hookEntries mk n) s = .cont (s.observedN k m n) := by
  induction n with
  | zero => rw [observedN_zero]; rfl
  | succ n ih =>
    rw [hookEntries_succ, runOps_append, ih (fun j hj => hmk j (by omega)), andThen_cont, runOps_cons,
      hmk n (by omega), hookCall_observedN h]
    rfl

theorem runOps_preExecute {s : State} (h : s.Quiet) (n : Nat) :
    runOps (hookEntries .preExecuteHook n) s = .cont (s.observedN .preExecute s.marker n) :=
  runOps_hooks h _ _ _ _ (fun _ _ => rfl)

theorem runOps_preException {s : State} (h : s.Quiet) (n : Nat) :
    runOps (hookEntries .preExceptionHook n) s = .cont (s.observedN .preException s.marker n) :=
  runOps_hooks h _ _ _ _ (fun _ _ => rfl)

theorem runOps_postExecute {s : State} (h : s.Quiet) (n : Nat) :
    runOps (hookEntries .postExecuteHook n) s = .cont (s.observedN .postExecute s.lastUnimplemented n) :=
  runOps_hooks h _ _ _ _ (fun _ _ => rfl)

/-! ## The FINISH and EXCEPTION chains -/

theorem finishUpdate_eq (s : State) : finishUpdate s =
    { (s.commitPriv.advance s.nextPc) with nextPc := s.nextPc, lastUnimplemented := s.marker } := by
  unfold finishUpdate State.commitPriv State.advance
  dsimp only
  split <;> rfl

/-- The FINISH chain: FINISH_UPDATE, then the post-execute hooks, then the end (R290, R301). -/
theorem runChain_finish {s : State} (ha : s.Assembled) (hq : s.Quiet) :
    runChain .finish s =
      .next ((finishUpdate s).observedN .postExecute s.marker s.cfg.observers) := by
  have hq' : (finishUpdate s).Quiet := fun r hr => hq r (by simpa using hr)
  rw [runChain_unfold, assembled_finish ha, finishChain_eq, runOps_cons]
  simp only [invoke, andThen_cont]
  rw [runOps_postExecute hq']
  rfl

/-- The EXCEPTION chain with exactly one cause valid and the extension set accepted: the pre-exception hooks, the trap,
then FINISH (60_exceptions.md R520). -/
theorem runChain_exception {s : State} (ha : s.Assembled) (hq : s.Quiet)
    (hc : s.latch.faultValid ≠ s.latch.interruptValid)
    (hi : isaAccepted s.cfg (takeTrap (s.observedN .preException s.marker s.cfg.observers)).inclusions = true) :
    runChain .exception s =
      runChain .finish (takeTrap (s.observedN .preException s.marker s.cfg.observers)) := by
  have e : exceptionStep (s.observedN .preException s.marker s.cfg.observers)
      = .cont (takeTrap (s.observedN .preException s.marker s.cfg.observers)) := by
    unfold exceptionStep checkIsa
    rw [if_neg (by simpa using hc), if_pos (by simpa using hi)]
  rw [runChain_unfold, assembled_exception ha, exceptionChain_eq]
  simp only [runOps_append, runOps_preException hq, andThen_cont, runOps_cons, invoke, e, runOps_nil, afterChain]

/-! ## The chain arena and the edits (40_microop_chain.md R210 to R215) -/

/-- A chain after another was put into the arena. -/
theorem chains_get_set (cs : Chains) (c d : ChainId) (x : Chain) :
    (cs.set c x).get d = if d = c then x else cs.get d := by
  induction cs with
  | nil => simp only [Chains.set, Chains.get]; by_cases h : c = d <;> simp [h, eq_comm]
  | cons p cs ih =>
    obtain ⟨j, y⟩ := p
    simp only [Chains.set]
    by_cases h : j = c
    · simp only [h, if_true, Chains.get]
      by_cases h' : c = d <;> simp [h', eq_comm]
    · simp only [h, if_false, Chains.get, ih]
      by_cases h' : j = d
      · subst h'; simp [h]
      · simp [h']

theorem insertAfterOps_skip {pre : List Entry} {t : Tag} (h : ∀ e ∈ pre, e.tag ≠ some t) (x : Entry)
    (hx : x.tag = some t) (rest : List Entry) (e : Entry) :
    insertAfterOps (pre ++ x :: rest) t e = some (pre ++ x :: e :: rest) := by
  induction pre with
  | nil => simp [insertAfterOps, hx]
  | cons y ys ih =>
    simp only [List.cons_append, insertAfterOps, if_neg (h y (by simp))]
    rw [ih (fun e he => h e (List.mem_cons_of_mem _ he))]
    rfl

theorem replaceOps_skip {pre : List Entry} {t : Tag} (h : ∀ e ∈ pre, e.tag ≠ some t) (x : Entry)
    (hx : x.tag = some t) (rest : List Entry) (op : MicroOp) :
    replaceOps (pre ++ x :: rest) t op = some (pre ++ ⟨op, some t⟩ :: rest) := by
  induction pre with
  | nil => simp [replaceOps, hx]
  | cons y ys ih =>
    simp only [List.cons_append, replaceOps, if_neg (h y (by simp))]
    rw [ih (fun e he => h e (List.mem_cons_of_mem _ he))]
    rfl

end Sys2Proof.Machine
end

