-- ==== Sys2Proof/Laws/Instr.lean ====
section
/-! SUPPORT. The run of one instruction word from a state that is ready: what its step bodies give decides everything, as one
closed form for completing and one for trapping. -/

namespace Sys2Proof.Machine

/-! ## Fields an instruction's effect neither reads nor writes -/

/-- `s` with the slot, the notices, the observers' replies and the exit code replaced. -/
def State.aside (c : Option CurrentInst) (ns : List Notice) (rs : List HookReply) (e : Word) (s : State) : State :=
  { s with currentInst := c, notices := ns, hookReplies := rs, exitCode := e }

section Aside
variable (c : Option CurrentInst) (ns : List Notice) (rs : List HookReply) (e : Word) (s : State)

theorem aside_self : s.aside s.currentInst s.notices s.hookReplies s.exitCode = s := rfl

theorem writeX_aside (i : Reg) (v : Word) : (s.aside c ns rs e).writeX i v = (s.writeX i v).aside c ns rs e := by
  unfold State.writeX; split <;> rfl

theorem csrRead_aside (i : CsrIdx) : (s.aside c ns rs e).csrRead i = s.csrRead i := rfl

theorem csrPeek_aside (i : CsrIdx) : (s.aside c ns rs e).csrPeek i = s.csrPeek i := rfl

theorem fieldRead_aside (i : CsrIdx) (F : Field) : (s.aside c ns rs e).fieldRead i F = s.fieldRead i F := rfl

theorem csrWrite_aside (i : CsrIdx) (v : Word) :
    (s.aside c ns rs e).csrWrite i v = (s.csrWrite i v).aside c ns rs e := by
  simp only [State.csrWrite, State.csrSideEffects]; split <;> split <;> rfl

theorem fieldWrite_aside (i : CsrIdx) (F : Field) (v : Word) :
    (s.aside c ns rs e).fieldWrite i F v = (s.fieldWrite i F v).aside c ns rs e :=
  csrWrite_aside c ns rs e s i _

theorem setNextPc_aside (v : Word) : (s.aside c ns rs e).setNextPc v = (s.setNextPc v).aside c ns rs e := rfl

theorem setNextPriv_aside (p : Priv) : (s.aside c ns rs e).setNextPriv p = (s.setNextPriv p).aside c ns rs e := rfl

theorem aside_pc : (s.aside c ns rs e).pc = s.pc := rfl

theorem aside_priv : (s.aside c ns rs e).priv = s.priv := rfl

theorem clearVirtualization_aside :
    clearVirtualization (s.aside c ns rs e) = (clearVirtualization s).aside c ns rs e := by
  unfold clearVirtualization
  rw [show (s.aside c ns rs e).cfg = s.cfg from rfl]
  cases s.cfg.xlen <;> simp only [fieldWrite_aside]

theorem trapEntryS_aside (a t : Word) : trapEntryS (s.aside c ns rs e) a t = (trapEntryS s a t).aside c ns rs e := by
  simp only [trapEntryS, csrRead_aside, fieldRead_aside, csrWrite_aside, fieldWrite_aside, setNextPc_aside,
    setNextPriv_aside, aside_pc, aside_priv]

theorem trapEntryM_aside (a t : Word) : trapEntryM (s.aside c ns rs e) a t = (trapEntryM s a t).aside c ns rs e := by
  simp only [trapEntryM, csrRead_aside, fieldRead_aside, csrWrite_aside, fieldWrite_aside, setNextPc_aside,
    setNextPriv_aside, aside_pc, aside_priv, clearVirtualization_aside]

theorem trapToS_aside : trapToS (s.aside c ns rs e) = trapToS s := rfl

theorem trapValue_aside (b : Bool) (k : BitVec 6) : trapValue (s.aside c ns rs e) b k = trapValue s b k := rfl

theorem cosimSync_aside : cosimSync (s.aside c ns rs e) = (cosimSync s).aside c ns rs e := rfl

theorem clearCause_aside : clearCause (s.aside c ns rs e) = (clearCause s).aside c ns rs e := rfl

theorem trapEntry_aside (a t : Word) : trapEntry a t (s.aside c ns rs e) = (trapEntry a t s).aside c ns rs e := by
  unfold trapEntry
  rw [trapToS_aside]
  split
  · exact trapEntryS_aside ..
  · exact trapEntryM_aside ..

theorem takeTrap_aside : takeTrap (s.aside c ns rs e) = (takeTrap s).aside c ns rs e := by
  unfold takeTrap
  rw [trapValue_aside, trapEntry_aside, cosimSync_aside, clearCause_aside]
  rfl

theorem trapReturn_aside (IE PIE PP : Field) (x : CsrIdx) (p : Priv) :
    trapReturn IE PIE PP x p (s.aside c ns rs e) = (trapReturn IE PIE PP x p s).aside c ns rs e := by
  simp only [trapReturn, fieldRead_aside, fieldWrite_aside]
  split <;> simp only [setNextPriv_aside, csrRead_aside, setNextPc_aside]

end Aside

/-- Taking a trap does not depend on the old `next_pc`. -/
theorem takeTrap_setNextPc (s : State) (w : Word) : takeTrap (s.setNextPc w) = takeTrap s := by
  have h : trapEntry (trapCause s.cfg.xlen s.latch.interruptValid s.latch.code)
      (trapValue s s.latch.interruptValid s.latch.code) (s.setNextPc w) = trapEntry (trapCause s.cfg.xlen
      s.latch.interruptValid s.latch.code) (trapValue s s.latch.interruptValid s.latch.code) s := by
    unfold trapEntry
    rw [show trapToS (s.setNextPc w) = trapToS s from rfl]
    split
    · unfold trapEntryS; rfl
    · unfold trapEntryM; rfl
  exact congrArg (fun u => clearCause (cosimSync u)) h

theorem observedN_aside (k : HookKind) (m : Bool) (n : Nat) (s : State) :
    s.observedN k m n = s.aside s.currentInst (s.observedN k m n).notices (s.observedN k m n).hookReplies
      (s.observedN k m n).exitCode := rfl

/-! ## The run of a word -/

/-- The slot DECODE fills for an instruction that stands in some bits. -/
def slotOf (bits : BitVec 32) (len : Nat) (i : Instr) : CurrentInst := { opcode := bits, len := len, instr := some i }

/-- The state in which EXECUTE of an instruction that is no memory instruction is invoked. -/
def State.entered (bits : BitVec 32) (len : Nat) (i : Instr) (s : State) : State :=
  (loadInst (slotOf bits len i) s).observed .preExecute false

theorem quiet_entered {s : State} (h : s.Quiet) (bits : BitVec 32) (len : Nat) (i : Instr) :
    (s.entered bits len i).Quiet :=
  quiet_observedN (s := loadInst (slotOf bits len i) s) h _ _ _

/-- EXECUTE of the instruction in the slot. -/
theorem executeStep_entered (bits : BitVec 32) (len : Nat) (i : Instr) (s : State) :
    executeStep (s.entered bits len i) = executeBody i (s.entered bits len i) := rfl

/-- The mnemonic of an instruction is one of the twenty. -/
theorem mnem_known (c : Config) {i : Instr} {m : Mnem} (hi : i.mnem = some m) : Mnem.known c m := by
  cases i <;> cases hi <;> trivial

/-- An instruction that is no memory instruction: the pre-execute hooks, then its EXECUTE body, then where that leads. -/
theorem runLoaded_plain {s : State} (h : s.Ready) (bits : BitVec 32) (len : Nat) {i : Instr} {m : Mnem}
    (hi : i.mnem = some m) (hm : Mnem.isMemory m = false) :
    runLoaded bits len i s = afterChain (some .finish) (executeBody i (s.entered bits len i)) := by
  have hc : i.chain = .inst m := by rw [Instr.chain, hi]; rfl
  have hl : (loadInst (slotOf bits len i) s).Assembled := h.assembled
  have hq : (loadInst (slotOf bits len i) s).Quiet := h.quiet
  have hk : Mnem.known (loadInst (slotOf bits len i) s).cfg m := mnem_known _ hi
  show runChain i.chain (loadInst (slotOf bits len i) s) = _
  rw [runChain_unfold, hc, assembled_inst hl hk, instChain_plain _ hm]
  simp only [runOps_append, runOps_preExecute hq, andThen_cont, runOps_cons, invoke]
  show afterChain _ ((executeStep (s.entered bits len i)).andThen _) = _
  rw [executeStep_entered]
  cases executeBody i (s.entered bits len i) <;> rfl

/-- What FINISH makes of a completed EXECUTE whose effect on `s` was `u` and whose `next_pc` is `np`. -/
theorem afterChain_completes {u t : State} {ci : CurrentInst} {np : Word} (hu : u.Ready)
    (ht : t = { (u.observed .preExecute false) with currentInst := some ci, nextPc := np })
    (hc : ci.unimplemented = false) :
    afterChain (some .finish) (.cont t) = .next (u.completes np) := by
  have ha : t.Assembled := by rw [ht]; exact hu.assembled
  have hq : t.Quiet := by rw [ht]; exact quiet_observedN (s := u) hu.quiet .preExecute false _
  show runChain .finish t = _
  rw [runChain_finish ha hq, finishUpdate_eq]
  have hp : t.nextPriv = t.priv := by rw [ht]; exact hu.noReturn
  have hm : t.marker = false := by rw [ht]; exact hc
  rw [State.commitPriv, if_pos hp, hm, ht]
  rfl

/-- What EXCEPTION and FINISH make of a fault that EXECUTE raised. -/
theorem afterChain_traps {s t : State} {ci : CurrentInst} {np : Word} {code : BitVec 6} {info : Word} (hs : s.Ready)
    (ht : t = { ((s.faulting code info).observed .preExecute false) with currentInst := some ci, nextPc := np })
    (hc : ci.unimplemented = false) (hi : isaAccepted s.cfg (takeTrap (s.faulting code info)).inclusions = true) :
    afterChain (some .finish) (.redirect .exception t) = .next (s.faulting code info).trapsInExecute := by
  have ha : t.Assembled := by rw [ht]; exact hs.assembled
  have hq : t.Quiet := by rw [ht]; exact quiet_observedN (s := s) hs.quiet .preExecute false _
  have hv : t.latch.faultValid ≠ t.latch.interruptValid := by
    have := hs.noCause
    rw [ht]
    simp only [CauseLatch.pending, Bool.or_eq_false_iff] at this
    show true ≠ s.latch.interruptValid
    rw [this.2]
    simp
  have hm : t.marker = false := by rw [ht]; exact hc
  obtain ⟨u, hu⟩ : ∃ u : State, u = ((s.faulting code info).observed .preExecute false).observed .preException false :=
    ⟨_, rfl⟩
  have e1 : t.observedN .preException t.marker t.cfg.observers
      = (u.aside (some ci) u.notices u.hookReplies u.exitCode).setNextPc np := by
    rw [hm, hu, ht]; rfl
  have e2 : takeTrap (t.observedN .preException t.marker t.cfg.observers)
      = (takeTrap u).aside (some ci) u.notices u.hookReplies u.exitCode := by
    rw [e1, takeTrap_setNextPc, takeTrap_aside]
  have e3 : takeTrap u = (takeTrap (s.faulting code info)).aside s.currentInst u.notices u.hookReplies u.exitCode := by
    rw [← takeTrap_aside, hu]; rfl
  have hacc : isaAccepted t.cfg (takeTrap (t.observedN .preException t.marker t.cfg.observers)).inclusions = true := by
    rw [e2, e3, ht]
    exact hi
  show runChain .exception t = _
  rw [runChain_exception ha hq hv hacc, e2]
  have ha2 : ((takeTrap u).aside (some ci) u.notices u.hookReplies u.exitCode).Assembled := by
    have : takeTrap u = _ := rfl
    show (takeTrap u).chains = (takeTrap u).cfg.chains
    rw [takeTrap_chains, takeTrap_cfg, hu]
    exact hs.assembled
  have hq2 : ((takeTrap u).aside (some ci) u.notices u.hookReplies u.exitCode).Quiet := by
    show ∀ r ∈ u.hookReplies, r.redirect = none
    rw [hu]
    exact quiet_observedN (quiet_observedN (s := s) hs.quiet .preExecute false _) .preException false _
  rw [runChain_finish ha2 hq2, finishUpdate_eq]
  have hm2 : ((takeTrap u).aside (some ci) u.notices u.hookReplies u.exitCode).marker = false := hc
  rw [hm2]
  have hu' : (s.faulting code info).trapsInExecute = u.trapped := by rw [hu]; rfl
  rw [hu']
  unfold State.trapped
  have e4 : (takeTrap u).aside (some ci) u.notices u.hookReplies u.exitCode
      = { takeTrap u with currentInst := some ci } := by
    rw [show takeTrap u = (takeTrap u).aside (takeTrap u).currentInst (takeTrap u).notices (takeTrap u).hookReplies
      (takeTrap u).exitCode from rfl]
    simp only [takeTrap_notices, takeTrap_hookReplies, takeTrap_exitCode]
    rfl
  rw [e4]
  generalize takeTrap u = w
  unfold State.commitPriv
  dsimp only
  split <;> rfl

/-! ## Completing and trapping, for a word that is no memory instruction -/

theorem Ready.writeX {s : State} (h : s.Ready) (i : Reg) (v : Word) : (s.writeX i v).Ready :=
  ⟨by simpa [State.Assembled] using h.assembled, by simpa [State.Quiet] using h.quiet, by simpa using h.noCause,
    by simpa using h.noReturn⟩

theorem Ready.csrWrite {s : State} (h : s.Ready) (i : CsrIdx) (v : Word) : (s.csrWrite i v).Ready :=
  ⟨by simpa [State.Assembled] using h.assembled, by simpa [State.Quiet] using h.quiet, by simpa using h.noCause,
    by simpa using h.noReturn⟩

/-- The state EXECUTE is invoked in differs from `s` in the slot, `next_pc` and what the observers did. -/
theorem entered_eq (bits : BitVec 32) (len : Nat) (i : Instr) (s : State) :
    s.entered bits len i = (s.setNextPc (s.pcPlus (BitVec.ofNat 64 len))).aside (some (slotOf bits len i))
      (s.observed .preExecute false).notices (s.observed .preExecute false).hookReplies
      (s.observed .preExecute false).exitCode := rfl

/-- COMPLETING: where EXECUTE's effect on `s` is `u` and its `next_pc` is `np`, the run ends in `u` retired at `np`. -/
theorem runLoaded_completes {s u : State} (h : s.Ready) (hu : u.Ready) {bits : BitVec 32} {len : Nat} {i : Instr}
    {m : Mnem} {np : Word} (hi : i.mnem = some m) (hm : Mnem.isMemory m = false)
    (hb : executeBody i (s.entered bits len i) = .cont { (u.observed .preExecute false) with
      currentInst := (s.entered bits len i).currentInst, nextPc := np }) :
    runLoaded bits len i s = .next (u.completes np) := by
  rw [runLoaded_plain h bits len hi hm, hb]
  exact afterChain_completes hu rfl rfl

/-- TRAPPING: where EXECUTE raises a fault, the run ends in the trap taken. -/
theorem runLoaded_traps {s : State} (h : s.Ready) {bits : BitVec 32} {len : Nat} {i : Instr} {m : Mnem}
    {code : BitVec 6} {info : Word} (hi : i.mnem = some m) (hm : Mnem.isMemory m = false)
    (hb : executeBody i (s.entered bits len i) = raiseFault code info (s.entered bits len i))
    (ha : isaAccepted s.cfg (takeTrap (s.faulting code info)).inclusions = true) :
    runLoaded bits len i s = .next (s.faulting code info).trapsInExecute := by
  rw [runLoaded_plain h bits len hi hm, hb]
  unfold raiseFault
  rw [if_neg (show ¬ (s.entered bits len i).latch.pending = true by
    rw [show (s.entered bits len i).latch = s.latch from rfl, h.noCause]; simp)]
  exact afterChain_traps h (ci := slotOf bits len i) (np := s.pcPlus (BitVec.ofNat 64 len)) rfl rfl ha

/-! ## The decoder (30_encoding.md R150 to R156) -/

/-- One of the twenty words whose extension is enabled is known. -/
theorem decodeBits_word {c : Config} {w : BitVec 32} {e : BitVec 26} {i : Instr} (h : decodeWord w = some i)
    (he : enables e (needsOf c i) = true) : decodeBits c e false w = .known i := by
  simp [decodeBits, decodeKnown, h, he]

/-- A word without a handler has a mnemonic whose chain is assembled. -/
theorem externalMnem_of_decodeBits {c : Config} {inc : BitVec 26} {short : Bool} {bits : BitVec 32} {k : Nat}
    {ds : List DestReg} (h : decodeBits c inc short bits = .unimplemented k ds) : k ∈ c.externalMnems := by
  unfold decodeBits at h
  split at h
  · cases h
  · split at h
    · rename_i r hr
      cases h
      exact List.mem_map_of_mem (List.mem_of_find?_eq_some hr)
    · cases h

end Sys2Proof.Machine
end

