-- ==== Sys2Proof/Laws/Memory.lean ====
section
/-! SUPPORT. The laws of memory: a read after a write, the frame of a write, and that every operation keeps the canonical
form. -/

namespace Sys2Proof.Machine

@[simp] theorem memory_get_nil (a : Nat) : Memory.get [] a = Memory.unlisted := rfl

theorem memory_wf_nil : Memory.wf [] := by simp [Memory.wf]

theorem memory_wf_tail {p : Host.Cell} {m : Memory} (h : Memory.wf (p :: m)) : Memory.wf m :=
  ⟨(List.pairwise_cons.1 h.1).2, fun q hq => h.2 q (List.mem_cons_of_mem p hq)⟩

/-- Below every listed address memory reads as unlisted. -/
theorem memory_get_below {m : Memory} {a : Nat} (h : ∀ p ∈ m, a < p.1) : m.get a = Memory.unlisted := by
  induction m with
  | nil => rfl
  | cons p m ih =>
    obtain ⟨b, v⟩ := p
    have hb : a < b := h (b, v) (by simp)
    simp only [Memory.get]
    rw [if_neg (by omega)]
    exact ih (fun q hq => h q (List.mem_cons_of_mem _ hq))

/-- A byte other than the written one reads as before. -/
theorem memory_get_set_other {a b : Nat} (h : b ≠ a) (m : Memory) (v : Byte) : (m.set a v).get b = m.get b := by
  induction m with
  | nil =>
    simp only [Memory.set]
    split <;> simp [Memory.get, h]
  | cons p m ih =>
    obtain ⟨c, w⟩ := p
    simp only [Memory.set]
    split
    · split <;> simp [Memory.get, h]
    · split
      · rename_i _ hac
        subst hac
        split <;> simp [Memory.get, h]
      · simp only [Memory.get, ih]

/-- The written byte reads as written, in a canonical memory. -/
theorem memory_get_set_same {m : Memory} (hm : m.wf) (a : Nat) (v : Byte) : (m.set a v).get a = v := by
  induction m with
  | nil =>
    simp only [Memory.set]
    split <;> simp_all [Memory.get]
  | cons p m ih =>
    obtain ⟨c, w⟩ := p
    have hlt : ∀ q ∈ m, c < q.1 := (List.pairwise_cons.1 hm.1).1
    simp only [Memory.set]
    split
    · rename_i hac
      split
      · rename_i hv
        subst hv
        refine memory_get_below (fun q hq => ?_)
        rcases List.mem_cons.1 hq with rfl | hq
        · exact hac
        · exact Nat.lt_trans hac (hlt q hq)
      · simp [Memory.get]
    · split
      · rename_i hac
        subst hac
        split
        · rename_i hv
          subst hv
          exact memory_get_below hlt
        · simp [Memory.get]
      · rename_i hac
        simp only [Memory.get, if_neg hac]
        exact ih (memory_wf_tail hm)

/-- Every address listed after a write was listed before or is the written one. -/
theorem memory_mem_set {m : Memory} {a : Nat} {v : Byte} {q : Host.Cell} (h : q ∈ m.set a v) :
    q ∈ m ∨ (q = (a, v) ∧ v ≠ Memory.unlisted) := by
  induction m with
  | nil =>
    simp only [Memory.set] at h
    split at h <;> simp_all
  | cons p m ih =>
    obtain ⟨c, w⟩ := p
    simp only [Memory.set] at h
    split at h
    · split at h
      · exact .inl h
      · rcases List.mem_cons.1 h with h | h
        · exact .inr ⟨h, ‹_›⟩
        · exact .inl h
    · split at h
      · split at h
        · exact .inl (List.mem_cons_of_mem _ h)
        · rcases List.mem_cons.1 h with h | h
          · exact .inr ⟨h, ‹_›⟩
          · exact .inl (List.mem_cons_of_mem _ h)
      · rcases List.mem_cons.1 h with h | h
        · exact .inl (by simp [h])
        · rcases ih h with h | h
          · exact .inl (List.mem_cons_of_mem _ h)
          · exact .inr h

/-- A write of one byte keeps the canonical form. -/
theorem memory_set_wf {m : Memory} (hm : m.wf) (a : Nat) (v : Byte) : (m.set a v).wf := by
  induction m with
  | nil =>
    simp only [Memory.set]
    split
    · exact memory_wf_nil
    · exact ⟨by simp, by simpa using ‹¬ v = _›⟩
  | cons p m ih =>
    obtain ⟨c, w⟩ := p
    have hlt : ∀ q ∈ m, c < q.1 := (List.pairwise_cons.1 hm.1).1
    have ht := memory_wf_tail hm
    simp only [Memory.set]
    split
    · rename_i hac
      split
      · exact hm
      · refine ⟨List.pairwise_cons.2 ⟨fun q hq => ?_, hm.1⟩, fun q hq => ?_⟩
        · rcases List.mem_cons.1 hq with rfl | hq
          · exact hac
          · exact Nat.lt_trans hac (hlt q hq)
        · rcases List.mem_cons.1 hq with rfl | hq
          · assumption
          · exact hm.2 q hq
    · split
      · rename_i hac
        subst hac
        split
        · exact ht
        · refine ⟨List.pairwise_cons.2 ⟨hlt, ht.1⟩, fun q hq => ?_⟩
          rcases List.mem_cons.1 hq with rfl | hq
          · assumption
          · exact ht.2 q hq
      · rename_i h1 h2
        refine ⟨List.pairwise_cons.2 ⟨fun q hq => ?_, (ih ht).1⟩, fun q hq => ?_⟩
        · rcases memory_mem_set hq with hq | ⟨rfl, -⟩
          · exact hlt q hq
          · show c < a
            omega
        · rcases List.mem_cons.1 hq with rfl | hq
          · exact hm.2 _ (by simp)
          · exact (ih ht).2 q hq

/-- A write of `n` bytes keeps the canonical form. -/
theorem memory_writeLE_wf {m : Memory} (hm : m.wf) (a n v : Nat) : (m.writeLE a n v).wf := by
  induction n generalizing m a v with
  | zero => exact hm
  | succ n ih => exact ih (memory_set_wf hm _ _) _ _

/-- A byte outside the `n` written bytes reads as before. -/
theorem memory_get_writeLE_other {a b n : Nat} (h : b < a ∨ a + n ≤ b) (m : Memory) (v : Nat) :
    (m.writeLE a n v).get b = m.get b := by
  induction n generalizing m a v with
  | zero => rfl
  | succ n ih => rw [Memory.writeLE, ih (by omega), memory_get_set_other (by omega)]

/-- A byte of the `n` written ones reads as its byte of the value. -/
theorem memory_get_writeLE {m : Memory} (hm : m.wf) (a v : Nat) {n k : Nat} (hk : k < n) :
    (m.writeLE a n v).get (a + k) = BitVec.ofNat 8 (v / 256 ^ k) := by
  induction n generalizing m a v k with
  | zero => omega
  | succ n ih =>
    simp only [Memory.writeLE]
    cases k with
    | zero => rw [memory_get_writeLE_other (by omega), Nat.add_zero, memory_get_set_same hm, Nat.pow_zero, Nat.div_one]
    | succ k =>
      rw [show a + (k + 1) = a + 1 + k by omega, ih (memory_set_wf hm _ _) _ _ (by omega), Nat.div_div_eq_div_mul,
        Nat.pow_succ, Nat.mul_comm 256]

/-- Four bytes, least significant first. -/
theorem memory_readLE_four (m : Memory) (a : Nat) : m.readLE a 4 = (m.get (a + 0)).toNat + 2 ^ 8 * (m.get (a + 1)).toNat
    + 2 ^ 16 * (m.get (a + 2)).toNat + 2 ^ 24 * (m.get (a + 3)).toNat := by
  simp only [Memory.readLE, Nat.add_zero]
  rw [show a + 1 + 1 = a + 2 from rfl, show a + 2 + 1 = a + 3 from rfl]
  omega

/-- A read is the same of memories that agree on the bytes read. -/
theorem memory_readLE_congr {m m' : Memory} {a n : Nat} (h : ∀ b, a ≤ b → b < a + n → m.get b = m'.get b) :
    m.readLE a n = m'.readLE a n := by
  induction n generalizing a with
  | zero => rfl
  | succ n ih =>
    simp only [Memory.readLE]
    rw [h a (by omega) (by omega), ih (fun b h1 h2 => h b (by omega) (by omega))]

/-- Reading back what was written: the low `n` bytes of the value. -/
theorem memory_readLE_writeLE {m : Memory} (hm : m.wf) (a n v : Nat) :
    (m.writeLE a n v).readLE a n = v % 256 ^ n := by
  induction n generalizing m a v with
  | zero => simp [Memory.readLE, Nat.mod_one]
  | succ n ih =>
    simp only [Memory.writeLE, Memory.readLE]
    rw [ih (memory_set_wf hm _ _), memory_get_writeLE_other (by omega), memory_get_set_same hm]
    have e : (256 : Nat) ^ (n + 1) = 256 * 256 ^ n := by rw [Nat.pow_succ, Nat.mul_comm]
    rw [BitVec.toNat_ofNat, e, Nat.mod_mul]

end Sys2Proof.Machine
end

