-- ==== Sys2Proof/Laws/PerInstr.lean ====
section
/-! SUPPORT. The per-instruction family FourByteWords: an instruction word has 11 in its two low bits, so it is four bytes long
whatever `inclusions` holds (30_encoding.md R151); a row that is no instruction word has no word. -/

namespace Sys2Proof.Laws.FourByteWords

/-- The two low bits of an instruction's word. -/
def Statement (i : Instr) : Prop := ∀ w, encode i = .word w → w.extractLsb' 0 2 = 3#2

theorem csrrw (rd rs1 : Reg) (csr : CsrIdx) : Statement (.csrrw rd rs1 csr) := by
  intro w h; cases h; rw [low_bits_of_opcode, wOpcode_encodeI]; rfl

theorem csrrs (rd rs1 : Reg) (csr : CsrIdx) : Statement (.csrrs rd rs1 csr) := by
  intro w h; cases h; rw [low_bits_of_opcode, wOpcode_encodeI]; rfl

theorem csrrc (rd rs1 : Reg) (csr : CsrIdx) : Statement (.csrrc rd rs1 csr) := by
  intro w h; cases h; rw [low_bits_of_opcode, wOpcode_encodeI]; rfl

theorem csrrwi (rd : Reg) (uimm : BitVec 5) (csr : CsrIdx) : Statement (.csrrwi rd uimm csr) := by
  intro w h; cases h; rw [low_bits_of_opcode, wOpcode_encodeI]; rfl

theorem csrrsi (rd : Reg) (uimm : BitVec 5) (csr : CsrIdx) : Statement (.csrrsi rd uimm csr) := by
  intro w h; cases h; rw [low_bits_of_opcode, wOpcode_encodeI]; rfl

theorem csrrci (rd : Reg) (uimm : BitVec 5) (csr : CsrIdx) : Statement (.csrrci rd uimm csr) := by
  intro w h; cases h; rw [low_bits_of_opcode, wOpcode_encodeI]; rfl

theorem ecall : Statement .ecall := by
  intro w h; cases h; decide

theorem ebreak : Statement .ebreak := by
  intro w h; cases h; decide

theorem mret : Statement .mret := by
  intro w h; cases h; decide

theorem sret : Statement .sret := by
  intro w h; cases h; decide

theorem wfi : Statement .wfi := by
  intro w h; cases h; decide

theorem sfenceVma (rs1 rs2 : Reg) : Statement (.sfenceVma rs1 rs2) := by
  intro w h; cases h; rw [low_bits_of_opcode, wOpcode_encodeR]; rfl

theorem fence (fm pred succ : BitVec 4) (rs1 rd : Reg) : Statement (.fence fm pred succ rs1 rd) := by
  intro w h; cases h; rw [low_bits_of_opcode, wOpcode_encodeI]; rfl

theorem fenceI (imm : BitVec 12) (rs1 rd : Reg) : Statement (.fenceI imm rs1 rd) := by
  intro w h; cases h; rw [low_bits_of_opcode, wOpcode_encodeI]; rfl

theorem lui (rd : Reg) (imm : BitVec 20) : Statement (.lui rd imm) := by
  intro w h; cases h; rw [low_bits_of_opcode, wOpcode_encodeU]; rfl

theorem addi (rd rs1 : Reg) (imm : BitVec 12) : Statement (.addi rd rs1 imm) := by
  intro w h; cases h; rw [low_bits_of_opcode, wOpcode_encodeI]; rfl

theorem lw (rd rs1 : Reg) (imm : BitVec 12) : Statement (.lw rd rs1 imm) := by
  intro w h; cases h; rw [low_bits_of_opcode, wOpcode_encodeI]; rfl

theorem sw (rs1 rs2 : Reg) (imm : BitVec 12) : Statement (.sw rs1 rs2 imm) := by
  intro w h; cases h; rw [low_bits_of_opcode, wOpcode_encodeS]; rfl

theorem jal (rd : Reg) (off : BitVec 21) : Statement (.jal rd off) := by
  intro w h; cases h; rw [low_bits_of_opcode, wOpcode_encodeJ]; rfl

theorem bne (rs1 rs2 : Reg) (off : BitVec 13) : Statement (.bne rs1 rs2 off) := by
  intro w h; cases h; rw [low_bits_of_opcode, wOpcode_encodeB]; rfl

theorem stepFetch : Statement .stepFetch := by
  intro w h; cases h

theorem stepInstTranslate : Statement .stepInstTranslate := by
  intro w h; cases h

theorem stepDecode : Statement .stepDecode := by
  intro w h; cases h

theorem stepComputeAddress : Statement .stepComputeAddress := by
  intro w h; cases h

theorem stepDataTranslate : Statement .stepDataTranslate := by
  intro w h; cases h

theorem stepPreExecuteHook (obs : Nat) : Statement (.stepPreExecuteHook obs) := by
  intro w h; cases h

theorem stepExecute : Statement .stepExecute := by
  intro w h; cases h

theorem stepPreExceptionHook (obs : Nat) : Statement (.stepPreExceptionHook obs) := by
  intro w h; cases h

theorem stepException : Statement .stepException := by
  intro w h; cases h

theorem stepFinishUpdate : Statement .stepFinishUpdate := by
  intro w h; cases h

theorem stepPostExecuteHook (obs : Nat) : Statement (.stepPostExecuteHook obs) := by
  intro w h; cases h

theorem stepStopNotify (obs : Option Nat) : Statement (.stepStopNotify obs) := by
  intro w h; cases h

theorem opAppend (c : ChainId) (op : MicroOp) (tag : Option Tag) : Statement (.opAppend c op tag) := by
  intro w h; cases h

theorem opInsertBefore (c : ChainId) (place : Tag) (op : MicroOp) (tag : Option Tag) : Statement (.opInsertBefore c place op tag) := by
  intro w h; cases h

theorem opInsertAfter (c : ChainId) (place : Tag) (op : MicroOp) (tag : Option Tag) : Statement (.opInsertAfter c place op tag) := by
  intro w h; cases h

theorem opReplace (c : ChainId) (place : Tag) (op : MicroOp) : Statement (.opReplace c place op) := by
  intro w h; cases h

theorem opSetNext (c : ChainId) (d : Option ChainId) : Statement (.opSetNext c d) := by
  intro w h; cases h

theorem opRead (r : RegRef) : Statement (.opRead r) := by
  intro w h; cases h

theorem opWrite (r : RegRef) (value : Nat) : Statement (.opWrite r value) := by
  intro w h; cases h

theorem opPeek (r : RegRef) : Statement (.opPeek r) := by
  intro w h; cases h

theorem opPoke (r : RegRef) (value : Nat) : Statement (.opPoke r value) := by
  intro w h; cases h

theorem opFieldRead (csr : CsrIdx) (lsb msb : Nat) : Statement (.opFieldRead csr lsb msb) := by
  intro w h; cases h

theorem opFieldWrite (csr : CsrIdx) (lsb msb : Nat) (value : Nat) : Statement (.opFieldWrite csr lsb msb value) := by
  intro w h; cases h

theorem opBoot : Statement .opBoot := by
  intro w h; cases h

theorem opCleanup : Statement .opCleanup := by
  intro w h; cases h

theorem opStep : Statement .opStep := by
  intro w h; cases h

end Sys2Proof.Laws.FourByteWords
end

