-- ==== Sys2Proof/Tests/Slice0.lean ====
section
/-! SUPPORT. The model's own tests. Expected values are the spec's: the words of 30_encoding.md R159 and the vectors of
95_test_vectors.md (the vector's number stands in each theorem's docstring). Then one witness for the hypotheses of each
obligation that has some. -/

namespace Sys2Proof.Tests

open Sys2Proof Sys2Proof.Machine

/-! ## Well-formedness: each check refuses an ill-formed term -/

theorem test_wf_jal_odd : (Instr.jal 0 1).wellFormed = false := by decide
theorem test_wf_bne_odd : (Instr.bne 0 0 1).wellFormed = false := by decide
theorem test_wf_field_order : (Instr.opFieldRead 0x300 12 11).wellFormed = false := by decide
theorem test_wf_field_width : (Instr.opFieldRead 0x300 63 64).wellFormed = false := by decide
theorem test_wf_field_write : (Instr.opFieldWrite 0x300 12 11 0).wellFormed = false := by decide
theorem test_wf_accepts : (Instr.jal 1 8).wellFormed = true ∧ (Instr.opFieldRead 0x300 11 12).wellFormed = true := by
  decide

/-! ## Decoding: every row, from words and codes of the spec -/

/-- I1, R343's example, I14, I16, I17, I19. -/
theorem test_decode_csr : decodeWord 0x30029373 = some (.csrrw 6 5 0x300) ∧ decodeWord 0x3023A073 = some (.csrrs 0 7 0x302)
    ∧ decodeWord 0x3412B373 = some (.csrrc 6 5 0x341) ∧ decodeWord 0x3404D373 = some (.csrrwi 6 9 0x340)
    ∧ decodeWord 0x30226073 = some (.csrrsi 0 4 0x302) ∧ decodeWord 0x30047073 = some (.csrrci 0 8 0x300) := by decide

/-- R348 to R354, I40. -/
theorem test_decode_system : decodeWord 0x00000073 = some .ecall ∧ decodeWord 0x00100073 = some .ebreak
    ∧ decodeWord 0x30200073 = some .mret ∧ decodeWord 0x10200073 = some .sret ∧ decodeWord 0x10500073 = some .wfi
    ∧ decodeWord 0x12B50073 = some (.sfenceVma 10 11) := by decide

/-- I42, I43. -/
theorem test_decode_fences : decodeWord 0x0FF0000F = some (.fence 0 15 15 0 0) ∧ decodeWord 0x0000100F = some (.fenceI 0 0 0) := by
  decide

/-- R401 to R405, section 9. -/
theorem test_decode_reference : decodeWord 0x800002B7 = some (.lui 5 0x80000) ∧ decodeWord 0x00128313 = some (.addi 6 5 1)
    ∧ decodeWord 0x0003A303 = some (.lw 6 7 0) ∧ decodeWord 0x0063A223 = some (.sw 7 6 4)
    ∧ decodeWord 0x008000EF = some (.jal 1 8) ∧ decodeWord 0xFE629EE3 = some (.bne 5 6 (-4)) := by decide

/-- R162, the step codes. -/
theorem test_decode_steps : (List.range 16).map (fun k => decodeStepCode (BitVec.ofNat 4 k) {}) =
    [some .stepFetch, some .stepInstTranslate, some .stepDecode, some .stepComputeAddress, some .stepDataTranslate,
     some (.stepPreExecuteHook 0), some .stepExecute, some (.stepPreExceptionHook 0), some .stepException,
     some .stepFinishUpdate, some (.stepPostExecuteHook 0), some (.stepStopNotify none), none, none, none, none] := by decide

/-- R162, the operation codes. -/
theorem test_decode_ops : (List.range 16).map (fun k => decodeOpCode (BitVec.ofNat 4 k) { csr := 0x300, msb := 3 }) =
    [some (.opAppend .fetch .fetch none), some (.opInsertBefore .fetch .instructionTranslate .fetch none),
     some (.opInsertAfter .fetch .instructionTranslate .fetch none), some (.opReplace .fetch .instructionTranslate .fetch),
     some (.opSetNext .fetch none), some (.opRead (.x 0)), some (.opWrite (.x 0) 0), some (.opPeek (.x 0)),
     some (.opPoke (.x 0) 0), some (.opFieldRead 0x300 0 3), some (.opFieldWrite 0x300 0 3 0), some .opBoot,
     some .opCleanup, some .opStep, none, none] := by decide

/-- R359: URET, DRET and `inst[14:12] = 100` are not decoded; nor are the all-zero and all-one words. -/
theorem test_decode_rejects : decodeWord 0x00200073 = none ∧ decodeWord 0x7B200073 = none ∧ decodeWord 0x30004073 = none
    ∧ decodeWord 0x12000173 = none ∧ decodeWord 0 = none ∧ decodeWord 0xFFFFFFFF = none := by decide

/-- No word matches two rows of R159. -/
theorem test_rows_disjoint : opcodeRows.Pairwise (fun p q => p.1 &&& q.2 &&& p.2 ≠ q.1 &&& p.2 &&& q.2) := by decide

/-! ## One step: helpers -/

/-- The state a step leads to. -/
def after (o : Host.Outcome State Fault Refusal) : State :=
  match o with
  | .next s => s
  | .fault _ => State.reset
  | .refused _ => State.reset

/-- Whether a step led to a state. -/
def went (o : Host.Outcome State Fault Refusal) : Bool :=
  match o with
  | .next _ => true
  | .fault _ => false
  | .refused _ => false

/-- Raw CSR values put into a state, the derived state recomputed. -/
def withCsrs (l : List (CsrIdx × Word)) (s : State) : State :=
  State.recomputeMmu (State.recomputeIsa { s with csrs := l.foldl (fun f e => f.set e.1 e.2) s.csrs })

/-- The state of section 7: `pc` = 0x1000, `mtvec` = 0x800, the given mode, CSRs and one register. -/
def at1000 (c : Config) (p : Priv) (l : List (CsrIdx × Word)) (x5 : Word) : State :=
  withCsrs ((Csr.mtvec, 0x800) :: l) ({ State.initial c with pc := 0x1000, priv := p, nextPriv := p }.writeX 5 x5)

/-- CFG-A, CFG-B, CFG-C. -/
def cfgA : Config := Config.standard .rv64 0x014112D
def cfgB : Config := Config.standard .rv32 0x0140100
def cfgC : Config := Config.standard .rv64 0x0140100

/-- The state after one step of a word placed at `pc`. -/
def ran (s : State) (w : Nat) : State := after (step (s.withFetchWord 32 w))

/-- The result of a trap to MACHINE level: mepc, mcause, mtval, mstatus, pc. -/
def trapM (s : State) : List Word :=
  [s.csrs.raw Csr.mepc, s.csrs.raw Csr.mcause, s.csrs.raw Csr.mtval, s.csrs.raw Csr.mstatus, s.pc]

/-- The result of a trap to SUPERVISOR level. -/
def trapS (s : State) : List Word :=
  [s.csrs.raw Csr.sepc, s.csrs.raw Csr.scause, s.csrs.raw Csr.stval, s.csrs.raw Csr.mstatus, s.pc]

/-! ## Reset -/

/-- Z1. -/
theorem test_reset : State.reset.pc = 0x80000000 ∧ State.reset.csrs.raw Csr.misa = 0x800000000014112D
    ∧ State.reset.csrs.raw Csr.mstatus = 0x0000000A00000000 ∧ State.reset.inclusions = 0x0141105
    ∧ State.reset.ialign = 16 := by decide +kernel

/-- Z2. -/
theorem test_reset_rv32 : let s := State.initial { cfgB with hartId := 3 }
    s.csrs.raw Csr.mhartid = 3 ∧ s.csrs.raw Csr.misa = 0x40140100 ∧ s.csrs.raw Csr.mstatus = 0 ∧ s.ialign = 32 := by
  decide +kernel

/-- Z3. -/
theorem test_reset_csr_init : let s := State.initial { cfgA with csrInit :=
      [("mstatus", 0x2000), ("stvec", 0x80000101), ("nosuchcsr", 1), ("mstatus", 0xA00006000)] }
    s.csrs.raw Csr.mstatus = 0xA00006000 ∧ s.inclusions = 0x014112D ∧ s.csrInitUnknown = ["nosuchcsr"] := by
  decide +kernel

/-! ## System instructions -/

/-- I1. -/
theorem test_csrrw : let t := ran (at1000 cfgA .machine [] (BitVec.allOnes 64)) 0x30029373
    t.readX 6 = 0xA00000000 ∧ t.csrs.raw Csr.mstatus = 0xCA007E7FAA ∧ t.pc = 0x1004 := by decide +kernel

/-- I44. -/
theorem test_csrrw_swaps : let t := ran (at1000 cfgA .machine [(Csr.mscratch, 2)] 1) 0x340292F3
    t.readX 5 = 2 ∧ t.csrs.raw Csr.mscratch = 1 := by decide +kernel

/-- I5. -/
theorem test_csrrs_read_only : trapM (ran (at1000 cfgA .machine [] 0) 0xF142A373) =
    [0x1000, 2, 0xF142A373, 0xA00001800, 0x800] := by decide +kernel

/-- I7. -/
theorem test_csrrs_window : (ran (at1000 cfgA .supervisor [(Csr.mstatus, 0xA800DE762)] 0) 0x10002373).readX 6
    = 0x2000DE762 := by decide +kernel

/-- I14. -/
theorem test_csrrc : let t := ran (at1000 cfgA .machine [(Csr.mepc, 0x8000000E)] 0xC) 0x3412B373
    t.readX 6 = 0x8000000E ∧ t.csrs.raw Csr.mepc = 0x80000002 := by decide +kernel

/-- I15. -/
theorem test_csrrc_hidden_bit : let t := ran (at1000 cfgC .machine [(Csr.mepc, 0x8000000E)] 8) 0x3412B373
    t.readX 6 = 0x8000000C ∧ t.csrs.raw Csr.mepc = 0x80000004 := by decide +kernel

/-- I16. -/
theorem test_csrrwi : let t := ran (at1000 cfgA .machine [(Csr.mscratch, 0x1234)] 0) 0x3404D373
    t.readX 6 = 0x1234 ∧ t.csrs.raw Csr.mscratch = 9 := by decide +kernel

/-- I18. -/
theorem test_csrrsi : (ran (at1000 cfgA .machine [] 0) 0x302FE073).csrs.raw Csr.medeleg = 0x1F := by decide +kernel

/-- I19. -/
theorem test_csrrci : (ran (at1000 cfgA .machine [(Csr.mstatus, 0xA00000008)] 0) 0x30047073).csrs.raw Csr.mstatus
    = 0xA00000000 := by decide +kernel

/-- I9, and the same CSR in MACHINE mode. -/
theorem test_satp_tvm : trapM (ran (at1000 cfgA .supervisor [(Csr.mstatus, 0xA00100000)] 0) 0x18002373)
    = [0x1000, 2, 0x18002373, 0xA00100800, 0x800] := by decide +kernel

/-- I22. -/
theorem test_ecall : trapM (ran (at1000 cfgA .supervisor [] 0) 0x00000073) = [0x1000, 9, 0, 0xA00000800, 0x800] := by
  decide +kernel

/-- I23. -/
theorem test_ecall_machine : trapM (ran (at1000 cfgA .machine [] 0) 0x00000073)
    = [0x1000, 11, 0, 0xA00001800, 0x800] := by decide +kernel

/-- I24. -/
theorem test_ebreak : trapM (ran (at1000 cfgA .supervisor [] 0) 0x00100073) = [0x1000, 3, 0, 0xA00000800, 0x800] := by
  decide +kernel

/-- I26. -/
theorem test_mret : let t := ran (at1000 cfgA .machine [(Csr.mstatus, 0xA00021808), (Csr.mepc, 0x2002)] 0) 0x30200073
    t.csrs.raw Csr.mstatus = 0xA00020080 ∧ t.pc = 0x2002 ∧ t.priv = .machine := by decide +kernel

/-- I27. -/
theorem test_mret_lowers : let t := ran (at1000 cfgC .machine [(Csr.mstatus, 0xA00020800), (Csr.mepc, 0x2002)] 0) 0x30200073
    t.csrs.raw Csr.mstatus = 0xA00000080 ∧ t.pc = 0x2000 ∧ t.priv = .supervisor := by decide +kernel

/-- I30. -/
theorem test_sret : let t := ran (at1000 cfgA .supervisor [(Csr.mstatus, 0xA00000120), (Csr.sepc, 0x4000)] 0) 0x10200073
    t.csrs.raw Csr.mstatus = 0xA00000022 ∧ t.pc = 0x4000 ∧ t.priv = .supervisor := by decide +kernel

/-- I32. -/
theorem test_sret_tsr : trapM (ran (at1000 cfgA .supervisor [(Csr.mstatus, 0xA00400000)] 0) 0x10200073)
    = [0x1000, 2, 0x10200073, 0xA00400800, 0x800] := by decide +kernel

/-- I35, I36. -/
theorem test_wfi : (ran (at1000 cfgA .user [] 0) 0x10500073).pc = 0x1004
    ∧ trapM (ran (at1000 cfgA .user [(Csr.mstatus, 0xA00200000)] 0) 0x10500073)
      = [0x1000, 2, 0x10500073, 0xA00200000, 0x800] := by decide +kernel

/-- I39, I40. -/
theorem test_sfence : (ran (at1000 cfgA .supervisor [] 0) 0x12000073).pc = 0x1004
    ∧ trapM (ran (at1000 cfgA .supervisor [(Csr.mstatus, 0xA00100000)] 0) 0x12B50073)
      = [0x1000, 2, 0x12B50073, 0xA00100800, 0x800] := by decide +kernel

/-- I42, I43. -/
theorem test_fences : (ran (at1000 cfgA .user [] 0) 0x0FF0000F).pc = 0x1004
    ∧ (ran (at1000 cfgA .user [] 0) 0x0000100F).pc = 0x1004 := by decide +kernel

/-! ## Reference handlers -/

/-- R401's example, both widths. -/
theorem test_lui : (ran (at1000 cfgA .machine [] 0) 0x800002B7).readX 5 = 0xFFFFFFFF80000000
    ∧ (ran (at1000 cfgB .machine [] 0) 0x800002B7).readX 5 = 0x80000000 := by decide +kernel

/-- R402's example; T1. -/
theorem test_addi : (ran (at1000 cfgA .machine [] (BitVec.allOnes 64)) 0x00128313).readX 6 = 0
    ∧ (ran (at1000 cfgA .machine [] 7) 0x00128013).readX 0 = 0 := by decide +kernel

/-- R403's example. -/
theorem test_lw : let s := (at1000 cfgA .machine [] 0).writeX 7 0x1104
    (ran { s with mem := s.mem.writeLE 0x1104 4 0xDEADBEEF } 0x0003A303).readX 6 = 0xFFFFFFFFDEADBEEF := by
  decide +kernel

/-- R404's example: `EF BE AD DE` in memory. -/
theorem test_sw : let s := ((at1000 cfgA .machine [] 0).writeX 7 0x1104).writeX 6 0xFFFFFFFFDEADBEEF
    let t := ran s 0x0063A223
    t.mem.get 0x1108 = 0xEF ∧ t.mem.get 0x110B = 0xDE ∧ t.mem.get 0x110C = 0 := by decide +kernel

/-- R405's example. -/
theorem test_jal : let t := ran State.reset 0x008000EF
    t.readX 1 = 0x80000004 ∧ t.pc = 0x80000008 := by decide +kernel

/-- R406: taken backwards, and not taken. -/
theorem test_bne : (ran (at1000 cfgA .machine [] 1) 0xFE629EE3).pc = 0xFFC
    ∧ (ran (at1000 cfgA .machine [] 0) 0xFE629EE3).pc = 0x1004 := by decide +kernel

/-! ## The dispatcher, by a step of an illegal word or an interrupt -/

/-- X1. -/
theorem test_trap_delegated : trapS (after (exec .stepException
    { withCsrs [(Csr.medeleg, 4), (Csr.stvec, 0x80000101)] { State.reset with pc := 0x80000010, priv := .user } with
      latch := { faultValid := true, code := 2, info := 0xF1401073 } }))
    = [0x80000010, 2, 0xF1401073, 0xA00000000, 0x80000010] := by decide +kernel

/-- X6. -/
theorem test_trap_machine : trapM (after (exec .stepException
    { withCsrs [(Csr.mstatus, 0xCA0000000A), (Csr.mtvec, 0x1000)] { State.reset with pc := 0x4000, priv := .supervisor } with
      latch := { faultValid := true, code := 13, info := 0x7FFFF008 } }))
    = [0x4000, 13, 0x7FFFF008, 0xA00000882, 0x4000] := by decide +kernel

/-- X9: XLEN = 32, an interrupt; MPV and GVA are cleared in mstatush. -/
theorem test_trap_rv32 : let t := after (exec .stepException
      { withCsrs [(Csr.mstatus, 0xA), (Csr.mstatush, 0xC0), (Csr.mideleg, 0x222), (Csr.mtvec, 0x1001)]
          { State.initial cfgB with pc := 0x4000, priv := .supervisor } with
        latch := { interruptValid := true, code := 7 } })
    trapM t = [0x4000, 0x80000007, 0, 0x882, 0x4000] ∧ t.csrs.raw Csr.mstatush = 0 ∧ t.nextPc = 0x1000 := by
  decide +kernel

/-- S11: the interrupt wins over the misaligned `pc`. -/
theorem test_interrupt : trapM (after (step
    { withCsrs [(Csr.mtvec, 0x800)] { State.initial cfgC with pc := 0x1002 } with irqInput := [some 7] }))
    = [0x1002, 0x8000000000000007, 0, 0xA00001800, 0x800] := by decide +kernel

/-- S1. -/
theorem test_misaligned : trapM (after (step (withCsrs [(Csr.mtvec, 0x800)] { State.initial cfgC with pc := 0x1002 })))
    = [0x1002, 0, 0x1002, 0xA00001800, 0x800] := by decide +kernel

/-- S4, S5: the parcel with C, the word without. -/
theorem test_illegal_parcel : (ran (at1000 cfgA .machine [] 0) 0x10001).csrs.raw Csr.mtval = 1
    ∧ (ran (at1000 cfgC .machine [] 0) 0x10001).csrs.raw Csr.mtval = 0x10001 := by decide +kernel

/-! ## Translation -/

/-- The page tables of V1 and V2 in CFG-B. -/
def sv32State (p : Priv) : State :=
  let s := withCsrs [(Csr.satp, 0x80000010)] { State.initial cfgB with priv := p, nextPriv := p }
  { s with mem := ((s.mem.writeLE 0x10010 4 0x4401).writeLE 0x1148C 4 0x150C84CF).writeLE 0x10014 4 0x0FF000CF }

/-- V1, V2. -/
theorem test_walk : translate .load (sv32State .supervisor) 0x01123ABC = .ok 0x54321ABC
    ∧ translate .fetch (sv32State .supervisor) 0x01400ABC = .ok 0x3FC00ABC := by decide +kernel

/-- V5, V6, V18. -/
theorem test_walk_faults : translate .load (sv32State .supervisor) 0x01124000 = .pageFault
    ∧ translate .store (sv32State .supervisor) 0x02000000 = .pageFault
    ∧ translate .load (sv32State .machine) 0x01123ABC = .ok 0x01123ABC := by decide +kernel

/-- V38: the mode no table names aborts. -/
theorem test_invalid_mode : translate .load
    (withCsrs [(Csr.satp, 0x1000000000080001)] { State.initial cfgC with priv := .supervisor }) 0x1000
    = .abort .invalidMmuMode := by decide +kernel

/-! ## Steps and operations invoked alone -/

/-- S8, S9. -/
theorem test_finish_update : let t := after (exec .stepFinishUpdate
      { State.reset with pc := 0x100, nextPc := 0x104, icount := 0xFFFFFFFFFFFFFFFF })
    t.prevPc = 0x100 ∧ t.pc = 0x104 ∧ t.icount = 0 := by decide +kernel

/-- FETCH, INST_TRANSLATE and DECODE one after another reach the instruction's chain (R261, R264). -/
theorem test_fetch_phase : let a := after (exec .stepFetch (State.reset.withFetchWord 32 0x30200073))
    let b := after (exec .stepDecode (after (exec .stepInstTranslate a)))
    b.signal = .redirect (.inst .mret) ∧ b.nextPc = 0x80000004 ∧ b.fetchQueue = {} := by decide +kernel

/-- R300, R303: an observer that redirects. -/
theorem test_hook : (after (exec (.stepPreExecuteHook 0) { State.reset with hookReplies := [⟨some .stop, none⟩] })).signal
    = .redirect .stop := by decide +kernel

/-- R308 and S10: the STOP chain sets `stopped`, and then a step does nothing. -/
theorem test_stop : let t := after (step { State.reset with port := [.runStop] })
    t.stopped = true ∧ after (step t) = t := by decide +kernel

/-- C5: a write through the sstatus window. -/
theorem test_op_write_window : (after (exec (.opWrite (.csr Csr.sstatus) (2 ^ 64 - 1)) State.reset)).csrs.raw Csr.mstatus
    = 0xA000C6722 := by decide +kernel

/-- C1, R236, R237. -/
theorem test_op_poke : let t := after (exec (.opPoke (.csr Csr.mstatus) (2 ^ 64 - 1)) State.reset)
    (after (exec (.opRead (.csr Csr.mstatus)) t)).reply = some 0x800000FF007FFFEA
      ∧ (after (exec (.opPeek (.csr Csr.mstatus)) t)).reply = some (2 ^ 64 - 1) := by decide +kernel

/-- R238, R239's example. -/
theorem test_op_field : let t := after (exec (.opFieldWrite Csr.mstatus 11 12 1)
      (withCsrs [(Csr.mstatus, 0)] State.reset))
    t.csrs.raw Csr.mstatus = 0x800 ∧ (after (exec (.opFieldRead Csr.mstatus 11 12) t)).reply = some 1 := by
  decide +kernel

/-- R211's example; R214. -/
theorem test_op_chain : let t := after (exec (.opInsertBefore (.inst .lw) .execute (.preExecuteHook 7) none) State.reset)
    (t.chains.get (.inst .lw)).ops.map (·.op) = [.computeAddress, .dataTranslate, .preExecuteHook 7, .execute]
      ∧ (t.chains.get (.inst .lw)).next = some .finish := by decide +kernel

/-- R601. -/
theorem test_op_boot : (after (exec .opBoot { State.reset with booted := false, csrs := [] })).csrs.raw Csr.mstatus
    = 0xA00000000 := by decide +kernel

/-- The rows of the table run as the first step: a word, a step code, an operation code. -/
theorem test_with_fetch_word : went (step (State.reset.withFetchWord 32 0x00000013)) = true
    ∧ went (step (State.reset.withFetchWord 8 0b1001)) = true ∧ went (step (State.reset.withFetchWord 8 0b1101)) = true := by
  decide +kernel

/-! ## Witnesses: states and operands that meet the hypotheses of the obligations -/

/-- The conditions of `State.Idle`, computed. -/
def idleB (s : State) : Bool :=
  decide (s.chains = s.cfg.chains) && decide (∀ r ∈ s.hookReplies, r.redirect = none)
    && decide (s.port = []) && decide (s.currentInst = none) && decide (s.fetchQueue = {}) && !s.latch.pending
    && decide (s.inclusions = deriveInclusions s.cfg s.csrs)
    && decide (s.fetchMode = deriveFetchMode s.cfg s.csrs s.priv)
    && decide (s.lsMode = deriveLsMode s.cfg s.csrs s.priv) && !s.staleIsa && !s.staleMmu

theorem idle_of {s : State} (h : idleB s = true) : s.Idle := by
  simp only [idleB, Bool.and_eq_true, decide_eq_true_eq, Bool.not_eq_true'] at h
  obtain ⟨⟨⟨⟨⟨⟨⟨⟨⟨⟨h1, h2⟩, h3⟩, h4⟩, h5⟩, h6⟩, h7⟩, h8⟩, h9⟩, h10⟩, h11⟩ := h
  exact ⟨h1, h2, h3, h4, h5, h6, h7, h8, h9, h10, h11⟩

/-- An idle state in which FETCH has run is ready. -/
theorem ready_of {s : State} (h : idleB s = true) (hp : s.nextPriv = s.priv) : s.Ready :=
  ⟨(idle_of h).assembled, (idle_of h).quiet, (idle_of h).noCause, hp⟩

/-- The conditions of `State.Fetches`, computed. -/
def fetchesB (s : State) (w : BitVec 32) : Bool :=
  !s.stopped && decide (s.irqReq = none) && !s.pcMisaligned
    && (match translate .fetch s.sampled s.pc with
      | .ok pa =>
        match s.memRead pa 4 with
        | some n => decide (BitVec.ofNat 32 n = w)
        | none => false
      | _ => false)
    && (s.isShort w || decide (s.fetchMode = .bare) || decide (s.pc &&& 0xFFF ≠ 0xFFE))

theorem fetches_of {s : State} {w : BitVec 32} (h : fetchesB s w = true) : s.Fetches w := by
  simp only [fetchesB, Bool.and_eq_true, decide_eq_true_eq, Bool.not_eq_true', Bool.or_eq_true] at h
  obtain ⟨⟨⟨⟨h1, h2⟩, h3⟩, h4⟩, h5⟩ := h
  refine ⟨h1, h2, h3, ?_, fun hs => ?_⟩
  · split at h4
    · rename_i pa e
      split at h4
      · rename_i n e2
        exact ⟨pa, n, e, e2, by simpa using h4⟩
      · exact absurd h4 (by simp)
    · exact absurd h4 (by simp)
  · rcases h5 with (h | h) | h
    · rw [hs] at h; exact absurd h (by simp)
    · exact .inl h
    · exact .inr h

theorem next_of {o : Host.Outcome State Fault Refusal} (h : went o = true) : o = .next (after o) := by
  cases o with
  | next s => rfl
  | fault f => exact absurd h (by simp [went])
  | refused r => exact absurd h (by simp [went])

/-- After reset, with an ADDI at `pc`. -/
def wAddi : State := State.reset.withFetchWord 32 0x00000013
/-- In USER mode with an ECALL at `pc`, and the same with the call delegated. -/
def wUser : State := (at1000 cfgA .user [] 0).withFetchWord 32 0x00000073
def wUserDelegated : State := (at1000 cfgA .user [(Csr.medeleg, 0x100), (Csr.stvec, 0x2000)] 0).withFetchWord 32 0x73
/-- In USER mode with an ADDI at `pc`. -/
def wUserAddi : State := (at1000 cfgA .user [] 0).withFetchWord 32 0x00000013
/-- In SUPERVISOR mode. -/
def wSup (m : Word) : State := at1000 cfgA .supervisor [(Csr.mstatus, m)] 0
/-- In MACHINE mode. -/
def wMach (m : Word) : State := at1000 cfgA .machine [(Csr.mstatus, m)] 0
/-- Two observers, one of whom sets the exit code: the hooks of quiet observers are no idle case. -/
def wObserved : State :=
  { (State.initial { cfgA with observers := 2 }).withFetchWord 32 0x00000013 with hookReplies := [⟨none, some 7⟩] }
/-- A SUPERVISOR state under Sv32 whose `x1` is an address that translates and `x2` one that does not. -/
def wSv32 : State := ((sv32State .supervisor).writeX 1 0x01123ABC).writeX 2 0x01124000

theorem witness_DecodeOfEncode : (Instr.jal 31 0x1FFFFE).wellFormed = true ∧ (Instr.bne 31 31 0x1FFE).wellFormed = true
    ∧ (Instr.opFieldWrite 0xFFF 0 63 0).wellFormed = true := by decide

/-- A decoder that expands the parcel 0x0085 (`c.addi x1, 1`) while C is enabled, enables ADDI only with I, and knows
without a handler the words of major opcode 0001011 (`rd` integer), those of 1010011 (`rd` floating-point, F needed) and the
parcels of funct3 = 010 in quadrant 0 (a three-bit floating-point `rd'`). -/
def cfgD : Config :=
  { cfgA with
    wordNeeds := [(.addi, letterBit 8)]
    parcels := [{ parcel := 0x0085, needs := letterC, word := 0x00108093 }]
    unimplemented := [{ pat := 0x0B, mask := 0x7F, mnem := 4 },
      { pat := 0x53, mask := 0x7F, needs := letterBit 5, mnem := 7, dests := [{ file := .f }] },
      { pat := 0x4000, mask := 0xE003, short := true, mnem := 9,
        dests := [{ file := .f, lsb := 2, width := 3, base := 8 }, { file := .x, width := 0, base := 2 }] }] }

/-- The decoder takes the extension set (R153, R154): the same word with and without its extension. -/
theorem test_decode_extension : decodeBits cfgD (letterBit 8) false 0x00128313 = .known (.addi 6 5 1)
    ∧ decodeBits cfgD 0 false 0x00128313 = .illegal
    ∧ decodeBits cfgD (letterBit 5) false 0x00000353 = .unimplemented 7 [⟨.f, 6⟩]
    ∧ decodeBits cfgD 0 false 0x00000353 = .illegal := by decide

/-- A parcel that is expanded, one known without a handler, one illegal (R152, R156, R153). -/
theorem test_decode_parcel : decodeBits cfgD letterC true 0x0085 = .known (.addi 1 1 1)
    ∧ decodeBits cfgD letterC true 0x4008 = .unimplemented 9 [⟨.f, 10⟩, ⟨.x, 2⟩]
    ∧ decodeBits cfgD letterC true 0x0001 = .illegal := by decide

/-- An expanded parcel executes and falls through by 2. -/
theorem test_parcel_runs : let t := ran (at1000 cfgD .machine [] 0) 0x00000085
    t.readX 1 = 1 ∧ t.pc = 0x1002 := by decide +kernel

/-- R621, R154: clearing misa.I makes the next ADDI illegal. -/
theorem test_misa_letter_cleared : let t := ran (at1000 cfgD .machine [(Csr.misa, 0x800000000014112D)] 0x100) 0x3012B073
    trapM (ran t 0x00128313) = [0x1004, 2, 0x00128313, 0xA00001800, 0x800] := by decide +kernel

/-- S13: the marker is shown, `pc` advances. -/
theorem test_unimplemented : let t := ran (at1000 cfgD .machine [] 0) 0x0000030B
    t.lastUnimplemented = true ∧ t.pc = 0x1004 ∧ t.icount = 1 ∧ t.readX 5 = 0 := by decide +kernel

/-- R203: a run over 40 chains the host has linked in a line ends; it is no run without end. -/
theorem test_long_run : let line : Chains :=
      (List.range 40).map (fun k => (.user k, { next := if k < 39 then some (.user (k + 1)) else none }))
    runChain (.user 0) { State.reset with chains := line } = .next { State.reset with chains := line } :=
  runChain_of_runUpTo (n := 40) rfl

/-- R41, R42: the writable fields of each default CSR make up its write mask, the fields that are not always zero its read
mask, for both widths. -/
theorem test_named_fields : [XLen.rv32, XLen.rv64].all (fun x => (defaultCsrs x).all (fun d =>
    let bits := fun (l : List NamedField) => l.foldl (fun m n => m ||| Field.mask ⟨n.lsb, n.msb⟩) 0
    bits (d.fields.filter (fun n => n.kind = .rw)) = d.wmask
      && bits (d.fields.filter (fun n => n.kind ≠ .zero)) = d.rmask)) = true := by decide +kernel

/-- The word of an ADDI, and the parcel, at `pc`. -/
def wParcel : State := (State.initial cfgD).withFetchWord 32 0x00000085

theorem witness_StepRunsTheDecodedInstruction : wAddi.Idle ∧ wAddi.Fetches 0x00000013
    ∧ decodeWord 0x00000013 = some (.addi 0 0 0) ∧ enables wAddi.inclusions (needsOf wAddi.cfg (.addi 0 0 0)) = true
    ∧ wParcel.Idle ∧ wParcel.Fetches 0x00000085 ∧ wParcel.isShort 0x00000085 = true
    ∧ decodeBits wParcel.cfg wParcel.inclusions true (0x00000085 &&& 0xFFFF) = .known (.addi 1 1 1) :=
  ⟨idle_of (by decide +kernel), fetches_of (by decide +kernel), by decide, by decide +kernel,
    idle_of (by decide +kernel), fetches_of (by decide +kernel), by decide +kernel, by decide +kernel⟩

theorem witness_StepRunsTheDecodedInstruction_observed : wObserved.Idle ∧ wObserved.Fetches 0x00000013 :=
  ⟨idle_of (by decide +kernel), fetches_of (by decide +kernel)⟩

theorem witness_StepServesTheOldestCall : ({ State.reset with port := [.op .opStep] } : State).port = [.op .opStep]
    ∧ Instr.opStep.kind ≠ .word := by decide

theorem witness_StoppedStepChangesNothing : let s : State := { State.reset with stopped := true }
    s.stopped = true ∧ s.port = [] := by decide

/-- The other clauses meet in `witness_StepRunsTheDecodedInstruction`. -/
theorem witness_OpStepRunsOneSlot : wAddi.Idle ∧ wAddi.Fetches (encodeI 0 0 0b000#3 0 0b0010011#7)
    ∧ enables wAddi.inclusions (needsOf wAddi.cfg (.addi 0 0 0)) = true :=
  ⟨idle_of (by decide +kernel), fetches_of (by decide +kernel), by decide +kernel⟩

theorem witness_StepKeepsIdle : wUser.Idle ∧ step wUser = .next (after (step wUser)) :=
  ⟨idle_of (by decide +kernel), next_of (by decide +kernel)⟩

theorem witness_StepKeepsMemoryCanonical : wAddi.mem.wf ∧ step wAddi = .next (after (step wAddi)) :=
  ⟨by decide +kernel, next_of (by decide +kernel)⟩

theorem witness_StepKeepsConfiguration : step wUser = .next (after (step wUser)) := next_of (by decide +kernel)

theorem witness_StepRetiresOneSlot : wAddi.Idle ∧ wAddi.stopped = false ∧ step wAddi = .next (after (step wAddi)) :=
  ⟨idle_of (by decide +kernel), by decide +kernel, next_of (by decide +kernel)⟩

theorem witness_StepKeepsWidths : wAddi.Idle ∧ wAddi.Fits ∧ step wAddi = .next (after (step wAddi)) :=
  ⟨idle_of (by decide +kernel), ⟨rfl, rfl, rfl, rfl, rfl, fun _ => rfl, fun _ => rfl⟩, next_of (by decide +kernel)⟩

theorem witness_ReadOnlyBitsNeverChange : wAddi.port = [] ∧ step wAddi = .next (after (step wAddi)) :=
  ⟨by decide +kernel, next_of (by decide +kernel)⟩

theorem witness_UserModeKeepsPrivilegedCsrs : wUserAddi.Idle ∧ wUserAddi.priv = .user
    ∧ step wUserAddi = .next (after (step wUserAddi)) ∧ (after (step wUserAddi)).priv = .user
    ∧ Csr.stvec.extractLsb' 8 2 ≠ 0 :=
  ⟨idle_of (by decide +kernel), by decide +kernel, next_of (by decide +kernel), by decide +kernel, by decide⟩

/-- Both ends: MACHINE and, delegated, SUPERVISOR. -/
theorem witness_UserModeIsLeftThroughTheVector : wUser.Idle ∧ wUser.priv = .user
    ∧ step wUser = .next (after (step wUser)) ∧ (after (step wUser)).priv = .machine ∧ wUserDelegated.Idle
    ∧ step wUserDelegated = .next (after (step wUserDelegated)) ∧ (after (step wUserDelegated)).priv = .supervisor :=
  ⟨idle_of (by decide +kernel), by decide +kernel, next_of (by decide +kernel), by decide +kernel,
    idle_of (by decide +kernel), next_of (by decide +kernel), by decide +kernel⟩

theorem witness_ResetCsrValues : defaultMasks Config.default ∧ Config.default.csrInit = [] := ⟨rfl, rfl⟩

theorem witness_BootPokes : ({ State.reset with booted := false } : State).booted = false := by decide

theorem witness_OpReadsPeeksAndPokesCsr : State.reset.cfg.hasCsr Csr.mepc = true ∧ window .rv64 Csr.mepc = none
    ∧ State.reset.cfg.hasCsr Csr.sip = true ∧ (window .rv64 Csr.sip).isSome = true := by decide +kernel

theorem witness_OpWritesCsr : State.reset.cfg.hasCsr Csr.misa = true ∧ window State.reset.cfg.xlen Csr.misa = none
    ∧ isaAccepted State.reset.cfg (State.reset.csrWrite Csr.misa 0).inclusions = true
    ∧ State.reset.cfg.hasCsr 0x104 = true ∧ State.reset.cfg.hasCsr 0x144 = true := by decide +kernel

theorem witness_SstatusIsAWindow : defaultMasks State.reset.cfg
    ∧ isaAccepted State.reset.cfg (State.reset.csrWrite Csr.sstatus (BitVec.ofNat 64 (2 ^ 64 - 1))).inclusions = true :=
  ⟨rfl, by decide +kernel⟩

theorem witness_OpReadsAndWritesFields : State.reset.cfg.hasCsr Csr.satp = true ∧ fieldWellFormed 0 63 = true
    ∧ isaAccepted State.reset.cfg (State.reset.csrWrite Csr.satp 0).inclusions = true := by decide +kernel

theorem witness_OpEditsAtTheFirstTag : let e : Entry := ⟨.execute, some .execute⟩
    (State.reset.chains.get (.inst .addi)).ops = [] ++ e :: [] ∧ e.tag = some .execute
      ∧ ∀ x ∈ (State.reset.chains.get .finish).ops, x.tag ≠ some .execute := by decide +kernel

theorem witness_FetchStep : State.reset.latch.pending = false ∧ State.reset.fetchQueue = {}
    ∧ State.reset.irqReq = none ∧ ({ State.reset with fetchQueue := { pending := [⟨0, 4⟩] } } : State).irqReq = none
    ∧ ({ State.reset with fetchQueue := { results := [⟨0, 4⟩] } } : State).fetchQueue ≠ {} ∧ ({ State.reset with irqInput := [some 63] } : State).irqReq = some 63
    ∧ ({ State.reset with pc := 1 } : State).pc.toNat % (State.reset.ialign / 8) ≠ 0 := by decide +kernel

/-- The slot of a load and of a store, with one request pending. -/
def wSlot (i : Instr) (q : Queue) : CurrentInst := { opcode := encodedWord i, len := 4, instr := some i, dataQueue := q }

/-- Each clause: a fetch and a data request, each resolved and faulting. -/
theorem witness_TranslateSteps : wSv32.latch.pending = false ∧ translate .fetch wSv32 0x01123ABC = .ok 0x54321ABC
    ∧ translate .fetch wSv32 0x01124000 = .pageFault ∧ translate .load wSv32 0x01123ABC = .ok 0x54321ABC
    ∧ translate .load wSv32 0x01124000 = .pageFault ∧ translate .store wSv32 0x01123ABC = .ok 0x54321ABC
    ∧ translate .store wSv32 0x01124000 = .pageFault ∧ crossesPage ⟨0x01123FFC, 4⟩ = false
    ∧ (wSlot (.lw 0 0 0) {}).memKind = .load ∧ (wSlot (.sw 0 0 0) {}).memKind = .store := by decide +kernel

/-- A known word, a parcel that is not expanded, a word without a handler, a word whose extension is off, a word that is none
of the twenty. -/
theorem witness_DecodeStep : let s : State := { wAddi with fetchQueue := { results := [⟨0x80000000, 4⟩] } }
    s.latch.pending = false ∧ s.memRead 0x80000000 4 = some 0x13 ∧ s.fetchMode = .bare
      ∧ decodeBits s.cfg s.inclusions false 0x13 = .known (.addi 0 0 0) ∧ State.reset.memRead 0x80000000 4 = some 0
      ∧ hasC State.reset.inclusions = true
      ∧ decodeBits s.cfg State.reset.inclusions true (0 &&& 0xFFFF) = .illegal
      ∧ decodeBits cfgD s.inclusions false 0x30B = .unimplemented 4 [⟨.x, 6⟩]
      ∧ (∀ r ∈ cfgD.unimplemented, r.short = true → (0 : BitVec 32) &&& r.mask = r.pat → letterC &&& r.needs ≠ r.needs)
      ∧ (∀ r ∈ cfgD.parcels, r.parcel = 0 → letterC &&& r.needs ≠ r.needs)
      ∧ (∀ r ∈ cfgD.unimplemented, r.short = false → (0x53 : BitVec 32) &&& r.mask = r.pat → letterC &&& r.needs ≠ r.needs)
      ∧ (∀ r ∈ cfgD.unimplemented, r.short = false → (0x13 : BitVec 32) &&& r.mask = r.pat → letterC &&& r.needs ≠ r.needs)
      ∧ decodeWord 0x53 = none
      ∧ (let c : Config := { cfgD with unimplemented := [] }
        c.unimplemented = [] ∧ decodeWord 0x13 = some (.addi 0 0 0)
          ∧ letterC &&& needsOf c (.addi 0 0 0) ≠ needsOf c (.addi 0 0 0)) := by decide +kernel

/-- An empty queue, one with a result, one with a request pending. -/
theorem witness_ComputeAddressStep : (wSlot (.lw 6 7 0x800) {}).dataQueue.pending = []
    ∧ (wSlot (.sw 7 6 0x7FF) { results := [⟨0, 4⟩] }).dataQueue.pending = []
    ∧ (wSlot (.lw 6 7 0x800) { pending := [⟨0, 4⟩] }).dataQueue.pending ≠ []
    ∧ (wSlot (.lw 6 7 0x800) {}).instr = some (.lw 6 7 0x800) ∧ (wSlot (.sw 7 6 0x7FF) {}).instr = some (.sw 7 6 0x7FF) := by
  decide

/-- A slot for each kind of clause: arithmetic, a load and a store with and without a result, a call, a CSR form that is
legal and one that is not, a word without a handler. -/
theorem witness_ExecuteStep : (wSlot (.addi 31 0 0xFFF) {}).instr = some (.addi 31 0 0xFFF)
    ∧ (wSlot (.lw 6 7 0) { results := [⟨0x1104, 4⟩] }).dataQueue.results = [⟨0x1104, 4⟩]
    ∧ State.reset.memRead 0x1104 4 = some 0 ∧ presentAll State.reset.cfg.memory true 0x1104 4 = true
    ∧ (wSlot (.sw 7 6 0) {}).dataQueue.results = [] ∧ State.reset.latch.pending = false
    ∧ (wSlot .ecall {}).instr = some .ecall ∧ State.reset.priv = .machine ∧ wUser.priv ≠ .machine
    ∧ State.reset.fieldRead Csr.mstatus Field.MPP = Priv.user.enc.setWidth 64
    ∧ isaAccepted State.reset.cfg (trapReturn Field.MIE Field.MPIE Field.MPP Csr.mepc .user State.reset).inclusions = true
    ∧ isaAccepted State.reset.cfg (trapReturn Field.SIE Field.SPIE Field.SPP Csr.sepc .user State.reset).inclusions = true
    ∧ csrLegal State.reset Csr.mhartid (Instr.csrrs 1 0 Csr.mhartid).willWrite = true
    ∧ csrLegal State.reset Csr.mhartid (Instr.csrrw 1 0 Csr.mhartid).willWrite = false
    ∧ isaAccepted State.reset.cfg (State.reset.csrWrite Csr.misa 31).inclusions = true
    ∧ ({ wSlot (.addi 1 0 0) {} with instr := none, dests := [⟨.f, 3⟩] } : CurrentInst).instr = none := by decide +kernel

theorem witness_ExceptionStep : State.reset.latch.faultValid = State.reset.latch.interruptValid
    ∧ (let s := State.reset.faulting 63 0
      s.latch.faultValid ≠ s.latch.interruptValid ∧ isaAccepted s.cfg (takeTrap s).inclusions = true) := by
  decide +kernel

/-- One state serves the statements about LUI, ADDI, JAL, BNE, FENCE, FENCE.I and the frames; with observers too. -/
theorem witness_Ready : wAddi.Ready ∧ wObserved.Ready :=
  ⟨ready_of (by decide +kernel) (by decide +kernel), ready_of (by decide +kernel) (by decide +kernel)⟩

/-- LW and SW of `x1`; the four bytes end at a page's end. -/
theorem witness_LwAndSw : wSv32.Ready ∧ translate .load wSv32 (wSv32.cfg.xlen.trunc (wSv32.readX 1 + sextTo .rv32 0#12))
      = .ok 0x54321ABC ∧ presentAll wSv32.cfg.memory false 0x54321ABC 4 = true
    ∧ translate .store wSv32 (wSv32.cfg.xlen.trunc (wSv32.readX 1 + sextTo .rv32 0#12)) = .ok 0x54321ABC
    ∧ presentAll wSv32.cfg.memory true 0x54321ABC 4 = true ∧ wSv32.mem.wf
    ∧ crossesPage ⟨wSv32.cfg.xlen.trunc (wSv32.readX 1 + sextTo .rv32 0x540#12), 4⟩ = false :=
  ⟨ready_of (by decide +kernel) (by decide +kernel), by decide +kernel, by decide +kernel, by decide +kernel,
    by decide +kernel, by decide +kernel⟩

theorem witness_LoadAndStorePageFaults : wSv32.Ready ∧ crossesPage ⟨effAddr wSv32 2 0, 4⟩ = false
    ∧ translate .load wSv32 (effAddr wSv32 2 0) = .pageFault ∧ translate .store wSv32 (effAddr wSv32 2 0) = .pageFault
    ∧ isaAccepted wSv32.cfg (takeTrap (wSv32.faulting 13 (effAddr wSv32 2 0))).inclusions = true
    ∧ isaAccepted wSv32.cfg (takeTrap (wSv32.faulting 15 (effAddr wSv32 2 0))).inclusions = true :=
  ⟨ready_of (by decide +kernel) (by decide +kernel), by decide +kernel⟩

theorem witness_CsrWrites : (wMach 0xA00000000).Ready ∧ csrLegal (wMach 0xA00000000) Csr.misa true = true
    ∧ isaAccepted (wMach 0xA00000000).cfg ((wMach 0xA00000000).csrWrite Csr.misa 31).inclusions = true :=
  ⟨ready_of (by decide +kernel) (by decide +kernel), by decide +kernel, by decide +kernel⟩

/-- With a write, and without one to a read-only CSR. -/
theorem witness_CsrSetsAndClears : (wMach 0xA00000000).Ready
    ∧ csrLegal (wMach 0xA00000000) Csr.mstatus true = true ∧ csrLegal (wMach 0xA00000000) Csr.mhartid false = true
    ∧ isaAccepted (wMach 0xA00000000).cfg ((wMach 0xA00000000).csrWrite Csr.mstatus 31).inclusions = true :=
  ⟨ready_of (by decide +kernel) (by decide +kernel), by decide +kernel, by decide +kernel, by decide +kernel⟩

/-- A check that fails: mstatus from USER, mhartid written. -/
theorem witness_CsrAccessFails : wUser.Ready ∧ csrLegal wUser Csr.mstatus false = false
    ∧ csrLegal (wMach 0) Csr.mhartid true = false
    ∧ isaAccepted wUser.cfg (takeTrap (wUser.faulting 2 ((encodedWord (.csrrw 0 0 Csr.mstatus)).setWidth 64))).inclusions
        = true :=
  ⟨ready_of (by decide +kernel) (by decide +kernel), by decide +kernel, by decide +kernel, by decide +kernel⟩

/-- The five checks of R341, each at a state that fails it alone, and an access that passes them all. -/
theorem witness_CsrCheckFails : (wMach 0).Ready ∧ wUser.Ready ∧ (wSup 0x100000).Ready
    ∧ (wMach 0).cfg.hasCsr 0x7C0 = false ∧ (wMach 0).cfg.xlen = .rv64
    ∧ wUser.priv.enc < Csr.sstatus.extractLsb' 8 2 ∧ Csr.mhartid.extractLsb' 10 2 = 0b11#2
    ∧ (wSup 0x100000).fieldRead Csr.mstatus Field.TVM = 1 ∧ (wSup 0x100000).priv = .supervisor
    ∧ (Instr.csrrs 6 0 Csr.satp).csr? = some Csr.satp ∧ csrLegal (wMach 0) Csr.satp true = true
    ∧ isaAccepted (wSup 0x100000).cfg (takeTrap ((wSup 0x100000).faulting 2 0x18002373)).inclusions = true :=
  ⟨ready_of (by decide +kernel) (by decide +kernel), ready_of (by decide +kernel) (by decide +kernel),
    ready_of (by decide +kernel) (by decide +kernel), by decide +kernel⟩

theorem witness_EcallAndEbreakTrap : wUser.Ready ∧ (wSup 0).Ready ∧ (wMach 0).Ready
    ∧ isaAccepted wUser.cfg (takeTrap (wUser.faulting 8 0)).inclusions = true
    ∧ isaAccepted (wSup 0).cfg (takeTrap ((wSup 0).faulting 9 0)).inclusions = true
    ∧ isaAccepted (wMach 0).cfg (takeTrap ((wMach 0).faulting 11 0)).inclusions = true
    ∧ isaAccepted (wMach 0).cfg (takeTrap ((wMach 0).faulting 3 0)).inclusions = true :=
  ⟨ready_of (by decide +kernel) (by decide +kernel), ready_of (by decide +kernel) (by decide +kernel),
    ready_of (by decide +kernel) (by decide +kernel), by decide +kernel⟩

/-- MRET to each mode; SRET from MACHINE and from SUPERVISOR. -/
theorem witness_MretAndSretReturn : (wMach 0).Ready ∧ (wMach 0).priv = .machine
    ∧ (wMach 0).fieldRead Csr.mstatus Field.MPP = Priv.user.enc.setWidth 64
    ∧ (wMach 0x800).fieldRead Csr.mstatus Field.MPP = Priv.supervisor.enc.setWidth 64
    ∧ (wMach 0x1800).fieldRead Csr.mstatus Field.MPP = Priv.machine.enc.setWidth 64
    ∧ (wSup 0).priv = .supervisor ∧ (wSup 0).fieldRead Csr.mstatus Field.TSR = 0 ∧ (wMach 0).cfg.rejectedInclusions = [] :=
  ⟨ready_of (by decide +kernel) (by decide +kernel), by decide +kernel, by decide +kernel, by decide +kernel,
    by decide +kernel, by decide +kernel, by decide +kernel, by decide +kernel⟩

theorem witness_WaitAndFencesDoNothing : wUser.Ready ∧ (wMach 0x200000).Ready ∧ (wSup 0).Ready
    ∧ wUser.fieldRead Csr.mstatus Field.TW = 0 ∧ (wMach 0x200000).priv = .machine
    ∧ (wSup 0).priv = .supervisor ∧ (wSup 0).fieldRead Csr.mstatus Field.TVM = 0 :=
  ⟨ready_of (by decide +kernel) (by decide +kernel), ready_of (by decide +kernel) (by decide +kernel),
    ready_of (by decide +kernel) (by decide +kernel), by decide +kernel⟩

theorem witness_PrivilegedInstructionsTrap : (wSup 0x700000).Ready ∧ (wSup 0x700000).priv = .supervisor
    ∧ (wSup 0x700000).fieldRead Csr.mstatus Field.TSR = 1 ∧ (wSup 0x700000).fieldRead Csr.mstatus Field.TW = 1
    ∧ (wSup 0x700000).fieldRead Csr.mstatus Field.TVM = 1 ∧ (wSup 0x700000).cfg.rejectedInclusions = [] :=
  ⟨ready_of (by decide +kernel) (by decide +kernel), by decide +kernel, by decide +kernel, by decide +kernel,
    by decide +kernel, by decide +kernel⟩

theorem witness_TrapToSupervisor : defaultMasks wUserDelegated.cfg ∧ trapToS (wUserDelegated.faulting 8 0) = true :=
  ⟨rfl, by decide +kernel⟩

theorem witness_TrapToMachine : defaultMasks (State.initial cfgB).cfg ∧ trapToS (wUser.interrupted 63) = false
    ∧ trapToS ((State.initial cfgB).faulting 2 0) = false := ⟨rfl, by decide +kernel, by decide +kernel⟩

/-- An interrupt, a misaligned `pc`, a `pc` that does not translate, an illegal word. -/
theorem witness_FetchPhaseTraps : State.reset.Idle ∧ State.reset.stopped = false
    ∧ ({ State.reset with irqInput := [some 0] } : State).irqReq = some 0
    ∧ ({ State.initial cfgC with pc := 2 } : State).pcMisaligned = true
    ∧ (let s : State := { sv32State .supervisor with pc := 0x01124000 }
      s.pcMisaligned = false ∧ translate .fetch s.sampled s.pc = .pageFault) ∧ State.reset.Fetches 0
    ∧ decodeBits State.reset.cfg State.reset.inclusions (State.reset.isShort 0) 0 = .illegal :=
  ⟨idle_of (by decide +kernel), by decide +kernel, by decide +kernel, by decide +kernel, by decide +kernel,
    fetches_of (by decide +kernel), by decide +kernel⟩

/-- A word with an integer destination and a parcel with two destinations. -/
theorem witness_UnimplementedWordRetires : let s := (State.initial cfgD).withFetchWord 32 0x30B
    let p := (State.initial cfgD).withFetchWord 32 0x4008
    (s.Idle ∧ s.Fetches 0x30B
      ∧ decodeBits s.cfg s.inclusions (s.isShort 0x30B) 0x30B = .unimplemented 4 [⟨.x, 6⟩])
    ∧ p.Idle ∧ p.Fetches 0x4008
      ∧ decodeBits p.cfg p.inclusions (p.isShort 0x4008) 0x4008 = .unimplemented 9 [⟨.f, 10⟩, ⟨.x, 2⟩] :=
  ⟨⟨idle_of (by decide +kernel), fetches_of (by decide +kernel), by decide +kernel⟩,
    idle_of (by decide +kernel), fetches_of (by decide +kernel), by decide +kernel⟩

theorem witness_BareTranslationIsIdentity : wSv32.Derived ∧ State.reset.priv = .machine
    ∧ wUser.fieldRead Csr.satp (Field.satpMode .rv64) = 0 ∧ lsPrivEnc State.reset.cfg State.reset.csrs .machine = 3 :=
  ⟨(idle_of (by decide +kernel)).derived, by decide +kernel, by decide +kernel, by decide +kernel⟩

/-- A pointer at level 1 and a leaf at level 0; derived state; a walking mode and INVALID. -/
theorem witness_WalkOneLevel : wSv32.cfg.walkStrict = {} ∧ MmuMode.sv32.translating = true ∧ 1 < MmuMode.sv32.levels
    ∧ wSv32.memRead (((0x10 : Word) <<< 12) + ((0x01123ABC >>> 22) &&& 0x3FF) * 4) 4 = some 0x4401
    ∧ wSv32.memRead (((0x11 : Word) <<< 12) + ((0x01123ABC >>> 12) &&& 0x3FF) * 4) 4 = some 0x150C84CF
    ∧ wSv32.priv ≠ .machine ∧ lsPrivEnc wSv32.cfg wSv32.csrs wSv32.priv ≠ 3 ∧ wSv32.fetchMode = .sv32
    ∧ effPrivEnc .store wSv32 ≠ 2
    ∧ (withCsrs [(Csr.satp, 0x1000000000080001)] { State.initial cfgC with priv := .supervisor }).lsMode = .invalid := by
  decide +kernel

theorem witness_WalkOneLevel_derived : wSv32.Derived := (idle_of (by decide +kernel)).derived

theorem witness_TranslatedAddressesArePhysical : (modeFor .store wSv32).translating = true
    ∧ translate .store wSv32 0x01123ABC = .ok 0x54321ABC := by decide +kernel

/-- The forms of the frames reach a next state. -/
theorem witness_Frames : exec (.lui 0 0) wAddi = .next (after (exec (.lui 0 0) wAddi))
    ∧ exec (.lw 1 1 0) wSv32 = .next (after (exec (.lw 1 1 0) wSv32))
    ∧ exec (.sw 2 1 0) wSv32 = .next (after (exec (.sw 2 1 0) wSv32))
    ∧ exec (.csrrw 1 0 Csr.misa) wAddi = .next (after (exec (.csrrw 1 0 Csr.misa) wAddi))
    ∧ exec .mret wAddi = .next (after (exec .mret wAddi)) :=
  ⟨next_of (by decide +kernel), next_of (by decide +kernel), next_of (by decide +kernel), next_of (by decide +kernel),
    next_of (by decide +kernel)⟩

/-- In MACHINE mode with MPRV = 1, MPP = 2 and Sv32; and in SUPERVISOR mode with a word across the end of a page. -/
def wReserved : State := withCsrs [(Csr.mstatus, 0x21000)] { (sv32State .supervisor) with priv := .machine, nextPriv := .machine }
def wCrossing : State :=
  { (sv32State .supervisor) with
    pc := 0x01400FFE
    inclusions := letterC
    csrs := CsrFile.set (sv32State .supervisor).csrs Csr.misa 4
    mem := Memory.writeLE (sv32State .supervisor).mem 0x3FC00FFE 4 0x13 }

theorem witness_UndefinedCasesAreRefused : (wMach 0x1000).Ready ∧ (wMach 0x1000).priv = .machine
    ∧ (wMach 0x1000).fieldRead Csr.mstatus Field.MPP = 2 ∧ wSv32.lsMode.translating = true
    ∧ crossesPage ⟨effAddr wSv32 1 0x541, 4⟩ = true ∧ State.reset.booted = true
    ∧ (State.reset.csrPoke Csr.satp 1).staleMmu = true ∧ (State.reset.csrPoke Csr.misa 1).staleIsa = true :=
  ⟨ready_of (by decide +kernel) (by decide +kernel), by decide +kernel, by decide +kernel, by decide +kernel,
    by decide +kernel, by decide +kernel, by decide +kernel, by decide +kernel⟩

theorem witness_UndefinedCasesAreRefused_reserved : wReserved.Ready
    ∧ wReserved.fieldRead Csr.mstatus Field.MPRV = 1 ∧ wReserved.fieldRead Csr.mstatus Field.MPP = 2
    ∧ wReserved.lsMode = .sv32 ∧ crossesPage ⟨effAddr wReserved 0 0, 4⟩ = false :=
  ⟨ready_of (by decide +kernel) (by decide +kernel), by decide +kernel, by decide +kernel, by decide +kernel,
    by decide +kernel⟩

theorem witness_UndefinedCasesAreRefused_crossing : wCrossing.Idle ∧ wCrossing.stopped = false
    ∧ wCrossing.irqReq = none ∧ wCrossing.pcMisaligned = false
    ∧ translate .fetch wCrossing.sampled wCrossing.pc = .ok 0x3FC00FFE ∧ wCrossing.memRead 0x3FC00FFE 4 = some 0x13
    ∧ wCrossing.isShort 0x13 = false ∧ wCrossing.fetchMode ≠ .bare ∧ wCrossing.pc &&& 0xFFF = 0xFFE :=
  ⟨idle_of (by decide +kernel), by decide +kernel⟩

end Sys2Proof.Tests
end

section
/-! Where a micro-op's outcome leads, and what every micro-op of a slot leaves alone until FINISH_UPDATE retires it
(40_microop_chain.md R200 to R203, 42_pipeline_microops.md R261, R290). -/

namespace Sys2Proof.Machine

/-! ## Where an outcome leads -/

/-- A micro-op that continues does so in a state of `P`, one that redirects does so to a chain and in a state of `R`. -/
def MicroOut.Leads (P : State → Prop) (R : ChainId → State → Prop) : MicroOut → Prop
  | .cont s => P s
  | .redirect c s => R c s
  | .abort _ => True
  | .refuse _ => True

section Leads
variable {P P' : State → Prop} {R R' : ChainId → State → Prop} {o : MicroOut}

theorem leads_mono (h : o.Leads P R) (hP : ∀ s, P s → P' s) (hR : ∀ c s, R c s → R' c s) : o.Leads P' R' := by
  cases o with
  | cont s => exact hP s h
  | redirect c s => exact hR c s h
  | abort f => trivial
  | refuse r => trivial

/-- What follows a micro-op is run only where it continues. -/
theorem leads_andThen {k : State → MicroOut} (h : o.Leads P R) (hk : ∀ s, P s → (k s).Leads P' R) :
    (o.andThen k).Leads P' R := by
  cases o with
  | cont s => exact hk s h
  | redirect c s => exact h
  | abort f => trivial
  | refuse r => trivial

end Leads

/-! ## What a slot keeps until it is retired -/

/-- The fields no micro-op changes between FETCH and FINISH_UPDATE, hooks and their answers aside. -/
structure SlotFrame where
  cfg : Config
  chains : Chains
  hookReplies : List HookReply
  pc : Word
  icount : BitVec 64
  stopped : Bool

/-- These fields of a state. -/
def State.slotFrame (s : State) : SlotFrame := ⟨s.cfg, s.chains, s.hookReplies, s.pc, s.icount, s.stopped⟩

@[simp] theorem slotFrame_writeX (s : State) (i : Reg) (v : Word) : (s.writeX i v).slotFrame = s.slotFrame := by
  simp [State.slotFrame]

@[simp] theorem slotFrame_csrWrite (s : State) (i : CsrIdx) (v : Word) :
    (s.csrWrite i v).slotFrame = s.slotFrame := by
  simp [State.slotFrame]

@[simp] theorem slotFrame_takeTrap (s : State) : (takeTrap s).slotFrame = s.slotFrame := by
  simp [State.slotFrame]

@[simp] theorem slotFrame_trapReturn (IE PIE PP : Field) (e : CsrIdx) (p : Priv) (s : State) :
    (trapReturn IE PIE PP e p s).slotFrame = s.slotFrame := by
  simp [State.slotFrame]

theorem slotFrame_of_frees {ds : List DestReg} {s t : State} (h : FreesOnly ds s t) : t.slotFrame = s.slotFrame := by
  rw [h.rest]; rfl

theorem slotFrame_of_memWrite {s t : State} {pa : Word} {n v : Nat} (h : s.memWrite pa n v = some t) :
    t.slotFrame = s.slotFrame := by
  unfold State.memWrite at h
  split at h
  · cases h; rfl
  · cases h

/-- A micro-op invoked in `s` keeps the frame of the slot, and leaves its chain only to raise a cause. -/
def MicroOut.KeepsSlot (s : State) : MicroOut → Prop :=
  MicroOut.Leads (fun t => t.slotFrame = s.slotFrame) (fun c t => c = .exception ∧ t.slotFrame = s.slotFrame)

@[simp] theorem keepsSlot_cont (s t : State) : (MicroOut.cont t).KeepsSlot s ↔ t.slotFrame = s.slotFrame := Iff.rfl

/-- Raising a cause never continues. -/
theorem leads_raiseFault {P : State → Prop} {R : ChainId → State → Prop} {c : BitVec 6} {info : Word} {t : State}
    (h : R .exception (t.faulting c info)) : (raiseFault c info t).Leads P R := by
  unfold raiseFault
  split
  · trivial
  · exact h

theorem leads_raiseInterrupt {P : State → Prop} {R : ChainId → State → Prop} {c : BitVec 6} {t : State}
    (h : R .exception (t.interrupted c)) : (raiseInterrupt c t).Leads P R := by
  unfold raiseInterrupt
  split
  · trivial
  · exact h

/-- Raising a cause, from a state the micro-op may have prepared. -/
theorem keepsSlot_raiseFault {s t : State} (h : t.slotFrame = s.slotFrame) (c : BitVec 6) (info : Word) :
    (raiseFault c info t).KeepsSlot s := leads_raiseFault ⟨rfl, h⟩

theorem keepsSlot_raiseInterrupt {s t : State} (h : t.slotFrame = s.slotFrame) (c : BitVec 6) :
    (raiseInterrupt c t).KeepsSlot s := leads_raiseInterrupt ⟨rfl, h⟩

theorem keepsSlot_illegal (s : State) : (illegal s).KeepsSlot s := keepsSlot_raiseFault rfl _ _

/-- The check of the extension set lets a state through or aborts. -/
theorem leads_checkIsa {P : State → Prop} {R : ChainId → State → Prop} {t : State} (h : P t) :
    (checkIsa t).Leads P R := by
  unfold checkIsa
  split
  · exact h
  · trivial

theorem keepsSlot_checkIsa {s t : State} (h : t.slotFrame = s.slotFrame) : (checkIsa t).KeepsSlot s :=
  leads_checkIsa h

/-! ## The EXECUTE and compute-address bodies -/

theorem keepsSlot_csrWriteThen (csr : CsrIdx) (new : Word) (rd : Reg) (old : Word) (s : State) :
    (csrWriteThen csr new rd old s).KeepsSlot s := by
  unfold csrWriteThen
  dsimp only
  split
  · exact keepsSlot_checkIsa (by simp)
  · simp

/-- A CSR instruction that always writes: CSRRW and CSRRWI. -/
theorem keepsSlot_csrSwap (legal : Bool) (csr : CsrIdx) (new : Word) (rd : Reg) (old : Word) (s : State) :
    (if legal = true then csrWriteThen csr new rd old s else illegal s).KeepsSlot s := by
  split
  · exact keepsSlot_csrWriteThen ..
  · exact keepsSlot_illegal s

/-- A CSR instruction that writes where its source operand is not 0: CSRRS, CSRRC and their immediate forms. -/
theorem keepsSlot_csrModify (legal : Bool) (writes : Prop) [Decidable writes] (csr : CsrIdx) (new : Word) (rd : Reg)
    (old : Word) (s : State) :
    (if legal = true then (if writes then csrWriteThen csr new rd old s else .cont (s.writeX rd old))
      else illegal s).KeepsSlot s := by
  split
  · split
    · exact keepsSlot_csrWriteThen ..
    · simp
  · exact keepsSlot_illegal s

theorem keepsSlot_mretBody (s : State) : (mretBody s).KeepsSlot s := by
  unfold mretBody
  split
  · exact keepsSlot_illegal s
  · split
    · trivial
    · exact keepsSlot_checkIsa (by simp)

theorem keepsSlot_sretBody (s : State) : (sretBody s).KeepsSlot s := by
  unfold sretBody
  split
  · exact keepsSlot_illegal s
  · split
    · exact keepsSlot_illegal s
    · exact keepsSlot_checkIsa (by simp)

theorem keepsSlot_wfiBody (s : State) : (wfiBody s).KeepsSlot s := by
  unfold wfiBody
  split
  · exact keepsSlot_illegal s
  · rfl

theorem keepsSlot_sfenceVmaBody (rs1 rs2 : Reg) (s : State) : (sfenceVmaBody rs1 rs2 s).KeepsSlot s := by
  unfold sfenceVmaBody
  split
  · exact keepsSlot_illegal s
  · split
    · exact keepsSlot_illegal s
    · rfl

theorem keepsSlot_pushData (va : Word) (n : Nat) (s : State) : (pushData va n s).KeepsSlot s := by
  unfold pushData
  split
  · trivial
  · split
    · trivial
    · rfl

/-- Popping a result keeps the slot if what is done with it does. -/
theorem keepsSlot_withData {k : Resolved → State → MicroOut} (hk : ∀ r t, (k r t).KeepsSlot t) (s : State) :
    (withData k s).KeepsSlot s := by
  unfold withData
  split
  · trivial
  · split
    · trivial
    · exact hk _ _

theorem keepsSlot_lwBody (rd : Reg) (s : State) : (lwBody rd s).KeepsSlot s := by
  refine keepsSlot_withData (fun r t => ?_) s
  split
  · trivial
  · simp

theorem keepsSlot_swBody (rs2 : Reg) (s : State) : (swBody rs2 s).KeepsSlot s := by
  refine keepsSlot_withData (fun r t => ?_) s
  split
  · trivial
  · exact slotFrame_of_memWrite ‹_›

theorem keepsSlot_jalBody (rd : Reg) (off : BitVec 21) (s : State) : (jalBody rd off s).KeepsSlot s :=
  slotFrame_writeX s rd (s.pcPlus 4)

theorem keepsSlot_bneBody (rs1 rs2 : Reg) (off : BitVec 13) (s : State) : (bneBody rs1 rs2 off s).KeepsSlot s := by
  unfold bneBody
  split <;> rfl

theorem keepsSlot_executeBody (i : Instr) (s : State) : (executeBody i s).KeepsSlot s := by
  cases i with
  | csrrw rd rs1 csr => exact keepsSlot_csrSwap ..
  | csrrwi rd uimm csr => exact keepsSlot_csrSwap ..
  | csrrs rd rs1 csr => exact keepsSlot_csrModify ..
  | csrrc rd rs1 csr => exact keepsSlot_csrModify ..
  | csrrsi rd uimm csr => exact keepsSlot_csrModify ..
  | csrrci rd uimm csr => exact keepsSlot_csrModify ..
  | ecall => exact keepsSlot_raiseFault rfl _ _
  | ebreak => exact keepsSlot_raiseFault rfl _ _
  | mret => exact keepsSlot_mretBody s
  | sret => exact keepsSlot_sretBody s
  | wfi => exact keepsSlot_wfiBody s
  | sfenceVma rs1 rs2 => exact keepsSlot_sfenceVmaBody rs1 rs2 s
  | fence => rfl
  | fenceI => rfl
  | lui rd imm => exact slotFrame_writeX s rd _
  | addi rd rs1 imm => exact slotFrame_writeX s rd _
  | lw rd => exact keepsSlot_lwBody rd s
  | sw _ rs2 => exact keepsSlot_swBody rs2 s
  | jal rd off => exact keepsSlot_jalBody rd off s
  | bne rs1 rs2 off => exact keepsSlot_bneBody rs1 rs2 off s
  | _ => trivial

theorem keepsSlot_addressBody (i : Instr) (s : State) : (addressBody i s).KeepsSlot s := by
  cases i with
  | lw | sw => exact keepsSlot_pushData ..
  | _ => trivial

/-! ## The micro-op steps of the chains, hooks aside -/

theorem keepsSlot_fetchStep (s : State) : (fetchStep s).KeepsSlot s := by
  unfold fetchStep
  split
  · exact keepsSlot_raiseInterrupt rfl _
  · split
    · exact keepsSlot_raiseFault rfl _ _
    · split
      · trivial
      · rfl

theorem keepsSlot_instTranslateStep (s : State) : (instTranslateStep s).KeepsSlot s := by
  unfold instTranslateStep
  split
  · rfl
  · exact keepsSlot_raiseFault rfl _ _
  · trivial
  · trivial

theorem keepsSlot_computeAddressStep (s : State) : (computeAddressStep s).KeepsSlot s := by
  unfold computeAddressStep
  split
  · trivial
  · split
    · trivial
    · exact keepsSlot_addressBody _ s

theorem keepsSlot_translateData (kind : AccessKind) (ci : CurrentInst) (s : State) :
    (translateData kind ci s).KeepsSlot s := by
  unfold translateData
  split
  · rfl
  · exact keepsSlot_raiseFault rfl _ _
  · trivial
  · trivial

theorem keepsSlot_dataTranslateStep (s : State) : (dataTranslateStep s).KeepsSlot s := by
  unfold dataTranslateStep
  split
  · trivial
  · split
    · exact keepsSlot_translateData ..
    · exact keepsSlot_translateData ..
    · split
      · rfl
      · trivial

theorem keepsSlot_unimplementedBody (ci : CurrentInst) (s : State) : (unimplementedBody ci s).KeepsSlot s :=
  (slotFrame_of_frees (freeDests_frees ci.dests _)).trans rfl

theorem keepsSlot_executeStep (s : State) : (executeStep s).KeepsSlot s := by
  unfold executeStep
  split
  · trivial
  · split
    · exact keepsSlot_unimplementedBody _ s
    · exact keepsSlot_executeBody _ s

/-! ## The mnemonics DECODE finds a chain by -/

/-- The word an instruction was decoded from gives it a mnemonic (30_encoding.md R155). -/
theorem mnem_of_decodeWord {w : BitVec 32} {i : Instr} (h : decodeWord w = some i) : ∃ m, i.mnem = some m := by
  have hw := encode_of_decodeWord h
  cases hm : i.mnem with
  | some m => exact ⟨m, rfl⟩
  | none => cases i <;> cases hm <;> cases hw

theorem decodeWord_of_decodeKnown {c : Config} {inc : BitVec 26} {short : Bool} {bits : BitVec 32} {i : Instr}
    (h : decodeKnown c inc short bits = some i) : ∃ w, decodeWord w = some i := by
  unfold decodeKnown at h
  split at h
  · split at h
    · exact ⟨_, h⟩
    · cases h
  · split at h
    · split at h
      · cases h
        exact ⟨_, ‹_›⟩
      · cases h
    · cases h

theorem decodeKnown_of_decodeBits {c : Config} {inc : BitVec 26} {short : Bool} {bits : BitVec 32} {i : Instr}
    (h : decodeBits c inc short bits = .known i) : decodeKnown c inc short bits = some i := by
  unfold decodeBits at h
  split at h
  · cases h
    assumption
  · split at h <;> cases h

/-- A known instruction enters the chain of a mnemonic that is assembled. -/
theorem chain_of_decodeBits {c : Config} {inc : BitVec 26} {short : Bool} {bits : BitVec 32} {i : Instr}
    (h : decodeBits c inc short bits = .known i) : ∃ m, i.chain = .inst m ∧ Mnem.known c m := by
  obtain ⟨w, hw⟩ := decodeWord_of_decodeKnown (decodeKnown_of_decodeBits h)
  obtain ⟨m, hm⟩ := mnem_of_decodeWord hw
  exact ⟨m, by rw [Instr.chain, hm]; rfl, mnem_known c hm⟩

/-! ## A slot from FETCH to its end -/

/-- `u` is a state inside the slot that began in `s`, not yet retired. -/
structure State.Underway (s u : State) : Prop where
  assembled : u.Assembled
  quiet : u.Quiet
  pc : u.pc = s.pc
  icount : u.icount = s.icount
  stopped : u.stopped = false

/-- `t` is a state in which the slot that began in `s` has been retired. -/
structure State.Retired (s t : State) : Prop where
  icount : t.icount = s.icount + 1
  prevPc : t.prevPc = s.pc
  currentInst : t.currentInst = none
  stopped : t.stopped = false

/-- If a Run with this outcome has a next state, the slot that began in `s` has been retired in it. -/
def State.RetiresIn (s : State) (r : Host.Outcome State Fault Refusal) : Prop := ∀ t, r = .next t → s.Retired t

/-- Where a chain that is left early goes: to the EXCEPTION chain, the slot not yet retired. -/
def State.ToException (s : State) (c : ChainId) (u : State) : Prop := c = .exception ∧ s.Underway u

/-- Where DECODE goes: to the EXCEPTION chain or to a chain assembled for a mnemonic. -/
def State.ToInstruction (s : State) (c : ChainId) (u : State) : Prop :=
  s.ToException c u ∨ ∃ m, c = .inst m ∧ Mnem.known u.cfg m ∧ s.Underway u

section Underway
variable {s u v : State} {o : MicroOut} {P : State → Prop} {R : ChainId → State → Prop}

theorem State.Underway.of_slotFrame (h : s.Underway u) (e : v.slotFrame = u.slotFrame) : s.Underway v := by
  simp only [State.slotFrame, SlotFrame.mk.injEq] at e
  obtain ⟨hcfg, hchains, hreplies, hpc, hicount, hstopped⟩ := e
  refine ⟨?_, ?_, hpc.trans h.pc, hicount.trans h.icount, hstopped.trans h.stopped⟩
  · rw [State.Assembled, hchains, hcfg]
    exact h.assembled
  · rw [State.Quiet, hreplies]
    exact h.quiet

theorem State.Underway.observedN (h : s.Underway u) (k : HookKind) (m : Bool) (n : Nat) :
    s.Underway (u.observedN k m n) :=
  ⟨h.assembled, quiet_observedN h.quiet k m n, h.pc, h.icount, h.stopped⟩

/-- What a micro-op that keeps the slot leads to. -/
theorem State.Underway.leads (h : s.Underway u) (ho : o.KeepsSlot u) : o.Leads s.Underway s.ToException :=
  leads_mono ho (fun _ e => h.of_slotFrame e) (fun _ _ e => ⟨e.1, h.of_slotFrame e.2⟩)

/-! ### The micro-ops of each chain -/

/-- A chain whose first micro-op keeps the slot leads where the rest of it leads, or to the EXCEPTION chain. -/
theorem leads_cons {e : Entry} {es : List Entry} (h : s.Underway u) (he : (invoke e.op u).KeepsSlot u)
    (hes : ∀ v, s.Underway v → (runOps es v).Leads P R) (hR : ∀ c v, s.ToException c v → R c v) :
    (runOps (e :: es) u).Leads P R := by
  rw [runOps_cons]
  exact leads_andThen (leads_mono (h.leads he) (fun _ hv => hv) hR) hes

/-- Hooks of quiet observers, then one micro-op, lead where that micro-op leads. -/
theorem leads_hooks_concat {mk : Nat → MicroOp} {k : HookKind} {m : Bool} {n : Nat} {e : Entry} (h : s.Underway u)
    (hmk : runOps (hookEntries mk n) u = .cont (u.observedN k m n))
    (he : ∀ v, s.Underway v → (invoke e.op v).Leads s.Underway R) :
    (runOps (hookEntries mk n ++ [e]) u).Leads s.Underway R := by
  rw [runOps_append, hmk, andThen_cont, runOps_cons]
  exact leads_andThen (he _ (h.observedN k m n)) (fun _ hv => hv)

/-- EXCEPTION takes the trap or aborts; it never redirects. -/
theorem leads_exceptionStep (h : s.Underway u) : (exceptionStep u).Leads s.Underway (fun _ _ => False) := by
  unfold exceptionStep
  split
  · trivial
  · exact leads_checkIsa (h.of_slotFrame (slotFrame_takeTrap u))

theorem leads_exceptionChain (h : s.Underway u) (n : Nat) :
    (runOps (exceptionChain n).ops u).Leads s.Underway (fun _ _ => False) := by
  rw [exceptionChain_eq]
  exact leads_hooks_concat h (runOps_preException h.quiet n) (fun _ hv => leads_exceptionStep hv)

theorem leads_executePart (h : s.Underway u) (n : Nat) :
    (runOps (hookEntries .preExecuteHook n ++ [⟨.execute, some .execute⟩]) u).Leads s.Underway s.ToException :=
  leads_hooks_concat h (runOps_preExecute h.quiet n) (fun v hv => hv.leads (keepsSlot_executeStep v))

theorem leads_instChain (h : s.Underway u) (n : Nat) (m : Mnem) :
    (runOps (instChain n m).ops u).Leads s.Underway s.ToException := by
  cases hm : Mnem.isMemory m with
  | false =>
    rw [instChain_plain n hm]
    exact leads_executePart h n
  | true =>
    rw [instChain_memory n hm]
    refine leads_cons h (keepsSlot_computeAddressStep u) (fun v hv => ?_) (fun _ _ => id)
    exact leads_cons hv (keepsSlot_dataTranslateStep v) (fun w hw => leads_executePart hw n) (fun _ _ => id)

/-- DECODE never continues: it raises a cause or enters the chain of a mnemonic. -/
theorem leads_decodeStep (h : s.Underway u) : (decodeStep u).Leads (fun _ => False) s.ToInstruction := by
  unfold decodeStep
  split
  · trivial
  · split
    · trivial
    · dsimp only
      split
      · trivial
      · split
        case h_1 => exact leads_raiseFault (.inl ⟨rfl, h.of_slotFrame rfl⟩)
        case h_2 i hd =>
          obtain ⟨m, hc, hm⟩ := chain_of_decodeBits hd
          exact .inr ⟨m, hc, hm, h.of_slotFrame rfl⟩
        case h_3 k ds hd => exact .inr ⟨_, rfl, externalMnem_of_decodeBits hd, h.of_slotFrame rfl⟩

theorem leads_fetchChain (h : s.Underway u) : (runOps fetchChain.ops u).Leads (fun _ => False) s.ToInstruction := by
  have early : ∀ c v, s.ToException c v → s.ToInstruction c v := fun _ _ hv => .inl hv
  rw [fetchChain_eq]
  refine leads_cons h (keepsSlot_fetchStep u) (fun v hv => ?_) early
  refine leads_cons hv (keepsSlot_instTranslateStep v) (fun w hw => ?_) early
  rw [runOps_cons]
  exact leads_andThen (leads_decodeStep hw) (fun _ => False.elim)

/-! ### The Runs -/

/-- A Run retires the slot if it does so from wherever its first chain leads. -/
theorem retiresIn_afterChain {nx : Option ChainId} (ho : o.Leads P R)
    (hP : ∀ u, P u → s.RetiresIn (afterChain nx (.cont u))) (hR : ∀ c u, R c u → s.RetiresIn (runChain c u)) :
    s.RetiresIn (afterChain nx o) := by
  cases o with
  | cont u => exact hP u ho
  | redirect c u => exact hR c u ho
  | abort f => intro t ht; cases ht
  | refuse r => intro t ht; cases ht

theorem retired_finishUpdate (h : s.Underway u) : s.Retired (finishUpdate u) where
  icount := by simp [finishUpdate, h.icount]
  prevPc := by simp [finishUpdate, h.pc]
  currentInst := rfl
  stopped := by simp [h.stopped]

theorem retiresIn_finish (h : s.Underway u) : s.RetiresIn (runChain .finish u) := by
  intro t ht
  rw [runChain_finish h.assembled h.quiet] at ht
  cases ht
  obtain ⟨hicount, hprev, hinst, hstopped⟩ := retired_finishUpdate h
  exact ⟨hicount, hprev, hinst, hstopped⟩

theorem retiresIn_exception (h : s.Underway u) : s.RetiresIn (runChain .exception u) := by
  rw [runChain_unfold, assembled_exception h.assembled]
  refine retiresIn_afterChain (leads_exceptionChain h _) (fun v hv => ?_) (fun _ _ => False.elim)
  rw [exceptionChain_eq]
  exact retiresIn_finish hv

theorem retiresIn_inst (h : s.Underway u) {m : Mnem} (hm : Mnem.known u.cfg m) :
    s.RetiresIn (runChain (.inst m) u) := by
  rw [runChain_unfold, assembled_inst h.assembled hm]
  exact retiresIn_afterChain (leads_instChain h _ m) (fun v hv => retiresIn_finish hv)
    (fun _ v ⟨hc, hv⟩ => hc ▸ retiresIn_exception hv)

theorem retiresIn_fetch (h : s.Underway u) : s.RetiresIn (runChain .fetch u) := by
  rw [runChain_unfold, assembled_fetch h.assembled]
  refine retiresIn_afterChain (leads_fetchChain h) (fun _ => False.elim) ?_
  rintro c v (⟨rfl, hv⟩ | ⟨m, rfl, hm, hv⟩)
  · exact retiresIn_exception hv
  · exact retiresIn_inst hv hm

end Underway

/-- A running idle hart's step is the Run of the FETCH chain (42_pipeline_microops.md R260). -/
theorem step_of_idle {s : State} (h : s.Idle) (hs : s.stopped = false) : step s = runChain .fetch s := by
  simp [step, machineStep, h.noCall, schedulerStep, hs, h.derived.notStaleIsa, h.derived.notStaleMmu]

/-- Settles O12: every chain of the slot keeps `pc`, `icount` and `stopped` up to FINISH, which every Run from FETCH that
has a next state reaches. -/
theorem stepRetiresOneSlot : Obligations.StepRetiresOneSlot := by
  unfold Obligations.StepRetiresOneSlot
  intro s t h hs ht
  rw [step_of_idle h hs] at ht
  obtain ⟨hicount, hprev, hinst, hstopped⟩ := retiresIn_fetch ⟨h.assembled, h.quiet, rfl, rfl, hs⟩ t ht
  exact ⟨hicount, hprev, hinst, hstopped⟩

end Sys2Proof.Machine
end

section
/-! The window of sstatus onto mstatus (10_state.md R46, 41_register_access.md R234, R235, R240). -/

namespace Sys2Proof.Machine

/-! ## Masks -/

/-- Bits outside XLEN do not show through a mask of XLEN bits. -/
theorem trunc_and_of_fits {x : XLen} {m : Word} (hm : fitsXlen x m) (v : Word) : x.trunc v &&& m = v &&& m := by
  cases x with
  | rv64 => rfl
  | rv32 =>
    rw [← (hm : (m.setWidth 32).setWidth 64 = m)]
    ext k hk
    by_cases hk32 : k < 32 <;> simp [XLen.trunc, hk32, BitVec.getLsbD_eq_getElem hk]

/-- Writing through a mask and then through a wider one is writing through the narrower one. -/
theorem maskedNew_maskedNew {m w : Word} (h : m &&& w = m) (old v : Word) :
    maskedNew old w (maskedNew old m v) = maskedNew old m v := by
  unfold maskedNew
  ext k hk
  have hk' : (m &&& w)[k] = m[k] := by rw [h]
  simp only [BitVec.getElem_and, BitVec.getElem_or, BitVec.getElem_not] at hk' ⊢
  cases hm : m[k] <;> cases hw : w[k] <;> simp_all

/-! ## The default masks -/

theorem csr?_of_defaultMasks {c : Config} (h : defaultMasks c) (i : CsrIdx) :
    c.csr? i = (defaultCsrs c.xlen).find? (fun d => d.index = i) := by
  rw [Config.csr?, show c.csrSet = _ from h]

theorem hasCsr_sstatus {c : Config} (h : defaultMasks c) : c.hasCsr Csr.sstatus = true := by
  rw [Config.hasCsr, csr?_of_defaultMasks h]
  cases c.xlen <;> rfl

theorem wmask_mstatus {c : Config} (h : defaultMasks c) : c.wmask Csr.mstatus = mstatusWMask c.xlen := by
  rw [Config.wmask, csr?_of_defaultMasks h]
  cases c.xlen <;> rfl

/-! ## Reads and writes -/

/-- No other CSR than the exception PCs hides a bit (10_state.md R52). -/
theorem csrRead_eq_readMasked (s : State) {i : CsrIdx} (h1 : i ≠ Csr.mepc) (h2 : i ≠ Csr.sepc) :
    s.csrRead i = s.csrs.readMasked s.cfg i := by
  simp [State.csrRead, CsrFile.read, h1, h2]

/-- A read of sstatus is a read of mstatus under the window's mask. -/
theorem csrRead_sstatus (s : State) :
    s.csrRead Csr.sstatus = s.csrRead Csr.mstatus &&& sstatusRMask s.cfg.xlen := by
  rw [csrRead_eq_readMasked s (by decide) (by decide), csrRead_eq_readMasked s (by decide) (by decide)]
  rfl

/-- The masked store through the window, whose bits are all writable in mstatus. -/
theorem store_sstatus_raw_mstatus {c : Config} (h : defaultMasks c) (f : CsrFile) (v : Word) :
    (f.store c Csr.sstatus v).raw Csr.mstatus = maskedNew (f.raw Csr.mstatus) sstatusWMask v := by
  have hw : sstatusWMask &&& mstatusWMask c.xlen = sstatusWMask := by cases c.xlen <;> decide
  have hf : fitsXlen c.xlen sstatusWMask := by cases c.xlen <;> rfl
  show CsrFile.raw (f.set Csr.mstatus _) Csr.mstatus = _
  rw [raw_set_same, wmask_mstatus h, maskedNew_maskedNew hw]
  unfold maskedNew
  rw [trunc_and_of_fits hf]

/-- A write of sstatus is the masked store, then both derivations that a write of mstatus makes. -/
theorem csrWrite_sstatus (s : State) (v : Word) : s.csrWrite Csr.sstatus v
    = ({ s with csrs := s.csrs.store s.cfg Csr.sstatus v } : State).recomputeIsa.recomputeMmu := rfl

/-- Settles O23: the window's store lies within the write mask of mstatus, and the side effects are those of mstatus. -/
theorem sstatusIsAWindow : Obligations.SstatusIsAWindow := by
  unfold Obligations.SstatusIsAWindow
  intro s n hm ha
  have hc := hasCsr_sstatus hm
  refine ⟨?_, s.csrWrite Csr.sstatus (BitVec.ofNat 64 n), ?_, ?_, ?_, ?_⟩
  · show execOpRead (.csr Csr.sstatus) s = _
    rw [execOpRead, if_pos hc, csrRead_sstatus, answer, sstatusRMask.eq_def]
    cases s.cfg.xlen <;> rfl
  · show execOpWrite (.csr Csr.sstatus) n s = _
    rw [execOpWrite, if_pos hc, endWrite, csrWrite_cfg, ha]
    rfl
  · rw [csrWrite_csrs]
    exact store_sstatus_raw_mstatus hm _ _
  · intro j hj
    rw [csrWrite_csrs]
    exact store_raw_other hj
  · rw [csrWrite_sstatus]
    exact ⟨rfl, rfl, rfl, rfl⟩

end Sys2Proof.Machine
end

section
/-! Address translation (20_memory.md): the modes the cache holds (R112 to R114), `Translate` as a walk from satp (R120),
and one level of that walk (R121 to R127). -/

namespace Sys2Proof.Machine

/-! ## Modes and their parameters -/

/-- R112: the numbers of satp.MODE. -/
theorem modeOf_numbers : modeOf .rv32 0 = .bare ∧ modeOf .rv32 1 = .sv32 ∧ modeOf .rv64 0 = .bare
    ∧ modeOf .rv64 8 = .sv39 ∧ modeOf .rv64 9 = .sv48 ∧ modeOf .rv64 10 = .sv57 := by decide

theorem modeOf_rv64_undefined {m : Word} (h0 : m ≠ 0) (h8 : m ≠ 8) (h9 : m ≠ 9) (h10 : m ≠ 10) :
    modeOf .rv64 m = .invalid := by
  rw [modeOf, if_neg h0, if_neg h8, if_neg h9, if_neg h10]

/-! ## The fields of satp -/

/-- satp hides no bit of a read (10_state.md R52), so the derivations see what `csr_read` sees. -/
theorem field_satp (s : State) (F : Field) : s.csrs.field s.cfg Csr.satp F = F.get (s.csrRead Csr.satp) := by
  rw [CsrFile.field, csrRead_eq_readMasked s (by decide) (by decide)]

/-- satp.MODE, its bits written out (10_state.md R58). -/
theorem get_satpMode (x : XLen) (v : Word) : (Field.satpMode x).get v
    = match x with | .rv32 => (v >>> 31) &&& 1 | .rv64 => (v >>> 60) &&& 15 := by
  cases x <;> rfl

/-- satp.PPN, its bits written out (10_state.md R58). -/
theorem get_satpPpn (x : XLen) (v : Word) : (Field.satpPpn x).get v
    = v &&& match x with | .rv32 => 0x3FFFFF | .rv64 => 0xFFFFFFFFFFF := by
  cases x <;> simp [Field.get, Field.satpPpn, Field.ones]

/-! ## The cached modes -/

section Cached
variable {s : State}

theorem State.Derived.fetchMode_eq (h : s.Derived) (hp : s.priv ≠ .machine) : s.fetchMode = satpMode s.cfg s.csrs := by
  rw [h.fetch, deriveFetchMode, if_neg hp]

theorem State.Derived.lsMode_eq (h : s.Derived) (hp : lsPrivEnc s.cfg s.csrs s.priv ≠ 3) :
    s.lsMode = satpMode s.cfg s.csrs := by
  rw [h.data, deriveLsMode]
  exact if_neg hp

end Cached

/-! ## `Translate` (R120) -/

section Translate
variable {kind : AccessKind} {s : State}

theorem reservedEffPriv_eq_false (hp : effPrivEnc kind s ≠ 2) : reservedEffPriv kind s = false := decide_eq_false hp

theorem translate_invalid (hp : effPrivEnc kind s ≠ 2) (hm : modeFor kind s = .invalid) (va : Word) :
    translate kind s va = .abort .invalidMmuMode := by
  simp [translate, hm, reservedEffPriv_eq_false hp]

theorem translate_translating (hp : effPrivEnc kind s ≠ 2) (hm : (modeFor kind s).translating = true) (va : Word) :
    translate kind s va = walk kind s (modeFor kind s) va := by
  unfold translate
  cases h : modeFor kind s with
  | bare | invalid => simp [h, MmuMode.translating] at hm
  | sv32 | sv39 | sv48 | sv57 => simp [reservedEffPriv_eq_false hp]

/-- Without the canonical-address check a walk begins at the root page number in satp. -/
theorem walk_of_not_canonicalVa (hc : s.cfg.walkStrict.canonicalVa = false) (m : MmuMode) (va : Word) :
    walk kind s m va = walkFrom kind s m va m.levels ((Field.satpPpn s.cfg.xlen).get (s.csrRead Csr.satp)) := by
  simp [walk, hc, State.fieldRead]

end Translate

/-! ## Page-table entries (R122 to R125) -/

theorem pteInvalid_eq_false_iff (pte : Word) : pteInvalid pte = false
    ↔ pte.getLsbD 0 = true ∧ ¬ (pte.getLsbD 1 = false ∧ pte.getLsbD 2 = true) := by
  simp [pteInvalid, pteV, pteR, pteW]

theorem pteLeaf_iff (pte : Word) : pteLeaf pte = true ↔ pte.getLsbD 1 = true ∨ pte.getLsbD 3 = true := by
  simp [pteLeaf, pteR, pteX]

/-- Where no low bit of a superpage's PPN is set, the leaf gives the composed address. -/
theorem composePA_aligned {m : MmuMode} {i : Nat} {pte : Word}
    (h : i = 0 ∨ ptePpn m pte &&& lowMask (m.vpnBits * i) = 0) (va : Word) : composePA m i pte va
      = ((ptePpn m pte >>> (m.vpnBits * i)) <<< (12 + m.vpnBits * i)) ||| (va &&& lowMask (12 + m.vpnBits * i)) := by
  have ha : misalignedLeaf m i pte = false := by
    rcases h with h | h <;> simp [misalignedLeaf, h]
  simp [composePA, ha]

/-! ### With no optional check (R129) -/

section NoChecks
variable {s : State}

/-- The permission of the access kind is one bit of the entry. -/
theorem permitted_noChecks (h : s.cfg.walkStrict = {}) (kind : AccessKind) (pte : Word) : permitted kind s pte
    = match kind with | .store => pte.getLsbD 2 | .load => pte.getLsbD 1 | .fetch => pte.getLsbD 3 := by
  cases kind <;> simp [permitted, h, pteR, pteW, pteX]

theorem strictLeafOk_noChecks (h : s.cfg.walkStrict = {}) (kind : AccessKind) (m : MmuMode) (i : Nat) (pte : Word) :
    strictLeafOk kind s m i pte = true := by
  simp [strictLeafOk, h]

theorem strictNonLeafOk_noChecks (h : s.cfg.walkStrict = {}) (m : MmuMode) (pte : Word) :
    strictNonLeafOk s m pte = true := by
  simp [strictNonLeafOk, h]

end NoChecks

/-! ## One level of the walk (R121, R127) -/

section Level
variable {kind : AccessKind} {s : State} {m : MmuMode} {va ppn : Word} {i n : Nat}
variable (hr : s.memRead (pteAddr m i ppn va) m.pteSize = some n)
include hr

theorem walkFrom_invalid (hv : pteInvalid (BitVec.ofNat 64 n) = true) :
    walkFrom kind s m va (i + 1) ppn = .pageFault := by
  simp [walkFrom, hr, hv]

variable (hv : pteInvalid (BitVec.ofNat 64 n) = false)
include hv

/-- A leaf ends the walk: with the composed address where the access and the checks allow it. -/
theorem walkFrom_leaf (hl : pteLeaf (BitVec.ofNat 64 n) = true) : walkFrom kind s m va (i + 1) ppn
    = if permitted kind s (BitVec.ofNat 64 n) && strictLeafOk kind s m i (BitVec.ofNat 64 n)
      then .ok (composePA m i (BitVec.ofNat 64 n) va) else .pageFault := by
  simp [walkFrom, hr, hv, hl]

/-- A pointer that passes its checks descends to its own PPN. -/
theorem walkFrom_pointer (hl : pteLeaf (BitVec.ofNat 64 n) = false)
    (hs : strictNonLeafOk s m (BitVec.ofNat 64 n) = true) :
    walkFrom kind s m va (i + 1) ppn = walkFrom kind s m va i (ptePpn m (BitVec.ofNat 64 n)) := by
  simp [walkFrom, hr, hv, hl, hs]

end Level

/-- Settles O55: the cache holds the mode of satp, `Translate` walks from its root, and each level of the walk goes one of
the four ways its entry says. -/
theorem walkOneLevel : Obligations.WalkOneLevel := by
  unfold Obligations.WalkOneLevel
  refine ⟨?_, rfl, ?_, ?_, ?_⟩
  · obtain ⟨h0, h1, h2, h8, h9, h10⟩ := modeOf_numbers
    exact ⟨h0, h1, h2, h8, h9, h10, fun m => modeOf_rv64_undefined⟩
  · intro s h mode
    have hmode : satpMode s.cfg s.csrs = mode :=
      congrArg (modeOf s.cfg.xlen) ((field_satp s _).trans (get_satpMode ..))
    exact ⟨fun hp => (h.fetchMode_eq hp).trans hmode, fun hp => (h.lsMode_eq hp).trans hmode⟩
  · intro kind s va hp mode root
    have hmode : modeFor kind s = mode := by cases kind <;> rfl
    have hroot : (Field.satpPpn s.cfg.xlen).get (s.csrRead Csr.satp) = root := get_satpPpn ..
    rw [← hmode, ← hroot]
    exact ⟨fun hm => translate_invalid hp hm va,
      fun hm hc => (translate_translating hp hm va).trans (walk_of_not_canonicalVa hc _ va)⟩
  · intro kind s m va ppn i n hs _ _ hr pte valid leaf allowed pp low
    have hvalid : pteInvalid pte = false ↔ valid := pteInvalid_eq_false_iff pte
    have hleaf : pteLeaf pte = true ↔ leaf := pteLeaf_iff pte
    have hallowed : permitted kind s pte = allowed := permitted_noChecks hs kind pte
    have hend (hv : valid) (hl : leaf) : walkFrom kind s m va (i + 1) ppn
        = if allowed then .ok (composePA m i pte va) else .pageFault := by
      rw [walkFrom_leaf hr (hvalid.2 hv) (hleaf.2 hl), strictLeafOk_noChecks hs, Bool.and_true, hallowed]
    refine ⟨fun hv => ?_, fun hv hl ha => ?_, fun hv hl ha hal => ?_, fun hv hl => ?_, rfl⟩
    · exact walkFrom_invalid hr (Bool.eq_true_of_not_eq_false (mt hvalid.1 hv))
    · rw [hend hv hl, ha]
      rfl
    · rw [hend hv hl, ha, if_pos rfl, composePA_aligned hal]
      rfl
    · exact walkFrom_pointer hr (hvalid.2 hv) (Bool.eq_false_of_not_eq_true (mt hleaf.1 hl))
        (strictNonLeafOk_noChecks hs m pte)

end Sys2Proof.Machine
end

section
/-! Edits of a chain by the host (40_microop_chain.md R210 to R215): where an edit relative to a tag acts, and what an edit
of the arena leaves alone. -/

namespace Sys2Proof.Machine

/-! ## Positions relative to a tag -/

section FirstTag
variable {ch : Chain} {pre post : List Entry} {x : Entry} {t : Tag}
variable (hops : ch.ops = pre ++ x :: post) (hx : x.tag = some t) (hpre : ∀ e ∈ pre, e.tag ≠ some t)
include hops hx hpre

theorem insertBefore_firstTag (e : Entry) : ch.insertBefore t e = some ⟨pre ++ e :: x :: post, ch.next⟩ := by
  simp [Chain.insertBefore, hops, insertBeforeOps_skip hpre x hx]

theorem insertAfter_firstTag (e : Entry) : ch.insertAfter t e = some ⟨pre ++ x :: e :: post, ch.next⟩ := by
  simp [Chain.insertAfter, hops, insertAfterOps_skip hpre x hx]

theorem replace_firstTag (op : MicroOp) : ch.replace t op = some ⟨pre ++ ⟨op, some t⟩ :: post, ch.next⟩ := by
  simp [Chain.replace, hops, replaceOps_skip hpre x hx]

end FirstTag

/-- Where no position carries the tag, none of the three searches finds one. -/
theorem editOps_absentTag {es : List Entry} {t : Tag} (h : ∀ x ∈ es, x.tag ≠ some t) (e : Entry) (op : MicroOp) :
    insertBeforeOps es t e = none ∧ insertAfterOps es t e = none ∧ replaceOps es t op = none := by
  induction es with
  | nil => exact ⟨rfl, rfl, rfl⟩
  | cons y ys ih =>
    obtain ⟨hy, hys⟩ := List.forall_mem_cons.1 h
    obtain ⟨hb, ha, hr⟩ := ih hys
    simp [insertBeforeOps, insertAfterOps, replaceOps, hy, hb, ha, hr]

theorem edits_absentTag {ch : Chain} {t : Tag} (h : ∀ x ∈ ch.ops, x.tag ≠ some t) (e : Entry) (op : MicroOp) :
    ch.insertBefore t e = none ∧ ch.insertAfter t e = none ∧ ch.replace t op = none := by
  obtain ⟨hb, ha, hr⟩ := editOps_absentTag h e op
  simp [Chain.insertBefore, Chain.insertAfter, Chain.replace, hb, ha, hr]

/-! ## An edit in the arena -/

/-- What every edit that finds its place does to the state: that chain is the edited one, and nothing else changes. -/
theorem editChain_some {s : State} {c : ChainId} {edited : Option Chain} {ch : Chain} (h : edited = some ch) :
    ∃ t, editChain s c edited = .next t ∧ t.chains.get c = ch
      ∧ (∀ e, e ≠ c → t.chains.get e = s.chains.get e) ∧ t = { s with chains := t.chains } := by
  subst h
  refine ⟨{ s with chains := s.chains.set c ch }, rfl, ?_, fun e he => ?_, rfl⟩
  · exact (chains_get_set ..).trans (if_pos rfl)
  · exact (chains_get_set ..).trans (if_neg he)

/-- An edit that does not find its place aborts (R211 to R213, D20). -/
theorem editChain_none {s : State} {c : ChainId} {edited : Option Chain} (h : edited = none) :
    editChain s c edited = .fault .tagNotFound := by
  subst h
  rfl

/-! ## The obligations -/

/-- Settles O27: each search stops at the first position that carries the tag, or finds none, and the arena takes what it
found. -/
theorem opEditsAtTheFirstTag : Obligations.OpEditsAtTheFirstTag := by
  unfold Obligations.OpEditsAtTheFirstTag
  intro s c place op tag
  refine ⟨fun pre post x hops hx hpre => ⟨?_, ?_, ?_⟩, fun habsent => ?_⟩
  · exact editChain_some (insertBefore_firstTag hops hx hpre ⟨op, tag⟩)
  · exact editChain_some (insertAfter_firstTag hops hx hpre ⟨op, tag⟩)
  · exact editChain_some (replace_firstTag hops hx hpre op)
  · obtain ⟨hb, ha, hr⟩ := edits_absentTag habsent ⟨op, tag⟩ op
    exact ⟨editChain_none hb, editChain_none ha, editChain_none hr⟩

/-- Settles O26: `append` and `setNext` need no place, so they always edit, and a Run is R203's loop unrolled once. -/
theorem opAppendsAndLinks : Obligations.OpAppendsAndLinks := by
  unfold Obligations.OpAppendsAndLinks
  intro s c op tag d
  refine ⟨editChain_some rfl, editChain_some rfl, ?_⟩
  rw [runChain_unfold]
  cases runOps (s.chains.get c).ops s <;> rfl

end Sys2Proof.Machine
end

section
/-! Reading and writing the three register files through the interface (41_register_access.md R230 to R232). -/

namespace Sys2Proof.Machine

/-! ## The files after a write -/

theorem readF_writeF_same (s : State) (i : Reg) (n : Nat) : (s.writeF i n).readF i = n % 2 ^ s.cfg.flen := by
  simp [State.readF, State.writeF, Vector.get_eq_getElem]

theorem readV_writeV_same (s : State) (i : Reg) (n : Nat) : (s.writeV i n).readV i = n % 2 ^ s.cfg.vlen := by
  simp [State.readV, State.writeV, Vector.get_eq_getElem]

/-- Register `i` reads as written unless it is register 0, and every other register as before. -/
theorem readX_writeX (s : State) (i j : Reg) (v : Word) :
    (s.writeX i v).readX j = if j = i ∧ i ≠ 0 then s.cfg.xlen.trunc v else s.readX j := by
  split
  next h =>
    obtain ⟨rfl, h0⟩ := h
    exact readX_writeX_same s h0 v
  next h =>
    by_cases hj : j = i
    · have h0 : i = 0 := not_not.1 fun h0 => h ⟨hj, h0⟩
      rw [h0]
      rfl
    · exact readX_writeX_other s hj v

theorem readF_writeF (s : State) (i j : Reg) (n : Nat) :
    (s.writeF i n).readF j = if j = i then n % 2 ^ s.cfg.flen else s.readF j := by
  split
  next h => rw [h, readF_writeF_same]
  next h => exact readF_writeF_other s h n

theorem readV_writeV (s : State) (i j : Reg) (n : Nat) :
    (s.writeV i n).readV j = if j = i then n % 2 ^ s.cfg.vlen else s.readV j := by
  split
  next h => rw [h, readV_writeV_same]
  next h => exact readV_writeV_other s h n

/-- A write to the integer file leaves every other field of the state alone. -/
theorem writeX_eq_xregs (s : State) (i : Reg) (v : Word) : s.writeX i v = { s with xregs := (s.writeX i v).xregs } := by
  unfold State.writeX
  split <;> rfl

/-! ## The number that is answered -/

theorem toNat_readX (s : State) (i : Reg) :
    (s.readX i).toNat = if i = 0 then 0 else (s.cfg.xlen.trunc (s.xregs.get i.toFin)).toNat := by
  unfold State.readX
  split <;> rfl

/-! ## The obligations -/

/-- Settles O20: on the three register files `read` and `peek` are one operation, which answers what the register reads as. -/
theorem opReadsRegisterFiles : Obligations.OpReadsRegisterFiles := by
  unfold Obligations.OpReadsRegisterFiles
  intro s i op hop
  rw [← toNat_readX]
  rcases hop with rfl | rfl <;> exact ⟨rfl, rfl, rfl⟩

/-- Settles O21: on the three register files `write` and `poke` are one operation, which changes the one register's file. -/
theorem opWritesRegisterFiles : Obligations.OpWritesRegisterFiles := by
  unfold Obligations.OpWritesRegisterFiles
  intro s i n op hop
  have hx : exec (op (.x i) n) s = .next (s.writeX i (BitVec.ofNat 64 n)) := by rcases hop with rfl | rfl <;> rfl
  have hf : exec (op (.f i) n) s = .next (s.writeF i n) := by rcases hop with rfl | rfl <;> rfl
  have hv : exec (op (.v i) n) s = .next (s.writeV i n) := by rcases hop with rfl | rfl <;> rfl
  exact ⟨⟨_, hx, writeX_eq_xregs .., fun j => readX_writeX ..⟩, ⟨_, hf, rfl, fun j => readF_writeF ..⟩,
    ⟨_, hv, rfl, fun j => readV_writeV ..⟩⟩

end Sys2Proof.Machine
end

section
/-! The system instructions (43_system_instructions.md): what EXECUTE does to the state it is invoked in, it does to the
state before the slot was filled, and the six CSR instructions are one access (R340, R341). -/

namespace Sys2Proof.Machine

/-! ## The state EXECUTE is invoked in -/

section Entered
variable (bits : BitVec 32) (len : Nat) (i : Instr) (s : State)

/-- The check of R341 reads nothing of the slot. -/
theorem csrLegal_entered (csr : CsrIdx) (w : Bool) : csrLegal (s.entered bits len i) csr w = csrLegal s csr w := rfl

theorem writeX_entered (rd : Reg) (v : Word) :
    (s.entered bits len i).writeX rd v = (s.writeX rd v).entered bits len i := by
  unfold State.writeX
  split <;> rfl

theorem csrWrite_entered (csr : CsrIdx) (v : Word) :
    (s.entered bits len i).csrWrite csr v = (s.csrWrite csr v).entered bits len i := by
  simp only [State.csrWrite, State.csrSideEffects]
  split <;> split <;> rfl

/-- `illegal` records the opcode bits DECODE put in the slot. -/
theorem illegal_entered : illegal (s.entered bits len i) = raiseFault 2 (zextTo bits) (s.entered bits len i) := rfl

end Entered

/-! ## An instruction word that is no memory instruction -/

section Plain
variable {s u : State} {i : Instr} {m : Mnem}

/-- The meaning of an instruction word is its run. -/
theorem exec_eq_runInst (hi : i.mnem = some m) (s : State) : exec i s = runInst i s := by
  cases i <;> cases hi <;> rfl

variable (h : s.Ready) (hi : i.mnem = some m) (hm : Mnem.isMemory m = false)
include h hi hm

/-- Where EXECUTE turns `s` into `u` and leaves `next_pc` alone, the instruction retires in `u` at the next word. -/
theorem exec_fallsThrough (hu : u.Ready)
    (hb : executeBody i (s.entered (encodedWord i) 4 i) = .cont (u.entered (encodedWord i) 4 i)) :
    exec i s = .next (u.completes (u.pcPlus 4)) := by
  rw [exec_eq_runInst hi]
  exact runLoaded_completes h hu hi hm hb

/-- Where EXECUTE leaves its state alone, the instruction retires and does nothing else. -/
theorem exec_doesNothing (hb : executeBody i (s.entered (encodedWord i) 4 i) = .cont (s.entered (encodedWord i) 4 i)) :
    exec i s = .next (s.completes (s.pcPlus 4)) :=
  exec_fallsThrough h hi hm h hb

/-- Where EXECUTE raises a fault, the instruction takes its trap. -/
theorem exec_traps {code : BitVec 6} {info : Word}
    (hb : executeBody i (s.entered (encodedWord i) 4 i) = raiseFault code info (s.entered (encodedWord i) 4 i))
    (ha : isaAccepted s.cfg (takeTrap (s.faulting code info)).inclusions = true) :
    exec i s = .next (s.faulting code info).trapsInExecute := by
  rw [exec_eq_runInst hi]
  exact runLoaded_traps h hi hm hb ha

end Plain

/-! ## The CSR instructions (R340 to R347) -/

/-- The check, then the old value to `rd` and, where the access counts as a write, the new value to the CSR. -/
def csrAccess (csr : CsrIdx) (writes : Bool) (new : Word) (rd : Reg) (s : State) : MicroOut :=
  if csrLegal s csr writes then
    if writes then csrWriteThen csr new rd (s.csrRead csr) s else .cont (s.writeX rd (s.csrRead csr))
  else illegal s

/-- The value a CSR instruction writes where it writes. -/
def csrNewValue (s : State) : Instr → Word
  | .csrrw _ rs1 _ => s.readX rs1
  | .csrrs _ rs1 csr => s.csrRead csr ||| s.readX rs1
  | .csrrc _ rs1 csr => s.csrRead csr &&& ~~~s.readX rs1
  | .csrrwi _ uimm _ => uimm.setWidth 64
  | .csrrsi _ uimm csr => s.csrRead csr ||| uimm.setWidth 64
  | .csrrci _ uimm csr => s.csrRead csr &&& ~~~uimm.setWidth 64
  | _ => 0

theorem csrNewValue_entered (bits : BitVec 32) (len : Nat) (j i : Instr) (s : State) :
    csrNewValue (s.entered bits len j) i = csrNewValue s i := by
  cases i <;> rfl

section CsrInstr
variable {i : Instr} {csr : CsrIdx} {rd : Reg}

/-- Every CSR instruction has a destination, a mnemonic of its own and no memory access. -/
theorem csrInstr_parts (hc : i.csr? = some csr) :
    (∃ rd, i.rd? = some rd) ∧ ∃ m, i.mnem = some m ∧ Mnem.isMemory m = false := by
  cases i <;> cases hc <;> exact ⟨⟨_, rfl⟩, _, rfl, rfl⟩

/-- Each of the six bodies is one access. -/
theorem executeBody_csr (hc : i.csr? = some csr) (hd : i.rd? = some rd) (s : State) :
    executeBody i s = csrAccess csr i.willWrite (csrNewValue s i) rd s := by
  cases i with
  | csrrw rd rs1 csr => cases hc; cases hd; rfl
  | csrrwi rd uimm csr => cases hc; cases hd; rfl
  | csrrs rd rs1 csr | csrrc rd rs1 csr =>
    cases hc; cases hd
    by_cases h0 : rs1 = 0 <;> simp [executeBody, csrrsBody, csrrcBody, csrAccess, Instr.willWrite, csrNewValue, h0]
  | csrrsi rd uimm csr | csrrci rd uimm csr =>
    cases hc; cases hd
    by_cases h0 : uimm = 0 <;>
      simp [executeBody, csrrsiBody, csrrciBody, csrAccess, Instr.willWrite, csrNewValue, zextTo, h0]
  | _ => cases hc

/-- A write whose extension set the decoder accepts continues, the old value in `rd`. -/
theorem csrWriteThen_accepted {s : State} {new : Word}
    (ha : touchesIsa csr = true → isaAccepted s.cfg (s.csrWrite csr new).inclusions = true) (old : Word) :
    csrWriteThen csr new rd old s = .cont ((s.csrWrite csr new).writeX rd old) := by
  unfold csrWriteThen checkIsa
  split
  next ht => exact if_pos (by simpa using ha ht)
  next => rfl

/-- What an access whose check passes makes of `s`: the new value where it writes, then the old value in `rd`. -/
def csrResult (csr : CsrIdx) (writes : Bool) (new : Word) (rd : Reg) (s : State) : State :=
  (if writes then s.csrWrite csr new else s).writeX rd (s.csrRead csr)

section Access
variable {s : State} {writes : Bool} {new : Word}

theorem csrAccess_legal (hl : csrLegal s csr writes = true)
    (ha : writes = true → touchesIsa csr = true → isaAccepted s.cfg (s.csrWrite csr new).inclusions = true) :
    csrAccess csr writes new rd s = .cont (csrResult csr writes new rd s) := by
  rw [csrAccess, if_pos hl]
  cases writes with
  | false => rfl
  | true => exact csrWriteThen_accepted (ha rfl) _

theorem csrAccess_illegal (hl : csrLegal s csr writes = false) : csrAccess csr writes new rd s = illegal s :=
  if_neg (Bool.eq_false_iff.1 hl)

theorem csrResult_entered (bits : BitVec 32) (len : Nat) (i : Instr) :
    csrResult csr writes new rd (s.entered bits len i) = (csrResult csr writes new rd s).entered bits len i := by
  unfold csrResult
  split
  · rw [csrWrite_entered, writeX_entered]
    rfl
  · exact writeX_entered ..

theorem Ready.csrResult (h : s.Ready) : (csrResult csr writes new rd s).Ready := by
  unfold Machine.csrResult
  split
  · exact Ready.writeX (Ready.csrWrite h ..) ..
  · exact Ready.writeX h ..

theorem pcPlus_csrResult (off : Word) : (csrResult csr writes new rd s).pcPlus off = s.pcPlus off := by
  unfold csrResult
  split <;> simp [State.pcPlus]

end Access

/-- A CSR instruction whose check passes (R342 to R347). -/
theorem exec_csr_legal {s : State} (h : s.Ready) (hc : i.csr? = some csr) (hd : i.rd? = some rd)
    (hl : csrLegal s csr i.willWrite = true)
    (ha : i.willWrite = true → touchesIsa csr = true →
      isaAccepted s.cfg (s.csrWrite csr (csrNewValue s i)).inclusions = true) :
    exec i s = .next ((csrResult csr i.willWrite (csrNewValue s i) rd s).completes (s.pcPlus 4)) := by
  obtain ⟨-, m, hi, hm⟩ := csrInstr_parts hc
  rw [← pcPlus_csrResult]
  refine exec_fallsThrough h hi hm (Ready.csrResult h) ?_
  rw [executeBody_csr hc hd, csrNewValue_entered, csrAccess_legal ((csrLegal_entered ..).trans hl), csrResult_entered]
  intro hw ht
  rw [csrWrite_entered]
  exact ha hw ht

/-- A CSR instruction whose check fails traps with its opcode bits (R341). -/
theorem exec_csr_illegal {s : State} (h : s.Ready) (hc : i.csr? = some csr) (hl : csrLegal s csr i.willWrite = false)
    (ha : isaAccepted s.cfg (takeTrap (s.faulting 2 ((encodedWord i).setWidth 64))).inclusions = true) :
    exec i s = .next (s.faulting 2 ((encodedWord i).setWidth 64)).trapsInExecute := by
  obtain ⟨⟨rd, hd⟩, m, hi, hm⟩ := csrInstr_parts hc
  refine exec_traps h hi hm ?_ ha
  rw [executeBody_csr hc hd, csrAccess_illegal ((csrLegal_entered ..).trans hl), illegal_entered]
  rfl

end CsrInstr

/-- R341: each conjunct of the check is the negation of one of its conditions. -/
theorem csrLegal_iff (s : State) (csr : CsrIdx) (w : Bool) : csrLegal s csr w = true ↔ ¬ csrCheckFails s csr w := by
  rw [csrCheckFails, show (0x310 : CsrIdx) = Csr.mstatush from rfl, show (0x180 : CsrIdx) = Csr.satp from rfl]
  simp [csrLegal, and_assoc, not_and_or, or_assoc, -not_and]

/-- Settles O41: CSRRW and CSRRWI are the CSR instructions that always write. -/
theorem csrWrites : Obligations.CsrWrites := by
  unfold Obligations.CsrWrites
  intro s rd rs1 uimm csr h
  refine ⟨fun hl => ⟨fun ha => ?_, fun ha => ?_⟩, fun hl i hi ha => ?_⟩
  · exact exec_csr_legal (i := .csrrw rd rs1 csr) h rfl rfl hl fun _ => ha
  · exact exec_csr_legal (i := .csrrwi rd uimm csr) h rfl rfl hl fun _ => ha
  · have hi' : i = .csrrw rd rs1 csr ∨ i = .csrrwi rd uimm csr := by simpa using hi
    rcases hi' with rfl | rfl <;> exact exec_csr_illegal h rfl hl ha

/-- Settles O42: the four instructions differ in the new value and in when they write. -/
theorem csrSetsAndClears : Obligations.CsrSetsAndClears := by
  unfold Obligations.CsrSetsAndClears
  intro s i rd csr operand willWrite new h hform
  obtain ⟨hc, hd, rfl, rfl⟩ : i.csr? = some csr ∧ i.rd? = some rd ∧ i.willWrite = willWrite ∧ csrNewValue s i = new := by
    rcases hform with ⟨_, rfl, rfl, rfl, rfl⟩ | ⟨_, rfl, rfl, rfl, rfl⟩ | ⟨_, rfl, rfl, rfl, rfl⟩ |
      ⟨_, rfl, rfl, rfl, rfl⟩ <;> exact ⟨rfl, rfl, rfl, rfl⟩
  exact ⟨exec_csr_legal h hc hd, exec_csr_illegal h hc⟩

/-- Settles O43 (the name `csrCheckFails` is the model's own predicate): the check is the five conditions, and where
one fails the instruction does nothing but trap. -/
theorem csrCheckFails_traps : Obligations.CsrCheckFails := by
  unfold Obligations.CsrCheckFails
  intro s csr
  refine ⟨csrLegal_iff s csr, fun i h hc hf ha => exec_csr_illegal h hc ?_ ha⟩
  exact Bool.eq_false_of_not_eq_true fun hl => (csrLegal_iff s csr _).1 hl hf

/-! ## ECALL and EBREAK (R348, R349), WFI, SFENCE.VMA and the fences (R354 to R358) -/

/-- ECALL raises cause 8 and up, by the encoding of the mode. -/
theorem exec_ecall {s : State} (h : s.Ready) {code : BitVec 6} (hcode : 8 + s.priv.enc.setWidth 6 = code)
    (ha : isaAccepted s.cfg (takeTrap (s.faulting code 0)).inclusions = true) :
    exec .ecall s = .next (s.faulting code 0).trapsInExecute := by
  subst hcode
  exact exec_traps h rfl rfl rfl ha

/-- Settles O44: the bodies only raise, ECALL the cause its mode selects. -/
theorem ecallAndEbreakTrap : Obligations.EcallAndEbreakTrap := by
  unfold Obligations.EcallAndEbreakTrap
  intro s h
  refine ⟨?_, exec_traps h rfl rfl rfl⟩
  cases hp : s.priv <;> exact exec_ecall h (by rw [hp]; rfl)

theorem wfiBody_legal {s : State} (h : s.priv = .machine ∨ s.fieldRead Csr.mstatus Field.TW = 0) :
    wfiBody s = .cont s := by
  refine if_neg fun ⟨hp, ht⟩ => ?_
  rcases h with h | h
  · exact hp h
  · exact absurd (h.symm.trans ht) (by decide)

theorem sfenceVmaBody_legal {s : State}
    (h : s.priv = .machine ∨ s.priv = .supervisor ∧ s.fieldRead Csr.mstatus Field.TVM = 0) (rs1 rs2 : Reg) :
    sfenceVmaBody rs1 rs2 s = .cont s := by
  rcases h with h | ⟨h, ht⟩ <;> simp [sfenceVmaBody, *]

/-- Settles O46: where they are legal the four bodies leave their state alone, the fences everywhere. -/
theorem waitAndFencesDoNothing : Obligations.WaitAndFencesDoNothing := by
  unfold Obligations.WaitAndFencesDoNothing
  intro s rs1 rs2 rd fm pred succ imm h
  refine ⟨fun hl => ?_, fun hl => ?_, ?_, ?_⟩
  · exact exec_doesNothing h rfl rfl (wfiBody_legal (s := s.entered ..) hl)
  · exact exec_doesNothing h rfl rfl (sfenceVmaBody_legal (s := s.entered ..) hl rs1 rs2)
  · exact exec_doesNothing h rfl rfl rfl
  · exact exec_doesNothing h rfl rfl rfl

end Sys2Proof.Machine
end

section
/-! The reference handlers LUI, ADDI, JAL and BNE (44_reference_handlers.md): each writes at most one register, and
retires at the next word or, where it jumps, at `pc` plus its offset. -/

namespace Sys2Proof.Machine

theorem pcPlus_writeX (s : State) (rd : Reg) (v off : Word) : (s.writeX rd v).pcPlus off = s.pcPlus off := by
  simp [State.pcPlus]

section Retires
variable {s u : State} {i : Instr} {m : Mnem} {rd : Reg} {v np : Word}
variable (h : s.Ready) (hi : i.mnem = some m) (hm : Mnem.isMemory m = false)
include h hi hm

/-- Where EXECUTE writes one integer register, the instruction retires with it written, at the next word. -/
theorem exec_writesX
    (hb : executeBody i (s.entered (encodedWord i) 4 i) = .cont ((s.entered (encodedWord i) 4 i).writeX rd v)) :
    exec i s = .next ((s.writeX rd v).completes (s.pcPlus 4)) := by
  rw [writeX_entered] at hb
  rw [← pcPlus_writeX s rd v]
  exact exec_fallsThrough h hi hm (Ready.writeX h rd v) hb

/-- Where EXECUTE turns `s` into `u` and sets `next_pc`, the instruction retires in `u` at that address. -/
theorem exec_jumps (hu : u.Ready)
    (hb : executeBody i (s.entered (encodedWord i) 4 i) = .cont ((u.entered (encodedWord i) 4 i).setNextPc np)) :
    exec i s = .next (u.completes np) := by
  rw [exec_eq_runInst hi]
  exact runLoaded_completes h hu hi hm hb

end Retires

/-- Settles O37: both bodies write one register and leave `next_pc` as DECODE set it. -/
theorem luiAndAddi : Obligations.LuiAndAddi := by
  unfold Obligations.LuiAndAddi
  intro s rd rs1 u imm h
  exact ⟨exec_writesX h rfl rfl rfl, exec_writesX h rfl rfl rfl⟩

/-- R405: the link and the target are those of the state before the slot was filled. -/
theorem jalBody_entered (bits : BitVec 32) (len : Nat) (i : Instr) (s : State) (rd : Reg) (off : BitVec 21) :
    jalBody rd off (s.entered bits len i)
      = .cont (((s.writeX rd (s.pcPlus 4)).entered bits len i).setNextPc (s.pcPlus (sextTo s.cfg.xlen off))) := by
  rw [← writeX_entered]
  rfl

/-- R406: a branch taken sets `next_pc`. -/
theorem bneBody_taken {s : State} {rs1 rs2 : Reg} (hne : s.readX rs1 ≠ s.readX rs2) (off : BitVec 13) :
    bneBody rs1 rs2 off s = .cont (s.setNextPc (s.pcPlus (sextTo s.cfg.xlen off))) :=
  if_pos hne

/-- R406: a branch not taken changes nothing. -/
theorem bneBody_notTaken {s : State} {rs1 rs2 : Reg} (heq : s.readX rs1 = s.readX rs2) (off : BitVec 13) :
    bneBody rs1 rs2 off s = .cont s :=
  if_neg (not_not.2 heq)

/-- Settles O38: JAL jumps with its link written; BNE jumps or falls through as the two registers compare. -/
theorem jalAndBne : Obligations.JalAndBne := by
  unfold Obligations.JalAndBne
  intro s rd rs1 rs2 off b h
  refine ⟨exec_jumps h rfl rfl (Ready.writeX h ..) (jalBody_entered ..), ?_⟩
  split
  next hne => exact exec_jumps h rfl rfl h (bneBody_taken (s := s.entered ..) hne b)
  next heq => exact exec_doesNothing h rfl rfl (bneBody_notTaken (s := s.entered ..) (not_not.1 heq) b)

end Sys2Proof.Machine
end

section
/-! Taking a trap (60_exceptions.md): the level delegation chooses (R522), the cause value (R524) and the trap value (R525). -/

namespace Sys2Proof.Machine

/-! ## The level (R522) -/

@[simp] theorem trapEntryS_nextPriv (s : State) (c t : Word) : (trapEntryS s c t).nextPriv = .supervisor := rfl

@[simp] theorem trapEntryM_nextPriv (s : State) (c t : Word) : (trapEntryM s c t).nextPriv = .machine := rfl

theorem trapEntry_nextPriv (c t : Word) (s : State) :
    (trapEntry c t s).nextPriv = if trapToS s then .supervisor else .machine := by
  unfold trapEntry
  split
  · exact trapEntryS_nextPriv s c t
  · exact trapEntryM_nextPriv s c t

/-- Steps 4 and 5 of the dispatcher leave the level alone, so a trap goes where the router sends it. -/
theorem takeTrap_nextPriv (s : State) :
    (takeTrap s).nextPriv = if trapToS s then .supervisor else .machine := by
  simp only [takeTrap, clearCause_nextPriv, cosimSync_nextPriv, trapEntry_nextPriv]

theorem trapToS_iff (s : State) :
    trapToS s = true ↔
      s.latch.code.toNat < s.cfg.xlen.bits
        ∧ (if s.latch.interruptValid then s.csrRead Csr.mideleg else s.csrRead Csr.medeleg).getLsbD
            s.latch.code.toNat = true
        ∧ ¬ (s.cfg.delegMGuard = true ∧ s.priv = .machine) := by
  simp only [trapToS, Bool.and_eq_true, Bool.not_eq_true', Bool.and_eq_false_iff, decide_eq_true_eq,
    decide_eq_false_iff_not, not_and_or, Bool.not_eq_true, and_assoc]

/-- Settles O48: the router's test, and the two levels it chooses between. -/
theorem delegationChoosesTheLevel : Obligations.DelegationChoosesTheLevel := by
  unfold Obligations.DelegationChoosesTheLevel
  intro s
  rw [← trapToS_iff, takeTrap_nextPriv]
  cases trapToS s
  case false => exact ⟨by decide, .inr rfl⟩
  case true => exact ⟨by decide, .inl rfl⟩

/-! ## The cause value (R524) -/

/-- The code keeps below bit 6, so the interrupt bit of either width is added to it. -/
theorem code_or_interruptBit (code : BitVec 6) {n : Nat} (hn : 6 ≤ n) :
    code.setWidth 64 ||| BitVec.twoPow 64 n = BitVec.twoPow 64 n + code.setWidth 64 := by
  have disjoint : BitVec.twoPow 64 n &&& code.setWidth 64 = 0#64 := by
    rw [BitVec.twoPow_and, BitVec.getLsbD_setWidth, BitVec.getLsbD_of_ge code n hn]
    simp
  rw [BitVec.or_comm, BitVec.add_eq_or_of_and_eq_zero _ _ disjoint]

theorem trapCause_interrupt_rv64 (code : BitVec 6) :
    trapCause .rv64 true code = (0x8000000000000000 : Word) + code.setWidth 64 :=
  code_or_interruptBit code (n := 63) (by decide)

theorem trapCause_interrupt_rv32 (code : BitVec 6) :
    trapCause .rv32 true code = (0x80000000 : Word) + code.setWidth 64 :=
  code_or_interruptBit code (n := 31) (by decide)

theorem trapCause_fault (x : XLen) (code : BitVec 6) : trapCause x false code = code.setWidth 64 :=
  BitVec.or_zero

/-! ## The trap value (R525) -/

theorem trapValueIsPc_iff (code : BitVec 6) : trapValueIsPc code = true ↔ code.toNat ∈ [0, 1, 12] := by
  simp [trapValueIsPc, BitVec.toNat_eq, or_assoc]

theorem trapValueIsInfo_iff (code : BitVec 6) :
    trapValueIsInfo code = true ↔ code.toNat ∈ [2, 4, 5, 6, 7, 13, 15] := by
  simp [trapValueIsInfo, BitVec.toNat_eq, or_assoc]

theorem trapValue_interrupt (s : State) (code : BitVec 6) : trapValue s true code = 0 := rfl

/-- The classes of R525 as membership of the code in its two lists, the first one first. -/
theorem trapValue_fault (s : State) (code : BitVec 6) :
    trapValue s false code =
      if code.toNat ∈ [0, 1, 12] then s.pc
      else if code.toNat ∈ [2, 4, 5, 6, 7, 13, 15] then s.latch.info else 0 := by
  simp only [trapValue, trapValueIsPc_iff, trapValueIsInfo_iff, Bool.false_eq_true, if_false]

/-- No code is in both lists of R525. -/
theorem pcCodes_disjoint_infoCodes : List.Disjoint [0, 1, 12] [2, 4, 5, 6, 7, 13, 15] :=
  List.disjoint_left.mpr (by decide)

/-- Settles O51: the cause value by its three forms, the trap value by the two disjoint lists of codes. -/
theorem trapCauseAndValue : Obligations.TrapCauseAndValue := by
  unfold Obligations.TrapCauseAndValue
  intro s code
  refine ⟨trapCause_interrupt_rv64 code, trapCause_interrupt_rv32 code, fun x => trapCause_fault x code,
    trapValue_interrupt s code, fun hpc => ?_, fun hinfo => ?_, fun hother => ?_⟩
  · rw [trapValue_fault, if_pos hpc]
  · rw [trapValue_fault, if_neg fun hpc => pcCodes_disjoint_infoCodes hpc hinfo, if_pos hinfo]
  · obtain ⟨hpc, hinfo⟩ : code.toNat ∉ [0, 1, 12] ∧ code.toNat ∉ [2, 4, 5, 6, 7, 13, 15] :=
      not_or.mp fun h => hother (List.mem_append.mpr h)
    rw [trapValue_fault, if_neg hpc, if_neg hinfo]

end Sys2Proof.Machine
end

section
/-! The one-time call `boot` (70_reset_and_hazards.md R601). -/

namespace Sys2Proof.Machine

/-- What `boot` leaves in mstatus: the XLEN-dependent status fields are set, where there are any. -/
def mstatusBoot (x : XLen) (old : Word) : Word :=
  match x with
  | .rv32 => old
  | .rv64 => (old &&& ~~~(0x0000000F00000000 : Word)) ||| 0x0000000A00000000

/-- MXL stands in the two highest bits of XLEN and the letters below, so the poke of misa cuts nothing off. -/
theorem misaBoot_fits (c : Config) : fitsXlen c.xlen (misaBoot c) := by
  unfold fitsXlen misaBoot
  cases c.xlen with
  | rv64 => rfl
  | rv32 =>
    have letters : XLen.rv32.trunc (c.isaBits.setWidth 64) = c.isaBits.setWidth 64 := by simp [XLen.trunc]
    have mxl : XLen.rv32.trunc 0x40000000 = 0x40000000 := rfl
    calc XLen.rv32.trunc (0x40000000 ||| c.isaBits.setWidth 64)
        = XLen.rv32.trunc 0x40000000 ||| XLen.rv32.trunc (c.isaBits.setWidth 64) := by
          simp only [XLen.trunc, BitVec.setWidth_or]
      _ = 0x40000000 ||| c.isaBits.setWidth 64 := by rw [letters, mxl]

/-- The two pokes that `boot` makes at either width: the hart ID and the ISA bits. -/
def bootIdentity (c : Config) (f : CsrFile) : CsrFile :=
  (f.poke c Csr.mhartid c.hartId).poke c Csr.misa (misaBoot c)

theorem bootIdentity_raw (c : Config) (f : CsrFile) (j : CsrIdx) :
    (bootIdentity c f).raw j
      = if j = Csr.misa then misaBoot c
        else if j = Csr.mhartid then c.xlen.trunc c.hartId
        else f.raw j := by
  rw [bootIdentity, poke_raw rfl, poke_raw rfl, misaBoot_fits]

theorem bootIdentity_raw_mstatus (c : Config) (f : CsrFile) :
    (bootIdentity c f).raw Csr.mstatus = f.raw Csr.mstatus :=
  bootIdentity_raw c f Csr.mstatus

theorem bootCsrs_of_rv32 {c : Config} (h : c.xlen = .rv32) (f : CsrFile) : bootCsrs c f = bootIdentity c f := by
  rw [bootCsrs, h]
  rfl

theorem bootCsrs_of_rv64 {c : Config} (h : c.xlen = .rv64) (f : CsrFile) :
    bootCsrs c f = (bootIdentity c f).poke c Csr.mstatus (mstatusBoot .rv64 ((bootIdentity c f).raw Csr.mstatus)) := by
  rw [bootCsrs, h]
  rfl

/-- Every raw value after `boot`: at either width it is what the two pokes left, but for the fields of mstatus. -/
theorem bootCsrs_raw (c : Config) (f : CsrFile) (j : CsrIdx) :
    (bootCsrs c f).raw j
      = if j = Csr.mstatus then mstatusBoot c.xlen (f.raw Csr.mstatus)
        else (bootIdentity c f).raw j := by
  cases hx : c.xlen with
  | rv32 =>
    rw [bootCsrs_of_rv32 hx]
    split
    next hj => rw [hj, bootIdentity_raw_mstatus]; rfl
    next => rfl
  | rv64 =>
    rw [bootCsrs_of_rv64 hx, poke_raw rfl, bootIdentity_raw_mstatus, hx]
    rfl

/-- The first call runs: it pokes and marks the derived state of each CSR it poked as stale. -/
theorem exec_opBoot_of_not_booted {s : State} (h : s.booted = false) :
    exec .opBoot s = .next { s with csrs := bootCsrs s.cfg s.csrs, booted := true, staleIsa := true,
                                    staleMmu := s.staleMmu || s.cfg.xlen = .rv64 } := by
  show execOpBoot s = _
  rw [execOpBoot, h]
  rfl

/-- Settles O19: the CSR file is read off index by index, and `boot` sets no field but that and the bookkeeping. -/
theorem bootPokes : Obligations.BootPokes := by
  unfold Obligations.BootPokes
  intro s hs
  refine ⟨_, exec_opBoot_of_not_booted hs, ?_, ?_, ?_, fun i hhartid hmisa hmstatus => ?_, rfl⟩
  · exact (bootCsrs_raw ..).trans (bootIdentity_raw ..)
  · exact (bootCsrs_raw ..).trans (bootIdentity_raw ..)
  · exact bootCsrs_raw ..
  · rw [bootCsrs_raw, if_neg hmstatus, bootIdentity_raw, if_neg hmisa, if_neg hhartid]

end Sys2Proof.Machine
end

section
/-! The decoder and the encoder (30_encoding.md): decoding an encoded row gives it back, and the words that decode are those
of the table of R159. -/

namespace Sys2Proof

/-! ## Decoding what was encoded -/

/-- A SYSTEM word without a CSR is none of the five that are one word each where its funct7 is not theirs. -/
theorem decodeSystem_sfenceVma (rs1 rs2 : Reg) :
    decodeSystem (encodeR 0b0001001#7 rs2 rs1 0b000#3 0#5 0b1110011#7) = some (.sfenceVma rs1 rs2) := by
  have other : ∀ v : BitVec 32, wFunct7 v ≠ 0b0001001#7 →
      ¬ encodeR 0b0001001#7 rs2 rs1 0b000#3 0#5 0b1110011#7 = v := by
    rintro v hv rfl
    exact hv (wFunct7_encodeR ..)
  rw [decodeSystem, if_neg (other 0x00000073#32 (by decide)), if_neg (other 0x00100073#32 (by decide)),
    if_neg (other 0x30200073#32 (by decide)), if_neg (other 0x10200073#32 (by decide)),
    if_neg (other 0x10500073#32 (by decide))]
  simp

/-- The three parts of the I immediate that FENCE reads. -/
theorem fence_fields (fm pred succ : BitVec 4) (rs1 rd : Reg) (f3 : BitVec 3) (op : BitVec 7) :
    (encodeI (fm ++ pred ++ succ) rs1 f3 rd op).extractLsb' 28 4 = fm
      ∧ (encodeI (fm ++ pred ++ succ) rs1 f3 rd op).extractLsb' 24 4 = pred
      ∧ (encodeI (fm ++ pred ++ succ) rs1 f3 rd op).extractLsb' 20 4 = succ := by
  unfold encodeI
  refine ⟨?_, ?_, ?_⟩ <;>
  · apply BitVec.eq_of_getLsbD_eq
    intro i hi
    simp only [BitVec.getLsbD_extractLsb', BitVec.getLsbD_append]
    interval_cases i <;> simp

/-- Settles O1: the fields of an encoded row are its operands; an odd offset, whose bit 0 has no place, is not well formed. -/
theorem decodeOfEncode : Obligations.DecodeOfEncode := by
  unfold Obligations.DecodeOfEncode
  intro i hwf
  cases i with
  | ecall | ebreak | mret | sret | wfi => rfl
  | sfenceVma rs1 rs2 =>
    simp [decode, encode, decodeWord, decodeSystem_sfenceVma]
  | fence fm pred succ rs1 rd =>
    obtain ⟨hfm, hpred, hsucc⟩ := fence_fields fm pred succ rs1 rd 0b000#3 0b0001111#7
    simp [decode, encode, decodeWord, hfm, hpred, hsucc]
  | jal rd off =>
    have even : off.getLsbD 0 = false := by simpa [Instr.wellFormed] using hwf
    simp [decode, encode, decodeWord, wImmJ_encodeJ even]
  | bne rs1 rs2 off =>
    have even : off.getLsbD 0 = false := by simpa [Instr.wellFormed] using hwf
    simp [decode, encode, decodeWord, wImmB_encodeB even]
  | _ => simp [decode, encode, callArgs, decodeWord, decodeSystem, decodeStepCode, decodeOpCode]

/-! ## The words that decode (R159) -/

/-- The mask of a row with a major opcode and a funct3 keeps these two fields. -/
theorem and_mask_funct3 (w : BitVec 32) : w &&& 0x0000707F = encodeI 0 0 (wFunct3 w) 0 (wOpcode w) := by
  unfold encodeI wFunct3 wOpcode
  apply BitVec.eq_of_getLsbD_eq
  intro i hi
  simp only [BitVec.getLsbD_and, BitVec.getLsbD_extractLsb', BitVec.getLsbD_append]
  interval_cases i <;> simp

theorem and_mask_opcode (w : BitVec 32) : w &&& 0x0000007F = encodeU 0 0 (wOpcode w) := by
  unfold encodeU wOpcode
  apply BitVec.eq_of_getLsbD_eq
  intro i hi
  simp only [BitVec.getLsbD_and, BitVec.getLsbD_extractLsb', BitVec.getLsbD_append]
  interval_cases i <;> simp

theorem and_mask_funct7_rd (w : BitVec 32) :
    w &&& 0xFE007FFF = encodeR (wFunct7 w) 0 0 (wFunct3 w) (wRd w) (wOpcode w) := by
  unfold encodeR wFunct7 wFunct3 wRd wOpcode
  apply BitVec.eq_of_getLsbD_eq
  intro i hi
  simp only [BitVec.getLsbD_and, BitVec.getLsbD_extractLsb', BitVec.getLsbD_append]
  interval_cases i <;> simp

theorem matches_funct3 {w v : BitVec 32} {f3 : BitVec 3} {op : BitVec 7} (hv : v = encodeI 0 0 f3 0 op) :
    w &&& 0x0000707F = v ↔ wOpcode w = op ∧ wFunct3 w = f3 := by
  rw [and_mask_funct3, hv]
  refine ⟨fun h => ⟨?_, ?_⟩, fun ⟨ho, hf⟩ => by rw [ho, hf]⟩
  · simpa using congrArg wOpcode h
  · simpa using congrArg wFunct3 h

theorem matches_opcode {w v : BitVec 32} {op : BitVec 7} (hv : v = encodeU 0 0 op) :
    w &&& 0x0000007F = v ↔ wOpcode w = op := by
  rw [and_mask_opcode, hv]
  exact ⟨fun h => by simpa using congrArg wOpcode h, fun ho => by rw [ho]⟩

theorem matches_sfenceVma (w : BitVec 32) : w &&& 0xFE007FFF = 0x12000073
    ↔ wOpcode w = 0b1110011#7 ∧ wFunct3 w = 0#3 ∧ wFunct7 w = 0b0001001#7 ∧ wRd w = 0#5 := by
  rw [and_mask_funct7_rd, show (0x12000073 : BitVec 32) = encodeR 0b0001001#7 0 0 0#3 0#5 0b1110011#7 from rfl]
  refine ⟨fun h => ⟨?_, ?_, ?_, ?_⟩, fun ⟨ho, hf, h7, hr⟩ => by rw [ho, hf, h7, hr]⟩
  · simpa using congrArg wOpcode h
  · simpa using congrArg wFunct3 h
  · simpa using congrArg wFunct7 h
  · simpa using congrArg wRd h

/-- A row that is one word: its mask keeps every bit, and its opcode and funct3 are those of SYSTEM. -/
theorem matches_word {w v : BitVec 32} (ho : wOpcode v = 0b1110011#7) (hf : wFunct3 v = 0#3) :
    w &&& 0xFFFFFFFF = v ↔ wOpcode w = 0b1110011#7 ∧ wFunct3 w = 0#3 ∧ w = v := by
  rw [show (0xFFFFFFFF : BitVec 32) = BitVec.allOnes 32 from rfl, BitVec.and_allOnes]
  exact ⟨fun h => ⟨h ▸ ho, h ▸ hf, h⟩, fun ⟨_, _, h⟩ => h⟩

/-- A branch of a decoder that decodes, before the branches that follow. -/
theorem isSome_ite_some {α : Type} {c : Prop} [Decidable c] (a : α) (o : Option α) :
    (if c then some a else o).isSome = true ↔ c ∨ o.isSome = true := by
  split <;> simp [*]

/-- A last branch of a decoder. -/
theorem isSome_ite_none {α : Type} {c : Prop} [Decidable c] (o : Option α) :
    (if c then o else none).isSome = true ↔ c ∧ o.isSome = true := by
  split <;> simp [*]

theorem decodeSystem_isSome (w : BitVec 32) : (decodeSystem w).isSome = true ↔
    wFunct3 w = 1#3 ∨ wFunct3 w = 2#3 ∨ wFunct3 w = 3#3 ∨ wFunct3 w = 5#3 ∨ wFunct3 w = 6#3 ∨ wFunct3 w = 7#3
      ∨ wFunct3 w = 0#3 ∧ (w = 0x00000073#32 ∨ w = 0x00100073#32 ∨ w = 0x30200073#32 ∨ w = 0x10200073#32
        ∨ w = 0x10500073#32 ∨ wFunct7 w = 0b0001001#7 ∧ wRd w = 0#5) := by
  simp only [decodeSystem, isSome_ite_some, isSome_ite_none, Option.isSome_some, and_true]

theorem decodeWord_isSome (w : BitVec 32) : (decodeWord w).isSome = true ↔
    wOpcode w = 0b1110011#7 ∧ (decodeSystem w).isSome = true
      ∨ wOpcode w = 0b0001111#7 ∧ (wFunct3 w = 0#3 ∨ wFunct3 w = 1#3)
      ∨ wOpcode w = 0b0110111#7 ∨ wOpcode w = 0b0010011#7 ∧ wFunct3 w = 0#3
      ∨ wOpcode w = 0b0000011#7 ∧ wFunct3 w = 2#3 ∨ wOpcode w = 0b0100011#7 ∧ wFunct3 w = 2#3
      ∨ wOpcode w = 0b1101111#7 ∨ wOpcode w = 0b1100011#7 ∧ wFunct3 w = 1#3 := by
  unfold decodeWord
  split_ifs <;> simp [*]

/-- Settles O2: each row of the table is the condition on fields under which the decoder takes its branch. -/
theorem decodedWordsAreTheTableRows : Obligations.DecodedWordsAreTheTableRows := by
  unfold Obligations.DecodedWordsAreTheTableRows
  intro w
  simp only [opcodeRows, List.mem_cons, List.not_mem_nil, or_false, exists_eq_or_imp, exists_eq_left]
  rw [matches_funct3 (v := 0x00001073) (f3 := 1#3) (op := 0b1110011#7) rfl,
    matches_funct3 (v := 0x00002073) (f3 := 2#3) (op := 0b1110011#7) rfl,
    matches_funct3 (v := 0x00003073) (f3 := 3#3) (op := 0b1110011#7) rfl,
    matches_funct3 (v := 0x00005073) (f3 := 5#3) (op := 0b1110011#7) rfl,
    matches_funct3 (v := 0x00006073) (f3 := 6#3) (op := 0b1110011#7) rfl,
    matches_funct3 (v := 0x00007073) (f3 := 7#3) (op := 0b1110011#7) rfl,
    matches_word (v := 0x00000073) rfl rfl, matches_word (v := 0x00100073) rfl rfl,
    matches_word (v := 0x30200073) rfl rfl, matches_word (v := 0x10200073) rfl rfl,
    matches_word (v := 0x10500073) rfl rfl,
    matches_sfenceVma,
    matches_funct3 (v := 0x0000000F) (f3 := 0#3) (op := 0b0001111#7) rfl,
    matches_funct3 (v := 0x0000100F) (f3 := 1#3) (op := 0b0001111#7) rfl,
    matches_opcode (v := 0x00000037) (op := 0b0110111#7) rfl,
    matches_funct3 (v := 0x00000013) (f3 := 0#3) (op := 0b0010011#7) rfl,
    matches_funct3 (v := 0x00002003) (f3 := 2#3) (op := 0b0000011#7) rfl,
    matches_funct3 (v := 0x00002023) (f3 := 2#3) (op := 0b0100011#7) rfl,
    matches_opcode (v := 0x0000006F) (op := 0b1101111#7) rfl,
    matches_funct3 (v := 0x00001063) (f3 := 1#3) (op := 0b1100011#7) rfl, decodeWord_isSome, decodeSystem_isSome]
  simp only [and_or_left, or_assoc]
  rfl

/-- Settles O3: each of the words is the encoding of its instruction. -/
theorem specWordsDecode : Obligations.SpecWordsDecode := by
  unfold Obligations.SpecWordsDecode
  decide

end Sys2Proof
end

section
/-! What any micro-op may write, from any state and over any chains: CSRs by masked stores, memory by stores of bytes, and
never the configuration (41_register_access.md R235, 20_memory.md R102, 00_scope.md section 4). -/

namespace Sys2Proof.Machine

/-! ## Writes -/

/-- A CSR file made from `f` by masked stores. -/
inductive Stored (c : Config) (f : CsrFile) : CsrFile → Prop
  | refl : Stored c f f
  | store {g : CsrFile} (h : Stored c f g) (i : CsrIdx) (v : Word) : Stored c f (g.store c i v)

/-- A memory made from `m` by stores of bytes. -/
inductive Rewritten (m : Memory) : Memory → Prop
  | refl : Rewritten m m
  | write {m' : Memory} (h : Rewritten m m') (a n v : Nat) : Rewritten m (m'.writeLE a n v)

/-- Masked stores leave every bit outside the write mask (R235). -/
theorem Stored.raw_readOnly {c : Config} {f g : CsrFile} (h : Stored c f g) (i : CsrIdx) :
    g.raw i &&& ~~~c.wmask i = f.raw i &&& ~~~c.wmask i := by
  induction h with
  | refl => rfl
  | @store g _ j v ih =>
    rw [← ih]
    by_cases hi : i = csrHome j
    · rw [hi, store_raw_keeps]
    · rw [store_raw_other hi]

theorem Rewritten.wf {m m' : Memory} (h : Rewritten m m') (hm : m.wf) : m'.wf := by
  induction h with
  | refl => exact hm
  | write _ a n v ih => exact memory_writeLE_wf ih a n v

/-- `t` is `s` with some CSRs and bytes written, under the same configuration; of the other fields it says nothing. -/
structure State.WrittenTo (s t : State) : Prop where
  cfg : t.cfg = s.cfg
  csrs : Stored s.cfg s.csrs t.csrs
  mem : Rewritten s.mem t.mem

section WrittenTo
variable {s t u : State}

theorem State.WrittenTo.refl (s : State) : s.WrittenTo s := ⟨rfl, .refl, .refl⟩

/-- A change of other fields writes nothing. -/
theorem State.WrittenTo.congr (h : s.WrittenTo t) (hcfg : u.cfg = t.cfg) (hcsrs : u.csrs = t.csrs)
    (hmem : u.mem = t.mem) : s.WrittenTo u :=
  ⟨hcfg.trans h.cfg, hcsrs ▸ h.csrs, hmem ▸ h.mem⟩

theorem State.WrittenTo.csrWrite (h : s.WrittenTo t) (i : CsrIdx) (v : Word) : s.WrittenTo (t.csrWrite i v) := by
  refine ⟨by simp [h.cfg], ?_, by simpa using h.mem⟩
  rw [csrWrite_csrs, h.cfg]
  exact h.csrs.store i v

theorem State.WrittenTo.fieldWrite (h : s.WrittenTo t) (i : CsrIdx) (F : Field) (v : Word) :
    s.WrittenTo (t.fieldWrite i F v) :=
  h.csrWrite i _

theorem State.WrittenTo.writeX (h : s.WrittenTo t) (i : Reg) (v : Word) : s.WrittenTo (t.writeX i v) :=
  h.congr (by simp) (by simp) (by simp)

theorem State.WrittenTo.setNextPc (h : s.WrittenTo t) (v : Word) : s.WrittenTo (t.setNextPc v) := h.congr rfl rfl rfl

theorem State.WrittenTo.setNextPriv (h : s.WrittenTo t) (p : Priv) : s.WrittenTo (t.setNextPriv p) :=
  h.congr rfl rfl rfl

theorem State.WrittenTo.memWrite {pa : Word} {n v : Nat} (h : s.WrittenTo t) (ht : t.memWrite pa n v = some u) :
    s.WrittenTo u := by
  unfold State.memWrite at ht
  split at ht
  · cases ht
    exact ⟨h.cfg, h.csrs, h.mem.write _ n v⟩
  · cases ht

theorem State.WrittenTo.clearVirtualization (h : s.WrittenTo t) : s.WrittenTo (clearVirtualization t) := by
  unfold Machine.clearVirtualization
  split
  · exact (h.fieldWrite ..).fieldWrite ..
  · exact (h.fieldWrite ..).fieldWrite ..

theorem State.WrittenTo.trapEntry (h : s.WrittenTo t) (cause tval : Word) : s.WrittenTo (trapEntry cause tval t) := by
  unfold Machine.trapEntry
  split
  · exact ((((((h.setNextPc _).csrWrite ..).csrWrite ..).csrWrite ..).fieldWrite ..).fieldWrite ..).fieldWrite ..
      |>.setNextPriv _
  · exact ((((((h.setNextPc _).csrWrite ..).csrWrite ..).csrWrite ..).fieldWrite ..).fieldWrite ..).fieldWrite ..
      |>.clearVirtualization.setNextPriv _

theorem State.WrittenTo.takeTrap (h : s.WrittenTo t) : s.WrittenTo (takeTrap t) :=
  (h.trapEntry ..).congr rfl rfl rfl

theorem State.WrittenTo.trapReturn (h : s.WrittenTo t) (IE PIE PP : Field) (epc : CsrIdx) (p : Priv) :
    s.WrittenTo (trapReturn IE PIE PP epc p t) := by
  have hb := ((h.fieldWrite Csr.mstatus IE (t.fieldRead Csr.mstatus PIE)).fieldWrite Csr.mstatus PIE 1).fieldWrite
    Csr.mstatus PP 0
  unfold Machine.trapReturn
  dsimp only
  split
  · exact (hb.setNextPriv p).setNextPc _
  · exact ((hb.fieldWrite ..).setNextPriv p).setNextPc _

theorem State.WrittenTo.frees {ds : List DestReg} (h : s.WrittenTo t) (hu : FreesOnly ds t u) : s.WrittenTo u :=
  h.congr (by rw [hu.rest]) (by rw [hu.rest]) (by rw [hu.rest])

theorem State.WrittenTo.finishUpdate (h : s.WrittenTo t) : s.WrittenTo (finishUpdate t) :=
  h.congr (by simp) (by simp) (by simp)

end WrittenTo

/-! ## The micro-ops -/

/-- A micro-op invoked in `s` that continues or redirects has only written. -/
def MicroOut.OnlyWrites (s : State) : MicroOut → Prop := MicroOut.Leads s.WrittenTo (fun _ => s.WrittenTo)

section OnlyWrites
variable {s t : State} {o : MicroOut}

theorem onlyWrites_raiseFault (h : s.WrittenTo t) (c : BitVec 6) (info : Word) : (raiseFault c info t).OnlyWrites s :=
  leads_raiseFault (h.congr rfl rfl rfl)

theorem onlyWrites_raiseInterrupt (h : s.WrittenTo t) (c : BitVec 6) : (raiseInterrupt c t).OnlyWrites s :=
  leads_raiseInterrupt (h.congr rfl rfl rfl)

theorem onlyWrites_illegal (s : State) : (illegal s).OnlyWrites s := onlyWrites_raiseFault (.refl s) _ _

theorem onlyWrites_checkIsa (h : s.WrittenTo t) : (checkIsa t).OnlyWrites s := leads_checkIsa h

theorem onlyWrites_csrAccess (csr : CsrIdx) (writes : Bool) (new : Word) (rd : Reg) (s : State) :
    (csrAccess csr writes new rd s).OnlyWrites s := by
  have hw : s.WrittenTo ((s.csrWrite csr new).writeX rd (s.csrRead csr)) := ((State.WrittenTo.refl s).csrWrite ..).writeX ..
  unfold csrAccess csrWriteThen
  dsimp only
  split
  · split
    · split
      · exact onlyWrites_checkIsa hw
      · exact hw
    · exact (State.WrittenTo.refl s).writeX ..
  · exact onlyWrites_illegal s

theorem onlyWrites_mretBody (s : State) : (mretBody s).OnlyWrites s := by
  unfold mretBody
  split
  · exact onlyWrites_illegal s
  · split
    · trivial
    · exact onlyWrites_checkIsa ((State.WrittenTo.refl s).trapReturn ..)

theorem onlyWrites_sretBody (s : State) : (sretBody s).OnlyWrites s := by
  unfold sretBody
  split
  · exact onlyWrites_illegal s
  · split
    · exact onlyWrites_illegal s
    · exact onlyWrites_checkIsa ((State.WrittenTo.refl s).trapReturn ..)

theorem onlyWrites_wfiBody (s : State) : (wfiBody s).OnlyWrites s := by
  unfold wfiBody
  split
  · exact onlyWrites_illegal s
  · exact .refl s

theorem onlyWrites_sfenceVmaBody (rs1 rs2 : Reg) (s : State) : (sfenceVmaBody rs1 rs2 s).OnlyWrites s := by
  unfold sfenceVmaBody
  split
  · exact onlyWrites_illegal s
  · split
    · exact onlyWrites_illegal s
    · exact .refl s

theorem onlyWrites_withData {k : Resolved → State → MicroOut} (hk : ∀ r t, s.WrittenTo t → (k r t).OnlyWrites s) :
    (withData k s).OnlyWrites s := by
  unfold withData
  split
  · trivial
  · split
    · trivial
    · exact hk _ _ ⟨rfl, .refl, .refl⟩

theorem onlyWrites_lwBody (rd : Reg) (s : State) : (lwBody rd s).OnlyWrites s := by
  refine onlyWrites_withData fun r t h => ?_
  split
  · trivial
  · exact h.writeX ..

theorem onlyWrites_swBody (rs2 : Reg) (s : State) : (swBody rs2 s).OnlyWrites s := by
  refine onlyWrites_withData fun r t h => ?_
  split
  · trivial
  · exact h.memWrite ‹_›

theorem onlyWrites_bneBody (rs1 rs2 : Reg) (off : BitVec 13) (s : State) : (bneBody rs1 rs2 off s).OnlyWrites s := by
  unfold bneBody
  split
  · exact (State.WrittenTo.refl s).setNextPc _
  · exact .refl s

theorem onlyWrites_executeBody (i : Instr) (s : State) : (executeBody i s).OnlyWrites s := by
  have h := State.WrittenTo.refl s
  cases i with
  | csrrw | csrrs | csrrc | csrrwi | csrrsi | csrrci =>
    rw [executeBody_csr rfl rfl]
    exact onlyWrites_csrAccess ..
  | ecall | ebreak => exact onlyWrites_raiseFault h _ _
  | mret => exact onlyWrites_mretBody s
  | sret => exact onlyWrites_sretBody s
  | wfi => exact onlyWrites_wfiBody s
  | sfenceVma rs1 rs2 => exact onlyWrites_sfenceVmaBody rs1 rs2 s
  | fence | fenceI => exact h
  | lui | addi => exact h.writeX ..
  | lw rd => exact onlyWrites_lwBody rd s
  | sw _ rs2 => exact onlyWrites_swBody rs2 s
  | jal => exact (h.writeX ..).setNextPc _
  | bne rs1 rs2 off => exact onlyWrites_bneBody rs1 rs2 off s
  | _ => trivial

theorem onlyWrites_executeStep (s : State) : (executeStep s).OnlyWrites s := by
  unfold executeStep
  split
  · trivial
  · split
    · refine State.WrittenTo.frees ?_ (freeDests_frees ..)
      exact ⟨rfl, .refl, .refl⟩
    · exact onlyWrites_executeBody _ s

theorem onlyWrites_pushData (va : Word) (n : Nat) (s : State) : (pushData va n s).OnlyWrites s := by
  unfold pushData
  split
  · trivial
  · split
    · trivial
    · exact ⟨rfl, .refl, .refl⟩

theorem onlyWrites_computeAddressStep (s : State) : (computeAddressStep s).OnlyWrites s := by
  unfold computeAddressStep
  split
  · trivial
  · split
    · trivial
    · rename_i i _
      cases i with
      | lw | sw => exact onlyWrites_pushData ..
      | _ => trivial

theorem onlyWrites_translateData (kind : AccessKind) (ci : CurrentInst) (s : State) :
    (translateData kind ci s).OnlyWrites s := by
  unfold translateData
  split
  · exact ⟨rfl, .refl, .refl⟩
  · refine onlyWrites_raiseFault ?_ _ _
    exact ⟨rfl, .refl, .refl⟩
  · trivial
  · trivial

theorem onlyWrites_dataTranslateStep (s : State) : (dataTranslateStep s).OnlyWrites s := by
  unfold dataTranslateStep
  split
  · trivial
  · split
    · exact onlyWrites_translateData ..
    · exact onlyWrites_translateData ..
    · split
      · exact .refl s
      · trivial

theorem onlyWrites_fetchStep (s : State) : (fetchStep s).OnlyWrites s := by
  have h : s.WrittenTo s.sampled := ⟨rfl, .refl, .refl⟩
  unfold fetchStep
  split
  · exact onlyWrites_raiseInterrupt h _
  · split
    · exact onlyWrites_raiseFault h _ _
    · split
      · trivial
      · exact h.congr rfl rfl rfl

theorem onlyWrites_instTranslateStep (s : State) : (instTranslateStep s).OnlyWrites s := by
  unfold instTranslateStep
  split
  · exact ⟨rfl, .refl, .refl⟩
  · refine onlyWrites_raiseFault ?_ _ _
    exact ⟨rfl, .refl, .refl⟩
  · trivial
  · trivial

theorem onlyWrites_decodeStep (s : State) : (decodeStep s).OnlyWrites s := by
  unfold decodeStep
  split
  · trivial
  · split
    · trivial
    · dsimp only
      split
      · trivial
      · split
        · refine onlyWrites_raiseFault ?_ _ _
          exact ⟨rfl, .refl, .refl⟩
        · exact ⟨rfl, .refl, .refl⟩
        · exact ⟨rfl, .refl, .refl⟩

theorem onlyWrites_hookCall (kind : HookKind) (obs : Nat) (m : Bool) (s : State) :
    (hookCall kind obs m s).OnlyWrites s := by
  unfold hookCall
  dsimp only
  split
  · exact ⟨rfl, .refl, .refl⟩
  · split
    · exact ⟨rfl, .refl, .refl⟩
    · exact ⟨rfl, .refl, .refl⟩

theorem onlyWrites_exceptionStep (s : State) : (exceptionStep s).OnlyWrites s := by
  unfold exceptionStep
  split
  · trivial
  · exact onlyWrites_checkIsa (State.WrittenTo.refl s).takeTrap

theorem onlyWrites_stopNotifyStep (obs : Option Nat) (s : State) : (stopNotifyStep obs s).OnlyWrites s := by
  cases obs <;> exact ⟨rfl, .refl, .refl⟩

/-- WHAT A MICRO-OP MAY WRITE: whichever it is, and in whatever state it is invoked. -/
theorem onlyWrites_invoke (op : MicroOp) (s : State) : (invoke op s).OnlyWrites s := by
  cases op with
  | fetch => exact onlyWrites_fetchStep s
  | instTranslate => exact onlyWrites_instTranslateStep s
  | decode => exact onlyWrites_decodeStep s
  | computeAddress => exact onlyWrites_computeAddressStep s
  | dataTranslate => exact onlyWrites_dataTranslateStep s
  | preExecuteHook | preExceptionHook | postExecuteHook => exact onlyWrites_hookCall ..
  | execute => exact onlyWrites_executeStep s
  | exception => exact onlyWrites_exceptionStep s
  | finishUpdate => exact (State.WrittenTo.refl s).finishUpdate
  | stopNotify k => exact onlyWrites_stopNotifyStep k s

end OnlyWrites

/-! ## Runs and steps -/

theorem Stored.trans {c : Config} {f g k : CsrFile} (h : Stored c f g) (h' : Stored c g k) : Stored c f k := by
  induction h' with
  | refl => exact h
  | store _ i v ih => exact ih.store i v

theorem Rewritten.trans {m m' m'' : Memory} (h : Rewritten m m') (h' : Rewritten m' m'') : Rewritten m m'' := by
  induction h' with
  | refl => exact h
  | write _ a n v ih => exact ih.write a n v

theorem State.WrittenTo.trans {s t u : State} (h : s.WrittenTo t) (h' : t.WrittenTo u) : s.WrittenTo u :=
  ⟨h'.cfg.trans h.cfg, h.csrs.trans (h.cfg ▸ h'.csrs), h.mem.trans h'.mem⟩

/-- A Run over any chains has only written. -/
theorem writtenTo_of_runChain {c : ChainId} {s t : State} (ht : runChain c s = .next t) : s.WrittenTo t := by
  refine runChain_keeps (P := s.WrittenTo) (fun op u hu => ?_) (.refl s) ht
  have ho := onlyWrites_invoke op u
  cases e : invoke op u with
  | cont v => rw [e] at ho; exact hu.trans ho
  | redirect d v => rw [e] at ho; exact hu.trans ho
  | abort f => trivial
  | refuse r => trivial

theorem writtenTo_of_schedulerStep {s t : State} (ht : schedulerStep s = .next t) : s.WrittenTo t := by
  unfold schedulerStep at ht
  split at ht
  · cases ht
    exact .refl s
  · split at ht
    · cases ht
    · exact writtenTo_of_runChain ht

/-- A step no host call comes before has only written. -/
theorem writtenTo_of_step {s t : State} (hp : s.port = []) (ht : step s = .next t) : s.WrittenTo t := by
  rw [step, machineStep, hp] at ht
  exact writtenTo_of_schedulerStep ht

/-- Settles O14: every write of a CSR is a masked store, and masked stores leave the bits outside the mask. -/
theorem readOnlyBitsNeverChange : Obligations.ReadOnlyBitsNeverChange := by
  unfold Obligations.ReadOnlyBitsNeverChange
  intro s t i hp ht
  exact (writtenTo_of_step hp ht).csrs.raw_readOnly i

/-! ## The host's calls -/

/-- What no step of the machine changes, and what it may do to memory. -/
structure State.SoundTo (s t : State) : Prop where
  cfg : t.cfg = s.cfg
  mem : Rewritten s.mem t.mem

theorem State.WrittenTo.sound {s t : State} (h : s.WrittenTo t) : s.SoundTo t := ⟨h.cfg, h.mem⟩

theorem State.SoundTo.congr {s t u : State} (h : s.SoundTo t) (hcfg : u.cfg = t.cfg) (hmem : u.mem = t.mem) :
    s.SoundTo u :=
  ⟨hcfg.trans h.cfg, hmem ▸ h.mem⟩

theorem State.SoundTo.of_eq {s t : State} (hcfg : t.cfg = s.cfg) (hmem : t.mem = s.mem) : s.SoundTo t :=
  ⟨hcfg, hmem ▸ .refl⟩

theorem soundTo_of_invokeAlone {op : MicroOp} {s t : State} (ht : invokeAlone op s = .next t) : s.SoundTo t := by
  have ho := onlyWrites_invoke op s
  unfold invokeAlone at ht
  split at ht
  · rename_i e
    rw [e] at ho
    cases ht
    exact (State.WrittenTo.sound ho).congr rfl rfl
  · rename_i e
    rw [e] at ho
    cases ht
    exact (State.WrittenTo.sound ho).congr rfl rfl
  · cases ht
  · cases ht

theorem soundTo_of_editChain {s t : State} {c : ChainId} {e : Option Chain} (ht : editChain s c e = .next t) :
    s.SoundTo t := by
  unfold editChain at ht
  split at ht
  · cases ht
    exact .of_eq rfl rfl
  · cases ht

theorem soundTo_of_answer {s t : State} {v : Nat} (ht : answer s v = .next t) : s.SoundTo t := by
  cases ht
  exact .of_eq rfl rfl

/-- An answer the host gets for a CSR of `CSR_SET`. -/
theorem soundTo_of_answer_csr {s t : State} {p : Prop} [Decidable p] {v : Nat}
    (ht : (if p then answer s v else .refused .noSuchCsr) = .next t) : s.SoundTo t := by
  split at ht
  · exact soundTo_of_answer ht
  · cases ht

/-- A host write of a CSR of `CSR_SET`. -/
theorem soundTo_of_endWrite_csr {s t : State} {p : Prop} [Decidable p] {csr i : CsrIdx} {v : Word}
    (ht : (if p then endWrite csr (s.csrWrite i v) else .refused .noSuchCsr) = .next t) : s.SoundTo t := by
  split at ht
  · unfold endWrite at ht
    split at ht
    · cases ht
    · cases ht
      exact .of_eq (by simp) (by simp)
  · cases ht

theorem soundTo_of_execOpRead {r : RegRef} {s t : State} (ht : execOpRead r s = .next t) : s.SoundTo t := by
  cases r with
  | csr i => exact soundTo_of_answer_csr ht
  | _ => exact soundTo_of_answer ht

theorem soundTo_of_execOpPeek {r : RegRef} {s t : State} (ht : execOpPeek r s = .next t) : s.SoundTo t := by
  cases r with
  | csr i => exact soundTo_of_answer_csr ht
  | _ => exact soundTo_of_answer ht

theorem soundTo_of_execOpWrite {r : RegRef} {n : Nat} {s t : State} (ht : execOpWrite r n s = .next t) :
    s.SoundTo t := by
  cases r with
  | csr i => exact soundTo_of_endWrite_csr ht
  | x i => cases ht; exact .of_eq (by simp) (by simp)
  | f i | v i => cases ht; exact .of_eq rfl rfl

theorem soundTo_of_execOpPoke {r : RegRef} {n : Nat} {s t : State} (ht : execOpPoke r n s = .next t) :
    s.SoundTo t := by
  cases r with
  | csr i =>
    unfold execOpPoke at ht
    dsimp only at ht
    split at ht
    · cases ht
      exact .of_eq rfl rfl
    · cases ht
  | x i => cases ht; exact .of_eq (by simp) (by simp)
  | f i | v i => cases ht; exact .of_eq rfl rfl

theorem soundTo_of_execOpBoot {s t : State} (ht : execOpBoot s = .next t) : s.SoundTo t := by
  unfold execOpBoot at ht
  split at ht
  · cases ht
  · cases ht
    exact .of_eq rfl rfl

/-- What the host can call for, an instruction word aside. -/
theorem soundTo_of_exec {i : Instr} {s t : State} (hk : i.kind ≠ .word) (ht : exec i s = .next t) : s.SoundTo t := by
  cases i with
  | opAppend | opSetNext | opCleanup => cases ht; exact .of_eq rfl rfl
  | opInsertBefore | opInsertAfter | opReplace => exact soundTo_of_editChain ht
  | opRead r => exact soundTo_of_execOpRead ht
  | opWrite r n => exact soundTo_of_execOpWrite ht
  | opPeek r => exact soundTo_of_execOpPeek ht
  | opPoke r n => exact soundTo_of_execOpPoke ht
  | opFieldRead => exact soundTo_of_answer_csr ht
  | opFieldWrite => exact soundTo_of_endWrite_csr ht
  | opBoot => exact soundTo_of_execOpBoot ht
  | opStep => exact (writtenTo_of_schedulerStep ht).sound
  | stepFetch | stepInstTranslate | stepDecode | stepComputeAddress | stepDataTranslate | stepPreExecuteHook
  | stepExecute | stepPreExceptionHook | stepException | stepPostExecuteHook | stepStopNotify =>
    exact soundTo_of_invokeAlone ht
  | stepFinishUpdate => exact soundTo_of_invokeAlone (op := .finishUpdate) ht
  | _ => exact absurd rfl hk

theorem soundTo_of_servePort {c : PortCall} {s t : State} (ht : servePort c s = .next t) : s.SoundTo t := by
  cases c with
  | op i =>
    unfold servePort at ht
    dsimp only at ht
    split at ht
    · cases ht
    · exact soundTo_of_exec (by simp [*]) ht
    · exact soundTo_of_exec (by simp [*]) ht
  | recomputeDerived =>
    unfold servePort recomputeDerived checkIsa at ht
    dsimp only at ht
    split at ht
    · cases ht
      exact .of_eq rfl rfl
    · cases ht
  | runStop => exact (writtenTo_of_runChain ht).sound
  | setExitCode v => cases ht; exact .of_eq rfl rfl

/-- WHAT A STEP KEEPS, from any state, over any chains and with any call waiting. -/
theorem soundTo_of_step {s t : State} (ht : step s = .next t) : s.SoundTo t := by
  unfold step machineStep at ht
  split at ht
  · exact (writtenTo_of_schedulerStep ht).sound
  · have h := soundTo_of_servePort ht
    exact ⟨h.cfg, h.mem⟩

/-- Settles O10: a step changes memory by stores of bytes only, each of which keeps the form. -/
theorem stepKeepsMemoryCanonical : Obligations.StepKeepsMemoryCanonical := by
  unfold Obligations.StepKeepsMemoryCanonical
  intro s t hm ht
  exact (soundTo_of_step ht).mem.wf hm

/-- Settles O11: neither a micro-op nor a call of the host writes the configuration. -/
theorem stepKeepsConfiguration : Obligations.StepKeepsConfiguration := by
  unfold Obligations.StepKeepsConfiguration
  intro s t ht
  exact (soundTo_of_step ht).cfg

end Sys2Proof.Machine
end

section
/-! The closed form of a slot: what the FETCH chain makes of an idle state, what the EXCEPTION chain makes of a cause and what
FINISH makes of an effect (42_pipeline_microops.md R260 to R265, R290, R296). -/

namespace Sys2Proof.Machine

/-! ## What a translation reads -/

/-- Two states in which every address translates alike. -/
structure State.SameTranslation (s t : State) : Prop where
  cfg : t.cfg = s.cfg
  csrs : t.csrs = s.csrs
  inclusions : t.inclusions = s.inclusions
  priv : t.priv = s.priv
  mem : t.mem = s.mem
  fetchMode : t.fetchMode = s.fetchMode
  lsMode : t.lsMode = s.lsMode

section SameTranslation
variable {s t : State} (h : s.SameTranslation t)
include h

theorem State.SameTranslation.fieldRead (i : CsrIdx) (F : Field) : t.fieldRead i F = s.fieldRead i F := by
  simp only [State.fieldRead, State.csrRead, State.align32, h.cfg, h.csrs, h.inclusions]

theorem State.SameTranslation.memRead (pa : Word) (n : Nat) : t.memRead pa n = s.memRead pa n := by
  simp only [State.memRead, h.cfg, h.mem]

theorem State.SameTranslation.effPrivEnc (kind : AccessKind) : effPrivEnc kind t = effPrivEnc kind s := by
  cases kind <;> simp only [Machine.effPrivEnc, h.priv, h.cfg, h.csrs]

theorem State.SameTranslation.permitted (kind : AccessKind) (pte : Word) : permitted kind t pte = permitted kind s pte := by
  cases kind <;> simp only [Machine.permitted, h.cfg, h.fieldRead]

theorem State.SameTranslation.strictLeafOk (kind : AccessKind) (m : MmuMode) (i : Nat) (pte : Word) :
    strictLeafOk kind t m i pte = strictLeafOk kind s m i pte := by
  simp only [Machine.strictLeafOk, userOk, h.cfg, h.effPrivEnc, h.fieldRead]

theorem State.SameTranslation.strictNonLeafOk (m : MmuMode) (pte : Word) :
    strictNonLeafOk t m pte = strictNonLeafOk s m pte := by
  simp only [Machine.strictNonLeafOk, h.cfg]

theorem State.SameTranslation.walkFrom (kind : AccessKind) (m : MmuMode) (va : Word) (n : Nat) (ppn : Word) :
    walkFrom kind t m va n ppn = walkFrom kind s m va n ppn := by
  induction n generalizing ppn with
  | zero => rfl
  | succ i ih =>
    simp only [Machine.walkFrom, ih, h.memRead, h.permitted, h.strictLeafOk, h.strictNonLeafOk]

theorem State.SameTranslation.modeFor (kind : AccessKind) : modeFor kind t = modeFor kind s := by
  cases kind <;> simp only [Machine.modeFor, h.fetchMode, h.lsMode]

theorem State.SameTranslation.translate (kind : AccessKind) (va : Word) : translate kind t va = translate kind s va := by
  simp only [Machine.translate, h.modeFor, reservedEffPriv, h.effPrivEnc, walk, h.walkFrom, h.fieldRead, h.cfg]
    <;> rfl

theorem State.SameTranslation.resolveRequest (kind : AccessKind) (r : Request) :
    resolveRequest kind t r = resolveRequest kind s r := by
  simp only [Machine.resolveRequest, h.modeFor, h.translate]

end SameTranslation

/-- One request resolves to its address with its size, or faults at its own address. -/
theorem resolveAll_single (kind : AccessKind) (s : State) (r : Request) :
    resolveAll kind s [r] = match resolveRequest kind s r with
      | .ok pa => .done [⟨pa, r.size⟩]
      | .pageFault => .pageFault r.vaddr
      | .abort f => .abort f
      | .refuse e => .refuse e := by
  cases h : resolveRequest kind s r <;> simp [resolveAll, h]

/-- A fetch request is its translation: DECODE judges the page crossing. -/
theorem resolveRequest_fetch (s : State) (r : Request) : resolveRequest .fetch s r = translate .fetch s r.vaddr := by
  simp [resolveRequest]

/-! ## Raising with no cause pending -/

theorem raiseFault_of_noCause {s : State} (h : s.latch.pending = false) (c : BitVec 6) (info : Word) :
    raiseFault c info s = .redirect .exception (s.faulting c info) := by
  simp [raiseFault, h, State.faulting]

theorem raiseInterrupt_of_noCause {s : State} (h : s.latch.pending = false) (c : BitVec 6) :
    raiseInterrupt c s = .redirect .exception (s.interrupted c) := by
  simp [raiseInterrupt, h, State.interrupted]

/-! ## The FETCH chain -/

/-- The bits of a fetched word the decoder is handed (30_encoding.md R151). -/
def State.fetchedBits (s : State) (w : BitVec 32) : BitVec 32 := if s.isShort w then w &&& 0xFFFF else w

/-- Their length in bytes. -/
def State.fetchedLen (s : State) (w : BitVec 32) : Nat := if s.isShort w then 2 else 4

/-- The slot of a word without a handler. -/
def externalSlot (bits : BitVec 32) (len k : Nat) (ds : List DestReg) : CurrentInst :=
  { opcode := bits, len := len, instr := none, external := k, dests := ds }

/-- DECODE of the bytes at an address, no result left in the queue. -/
def decodeAt (pa : Word) (s : State) : MicroOut :=
  match s.memRead pa 4 with
  | none => .abort .memoryReadFailure
  | some n =>
    let w := BitVec.ofNat 32 n
    if !s.isShort w && s.fetchMode ≠ .bare && s.pc &&& 0xFFF = 0xFFE then .refuse .pageCrossingAccess
    else
      match decodeBits s.cfg s.inclusions (s.isShort w) (s.fetchedBits w) with
      | .illegal => .redirect .exception (s.faulting 2 (zextTo (s.fetchedBits w)))
      | .known i => .redirect i.chain (loadInst (slotOf (s.fetchedBits w) (s.fetchedLen w) i) s)
      | .unimplemented k ds =>
        .redirect (.inst (.external k)) (loadInst (externalSlot (s.fetchedBits w) (s.fetchedLen w) k ds) s)

/-- Where the FETCH chain leads from a state between two instructions: a requested interrupt first, then the alignment of
`pc`, its translation, and the word it names. -/
def fetchPhase (s : State) : MicroOut :=
  match s.irqReq with
  | some c => .redirect .exception (s.sampled.interrupted c)
  | none =>
    if s.pcMisaligned then .redirect .exception (s.sampled.faulting 0 s.pc)
    else
      match translate .fetch s.sampled s.pc with
      | .ok pa => decodeAt pa s.sampled
      | .pageFault => .redirect .exception (s.sampled.faulting 12 s.pc)
      | .abort f => .abort f
      | .refuse r => .refuse r

/-- A state with a fetch queue put in place of its own. -/
def State.withFetchQueue (q : Queue) (s : State) : State := { s with fetchQueue := q }

theorem withFetchQueue_self {s : State} (h : s.fetchQueue = {}) : s.withFetchQueue {} = s := by
  rw [← h]; rfl

section FetchChain
variable {s : State} (hq : s.fetchQueue = {}) (hc : s.latch.pending = false)
include hq hc

theorem fetchStep_eq : fetchStep s =
    match s.irqReq with
    | some c => .redirect .exception (s.sampled.interrupted c)
    | none =>
      if s.pcMisaligned then .redirect .exception (s.sampled.faulting 0 s.pc)
      else .cont (s.sampled.withFetchQueue { pending := [⟨s.pc, 4⟩] }) := by
  have hc' : s.sampled.latch.pending = false := hc
  unfold fetchStep
  simp only [raiseInterrupt_of_noCause hc', raiseFault_of_noCause hc', hq, pushFetch_of_empty]
  rfl

theorem instTranslateStep_eq (va : Word) :
    instTranslateStep (s.withFetchQueue { pending := [⟨va, 4⟩] }) =
    match translate .fetch s va with
    | .ok pa => .cont (s.withFetchQueue { results := [⟨pa, 4⟩] })
    | .pageFault => .redirect .exception (s.faulting 12 va)
    | .abort f => .abort f
    | .refuse r => .refuse r := by
  have same : s.SameTranslation (s.withFetchQueue { pending := [⟨va, 4⟩] }) := ⟨rfl, rfl, rfl, rfl, rfl, rfl, rfl⟩
  unfold instTranslateStep
  rw [show (s.withFetchQueue { pending := [⟨va, 4⟩] }).fetchQueue.pending = [⟨va, 4⟩] from rfl, resolveAll_single,
    resolveRequest_fetch, same.translate]
  cases translate .fetch s va with
  | ok pa => rfl
  | pageFault =>
    show raiseFault (pageFaultCode .fetch) va (s.withFetchQueue {}) = _
    rw [withFetchQueue_self hq, raiseFault_of_noCause hc]
    rfl
  | abort f => rfl
  | refuse r => rfl

theorem decodeStep_eq (pa : Word) : decodeStep (s.withFetchQueue { results := [⟨pa, 4⟩] }) = decodeAt pa s := by
  unfold decodeStep decodeAt
  show (match s.memRead pa 4 with | none => _ | some n => _) = _
  cases s.memRead pa 4 with
  | none => rfl
  | some n =>
    dsimp only
    show (if (!s.isShort (BitVec.ofNat 32 n) && s.fetchMode ≠ .bare && s.pc &&& 0xFFF = 0xFFE) = true then _ else
      match decodeBits s.cfg s.inclusions (s.isShort (BitVec.ofNat 32 n)) (s.fetchedBits (BitVec.ofNat 32 n)) with
        | .illegal => raiseFault 2 _ (s.withFetchQueue {})
        | .known i => .redirect i.chain (loadInst _ (s.withFetchQueue {}))
        | .unimplemented k ds => .redirect _ (loadInst _ (s.withFetchQueue {}))) = _
    rw [withFetchQueue_self hq, raiseFault_of_noCause hc]
    rfl

theorem runOps_fetchChain : runOps fetchChain.ops s = fetchPhase s := by
  have hq' : s.sampled.fetchQueue = {} := hq
  have hc' : s.sampled.latch.pending = false := hc
  rw [fetchChain_eq]
  simp only [runOps_cons, invoke]
  rw [fetchStep_eq hq hc, fetchPhase]
  cases s.irqReq with
  | some c => rfl
  | none =>
    dsimp only
    split
    · rfl
    · rw [andThen_cont, runOps_cons, invoke, instTranslateStep_eq hq' hc']
      cases translate .fetch s.sampled s.pc with
      | ok pa =>
        rw [andThen_cont, runOps_cons, invoke, decodeStep_eq hq' hc']
        dsimp only
        cases decodeAt pa s.sampled <;> rfl
      | pageFault => rfl
      | abort f => rfl
      | refuse r => rfl

end FetchChain

/-- THE STEP OF AN IDLE RUNNING HART, up to the chain that the fetch phase leads to. -/
theorem step_eq_fetchPhase {s : State} (h : s.Idle) (hs : s.stopped = false) :
    step s = afterChain none (fetchPhase s) := by
  rw [step_of_idle h hs, runChain_unfold, assembled_fetch h.assembled, runOps_fetchChain h.noRequest h.noCause]
  rfl

/-! ## The EXCEPTION chain -/

/-- A state with another slot and another `next_pc`. -/
def State.withSlot (c : Option CurrentInst) (np : Word) (s : State) : State := { s with currentInst := c, nextPc := np }

section Exception
variable (s : State) (c : Option CurrentInst) (np : Word)

theorem takeTrap_withSlot : takeTrap (s.withSlot c np) = { takeTrap s with currentInst := c } := by
  have e : s.withSlot c np = (s.aside c s.notices s.hookReplies s.exitCode).setNextPc np := rfl
  rw [e, takeTrap_setNextPc, takeTrap_aside, State.aside]
  have hn := takeTrap_notices s
  have hr := takeTrap_hookReplies s
  have he := takeTrap_exitCode s
  rw [← hn, ← hr, ← he]

theorem observed_withSlot (k : HookKind) (m : Bool) : (s.withSlot c np).observed k m = (s.observed k m).withSlot c np :=
  rfl

/-- The trap depends neither on the slot, which FINISH_UPDATE empties, nor on the `next_pc` it overwrites. -/
theorem trapped_withSlot : (s.withSlot c np).trapped = s.trapped := by
  unfold State.trapped
  rw [takeTrap_withSlot]
  generalize takeTrap s = t
  unfold State.commitPriv
  dsimp only
  split <;> rfl

theorem trapsEarly_withSlot : (s.withSlot c np).trapsEarly = s.trapsEarly := by
  rw [State.trapsEarly, observed_withSlot, trapped_withSlot]
  rfl

theorem takeTrap_observed_inclusions (k : HookKind) (m : Bool) :
    (takeTrap (s.observed k m)).inclusions = (takeTrap s).inclusions := by
  rw [State.observed, observedN_aside, takeTrap_aside]
  rfl

end Exception

/-- Exactly one cause is valid where one was raised with none pending. -/
theorem oneCause_faulting {s : State} (h : s.latch.pending = false) (c : BitVec 6) (info : Word) :
    (s.faulting c info).latch.faultValid ≠ (s.faulting c info).latch.interruptValid := by
  simp only [CauseLatch.pending, Bool.or_eq_false_iff] at h
  simp [State.faulting, h.2]

theorem oneCause_interrupted {s : State} (h : s.latch.pending = false) (c : BitVec 6) :
    (s.interrupted c).latch.faultValid ≠ (s.interrupted c).latch.interruptValid := by
  simp only [CauseLatch.pending, Bool.or_eq_false_iff] at h
  simp [State.interrupted, h.1]

/-- FINISH_UPDATE of a slot without the marker. -/
theorem finishUpdate_of_marker {s : State} (h : s.marker = false) :
    finishUpdate s = s.commitPriv.advance s.nextPc := by
  rw [finishUpdate_eq, h]
  rfl

/-- THE EXCEPTION CHAIN with one cause valid: the trap, unless the decoder refuses the extension set it leaves. -/
theorem runChain_exception_eq {s : State} (ha : s.Assembled) (hq : s.Quiet) (hm : s.marker = false)
    (hc : s.latch.faultValid ≠ s.latch.interruptValid) :
    runChain .exception s = if isaAccepted s.cfg (takeTrap s).inclusions = true then .next s.trapsEarly
      else .fault .malformedIsaConfiguration := by
  have hinc : (takeTrap (s.observedN .preException s.marker s.cfg.observers)).inclusions = (takeTrap s).inclusions :=
    takeTrap_observed_inclusions s .preException s.marker
  split
  next hi =>
    rw [runChain_exception ha hq hc (by rw [hinc]; exact hi), hm]
    have ha' : (takeTrap (s.observedN .preException false s.cfg.observers)).Assembled := by
      rw [State.Assembled, takeTrap_chains, takeTrap_cfg]
      exact ha
    have hq' : (takeTrap (s.observedN .preException false s.cfg.observers)).Quiet := by
      rw [State.Quiet, takeTrap_hookReplies]
      exact fun r hr => quiet_observedN hq _ _ _ r hr
    have hm' : (takeTrap (s.observedN .preException false s.cfg.observers)).marker = false := by
      rw [State.marker, takeTrap_currentInst]
      exact hm
    rw [runChain_finish ha' hq', hm', finishUpdate_of_marker hm', takeTrap_cfg]
    have hcfg : ((takeTrap (s.observedN .preException false s.cfg.observers)).commitPriv.advance
        (takeTrap (s.observedN .preException false s.cfg.observers)).nextPc).cfg = s.cfg := by simp [State.observedN]
    unfold State.trapsEarly State.trapped State.observed
    rw [hcfg]
    rfl
  next hi =>
    have e : exceptionStep (s.observedN .preException s.marker s.cfg.observers) = .abort .malformedIsaConfiguration := by
      unfold exceptionStep checkIsa
      rw [if_neg (by simpa using hc), if_neg (by rw [hinc, takeTrap_cfg]; exact hi)]
    rw [runChain_unfold, assembled_exception ha, exceptionChain_eq]
    simp only [runOps_append, runOps_preException hq, andThen_cont, runOps_cons, invoke, e, andThen_abort, afterChain]

/-- The same where the slot holds something: it does not show. -/
theorem runChain_exception_withSlot {s : State} (ha : s.Assembled) (hq : s.Quiet) {c : Option CurrentInst} (np : Word)
    (hm : (s.withSlot c np).marker = false) (hc : s.latch.faultValid ≠ s.latch.interruptValid) :
    runChain .exception (s.withSlot c np) = if isaAccepted s.cfg (takeTrap s).inclusions = true then .next s.trapsEarly
      else .fault .malformedIsaConfiguration := by
  rw [runChain_exception_eq (s := s.withSlot c np) ha hq hm hc, takeTrap_withSlot, trapsEarly_withSlot]
  rfl

end Sys2Proof.Machine
end

section
/-! The closed form of an instruction's run: what EXECUTE makes of the state before the slot was filled decides it, and for a
load or store before that its translation (42_pipeline_microops.md R261, R270 to R284). -/

namespace Sys2Proof.Machine

/-! ## Completing -/

theorem commitPriv_setNextPc (u : State) (a : Word) : (u.setNextPc a).commitPriv = u.commitPriv.setNextPc a := by
  unfold State.commitPriv
  rw [show (u.setNextPc a).nextPriv = u.nextPriv from rfl, show (u.setNextPc a).priv = u.priv from rfl]
  split <;> rfl

theorem commitPriv_entered (u : State) (bits : BitVec 32) (len : Nat) (i : Instr) :
    (u.entered bits len i).commitPriv = u.commitPriv.entered bits len i := by
  unfold State.commitPriv
  rw [show (u.entered bits len i).nextPriv = u.nextPriv from rfl, show (u.entered bits len i).priv = u.priv from rfl]
  split <;> rfl

/-- COMPLETING, the mode committed: FINISH of an effect on the state before the slot was filled. -/
theorem runChain_finish_entered {u : State} (ha : u.Assembled) (hq : u.Quiet) (bits : BitVec 32) (len : Nat) (i : Instr)
    (np : Word) : runChain .finish ((u.entered bits len i).setNextPc np) = .next (u.commitPriv.completes np) := by
  rw [runChain_finish (s := (u.entered bits len i).setNextPc np) ha (quiet_entered hq bits len i),
    finishUpdate_of_marker rfl, commitPriv_setNextPc, commitPriv_entered,
    show ((u.entered bits len i).setNextPc np).cfg = u.commitPriv.cfg from (commitPriv_cfg u).symm]
  rfl

/-- A state whose next mode is its mode has nothing to commit. -/
theorem commitPriv_of_noReturn {u : State} (h : u.nextPriv = u.priv) : u.commitPriv = u := if_pos h

/-! ## Trap returns -/

theorem csrWrite_setNextPc (s : State) (a : Word) (i : CsrIdx) (v : Word) :
    (s.setNextPc a).csrWrite i v = (s.csrWrite i v).setNextPc a := by
  simp only [State.csrWrite, State.csrSideEffects]
  split <;> split <;> rfl

theorem fieldWrite_setNextPc (s : State) (a : Word) (i : CsrIdx) (F : Field) (v : Word) :
    (s.setNextPc a).fieldWrite i F v = (s.fieldWrite i F v).setNextPc a :=
  csrWrite_setNextPc s a i _

/-- The status that a trap return leaves: xIE from xPIE, xPIE set, xPP USER, MPRV cleared unless the new mode is MACHINE. -/
def unstacked (IE PIE PP : Field) (p : Priv) (s : State) : State :=
  let b := ((s.fieldWrite Csr.mstatus IE (s.fieldRead Csr.mstatus PIE)).fieldWrite Csr.mstatus PIE 1).fieldWrite
    Csr.mstatus PP 0
  if p = .machine then b else b.fieldWrite Csr.mstatus Field.MPRV 0

/-- A trap return is that status with the saved mode and the exception PC. -/
theorem trapReturn_eq (IE PIE PP : Field) (epc : CsrIdx) (p : Priv) (s : State) : trapReturn IE PIE PP epc p s
    = ((unstacked IE PIE PP p s).setNextPriv p).setNextPc ((unstacked IE PIE PP p s).csrRead epc) := rfl

theorem unstacked_setNextPc (IE PIE PP : Field) (p : Priv) (s : State) (a : Word) :
    unstacked IE PIE PP p (s.setNextPc a) = (unstacked IE PIE PP p s).setNextPc a := by
  simp only [unstacked, fieldWrite_setNextPc]
  rw [show (s.setNextPc a).fieldRead Csr.mstatus PIE = s.fieldRead Csr.mstatus PIE from rfl]
  split <;> rfl

theorem trapReturn_setNextPc (IE PIE PP : Field) (epc : CsrIdx) (p : Priv) (s : State) (a : Word) :
    trapReturn IE PIE PP epc p (s.setNextPc a) = trapReturn IE PIE PP epc p s := by
  rw [trapReturn_eq, unstacked_setNextPc]
  rfl

theorem trapReturn_entered (IE PIE PP : Field) (epc : CsrIdx) (p : Priv) (bits : BitVec 32) (len : Nat) (i : Instr)
    (s : State) : trapReturn IE PIE PP epc p (s.entered bits len i)
      = ((trapReturn IE PIE PP epc p s).entered bits len i).setNextPc (trapReturn IE PIE PP epc p s).nextPc := by
  rw [entered_eq, trapReturn_aside, trapReturn_setNextPc, entered_eq]
  simp only [State.observed, State.observedN, trapReturn_notices, trapReturn_hookReplies, trapReturn_exitCode,
    trapReturn_cfg]
  rfl

/-! ## EXECUTE of an instruction that accesses no memory -/

/-- What EXECUTE of an instruction of `len` bytes that accesses no memory makes of `s` where it completes: the state, and
the address of the next instruction. -/
inductive Executes (s : State) (len : Nat) : Instr → State → Word → Prop
  | csr {i : Instr} {csr : CsrIdx} {rd : Reg} (hc : i.csr? = some csr) (hd : i.rd? = some rd)
      (hl : csrLegal s csr i.willWrite = true) :
      Executes s len i (csrResult csr i.willWrite (csrNewValue s i) rd s) (s.pcPlus (BitVec.ofNat 64 len))
  | returns {i : Instr} {IE PIE PP : Field} {epc : CsrIdx} {p : Priv} (hp : s.priv ≠ .user) (hi : i.rd? = none) :
      Executes s len i (trapReturn IE PIE PP epc p s) (trapReturn IE PIE PP epc p s).nextPc
  | writes {i : Instr} {rd : Reg} (hd : i.rd? = some rd) (v off : Word) :
      Executes s len i (s.writeX rd v) (s.pcPlus off)
  | goes (i : Instr) (off : Word) : Executes s len i s (s.pcPlus off)

/-- What EXECUTE can give: it completes, raises a fault that records the opcode bits or 0, or stops. -/
inductive PlainOutcome (s : State) (bits : BitVec 32) (len : Nat) (i : Instr) : MicroOut → Prop
  | completes {u : State} {np : Word} (h : Executes s len i u np) :
      PlainOutcome s bits len i (.cont ((u.entered bits len i).setNextPc np))
  | raises (c : BitVec 6) {info : Word} (h : info = zextTo bits ∨ info = 0) :
      PlainOutcome s bits len i (raiseFault c info (s.entered bits len i))
  | aborts (f : Fault) : PlainOutcome s bits len i (.abort f)
  | refuses (r : Refusal) : PlainOutcome s bits len i (.refuse r)

section PlainOutcome
variable (s : State) (bits : BitVec 32) (len : Nat)

theorem plainOutcome_illegal (i : Instr) : PlainOutcome s bits len i (illegal (s.entered bits len i)) :=
  .raises 2 (.inl rfl)

theorem plainOutcome_checkIsa {i : Instr} {u : State} {np : Word} (h : Executes s len i u np) :
    PlainOutcome s bits len i (checkIsa ((u.entered bits len i).setNextPc np)) := by
  unfold checkIsa
  split
  · exact .completes h
  · exact .aborts _

theorem plainOutcome_goes (i : Instr) : PlainOutcome s bits len i (.cont (s.entered bits len i)) :=
  .completes (.goes i (BitVec.ofNat 64 len))

theorem plainOutcome_csr {i : Instr} {csr : CsrIdx} (hc : i.csr? = some csr) :
    PlainOutcome s bits len i (executeBody i (s.entered bits len i)) := by
  obtain ⟨⟨rd, hd⟩, -⟩ := csrInstr_parts hc
  rw [executeBody_csr hc hd, csrNewValue_entered, csrAccess, csrLegal_entered]
  split
  next hl =>
    have e := csrResult_entered (csr := csr) (writes := i.willWrite) (new := csrNewValue s i) (rd := rd) (s := s) bits len i
    have hx : Executes s len i (csrResult csr i.willWrite (csrNewValue s i) rd s) (s.pcPlus (BitVec.ofNat 64 len)) :=
      .csr hc hd hl
    rw [← pcPlus_csrResult (csr := csr) (writes := i.willWrite) (new := csrNewValue s i) (rd := rd)] at hx
    have both : PlainOutcome s bits len i (.cont (csrResult csr i.willWrite (csrNewValue s i) rd (s.entered bits len i)))
        ∧ PlainOutcome s bits len i
          (checkIsa (csrResult csr i.willWrite (csrNewValue s i) rd (s.entered bits len i))) := by
      rw [e]
      exact ⟨.completes hx, plainOutcome_checkIsa s bits len hx⟩
    unfold csrResult at both
    split
    next hw =>
      rw [if_pos hw] at both
      unfold csrWriteThen
      dsimp only
      split
      · exact both.2
      · exact both.1
    next hw =>
      rw [if_neg hw] at both
      exact both.1
  next => exact plainOutcome_illegal ..

theorem plainOutcome_mret : PlainOutcome s bits len .mret (executeBody .mret (s.entered bits len .mret)) := by
  show PlainOutcome s bits len .mret (mretBody _)
  unfold mretBody
  split
  · exact plainOutcome_illegal ..
  next hp =>
    have hp' : s.priv ≠ .user := by
      intro hu
      exact hp (by rw [show (s.entered bits len .mret).priv = s.priv from rfl, hu]; decide)
    split
    · exact .refuses _
    · rw [trapReturn_entered]
      exact plainOutcome_checkIsa s bits len (.returns hp' rfl)

theorem plainOutcome_sret : PlainOutcome s bits len .sret (executeBody .sret (s.entered bits len .sret)) := by
  show PlainOutcome s bits len .sret (sretBody _)
  unfold sretBody
  split
  · exact plainOutcome_illegal ..
  next hp =>
    split
    · exact plainOutcome_illegal ..
    · dsimp only
      rw [trapReturn_entered]
      exact plainOutcome_checkIsa s bits len (.returns hp rfl)

theorem plainOutcome_wfi : PlainOutcome s bits len .wfi (executeBody .wfi (s.entered bits len .wfi)) := by
  show PlainOutcome s bits len .wfi (wfiBody _)
  unfold wfiBody
  split
  · exact plainOutcome_illegal ..
  · exact plainOutcome_goes ..

theorem plainOutcome_sfenceVma (rs1 rs2 : Reg) : PlainOutcome s bits len (.sfenceVma rs1 rs2)
    (executeBody (.sfenceVma rs1 rs2) (s.entered bits len (.sfenceVma rs1 rs2))) := by
  show PlainOutcome s bits len _ (sfenceVmaBody rs1 rs2 _)
  unfold sfenceVmaBody
  split
  · exact plainOutcome_illegal ..
  · split
    · exact plainOutcome_illegal ..
    · exact plainOutcome_goes ..

theorem plainOutcome_bne (rs1 rs2 : Reg) (off : BitVec 13) : PlainOutcome s bits len (.bne rs1 rs2 off)
    (executeBody (.bne rs1 rs2 off) (s.entered bits len (.bne rs1 rs2 off))) := by
  show PlainOutcome s bits len _ (bneBody rs1 rs2 off _)
  unfold bneBody
  split
  · exact .completes (.goes _ (sextTo s.cfg.xlen off))
  · exact plainOutcome_goes ..

/-- EXECUTE that writes one register and falls through. -/
theorem plainOutcome_writeX {i : Instr} {rd : Reg} (hd : i.rd? = some rd) (v : Word) :
    PlainOutcome s bits len i (.cont ((s.entered bits len i).writeX rd v)) := by
  rw [writeX_entered]
  have hx : Executes s len i (s.writeX rd v) (s.pcPlus (BitVec.ofNat 64 len)) := .writes hd v _
  rw [← pcPlus_writeX s rd v] at hx
  exact .completes hx

/-- SAID ONCE: what EXECUTE of an instruction that accesses no memory can give. -/
theorem plainOutcome_executeBody {i : Instr} {m : Mnem} (hi : i.mnem = some m) (hm : Mnem.isMemory m = false) :
    PlainOutcome s bits len i (executeBody i (s.entered bits len i)) := by
  cases i with
  | csrrw | csrrs | csrrc | csrrwi | csrrsi | csrrci => exact plainOutcome_csr s bits len rfl
  | ecall | ebreak => exact .raises _ (.inr rfl)
  | mret => exact plainOutcome_mret s bits len
  | sret => exact plainOutcome_sret s bits len
  | wfi => exact plainOutcome_wfi s bits len
  | sfenceVma rs1 rs2 => exact plainOutcome_sfenceVma s bits len rs1 rs2
  | fence | fenceI => exact plainOutcome_goes ..
  | lui | addi => exact plainOutcome_writeX s bits len rfl _
  | jal rd off =>
    show PlainOutcome s bits len _ (jalBody rd off _)
    rw [jalBody_entered]
    exact .completes (.writes rfl _ _)
  | bne rs1 rs2 off => exact plainOutcome_bne s bits len rs1 rs2 off
  | lw | sw => cases hi; cases hm
  | _ => cases hi

end PlainOutcome

theorem Executes.assembled {s u : State} {len : Nat} {i : Instr} {np : Word} (h : Executes s len i u np)
    (hs : s.Ready) : u.Assembled := by
  cases h with
  | csr => exact (Ready.csrResult hs).assembled
  | returns => simpa [State.Assembled] using hs.assembled
  | writes => exact (Ready.writeX hs ..).assembled
  | goes => exact hs.assembled

theorem Executes.quiet {s u : State} {len : Nat} {i : Instr} {np : Word} (h : Executes s len i u np)
    (hs : s.Ready) : u.Quiet := by
  cases h with
  | csr => exact (Ready.csrResult hs).quiet
  | returns => simpa [State.Quiet] using hs.quiet
  | writes => exact (Ready.writeX hs ..).quiet
  | goes => exact hs.quiet

/-- What the EXCEPTION chain makes of a fault that EXECUTE raised. -/
theorem runChain_exception_entered {s : State} (h : s.Ready) (bits : BitVec 32) (len : Nat) (i : Instr) (c : BitVec 6)
    (info : Word) : afterChain (some .finish) (raiseFault c info (s.entered bits len i))
      = if isaAccepted s.cfg (takeTrap (s.faulting c info)).inclusions = true
        then .next (s.faulting c info).trapsInExecute else .fault .malformedIsaConfiguration := by
  rw [raiseFault_of_noCause (s := s.entered bits len i) h.noCause]
  have e := runChain_exception_withSlot (s := (s.faulting c info).observed .preExecute false)
    (c := some (slotOf bits len i)) h.assembled
    (fun r hr => quiet_observedN (s := s) h.quiet .preExecute false _ r hr) (s.pcPlus (BitVec.ofNat 64 len)) rfl
    (oneCause_faulting h.noCause c info)
  rw [takeTrap_observed_inclusions] at e
  exact e

/-- THE RUN OF AN INSTRUCTION THAT ACCESSES NO MEMORY: it completes, or takes the trap EXECUTE raised. -/
theorem runLoaded_plain_cases {s t : State} (h : s.Ready) {bits : BitVec 32} {len : Nat} {i : Instr} {m : Mnem}
    (hi : i.mnem = some m) (hm : Mnem.isMemory m = false) (ht : runLoaded bits len i s = .next t) :
    (∃ u np, Executes s len i u np ∧ t = u.commitPriv.completes np)
      ∨ ∃ c info, (info = zextTo bits ∨ info = 0) ∧ t = (s.faulting c info).trapsInExecute := by
  rw [runLoaded_plain h bits len hi hm] at ht
  generalize ho : executeBody i (s.entered bits len i) = o at ht
  have hp := ho ▸ plainOutcome_executeBody s bits len hi hm
  cases hp with
  | @completes u np hx =>
    rw [show afterChain (some .finish) (.cont _) = runChain .finish ((u.entered bits len i).setNextPc np) from rfl,
      runChain_finish_entered (hx.assembled h) (hx.quiet h)] at ht
    cases ht
    exact .inl ⟨u, np, hx, rfl⟩
  | raises c hinfo =>
    rw [runChain_exception_entered h] at ht
    split at ht
    · cases ht
      exact .inr ⟨c, _, hinfo, rfl⟩
    · cases ht
  | aborts f => cases ht
  | refuses r => cases ht

/-! ## Loads and stores -/

/-- What follows the translation of the four bytes at `va`: what `k` makes of their address, or the page fault's trap. -/
def withTranslation (kind : AccessKind) (va : Word) (s : State)
    (k : Word → Host.Outcome State Fault Refusal) : Host.Outcome State Fault Refusal :=
  match resolveRequest kind s ⟨va, 4⟩ with
  | .ok pa => k pa
  | .pageFault =>
    if isaAccepted s.cfg (takeTrap (s.faulting (pageFaultCode kind) va)).inclusions = true
    then .next (s.faulting (pageFaultCode kind) va).trapsEarly else .fault .malformedIsaConfiguration
  | .abort f => .fault f
  | .refuse r => .refused r

/-- The slot of a memory instruction with a data queue. -/
def slotWith (q : Queue) (bits : BitVec 32) (len : Nat) (i : Instr) : CurrentInst :=
  { slotOf bits len i with dataQueue := q }

/-- The state EXECUTE of a memory instruction is invoked in, its address resolved to `pa`. -/
def State.translated (bits : BitVec 32) (len : Nat) (i : Instr) (pa : Word) (s : State) : State :=
  (loadInst (slotWith { results := [⟨pa, 4⟩] } bits len i) s).observed .preExecute false

/-- The write a store makes, where the memory has the bytes. -/
theorem memWrite_eq_some {s t : State} {pa : Word} {n v : Nat} (h : s.memWrite pa n v = some t) :
    presentAll s.cfg.memory true pa.toNat n = true ∧ t = { s with mem := s.mem.writeLE pa.toNat n v } := by
  unfold State.memWrite at h
  split at h
  · exact ⟨‹_›, (Option.some.inj h).symm⟩
  · cases h

theorem memWrite_entered (bits : BitVec 32) (len : Nat) (i : Instr) (s : State) (pa : Word) (n v : Nat) :
    (s.entered bits len i).memWrite pa n v = (s.memWrite pa n v).map (State.entered bits len i) := by
  unfold State.memWrite
  rw [show (s.entered bits len i).cfg = s.cfg from rfl]
  split <;> rfl

/-- An effect that leaves the mode alone falls through. -/
theorem afterChain_fallsThrough {s u : State} (bits : BitVec 32) (len : Nat) {i : Instr} (hu : u.Ready)
    (hpc : u.pc = s.pc) (hcfg : u.cfg = s.cfg) :
    afterChain (some .finish) (.cont (u.entered bits len i))
      = .next (u.completes (s.pcPlus (BitVec.ofNat 64 len))) := by
  have e := runChain_finish_entered hu.assembled hu.quiet bits len i (u.pcPlus (BitVec.ofNat 64 len))
  rw [commitPriv_of_noReturn hu.noReturn] at e
  rw [State.pcPlus, ← hpc, ← hcfg]
  exact e

section Memory
variable {s : State} (h : s.Ready) (bits : BitVec 32) (len : Nat) {i : Instr}
include h

/-- DATA_TRANSLATE of the request COMPUTE_ADDRESS pushed, and what follows it. -/
theorem runOps_translateData (kind : AccessKind) (va : Word) :
    afterChain (some .finish) ((translateData kind (slotWith { pending := [⟨va, 4⟩] } bits len i)
        (loadInst (slotWith { pending := [⟨va, 4⟩] } bits len i) s)).andThen
          (runOps (hookEntries .preExecuteHook s.cfg.observers ++ [⟨.execute, some .execute⟩])))
      = withTranslation kind va s fun pa =>
          afterChain (some .finish) (executeBody i (s.translated bits len i pa)) := by
  have same : s.SameTranslation (loadInst (slotWith { pending := [⟨va, 4⟩] } bits len i) s) :=
    ⟨rfl, rfl, rfl, rfl, rfl, rfl, rfl⟩
  unfold translateData withTranslation
  rw [show (slotWith { pending := [⟨va, 4⟩] } bits len i).dataQueue.pending = [⟨va, 4⟩] from rfl, resolveAll_single,
    same.resolveRequest]
  cases resolveRequest kind s ⟨va, 4⟩ with
  | ok pa =>
    have hq : (loadInst (slotWith { results := [⟨pa, 4⟩] } bits len i) s).Quiet := h.quiet
    show afterChain _ (runOps _ (loadInst (slotWith { results := [⟨pa, 4⟩] } bits len i) s)) = _
    rw [runOps_append, runOps_preExecute hq, andThen_cont, runOps_cons]
    show afterChain _ ((executeBody i (s.translated bits len i pa)).andThen _) = _
    dsimp only
    cases executeBody i (s.translated bits len i pa) <;> rfl
  | pageFault =>
    show afterChain _ ((raiseFault (pageFaultCode kind) va (loadInst (slotWith {} bits len i) s)).andThen _) = _
    rw [raiseFault_of_noCause (s := loadInst (slotWith {} bits len i) s) h.noCause]
    exact runChain_exception_withSlot (s := s.faulting (pageFaultCode kind) va) (c := some (slotWith {} bits len i))
      h.assembled h.quiet (s.pcPlus (BitVec.ofNat 64 len)) rfl (oneCause_faulting h.noCause _ va)
  | abort f => rfl
  | refuse r => rfl

/-- THE RUN OF A LOAD OR STORE up to its EXECUTE body. -/
theorem runLoaded_memory {m : Mnem} (hi : i.mnem = some m) (hm : Mnem.isMemory m = true) {kind : AccessKind} {va : Word}
    (ha : addressBody i (loadInst (slotOf bits len i) s) = pushData va 4 (loadInst (slotOf bits len i) s))
    (hd : ∀ v : State, v.currentInst = some (slotWith { pending := [⟨va, 4⟩] } bits len i) →
      dataTranslateStep v = translateData kind (slotWith { pending := [⟨va, 4⟩] } bits len i) v) :
    runLoaded bits len i s = withTranslation kind va s fun pa =>
      afterChain (some .finish) (executeBody i (s.translated bits len i pa)) := by
  have hc : i.chain = .inst m := by rw [Instr.chain, hi]; rfl
  have hl : (loadInst (slotOf bits len i) s).Assembled := h.assembled
  have hk : Mnem.known (loadInst (slotOf bits len i) s).cfg m := mnem_known _ hi
  have hpush : computeAddressStep (loadInst (slotOf bits len i) s)
      = .cont (loadInst (slotWith { pending := [⟨va, 4⟩] } bits len i) s) := ha.trans rfl
  show runChain i.chain (loadInst (slotOf bits len i) s) = _
  rw [runChain_unfold, hc, assembled_inst hl hk, instChain_memory _ hm, runOps_cons, invoke, hpush, andThen_cont,
    runOps_cons, invoke, hd _ rfl]
  exact runOps_translateData h bits len kind va

/-- What LW makes of the bytes at an address. -/
def loadFrom (rd : Reg) (len : Nat) (s : State) (pa : Word) : Host.Outcome State Fault Refusal :=
  match s.memRead pa 4 with
  | none => .fault .memoryReadFailure
  | some n => .next ((s.writeX rd (sextTo s.cfg.xlen (BitVec.ofNat 32 n))).completes
      (s.pcPlus (BitVec.ofNat 64 len)))

/-- What SW makes of an address. -/
def storeTo (rs2 : Reg) (len : Nat) (s : State) (pa : Word) : Host.Outcome State Fault Refusal :=
  match s.memWrite pa 4 (s.readX rs2).toNat with
  | none => .fault .memoryWriteFailure
  | some t => .next (t.completes (s.pcPlus (BitVec.ofNat 64 len)))

/-- THE RUN OF LW. -/
theorem runLoaded_lw (rd rs1 : Reg) (imm : BitVec 12) : runLoaded bits len (.lw rd rs1 imm) s
    = withTranslation .load (effAddr s rs1 imm) s (loadFrom rd len s) := by
  rw [runLoaded_memory h bits len (m := .lw) (kind := .load) (va := effAddr s rs1 imm) rfl rfl rfl
    (fun v hv => by unfold dataTranslateStep; rw [hv]; rfl)]
  congr 1
  funext pa
  show afterChain _ (match s.memRead pa 4 with
    | none => .abort .memoryReadFailure
    | some n => .cont ((s.entered bits len (.lw rd rs1 imm)).writeX rd (sextTo s.cfg.xlen (BitVec.ofNat 32 n)))) = _
  unfold loadFrom
  cases s.memRead pa 4 with
  | none => rfl
  | some n =>
    dsimp only
    rw [writeX_entered]
    exact afterChain_fallsThrough (s := s) bits len (Ready.writeX h ..) (by simp) (by simp)

/-- THE RUN OF SW. -/
theorem runLoaded_sw (rs1 rs2 : Reg) (imm : BitVec 12) : runLoaded bits len (.sw rs1 rs2 imm) s
    = withTranslation .store (effAddr s rs1 imm) s (storeTo rs2 len s) := by
  rw [runLoaded_memory h bits len (m := .sw) (kind := .store) (va := effAddr s rs1 imm) rfl rfl rfl
    (fun v hv => by unfold dataTranslateStep; rw [hv]; rfl)]
  congr 1
  funext pa
  show afterChain _ (match (s.entered bits len (.sw rs1 rs2 imm)).memWrite pa 4 (s.readX rs2).toNat with
    | none => .abort .memoryWriteFailure
    | some t => .cont t) = _
  rw [memWrite_entered, storeTo]
  cases e : s.memWrite pa 4 (s.readX rs2).toNat with
  | none => rfl
  | some t =>
    obtain ⟨-, rfl⟩ := memWrite_eq_some e
    exact afterChain_fallsThrough (u := { s with mem := s.mem.writeLE pa.toNat 4 (s.readX rs2).toNat }) bits len
      ⟨h.assembled, h.quiet, h.noCause, h.noReturn⟩ rfl rfl

end Memory

end Sys2Proof.Machine
end

section
/-! What a step from between two instructions can end in, said once: a trap taken before or in EXECUTE, an instruction
completed, or a word without a handler retired (42_pipeline_microops.md R260 to R290, 60_exceptions.md R520). -/

namespace Sys2Proof.Machine

/-! ## A word without a handler (R286) -/

/-- Retiring a word without a handler, its destinations already free: as completing, but the post-execute hooks see the
marker. -/
def State.completesUnimplemented (np : Word) (s : State) : State :=
  ({ (s.observed .preExecute false).advance np with lastUnimplemented := true } : State).observed .postExecute true

/-- `t` is `s` with registers of `ds` freed, every integer register written in the process within XLEN bits (log 8). -/
structure Frees (ds : List DestReg) (s t : State) : Prop where
  only : FreesOnly ds s t
  fits : ∀ r : Fin 32, t.xregs.get r = s.xregs.get r ∨ fitsXlen s.cfg.xlen (t.xregs.get r)

theorem writeX_xregs_fits (s : State) (i : Reg) (v : Word) (r : Fin 32) :
    (s.writeX i v).xregs.get r = s.xregs.get r ∨ fitsXlen s.cfg.xlen ((s.writeX i v).xregs.get r) := by
  unfold State.writeX
  split
  · exact .inl rfl
  · simp only [Vector.get_eq_getElem, Vector.getElem_set]
    split
    · exact .inr (trunc_trunc ..)
    · exact .inl rfl

theorem freeDest_xregs_fits (d : DestReg) (s : State) (r : Fin 32) :
    (freeDest d s).xregs.get r = s.xregs.get r ∨ fitsXlen s.cfg.xlen ((freeDest d s).xregs.get r) := by
  obtain ⟨file, index⟩ := d
  cases file with
  | x => exact writeX_xregs_fits { s with freeCtr := s.freeCtr + 1 } index _ r
  | f | v => exact .inl rfl

/-- Freeing a list of destinations one by one. -/
theorem frees_freeDests (ds : List DestReg) (s : State) : Frees ds s (ds.foldl (fun s d => freeDest d s) s) := by
  refine ⟨freeDests_frees ds s, fun r => ?_⟩
  induction ds generalizing s with
  | nil => exact .inl rfl
  | cons d ds ih =>
    have hcfg : (freeDest d s).cfg = s.cfg := by rw [(freeDest_frees d s).rest]
    rw [List.foldl_cons]
    rcases ih (freeDest d s) with e | hf
    · rw [e]
      exact freeDest_xregs_fits d s r
    · exact .inr (hcfg ▸ hf)

/-- Freeing the same registers of a state with another slot and other observers. -/
theorem Frees.of_withRegs {ds : List DestReg} {s v w : State} (h : Frees ds v w) (hcfg : v.cfg = s.cfg)
    (hx : v.xregs = s.xregs) (hf : v.fregs = s.fregs) (hv : v.vregs = s.vregs) :
    Frees ds s { s with xregs := w.xregs, fregs := w.fregs, vregs := w.vregs, freeCtr := w.freeCtr } := by
  obtain ⟨h, hfits⟩ := h
  have hw : w.cfg = s.cfg := by rw [h.rest]; exact hcfg
  refine ⟨⟨rfl, fun r hr => ?_, fun r hr => ?_, fun r hr => ?_⟩, fun r => by rw [← hcfg, ← hx]; exact hfits r⟩
  · have e := h.xreg r hr
    simp only [State.readX, hw, hcfg, hx] at e ⊢
    exact e
  · have e := h.freg r hr
    simp only [State.readF, hf] at e ⊢
    exact e
  · have e := h.vreg r hr
    simp only [State.readV, hv] at e ⊢
    exact e

/-- THE RUN OF A WORD WITHOUT A HANDLER. -/
theorem runChain_external {s : State} (h : s.Ready) (bits : BitVec 32) (len : Nat) {k : Nat}
    (hk : k ∈ s.cfg.externalMnems) (ds : List DestReg) :
    ∃ u, Frees ds s u ∧ runChain (.inst (.external k)) (loadInst (externalSlot bits len k ds) s)
      = .next (u.completesUnimplemented (s.pcPlus (BitVec.ofNat 64 len))) := by
  let ci := externalSlot bits len k ds
  let v : State := { (loadInst ci s).observed .preExecute false with currentInst := some { ci with unimplemented := true } }
  have hfrees : Frees ds v (ds.foldl (fun s d => freeDest d s) v) := frees_freeDests ds v
  have hb : executeStep ((loadInst ci s).observed .preExecute false) = .cont (ds.foldl (fun s d => freeDest d s) v) := rfl
  generalize ds.foldl (fun s d => freeDest d s) v = w at hfrees hb
  have hw := hfrees.only
  refine ⟨_, hfrees.of_withRegs (s := s) rfl rfl rfl rfl, ?_⟩
  have hl : (loadInst ci s).Assembled := h.assembled
  have hq : (loadInst ci s).Quiet := h.quiet
  have ha' : w.Assembled := by rw [hw.rest]; exact h.assembled
  have hq' : w.Quiet := by
    rw [hw.rest]
    exact fun r hr => quiet_observedN (s := s) h.quiet .preExecute false _ r hr
  have hm : w.marker = true := by rw [hw.rest]; rfl
  have hp : w.nextPriv = w.priv := by rw [hw.rest]; exact h.noReturn
  have hrun : runOps (instChain s.cfg.observers (.external k)).ops (loadInst ci s) = .cont w := by
    rw [instChain_plain _ rfl, runOps_append, runOps_preExecute hq, andThen_cont, runOps_cons]
    show (executeStep ((loadInst ci s).observed .preExecute false)).andThen _ = _
    rw [hb]
    rfl
  have hnx : (instChain s.cfg.observers (.external k)).next = some .finish := by rw [instChain_plain _ rfl]
  show runChain (.inst (.external k)) (loadInst ci s) = _
  rw [runChain_unfold, assembled_inst hl (show Mnem.known (loadInst ci s).cfg (.external k) from hk),
    show (loadInst ci s).cfg = s.cfg from rfl, hrun, hnx]
  show runChain .finish w = _
  rw [runChain_finish ha' hq', finishUpdate_eq, hm, commitPriv_of_noReturn hp, hw.rest]
  rfl

/-! ## The ends of a slot -/

/-- What a fault raised in a slot that began in `s` records: `pc`, opcode bits, an effective address or 0 (R525). -/
inductive FaultInfo (s : State) : Word → Prop
  | pc : FaultInfo s s.pc
  | zero : FaultInfo s 0
  | bits (b : BitVec 32) : FaultInfo s (zextTo b)
  | address (rs1 : Reg) (imm : BitVec 12) : FaultInfo s (effAddr s rs1 imm)

/-- `u` is `s` with a cause in the latch. -/
inductive State.Causes (s : State) : State → Prop
  | fault (c : BitVec 6) {info : Word} (h : FaultInfo s info) : s.Causes (s.faulting c info)
  | interrupt (c : BitVec 6) : s.Causes (s.interrupted c)

/-- `t` is where a slot entered in `s`, after FETCH has sampled, can end. -/
inductive State.EndsIn (s : State) : State → Prop
  | trapsEarly {u : State} (h : s.Causes u) : s.EndsIn u.trapsEarly
  | trapsInExecute {u : State} (h : s.Causes u) : s.EndsIn u.trapsInExecute
  | completes {len : Nat} {i : Instr} {u : State} {np : Word} (h : Executes s len i u np) :
      s.EndsIn (u.commitPriv.completes np)
  | stores (pa v : Nat) (off : Word) :
      s.EndsIn (({ s with mem := s.mem.writeLE pa 4 v } : State).completes (s.pcPlus off))
  | frees {ds : List DestReg} {u : State} (h : Frees ds s u) (off : Word) :
      s.EndsIn (u.completesUnimplemented (s.pcPlus off))

section EndsIn
variable {s t : State} (h : s.Ready)
include h

/-- A cause raised before the slot is filled ends in its trap. -/
theorem endsIn_exception {u : State} (hu : s.Causes u) (hs : s.currentInst = none)
    (ht : runChain .exception u = .next t) : s.EndsIn t := by
  have hc : u.latch.faultValid ≠ u.latch.interruptValid := by
    cases hu with
    | fault c => exact oneCause_faulting h.noCause c _
    | interrupt c => exact oneCause_interrupted h.noCause c
  have hm : u.marker = false := by cases hu <;> simp [State.marker, hs]
  have ha : u.Assembled := by cases hu <;> exact h.assembled
  have hq : u.Quiet := by cases hu <;> exact h.quiet
  rw [runChain_exception_eq ha hq hm hc] at ht
  split at ht
  · cases ht
    exact .trapsEarly hu
  · cases ht

omit h in
theorem endsIn_withTranslation {kind : AccessKind} {rs1 : Reg} {imm : BitVec 12}
    {k : Word → Host.Outcome State Fault Refusal} (hk : ∀ pa, k pa = .next t → s.EndsIn t)
    (ht : withTranslation kind (effAddr s rs1 imm) s k = .next t) : s.EndsIn t := by
  unfold withTranslation at ht
  split at ht
  · exact hk _ ht
  · split at ht
    · cases ht
      exact .trapsEarly (.fault _ (.address rs1 imm))
    · cases ht
  · cases ht
  · cases ht

theorem endsIn_loadFrom {rd rs1 : Reg} {imm : BitVec 12} {len : Nat} {pa : Word}
    (ht : loadFrom rd len s pa = .next t) : s.EndsIn t := by
  unfold loadFrom at ht
  split at ht
  · cases ht
  · cases ht
    rename_i n _
    have e : (s.writeX rd (sextTo s.cfg.xlen (BitVec.ofNat 32 n))).commitPriv = s.writeX rd _ :=
      commitPriv_of_noReturn (Ready.writeX h ..).noReturn
    rw [← e]
    exact .completes (len := len) (i := .lw rd rs1 imm) (.writes rfl _ _)

omit h in
theorem endsIn_storeTo {rs2 : Reg} {len : Nat} {pa : Word} (ht : storeTo rs2 len s pa = .next t) : s.EndsIn t := by
  unfold storeTo at ht
  split at ht
  · cases ht
  next e =>
    obtain ⟨-, rfl⟩ := memWrite_eq_some e
    cases ht
    exact .stores ..

/-- Where the run of an instruction word can end. -/
theorem endsIn_runLoaded {bits : BitVec 32} {len : Nat} {i : Instr} {m : Mnem} (hi : i.mnem = some m)
    (ht : runLoaded bits len i s = .next t) : s.EndsIn t := by
  cases hm : Mnem.isMemory m with
  | false =>
    rcases runLoaded_plain_cases h hi hm ht with ⟨u, np, hx, rfl⟩ | ⟨c, info, hinfo, rfl⟩
    · exact .completes hx
    · rcases hinfo with rfl | rfl
      · exact .trapsInExecute (.fault c (.bits bits))
      · exact .trapsInExecute (.fault c .zero)
  | true =>
    cases i with
    | lw rd rs1 imm =>
      rw [runLoaded_lw h] at ht
      exact endsIn_withTranslation (fun pa => endsIn_loadFrom (rs1 := rs1) (imm := imm) h) ht
    | sw rs1 rs2 imm =>
      rw [runLoaded_sw h] at ht
      exact endsIn_withTranslation (fun pa => endsIn_storeTo) ht
    | _ => cases hi <;> cases hm

theorem endsIn_decodeAt {pa : Word} (hs : s.currentInst = none) (ht : afterChain none (decodeAt pa s) = .next t) :
    s.EndsIn t := by
  unfold decodeAt at ht
  split at ht
  · cases ht
  · dsimp only at ht
    split at ht
    · cases ht
    · split at ht
      · exact endsIn_exception h (.fault 2 (.bits _)) hs ht
      next i hd =>
        obtain ⟨w, hw⟩ := decodeWord_of_decodeKnown (decodeKnown_of_decodeBits hd)
        obtain ⟨m, hm⟩ := mnem_of_decodeWord hw
        exact endsIn_runLoaded h hm ht
      next k ds hd =>
        obtain ⟨u, hu, e⟩ := runChain_external h _ _ (externalMnem_of_decodeBits hd) ds
        rw [show afterChain none (.redirect _ _) = runChain (.inst (.external k)) _ from rfl, e] at ht
        cases ht
        exact .frees hu _

end EndsIn

/-- Between two instructions FETCH's sampling leaves a state an instruction may be run from. -/
theorem State.Idle.ready {s : State} (h : s.Idle) : s.sampled.Ready := ⟨h.assembled, h.quiet, h.noCause, rfl⟩

/-- WHAT A STEP OF AN IDLE RUNNING HART CAN END IN. -/
theorem endsIn_of_step {s t : State} (h : s.Idle) (hs : s.stopped = false) (ht : step s = .next t) :
    s.sampled.EndsIn t := by
  have hn : s.sampled.currentInst = none := h.noInst
  rw [step_eq_fetchPhase h hs, fetchPhase] at ht
  split at ht
  · exact endsIn_exception h.ready (.interrupt _) hn ht
  · split at ht
    · exact endsIn_exception h.ready (.fault 0 .pc) hn ht
    · split at ht
      · exact endsIn_decodeAt h.ready hn ht
      · exact endsIn_exception h.ready (.fault 12 .pc) hn ht
      · cases ht
      · cases ht

/-- The step of a stopped idle hart. -/
theorem step_of_stopped {s : State} (hp : s.port = []) (hs : s.stopped = true) : step s = .next s := by
  simp [step, machineStep, hp, schedulerStep, hs]

/-! ## The derived state (10_state.md R29, 20_memory.md R114) -/

/-- A masked read sees only the storage of its own index. -/
theorem readMasked_congr {c : Config} {f g : CsrFile} {i : CsrIdx} (h : f.raw (csrHome i) = g.raw (csrHome i)) :
    f.readMasked c i = g.readMasked c i := by
  unfold CsrFile.readMasked
  split
  next w hw => rw [window_home hw, h]
  next hw => rw [window_none_home hw] at h; rw [h]

theorem deriveInclusions_congr {c : Config} {f g : CsrFile} (h1 : f.raw Csr.misa = g.raw Csr.misa)
    (h2 : f.raw Csr.mstatus = g.raw Csr.mstatus) : deriveInclusions c f = deriveInclusions c g := by
  unfold deriveInclusions CsrFile.field
  rw [readMasked_congr (i := Csr.misa) h1, readMasked_congr (i := Csr.mstatus) h2]

theorem satpMode_congr {c : Config} {f g : CsrFile} (h : f.raw Csr.satp = g.raw Csr.satp) :
    satpMode c f = satpMode c g := by
  unfold satpMode CsrFile.field
  rw [readMasked_congr (i := Csr.satp) h]

theorem deriveFetchMode_congr {c : Config} {f g : CsrFile} (h : f.raw Csr.satp = g.raw Csr.satp) (p : Priv) :
    deriveFetchMode c f p = deriveFetchMode c g p := by
  simp only [deriveFetchMode, satpMode_congr h]

theorem deriveLsMode_congr {c : Config} {f g : CsrFile} (h1 : f.raw Csr.satp = g.raw Csr.satp)
    (h2 : f.raw Csr.mstatus = g.raw Csr.mstatus) (p : Priv) : deriveLsMode c f p = deriveLsMode c g p := by
  unfold deriveLsMode lsPrivEnc CsrFile.field
  rw [satpMode_congr h1, readMasked_congr (i := Csr.mstatus) h2]

/-- What a write-path write leaves in each derived field (R240). -/
theorem csrWrite_derived (s : State) (i : CsrIdx) (v : Word) :
    (s.csrWrite i v).inclusions
        = (if touchesIsa i then deriveInclusions s.cfg (s.csrs.store s.cfg i v) else s.inclusions)
      ∧ (s.csrWrite i v).fetchMode
        = (if touchesMmu i then deriveFetchMode s.cfg (s.csrs.store s.cfg i v) s.priv else s.fetchMode)
      ∧ (s.csrWrite i v).lsMode
        = (if touchesMmu i then deriveLsMode s.cfg (s.csrs.store s.cfg i v) s.priv else s.lsMode)
      ∧ (s.csrWrite i v).staleIsa = (if touchesIsa i then false else s.staleIsa)
      ∧ (s.csrWrite i v).staleMmu = (if touchesMmu i then false else s.staleMmu) := by
  simp only [State.csrWrite, State.csrSideEffects]
  cases touchesIsa i <;> cases touchesMmu i <;> exact ⟨rfl, rfl, rfl, rfl, rfl⟩

section Derived
variable {s t : State}

/-- Every write of a CSR keeps the derived state up to date. -/
theorem State.Derived.csrWrite (h : s.Derived) (i : CsrIdx) (v : Word) : (s.csrWrite i v).Derived := by
  obtain ⟨hinc, hfetch, hls, hisa, hmmu⟩ := csrWrite_derived s i v
  have keeps : ∀ j, csrHome i ≠ j → s.csrs.raw j = (s.csrs.store s.cfg i v).raw j := fun j hj =>
    (store_raw_other hj.symm).symm
  refine ⟨?_, ?_, ?_, ?_, ?_⟩
  · rw [hinc, csrWrite_csrs, csrWrite_cfg]
    split
    · rfl
    next ht =>
      simp only [touchesIsa, Bool.or_eq_true, decide_eq_true_eq, not_or] at ht
      rw [h.isa, deriveInclusions_congr (keeps _ ht.1) (keeps _ ht.2)]
  · rw [hfetch, csrWrite_csrs, csrWrite_cfg, csrWrite_priv]
    split
    · rfl
    next ht =>
      simp only [touchesMmu, Bool.or_eq_true, decide_eq_true_eq, not_or] at ht
      rw [h.fetch, deriveFetchMode_congr (keeps _ ht.1)]
  · rw [hls, csrWrite_csrs, csrWrite_cfg, csrWrite_priv]
    split
    · rfl
    next ht =>
      simp only [touchesMmu, Bool.or_eq_true, decide_eq_true_eq, not_or] at ht
      rw [h.data, deriveLsMode_congr (keeps _ ht.1) (keeps _ ht.2)]
  · rw [hisa, h.notStaleIsa, ite_self]
  · rw [hmmu, h.notStaleMmu, ite_self]

theorem State.Derived.fieldWrite (h : s.Derived) (i : CsrIdx) (F : Field) (v : Word) : (s.fieldWrite i F v).Derived :=
  h.csrWrite i _

theorem State.Derived.writeX (h : s.Derived) (i : Reg) (v : Word) : (s.writeX i v).Derived := by
  rw [writeX_eq_xregs]
  exact ⟨h.isa, h.fetch, h.data, h.notStaleIsa, h.notStaleMmu⟩

theorem State.Derived.setNextPc (h : s.Derived) (v : Word) : (s.setNextPc v).Derived :=
  ⟨h.isa, h.fetch, h.data, h.notStaleIsa, h.notStaleMmu⟩

theorem State.Derived.setNextPriv (h : s.Derived) (p : Priv) : (s.setNextPriv p).Derived :=
  ⟨h.isa, h.fetch, h.data, h.notStaleIsa, h.notStaleMmu⟩

theorem State.Derived.clearVirtualization (h : s.Derived) : (clearVirtualization s).Derived := by
  unfold Machine.clearVirtualization
  split
  · exact (h.fieldWrite ..).fieldWrite ..
  · exact (h.fieldWrite ..).fieldWrite ..

theorem State.Derived.trapEntry (h : s.Derived) (cause tval : Word) : (trapEntry cause tval s).Derived := by
  unfold Machine.trapEntry
  split
  · exact ((((((h.setNextPc _).csrWrite ..).csrWrite ..).csrWrite ..).fieldWrite ..).fieldWrite ..).fieldWrite ..
      |>.setNextPriv _
  · exact ((((((h.setNextPc _).csrWrite ..).csrWrite ..).csrWrite ..).fieldWrite ..).fieldWrite ..).fieldWrite ..
      |>.clearVirtualization.setNextPriv _

theorem State.Derived.takeTrap (h : s.Derived) : (takeTrap s).Derived := by
  obtain ⟨hisa, hfetch, hdata, hsi, hsm⟩ := h.trapEntry (trapCause s.cfg.xlen s.latch.interruptValid s.latch.code)
    (trapValue s s.latch.interruptValid s.latch.code)
  exact ⟨hisa, hfetch, hdata, hsi, hsm⟩

theorem State.Derived.trapReturn (h : s.Derived) (IE PIE PP : Field) (epc : CsrIdx) (p : Priv) :
    (trapReturn IE PIE PP epc p s).Derived := by
  have hb := ((h.fieldWrite Csr.mstatus IE (s.fieldRead Csr.mstatus PIE)).fieldWrite Csr.mstatus PIE 1).fieldWrite
    Csr.mstatus PP 0
  rw [trapReturn_eq]
  refine State.Derived.setNextPc (State.Derived.setNextPriv ?_ p) _
  unfold unstacked
  dsimp only
  split
  · exact hb
  · exact hb.fieldWrite ..

/-- The commit of the mode recomputes the MMU modes when it changes. -/
theorem State.Derived.commitPriv (h : s.Derived) : s.commitPriv.Derived := by
  unfold State.commitPriv
  split
  · exact h
  · exact ⟨h.isa, rfl, rfl, h.notStaleIsa, rfl⟩

theorem State.Derived.csrResult (h : s.Derived) (csr : CsrIdx) (w : Bool) (new : Word) (rd : Reg) :
    (csrResult csr w new rd s).Derived := by
  unfold Machine.csrResult
  split
  · exact (h.csrWrite ..).writeX ..
  · exact h.writeX ..

theorem Executes.derived {len : Nat} {i : Instr} {np : Word} (hx : Executes s len i t np) (h : s.Derived) :
    t.Derived := by
  cases hx with
  | csr => exact h.csrResult ..
  | returns => exact h.trapReturn ..
  | writes => exact h.writeX ..
  | goes => exact h

end Derived

/-! ## Between two instructions -/

/-- All of `State.Idle` but the slot and the cause: what holds throughout a slot from DECODE on. -/
structure State.Undisturbed (s : State) : Prop where
  assembled : s.Assembled
  quiet : s.Quiet
  noCall : s.port = []
  noRequest : s.fetchQueue = {}
  derived : s.Derived

section Undisturbed
variable {s t : State}

theorem State.Idle.undisturbed (h : s.Idle) : s.sampled.Undisturbed :=
  ⟨h.assembled, h.quiet, h.noCall, h.noRequest,
    h.derived.isa, h.derived.fetch, h.derived.data, h.derived.notStaleIsa, h.derived.notStaleMmu⟩

theorem State.Undisturbed.observed (h : s.Undisturbed) (k : HookKind) (m : Bool) : (s.observed k m).Undisturbed :=
  ⟨h.assembled, fun r hr => quiet_observedN h.quiet k m _ r hr, h.noCall, h.noRequest,
    h.derived.isa, h.derived.fetch, h.derived.data, h.derived.notStaleIsa, h.derived.notStaleMmu⟩

theorem State.Undisturbed.advance (h : s.Undisturbed) (np : Word) : (s.advance np).Undisturbed :=
  ⟨h.assembled, h.quiet, h.noCall, h.noRequest,
    h.derived.isa, h.derived.fetch, h.derived.data, h.derived.notStaleIsa, h.derived.notStaleMmu⟩

theorem State.Undisturbed.withMem (h : s.Undisturbed) (m : Memory) : ({ s with mem := m } : State).Undisturbed :=
  ⟨h.assembled, h.quiet, h.noCall, h.noRequest,
    h.derived.isa, h.derived.fetch, h.derived.data, h.derived.notStaleIsa, h.derived.notStaleMmu⟩

theorem State.Undisturbed.withMarker (h : s.Undisturbed) (b : Bool) :
    ({ s with lastUnimplemented := b } : State).Undisturbed :=
  ⟨h.assembled, h.quiet, h.noCall, h.noRequest,
    h.derived.isa, h.derived.fetch, h.derived.data, h.derived.notStaleIsa, h.derived.notStaleMmu⟩

theorem State.Undisturbed.causes (h : s.Undisturbed) (ht : s.Causes t) : t.Undisturbed := by
  obtain ⟨hisa, hfetch, hdata, hsi, hsm⟩ := h.derived
  cases ht <;> exact ⟨h.assembled, h.quiet, h.noCall, h.noRequest, hisa, hfetch, hdata, hsi, hsm⟩

theorem State.Undisturbed.takeTrap (h : s.Undisturbed) : (takeTrap s).Undisturbed :=
  ⟨by simpa [State.Assembled] using h.assembled, by simpa [State.Quiet] using h.quiet, by simpa using h.noCall,
    by simpa using h.noRequest, h.derived.takeTrap⟩

theorem State.Undisturbed.commitPriv (h : s.Undisturbed) : s.commitPriv.Undisturbed :=
  ⟨by simpa [State.Assembled] using h.assembled, by simpa [State.Quiet] using h.quiet, by simpa using h.noCall,
    by simpa using h.noRequest, h.derived.commitPriv⟩

theorem State.Undisturbed.executes {len : Nat} {i : Instr} {np : Word} (h : s.Undisturbed)
    (hx : Executes s len i t np) (hs : s.Ready) : t.Undisturbed := by
  refine ⟨hx.assembled hs, hx.quiet hs, ?_, ?_, hx.derived h.derived⟩
  · cases hx with
    | csr => unfold csrResult; split <;> simpa using h.noCall
    | returns | writes => simpa using h.noCall
    | goes => exact h.noCall
  · cases hx with
    | csr => unfold csrResult; split <;> simpa using h.noRequest
    | returns | writes => simpa using h.noRequest
    | goes => exact h.noRequest

theorem State.Undisturbed.frees {ds : List DestReg} (h : s.Undisturbed) (hu : Frees ds s t) : t.Undisturbed := by
  obtain ⟨hisa, hfetch, hdata, hsi, hsm⟩ := h.derived
  rw [hu.only.rest]
  exact ⟨h.assembled, h.quiet, h.noCall, h.noRequest, hisa, hfetch, hdata, hsi, hsm⟩

/-- An instruction completes in a state between two instructions. -/
theorem State.Undisturbed.completes (h : s.Undisturbed) (hc : s.latch.pending = false) (np : Word) :
    (s.completes np).Idle := by
  have ho := ((h.observed .preExecute false).advance np).observed .postExecute false
  exact ⟨ho.assembled, ho.quiet, ho.noCall, rfl, ho.noRequest, hc, ho.derived⟩

/-- A trap taken leaves no cause pending (60_exceptions.md R531). -/
theorem State.Undisturbed.trapped (h : s.Undisturbed) : s.trapped.Idle := by
  have ho := (h.takeTrap.commitPriv.advance (Machine.takeTrap s).nextPc).observed .postExecute false
  refine ⟨ho.assembled, ho.quiet, ho.noCall, rfl, ho.noRequest, ?_, ho.derived⟩
  simp [State.trapped, Machine.takeTrap, clearCause, CauseLatch.pending]

end Undisturbed

theorem Executes.latch {s u : State} {len : Nat} {i : Instr} {np : Word} (hx : Executes s len i u np) :
    u.latch = s.latch := by
  cases hx with
  | csr => unfold csrResult; split <;> simp
  | returns | writes => simp
  | goes => rfl

/-- Settles O8: each end of a slot leaves the slot empty and no cause, and everything else of an idle state is kept by every
operation on the way. -/
theorem stepKeepsIdle : Obligations.StepKeepsIdle := by
  unfold Obligations.StepKeepsIdle
  intro s t h ht
  cases hs : s.stopped with
  | true =>
    rw [step_of_stopped h.noCall hs] at ht
    cases ht
    exact h
  | false =>
    have hu := h.undisturbed
    cases endsIn_of_step h hs ht with
    | trapsEarly hc => exact ((hu.causes hc).observed ..).trapped
    | trapsInExecute hc => exact (((hu.causes hc).observed ..).observed ..).trapped
    | completes hx =>
      exact (hu.executes hx h.ready).commitPriv.completes (by rw [commitPriv_latch, hx.latch]; exact h.noCause) _
    | stores => exact (hu.withMem _).completes h.noCause _
    | @frees ds u hf off =>
      have ho' := ((((hu.frees hf).observed .preExecute false).advance (s.sampled.pcPlus off)).withMarker true).observed
        .postExecute true
      have hc : u.latch.pending = false := by rw [hf.only.rest]; exact h.noCause
      exact ⟨ho'.assembled, ho'.quiet, ho'.noCall, rfl, ho'.noRequest, hc, ho'.derived⟩

end Sys2Proof.Machine
end

section
/-! USER mode: what a step keeps of the CSRs of the higher modes (R341), and how it is left (R520, R523). -/

namespace Sys2Proof.Machine

/-! ## Where a trap goes (R523) -/

/-- A trap goes to the address in the vector register of its level, bit 0 clear. -/
theorem takeTrap_nextPc (s : State) :
    (takeTrap s).nextPc = (if trapToS s then s.csrRead Csr.stvec else s.csrRead Csr.mtvec) &&& ~~~1 := by
  show (trapEntry _ _ s).nextPc = _
  unfold trapEntry
  split
  · simp [trapEntryS, State.setNextPc, State.setNextPriv]
  · simp [trapEntryM, State.setNextPc, State.setNextPriv]

theorem trapped_pc (s : State) : s.trapped.pc = (takeTrap s).nextPc := rfl

theorem trapped_priv (s : State) : s.trapped.priv = (takeTrap s).nextPriv := by
  show (takeTrap s).commitPriv.priv = _
  unfold State.commitPriv
  split
  next h => exact h.symm
  next => rfl

/-- The mode and the address a trap ends at, of a state with the CSRs and the configuration of `s`. -/
theorem trapped_through_vector {s u : State} (hcfg : u.cfg = s.cfg) (hcsrs : u.csrs = s.csrs) :
    (u.trapped.priv = .supervisor ∧ u.trapped.pc = s.csrRead Csr.stvec &&& ~~~1)
      ∨ (u.trapped.priv = .machine ∧ u.trapped.pc = s.csrRead Csr.mtvec &&& ~~~1) := by
  have hread {i : CsrIdx} (h1 : i ≠ Csr.mepc) (h2 : i ≠ Csr.sepc) : u.csrRead i = s.csrRead i := by
    rw [csrRead_eq_readMasked u h1 h2, csrRead_eq_readMasked s h1 h2, hcfg, hcsrs]
  rw [trapped_priv, trapped_pc, takeTrap_nextPriv, takeTrap_nextPc, hread (i := Csr.stvec) (by decide) (by decide),
    hread (i := Csr.mtvec) (by decide) (by decide)]
  cases trapToS u with
  | true => exact .inl ⟨rfl, rfl⟩
  | false => exact .inr ⟨rfl, rfl⟩

/-- No trap is taken to USER mode. -/
theorem trapped_priv_ne_user (s : State) : s.trapped.priv ≠ .user := by
  rw [trapped_priv, takeTrap_nextPriv]
  split <;> simp

theorem State.Causes.cfg {s u : State} (h : s.Causes u) : u.cfg = s.cfg := by cases h <;> rfl

theorem State.Causes.csrs {s u : State} (h : s.Causes u) : u.csrs = s.csrs := by cases h <;> rfl

/-! ## What USER mode may write (R341) -/

/-- No window belongs to USER mode. -/
theorem csrHome_of_userLevel {i : CsrIdx} (h : i.extractLsb' 8 2 = 0) : csrHome i = i := by
  have h1 : i ≠ Csr.sstatus := by rintro rfl; exact absurd h (by decide)
  have h2 : i ≠ Csr.sie := by rintro rfl; exact absurd h (by decide)
  have h3 : i ≠ Csr.sip := by rintro rfl; exact absurd h (by decide)
  simp [csrHome, h1, h2, h3]

/-- In USER mode only a CSR of USER level passes the check. -/
theorem level_of_csrLegal_user {s : State} {csr : CsrIdx} {w : Bool} (hp : s.priv = .user)
    (h : csrLegal s csr w = true) : csr.extractLsb' 8 2 = 0 := by
  simp only [csrLegal, Bool.and_eq_true, decide_eq_true_eq, hp] at h
  obtain ⟨⟨⟨-, hl⟩, -⟩, -⟩ := h
  exact BitVec.le_zero_iff.1 hl

/-- A CSR instruction changes the storage of the CSR it names only, and none where it does not write. -/
theorem csrResult_raw_other {csr i : CsrIdx} {w : Bool} {new : Word} {rd : Reg} {s : State} (h : i ≠ csrHome csr) :
    (csrResult csr w new rd s).csrs.raw i = s.csrs.raw i := by
  cases w with
  | false => simp [csrResult]
  | true => simp [csrResult, store_raw_other h]

/-- An instruction completed in USER mode changes no CSR of a higher mode. -/
theorem Executes.raw_of_user {s u : State} {len : Nat} {i : Instr} {np : Word} (h : Executes s len i u np)
    (hp : s.priv = .user) {j : CsrIdx} (hj : j.extractLsb' 8 2 ≠ 0) : u.csrs.raw j = s.csrs.raw j := by
  cases h with
  | csr _ _ hl =>
    have h0 := level_of_csrLegal_user hp hl
    exact csrResult_raw_other (by rw [csrHome_of_userLevel h0]; rintro rfl; exact hj h0)
  | returns hn => exact absurd hp hn
  | writes => simp
  | goes => rfl

/-- An instruction completed in USER mode stays there. -/
theorem Executes.priv_of_user {s u : State} {len : Nat} {i : Instr} {np : Word} (h : Executes s len i u np)
    (hr : s.Ready) (hp : s.priv = .user) : u.commitPriv.priv = .user := by
  have hu : u.nextPriv = u.priv ∧ u.priv = s.priv := by
    cases h with
    | csr => exact ⟨(Ready.csrResult hr).noReturn, by unfold csrResult; split <;> simp⟩
    | returns hn => exact absurd hp hn
    | writes => exact ⟨(Ready.writeX hr ..).noReturn, by simp⟩
    | goes => exact ⟨hr.noReturn, rfl⟩
  rw [commitPriv_of_noReturn hu.1, hu.2, hp]

/-- Settles O15: of the ends of a slot only a CSR instruction's changes a CSR, and a trap leaves USER mode. -/
theorem userModeKeepsPrivilegedCsrs : Obligations.UserModeKeepsPrivilegedCsrs := by
  unfold Obligations.UserModeKeepsPrivilegedCsrs
  intro s t i h hp ht htp hi
  cases hs : s.stopped with
  | true =>
    rw [step_of_stopped h.noCall hs] at ht
    cases ht
    rfl
  | false =>
    cases endsIn_of_step h hs ht with
    | trapsEarly | trapsInExecute => exact absurd htp (trapped_priv_ne_user _)
    | completes hx => simpa [State.completes] using hx.raw_of_user hp hi
    | stores => rfl
    | frees hf => simp only [State.completesUnimplemented, observed_csrs, advance_csrs]; rw [hf.only.rest]; rfl

/-- Settles O16: of the ends of a slot only a trap's is in another mode. -/
theorem userModeIsLeftThroughTheVector : Obligations.UserModeIsLeftThroughTheVector := by
  unfold Obligations.UserModeIsLeftThroughTheVector
  intro s t h hp ht htp
  cases hs : s.stopped with
  | true =>
    rw [step_of_stopped h.noCall hs] at ht
    cases ht
    exact absurd hp htp
  | false =>
    cases endsIn_of_step h hs ht with
    | trapsEarly hc => exact trapped_through_vector (by simp [hc.cfg]) (by simp [hc.csrs])
    | trapsInExecute hc => exact trapped_through_vector (by simp [hc.cfg]) (by simp [hc.csrs])
    | completes hx => exact absurd (by simpa [State.completes] using hx.priv_of_user h.ready hp) htp
    | stores => exact absurd hp htp
    | frees hf =>
      refine absurd ?_ htp
      simp only [State.completesUnimplemented, observed_priv, advance_priv]
      rw [hf.only.rest]
      exact hp

end Sys2Proof.Machine
end

section
/-! Values of XLEN bits stay within XLEN bits (log 23): every operation of a step keeps them so. -/

namespace Sys2Proof.Machine

/-! ## Values -/

section Values
variable {x : XLen} {a b : Word}

theorem fitsXlen_trunc (x : XLen) (v : Word) : fitsXlen x (x.trunc v) := trunc_trunc x v

theorem fitsXlen_zero (x : XLen) : fitsXlen x 0 := by cases x <;> rfl

/-- A mask keeps a value within XLEN bits. -/
theorem fitsXlen.and (h : fitsXlen x a) (m : Word) : fitsXlen x (a &&& m) := by
  cases x with
  | rv64 => rfl
  | rv32 =>
    have e : (a.setWidth 32).setWidth 64 = a := h
    show ((a &&& m).setWidth 32).setWidth 64 = a &&& m
    rw [BitVec.setWidth_and, BitVec.setWidth_and, e, BitVec.and_comm a, BitVec.and_comm a]
    exact trunc_and_of_fits (x := .rv32) h m

theorem fitsXlen.or (ha : fitsXlen x a) (hb : fitsXlen x b) : fitsXlen x (a ||| b) := by
  cases x with
  | rv64 => rfl
  | rv32 =>
    have ea : (a.setWidth 32).setWidth 64 = a := ha
    have eb : (b.setWidth 32).setWidth 64 = b := hb
    show ((a ||| b).setWidth 32).setWidth 64 = a ||| b
    rw [BitVec.setWidth_or, BitVec.setWidth_or, ea, eb]

/-- Opcode bits fit either width. -/
theorem fitsXlen_opcode (x : XLen) (v : BitVec 32) : fitsXlen x (zextTo v) := by
  cases x with
  | rv64 => rfl
  | rv32 =>
    show (((v.setWidth 64).setWidth 32).setWidth 64) = v.setWidth 64
    rw [BitVec.setWidth_setWidth_of_le v (by decide : 32 ≤ 64), BitVec.setWidth_eq]

theorem fitsXlen.maskedNew (ha : fitsXlen x a) (hb : fitsXlen x b) (m : Word) : fitsXlen x (maskedNew a m b) :=
  (ha.and _).or (hb.and _)

end Values

/-- The exit code after any replies of observers. -/
theorem fitsXlen_exitAfter {x : XLen} {e : Word} (he : fitsXlen x e) (rs : List HookReply) :
    fitsXlen x (exitAfter x e rs) := by
  induction rs generalizing e with
  | nil => exact he
  | cons r rs ih =>
    refine ih ?_
    dsimp only
    split
    · exact fitsXlen_trunc x _
    · exact he

/-! ## CSRs -/

/-- A masked store keeps every raw value within XLEN bits. -/
theorem fitsXlen_store {c : Config} {f : CsrFile} (h : ∀ i, fitsXlen c.xlen (f.raw i)) (i : CsrIdx) (v : Word)
    (j : CsrIdx) : fitsXlen c.xlen ((f.store c i v).raw j) := by
  have hset {k : CsrIdx} {w : Word} (hw : fitsXlen c.xlen w) : fitsXlen c.xlen ((f.set k w).raw j) := by
    by_cases e : j = k
    · rw [e, raw_set_same]
      exact hw
    · rw [raw_set_other e]
      exact h j
  unfold CsrFile.store
  split
  · exact hset ((h _).maskedNew ((h _).maskedNew (fitsXlen_trunc ..) _) _)
  · exact hset ((h _).maskedNew (fitsXlen_trunc ..) _)

theorem fitsXlen_read {c : Config} {f : CsrFile} (h : ∀ i, fitsXlen c.xlen (f.raw i)) (b : Bool) (i : CsrIdx) :
    fitsXlen c.xlen (f.read c b i) := by
  have hm : fitsXlen c.xlen (f.readMasked c i) := by
    unfold CsrFile.readMasked
    split
    · exact ((h _).and _).and _
    · exact (h _).and _
  unfold CsrFile.read
  split
  · exact hm.and _
  · exact hm

/-! ## The operations on a state -/

section Fits
variable {s t : State}

theorem State.Fits.csrRead (h : s.Fits) (i : CsrIdx) : fitsXlen s.cfg.xlen (s.csrRead i) := fitsXlen_read h.csrs _ i

theorem State.Fits.setNextPc (h : s.Fits) {v : Word} (hv : fitsXlen s.cfg.xlen v) : (s.setNextPc v).Fits :=
  ⟨h.pc, hv, h.prevPc, h.exitCode, h.info, h.xregs, h.csrs⟩

theorem State.Fits.setNextPriv (h : s.Fits) (p : Priv) : (s.setNextPriv p).Fits :=
  ⟨h.pc, h.nextPc, h.prevPc, h.exitCode, h.info, h.xregs, h.csrs⟩

theorem State.Fits.csrWrite (h : s.Fits) (i : CsrIdx) (v : Word) : (s.csrWrite i v).Fits := by
  refine ⟨?_, ?_, ?_, ?_, ?_, ?_, fun j => ?_⟩
  case refine_7 =>
    rw [csrWrite_cfg, csrWrite_csrs]
    exact fitsXlen_store h.csrs i v j
  all_goals simp only [csrWrite_cfg, csrWrite_pc, csrWrite_nextPc, csrWrite_prevPc, csrWrite_exitCode, csrWrite_latch,
    csrWrite_xregs]
  exacts [h.pc, h.nextPc, h.prevPc, h.exitCode, h.info, h.xregs]

theorem State.Fits.fieldWrite (h : s.Fits) (i : CsrIdx) (F : Field) (v : Word) : (s.fieldWrite i F v).Fits :=
  h.csrWrite i _

theorem State.Fits.writeX (h : s.Fits) (i : Reg) (v : Word) : (s.writeX i v).Fits := by
  have hx (r : Fin 32) : fitsXlen s.cfg.xlen ((s.writeX i v).xregs.get r) := by
    rcases writeX_xregs_fits s i v r with e | hf
    · rw [e]
      exact h.xregs r
    · exact hf
  rw [writeX_eq_xregs]
  exact ⟨h.pc, h.nextPc, h.prevPc, h.exitCode, h.info, hx, h.csrs⟩

theorem State.Fits.observed (h : s.Fits) (k : HookKind) (m : Bool) : (s.observed k m).Fits :=
  ⟨h.pc, h.nextPc, h.prevPc, fitsXlen_exitAfter h.exitCode _, h.info, h.xregs, h.csrs⟩

theorem State.Fits.advance (h : s.Fits) {np : Word} (hv : fitsXlen s.cfg.xlen np) : (s.advance np).Fits :=
  ⟨hv, hv, h.pc, h.exitCode, h.info, h.xregs, h.csrs⟩

theorem State.Fits.completes (h : s.Fits) {np : Word} (hv : fitsXlen s.cfg.xlen np) : (s.completes np).Fits :=
  ((h.observed ..).advance hv).observed ..

theorem State.Fits.withMarker (h : s.Fits) (b : Bool) : ({ s with lastUnimplemented := b } : State).Fits :=
  ⟨h.pc, h.nextPc, h.prevPc, h.exitCode, h.info, h.xregs, h.csrs⟩

theorem State.Fits.withMem (h : s.Fits) (m : Memory) : ({ s with mem := m } : State).Fits :=
  ⟨h.pc, h.nextPc, h.prevPc, h.exitCode, h.info, h.xregs, h.csrs⟩

theorem State.Fits.commitPriv (h : s.Fits) : s.commitPriv.Fits := by
  refine ⟨?_, ?_, ?_, ?_, ?_, ?_, ?_⟩ <;>
    simp only [commitPriv_cfg, commitPriv_pc, commitPriv_nextPc, commitPriv_prevPc, commitPriv_exitCode, commitPriv_latch,
      commitPriv_xregs, commitPriv_csrs]
  exacts [h.pc, h.nextPc, h.prevPc, h.exitCode, h.info, h.xregs, h.csrs]

theorem State.Fits.clearVirtualization (h : s.Fits) : (clearVirtualization s).Fits := by
  unfold Machine.clearVirtualization
  split <;> exact (h.fieldWrite ..).fieldWrite ..

theorem State.Fits.trapEntry (h : s.Fits) (c v : Word) : (trapEntry c v s).Fits := by
  unfold Machine.trapEntry
  split
  · unfold trapEntryS
    exact (((((((h.setNextPc ((h.csrRead _).and _)).csrWrite ..).csrWrite ..).csrWrite ..).fieldWrite ..).fieldWrite
      ..).fieldWrite ..).setNextPriv _
  · unfold trapEntryM
    exact ((((((((h.setNextPc ((h.csrRead _).and _)).csrWrite ..).csrWrite ..).csrWrite ..).fieldWrite ..).fieldWrite
      ..).fieldWrite ..).clearVirtualization).setNextPriv _

theorem State.Fits.takeTrap (h : s.Fits) : (takeTrap s).Fits := by
  have ht := h.trapEntry (trapCause s.cfg.xlen s.latch.interruptValid s.latch.code)
    (trapValue s s.latch.interruptValid s.latch.code)
  exact ⟨ht.pc, ht.nextPc, ht.prevPc, ht.exitCode, ht.info, ht.xregs, ht.csrs⟩

theorem State.Fits.trapped (h : s.Fits) : s.trapped.Fits := by
  have ht := h.takeTrap
  exact (ht.commitPriv.advance (by rw [commitPriv_cfg]; exact ht.nextPc)).observed ..

theorem State.Fits.trapReturn (h : s.Fits) (IE PIE PP : Field) (epc : CsrIdx) (p : Priv) :
    (trapReturn IE PIE PP epc p s).Fits := by
  have hu : (unstacked IE PIE PP p s).Fits := by
    unfold unstacked
    dsimp only
    split
    · exact ((h.fieldWrite ..).fieldWrite ..).fieldWrite ..
    · exact (((h.fieldWrite ..).fieldWrite ..).fieldWrite ..).fieldWrite ..
  rw [trapReturn_eq]
  exact (hu.setNextPriv p).setNextPc (hu.csrRead epc)

/-! ## The ends of a slot -/

theorem FaultInfo.fits (h : s.Fits) {v : Word} (hv : FaultInfo s v) : fitsXlen s.cfg.xlen v := by
  cases hv with
  | pc => exact h.pc
  | zero => exact fitsXlen_zero _
  | bits b => exact fitsXlen_opcode _ b
  | address => exact fitsXlen_trunc ..

theorem State.Fits.causes (h : s.Fits) (ht : s.Causes t) : t.Fits := by
  cases ht with
  | fault c hi => exact ⟨h.pc, h.nextPc, h.prevPc, h.exitCode, hi.fits h, h.xregs, h.csrs⟩
  | interrupt c => exact ⟨h.pc, h.nextPc, h.prevPc, h.exitCode, fitsXlen_zero _, h.xregs, h.csrs⟩

theorem State.Fits.frees (h : s.Fits) {ds : List DestReg} (ht : Frees ds s t) : t.Fits := by
  have hx (r : Fin 32) : fitsXlen s.cfg.xlen (t.xregs.get r) := by
    rcases ht.fits r with e | hf
    · rw [e]
      exact h.xregs r
    · exact hf
  rw [ht.only.rest]
  exact ⟨h.pc, h.nextPc, h.prevPc, h.exitCode, h.info, hx, h.csrs⟩

/-- An instruction that completes leaves a state that fits and an address that does. -/
theorem State.Fits.executes (h : s.Fits) {len : Nat} {i : Instr} {np : Word} (hx : Executes s len i t np) :
    t.Fits ∧ fitsXlen t.cfg.xlen np := by
  cases hx with
  | csr =>
    unfold csrResult
    split
    · exact ⟨(h.csrWrite ..).writeX .., by rw [writeX_cfg, csrWrite_cfg]; exact fitsXlen_trunc ..⟩
    · exact ⟨h.writeX .., by rw [writeX_cfg]; exact fitsXlen_trunc ..⟩
  | returns =>
    have ht := h.trapReturn
    exact ⟨ht .., (ht ..).nextPc⟩
  | writes => exact ⟨h.writeX .., by rw [writeX_cfg]; exact fitsXlen_trunc ..⟩
  | goes => exact ⟨h, fitsXlen_trunc ..⟩

end Fits

/-- Settles O13: every end of a slot is composed of operations that keep the widths. -/
theorem stepKeepsWidths : Obligations.StepKeepsWidths := by
  unfold Obligations.StepKeepsWidths
  intro s t h hf ht
  cases hs : s.stopped with
  | true =>
    rw [step_of_stopped h.noCall hs] at ht
    cases ht
    exact hf
  | false =>
    have hsam : s.sampled.Fits := ⟨hf.pc, hf.nextPc, hf.prevPc, hf.exitCode, hf.info, hf.xregs, hf.csrs⟩
    cases endsIn_of_step h hs ht with
    | trapsEarly hc => exact ((hsam.causes hc).observed ..).trapped
    | trapsInExecute hc => exact (((hsam.causes hc).observed ..).observed ..).trapped
    | completes hx =>
      obtain ⟨hu, hnp⟩ := hsam.executes hx
      exact hu.commitPriv.completes (by rw [commitPriv_cfg]; exact hnp)
    | stores => exact (hsam.withMem _).completes (fitsXlen_trunc ..)
    | @frees ds u hfr off =>
      have hnp : fitsXlen u.cfg.xlen (s.sampled.pcPlus off) := by rw [hfr.only.rest]; exact fitsXlen_trunc ..
      exact ((((hsam.frees hfr).observed ..).advance hnp).withMarker true).observed ..

end Sys2Proof.Machine
end

section
/-! The fetch phase of a step from between two instructions: the trap it takes, the word it runs, the word without a handler
(42_pipeline_microops.md R262 to R265, 30_encoding.md R150 to R156). -/

namespace Sys2Proof.Machine

/-! ## Where the fetch phase leads -/

/-- DECODE of a word that lies in one page, or of a parcel. -/
def decoded (w : BitVec 32) (s : State) : MicroOut :=
  match decodeBits s.cfg s.inclusions (s.isShort w) (s.fetchedBits w) with
  | .illegal => .redirect .exception (s.faulting 2 (zextTo (s.fetchedBits w)))
  | .known i => .redirect i.chain (loadInst (slotOf (s.fetchedBits w) (s.fetchedLen w) i) s)
  | .unimplemented k ds =>
    .redirect (.inst (.external k)) (loadInst (externalSlot (s.fetchedBits w) (s.fetchedLen w) k ds) s)

theorem decodeAt_of_memRead {s : State} {pa : Word} {n : Nat} (hn : s.memRead pa 4 = some n) :
    decodeAt pa s = if !s.isShort (BitVec.ofNat 32 n) && s.fetchMode ≠ .bare && s.pc &&& 0xFFF = 0xFFE
      then .refuse .pageCrossingAccess else decoded (BitVec.ofNat 32 n) s := by
  rw [decodeAt, hn]
  rfl

section FetchPhase
variable {s : State} {w : BitVec 32}

/-- With no interrupt, an aligned `pc` and a translation the fetch phase decodes the bytes at that address. -/
theorem fetchPhase_of_translate {pa : Word} (hirq : s.irqReq = none) (hmis : s.pcMisaligned = false)
    (htr : translate .fetch s.sampled s.pc = .ok pa) : fetchPhase s = decodeAt pa s.sampled := by
  simp only [fetchPhase, hirq, hmis, htr, Bool.false_eq_true, if_false]

theorem fetchPhase_of_fetches (h : s.Fetches w) : fetchPhase s = decoded w s.sampled := by
  obtain ⟨pa, n, htr, hn, rfl⟩ := h.found
  rw [fetchPhase_of_translate h.noInterrupt h.aligned htr, decodeAt_of_memRead (s := s.sampled) hn, if_neg]
  have hp := h.onePage
  simp only [Bool.and_eq_true, Bool.not_eq_true', decide_eq_true_eq, not_and]
  rintro ⟨hshort, hbare⟩ hpc
  rcases hp hshort with hb | hne
  · exact hbare hb
  · exact hne hpc

/-- A step from a state that fetches a word leads where DECODE of it leads. -/
theorem step_of_fetches (h : s.Idle) (hf : s.Fetches w) : step s = afterChain none (decoded w s.sampled) := by
  rw [step_eq_fetchPhase h hf.running, fetchPhase_of_fetches hf]

/-- A step that fetches a known word or parcel is its run. -/
theorem step_known (h : s.Idle) (hf : s.Fetches w) {i : Instr}
    (hd : decodeBits s.cfg s.inclusions (s.isShort w) (s.fetchedBits w) = .known i) :
    step s = runLoaded (s.fetchedBits w) (s.fetchedLen w) i s.sampled := by
  rw [step_of_fetches h hf, show decoded w s.sampled = .redirect i.chain _ by
    unfold decoded
    rw [show decodeBits s.sampled.cfg s.sampled.inclusions (s.sampled.isShort w) (s.sampled.fetchedBits w) = _ from hd]]
  rfl

/-- A cause raised in the fetch phase is the step's trap. -/
theorem step_traps (h : s.Idle) (hs : s.stopped = false) {u : State} (hu : s.sampled.Causes u)
    (hp : fetchPhase s = .redirect .exception u) (ha : isaAccepted s.cfg (takeTrap u).inclusions = true) :
    step s = .next u.trapsEarly := by
  have hr := h.ready
  have hc : u.latch.faultValid ≠ u.latch.interruptValid := by
    cases hu with
    | fault c => exact oneCause_faulting hr.noCause c _
    | interrupt c => exact oneCause_interrupted hr.noCause c
  have hm : u.marker = false := by cases hu <;> simp [State.marker, h.noInst]
  have hua : u.Assembled := by cases hu <;> exact hr.assembled
  have huq : u.Quiet := by cases hu <;> exact hr.quiet
  rw [step_eq_fetchPhase h hs, hp]
  show runChain .exception u = _
  rw [runChain_exception_eq hua huq hm hc, if_pos (by rw [hu.cfg]; exact ha)]

/-- A word of the twenty whose extension is enabled is no parcel, and is run as it stands. -/
theorem step_word (h : s.Idle) (hf : s.Fetches w) {i : Instr} (hw : decodeWord w = some i)
    (he : enables s.inclusions (needsOf s.cfg i) = true) : step s = exec i s.sampled := by
  have hshort : s.isShort w = false := by simp [State.isShort, low_bits_of_decodeWord hw]
  have hbits : s.fetchedBits w = w := by simp [State.fetchedBits, hshort]
  have hlen : s.fetchedLen w = 4 := by simp [State.fetchedLen, hshort]
  obtain ⟨m, hm⟩ := mnem_of_decodeWord hw
  rw [step_known h hf (i := i) (by rw [hshort, hbits]; exact decodeBits_word hw he), hbits, hlen, exec_eq_runInst hm, runInst,
    encodedWord_of_decodeWord hw]

/-- A parcel that the configuration expands is run with itself as opcode bits and length 2. -/
theorem step_parcel (h : s.Idle) (hf : s.Fetches w) {i : Instr} (hs : s.isShort w = true)
    (hd : decodeBits s.cfg s.inclusions true (w &&& 0xFFFF) = .known i) :
    step s = runLoaded (w &&& 0xFFFF) 2 i s.sampled := by
  have hbits : s.fetchedBits w = w &&& 0xFFFF := by simp [State.fetchedBits, hs]
  have hlen : s.fetchedLen w = 2 := by simp [State.fetchedLen, hs]
  rw [step_known h hf (i := i) (by rw [hs, hbits]; exact hd), hbits, hlen]

end FetchPhase

/-! ## The step and the operation step (R260, log 16) -/

/-- The operation step is the scheduler's invocation. -/
theorem exec_opStep (s : State) : exec .opStep s = schedulerStep s := rfl

theorem opStep_eq_step {s : State} (h : s.Idle) (hs : s.stopped = false) : exec .opStep s = step s := by
  rw [step_of_idle h hs, exec_opStep, schedulerStep, hs, h.derived.notStaleIsa, h.derived.notStaleMmu]
  rfl

/-- ADDI retires after its own bits, whatever stood for it. -/
theorem runLoaded_addi {s : State} (h : s.Ready) (bits : BitVec 32) (len : Nat) (rd rs1 : Reg) (imm : BitVec 12) :
    runLoaded bits len (.addi rd rs1 imm) s
      = .next ((s.writeX rd (s.readX rs1 + sextTo s.cfg.xlen imm)).completes (s.pcPlus (BitVec.ofNat 64 len))) := by
  refine runLoaded_completes h (Ready.writeX h rd _) (m := .addi) rfl rfl ?_
  show MicroOut.cont ((s.entered bits len (.addi rd rs1 imm)).writeX rd _) = _
  rw [writeX_entered, show s.pcPlus _ = (s.writeX rd (s.readX rs1 + sextTo s.cfg.xlen imm)).pcPlus _
    from (pcPlus_writeX ..).symm]
  rfl

/-! ## The obligations -/

/-- Settles O4: the word or parcel at `pc` is decoded and run. -/
theorem stepRunsTheDecodedInstruction : Obligations.StepRunsTheDecodedInstruction := by
  unfold Obligations.StepRunsTheDecodedInstruction
  intro s w i h hf
  exact ⟨step_word h hf, step_parcel h hf⟩

/-- A call of the host for a micro-op step or an interface operation is that form's meaning. -/
theorem servePort_op {i : Instr} (hi : i.kind ≠ .word) (s : State) : servePort (.op i) s = exec i s := by
  simp only [servePort]
  split
  next hk => exact absurd hk hi
  next => rfl
  next => rfl

/-- Settles O5: every form but a word is served as itself. -/
theorem stepServesTheOldestCall : Obligations.StepServesTheOldestCall := by
  unfold Obligations.StepServesTheOldestCall
  intro s i cs hport hi
  show machineStep s = _
  rw [machineStep, hport]
  exact servePort_op hi _

/-- Settles O6. -/
theorem stoppedStepChangesNothing : Obligations.StoppedStepChangesNothing := by
  unfold Obligations.StoppedStepChangesNothing
  intro s hs hport
  exact ⟨step_of_stopped hport hs, by rw [exec_opStep, schedulerStep, if_pos hs]⟩

/-- Settles O7: between two instructions the operation step is the step, and ADDI's run is known for both lengths. -/
theorem opStepRunsOneSlot : Obligations.OpStepRunsOneSlot := by
  unfold Obligations.OpStepRunsOneSlot
  intro s w h hf
  rw [opStep_eq_step h hf.running]
  refine ⟨fun i hw he => step_word h hf hw he, fun rd rs1 imm => ⟨fun hw he => ?_, fun hs hd => ?_⟩⟩
  · have hdec : decodeWord w = some (.addi rd rs1 imm) := by
      rw [hw]
      exact decodeOfEncode (.addi rd rs1 imm) rfl
    rw [step_word h hf hdec he, exec_eq_runInst (m := .addi) rfl, runInst, runLoaded_addi h.ready]
    rfl
  · rw [step_parcel h hf hs hd, runLoaded_addi h.ready]
    rfl

/-- Settles O52: the four causes in the order of the fetch phase. -/
theorem fetchPhaseTraps : Obligations.FetchPhaseTraps := by
  unfold Obligations.FetchPhaseTraps
  intro s h hs
  refine ⟨fun c hirq ha => ?_, fun hirq hmis ha => ?_, fun hirq hmis htr ha => ?_, fun w hf => ?_⟩
  · exact step_traps h hs (.interrupt c) (by simp only [fetchPhase, hirq]) ha
  · exact step_traps h hs (.fault 0 .pc) (by simp only [fetchPhase, hirq, hmis, if_true]) ha
  · exact step_traps h hs (.fault 12 .pc)
      (by simp only [fetchPhase, hirq, hmis, htr, Bool.false_eq_true, if_false]) ha
  · intro bits hd ha
    refine step_traps h hs (.fault 2 (.bits bits)) ?_ ha
    rw [fetchPhase_of_fetches hf, decoded,
      show decodeBits s.sampled.cfg s.sampled.inclusions (s.sampled.isShort w) (s.sampled.fetchedBits w) = _ from hd]
    rfl

/-- Settles O53: the run of a word without a handler frees its destinations and retires it. -/
theorem unimplementedWordRetires : Obligations.UnimplementedWordRetires := by
  unfold Obligations.UnimplementedWordRetires
  intro s w k ds h hf bits hd
  obtain ⟨u, hu, hrun⟩ := runChain_external h.ready bits (s.fetchedLen w) (externalMnem_of_decodeBits hd) ds
  obtain ⟨hrest, hx, hfr, hv⟩ := hu.only
  have hstep : step s = .next (u.completesUnimplemented (s.sampled.pcPlus (BitVec.ofNat 64 (s.fetchedLen w)))) := by
    rw [step_of_fetches h hf, show decoded w s.sampled = .redirect (.inst (.external k)) _ by
      unfold decoded
      rw [show decodeBits s.sampled.cfg s.sampled.inclusions (s.sampled.isShort w) (s.sampled.fetchedBits w) = _ from hd]]
    exact hrun
  have hpc : s.sampled.pcPlus (BitVec.ofNat 64 (s.fetchedLen w)) = s.pcPlus (if s.isShort w then 2 else 4) := by
    unfold State.fetchedLen
    split <;> rfl
  refine ⟨_, hstep, hpc, ?_, ?_, rfl, fun r => ⟨hx r, hfr r, hv r⟩, ?_⟩
  · show u.pc = _
    rw [hrest]
    rfl
  · show u.icount + 1 = _
    rw [hrest]
    rfl
  · rw [hrest]
    exact ⟨fun _ => rfl, ⟨rfl, rfl, rfl, rfl, rfl, rfl, rfl⟩, rfl, hf.running, h.noRequest, rfl⟩

end Sys2Proof.Machine
end

section
/-! LW and SW, the trap returns, the privileged instructions below their mode, and the frame of every instruction word
(44_reference_handlers.md section 2, 43_system_instructions.md). -/

namespace Sys2Proof.Machine

/-! ## LW and SW (R403, R404, R128) -/

section Access
variable {kind : AccessKind} {s : State} {va pa : Word} {k : Word → Host.Outcome State Fault Refusal}

/-- A request that crosses no page under translation resolves to its translation. -/
theorem resolveRequest_of_onePage {r : Request} (h : (modeFor kind s).translating = true → crossesPage r = false) :
    resolveRequest kind s r = translate kind s r.vaddr := by
  unfold resolveRequest
  refine if_neg fun hc => ?_
  simp only [Bool.and_eq_true] at hc
  obtain ⟨⟨-, htr⟩, hcross⟩ := hc
  rw [h htr] at hcross
  cases hcross

theorem withTranslation_of_translate (h : (modeFor kind s).translating = true → crossesPage ⟨va, 4⟩ = false)
    (ht : translate kind s va = .ok pa) : withTranslation kind va s k = k pa := by
  rw [withTranslation, resolveRequest_of_onePage h, ht]

theorem withTranslation_of_pageFault (h : (modeFor kind s).translating = true → crossesPage ⟨va, 4⟩ = false)
    (ht : translate kind s va = .pageFault)
    (ha : isaAccepted s.cfg (takeTrap (s.faulting (pageFaultCode kind) va)).inclusions = true) :
    withTranslation kind va s k = .next (s.faulting (pageFaultCode kind) va).trapsEarly := by
  rw [withTranslation, resolveRequest_of_onePage h, ht]
  exact if_pos ha

theorem withTranslation_of_refuse {r : Refusal} (hr : resolveRequest kind s ⟨va, 4⟩ = .refuse r) :
    withTranslation kind va s k = .refused r := by
  rw [withTranslation, hr]

end Access

section LwSw
variable {s : State} (h : s.Ready) (rd rs1 rs2 : Reg) (imm : BitVec 12)
include h

theorem exec_lw : exec (.lw rd rs1 imm) s = withTranslation .load (effAddr s rs1 imm) s (loadFrom rd 4 s) :=
  runLoaded_lw h _ 4 rd rs1 imm

theorem exec_sw : exec (.sw rs1 rs2 imm) s = withTranslation .store (effAddr s rs1 imm) s (storeTo rs2 4 s) :=
  runLoaded_sw h _ 4 rs1 rs2 imm

end LwSw

/-- A byte of a word's value is eight of its bits. -/
theorem ofNat_div_eq_extractLsb' (v : Word) (k : Nat) :
    BitVec.ofNat 8 (v.toNat / 256 ^ k) = v.extractLsb' (8 * k) 8 := by
  apply BitVec.eq_of_toNat_eq
  rw [BitVec.toNat_ofNat, BitVec.extractLsb'_toNat, Nat.shiftRight_eq_div_pow, Nat.pow_mul]

/-- Settles O39: the run of each is its access at the translated address. -/
theorem lwAndSw : Obligations.LwAndSw := by
  unfold Obligations.LwAndSw
  intro s rd rs1 rs2 imm pa h va byte hpage
  have hva : effAddr s rs1 imm = va := rfl
  refine ⟨fun ht hp => ?_, fun ht hp => ?_⟩
  · rw [exec_lw h, hva, withTranslation_of_translate (kind := .load) hpage ht, loadFrom, State.memRead, if_pos hp,
      memory_readLE_four]
    rfl
  · refine ⟨s.mem.writeLE pa.toNat 4 (s.readX rs2).toNat, ?_, fun hm k hk => ?_, fun a ha => ?_⟩
    · rw [exec_sw h, hva, withTranslation_of_translate (kind := .store) hpage ht, storeTo, State.memWrite, if_pos hp]
      rfl
    · rw [memory_get_writeLE hm _ _ hk, ofNat_div_eq_extractLsb']
    · exact memory_get_writeLE_other ha _ _

/-- Settles O40: a translation that faults is the trap of its access kind. -/
theorem loadAndStorePageFaults : Obligations.LoadAndStorePageFaults := by
  unfold Obligations.LoadAndStorePageFaults
  intro s rd rs1 rs2 imm h hpage
  refine ⟨fun ht ha => ?_, fun ht ha => ?_⟩
  · rw [exec_lw h]
    exact withTranslation_of_pageFault (kind := .load) hpage ht ha
  · rw [exec_sw h]
    exact withTranslation_of_pageFault (kind := .store) hpage ht ha

/-! ## Trap returns (R350, R351) -/

/-- An instruction whose EXECUTE is a trap return that the decoder accepts retires in the saved mode at the exception PC. -/
theorem exec_returns {s : State} (h : s.Ready) {i : Instr} {m : Mnem} (hi : i.mnem = some m)
    (hm : Mnem.isMemory m = false) {IE PIE PP : Field} {epc : CsrIdx} {p : Priv}
    (hb : executeBody i (s.entered (encodedWord i) 4 i)
      = checkIsa (trapReturn IE PIE PP epc p (s.entered (encodedWord i) 4 i)))
    (ha : isaAccepted s.cfg (unstacked IE PIE PP p s).inclusions = true) :
    exec i s = .next ((({ unstacked IE PIE PP p s with nextPriv := p } : State).commitPriv).completes
      ((unstacked IE PIE PP p s).csrRead epc)) := by
  let u := trapReturn IE PIE PP epc p s
  have hua : u.Assembled := by simpa [State.Assembled, u] using h.assembled
  have huq : u.Quiet := by simpa [State.Quiet, u] using h.quiet
  have hcheck : checkIsa ((u.entered (encodedWord i) 4 i).setNextPc u.nextPc)
      = .cont ((u.entered (encodedWord i) 4 i).setNextPc u.nextPc) :=
    if_pos (by
      rw [show ((u.entered (encodedWord i) 4 i).setNextPc u.nextPc).cfg = s.cfg from trapReturn_cfg IE PIE PP epc p s]
      exact ha)
  rw [exec_eq_runInst hi, runInst, runLoaded_plain h _ _ hi hm, hb, trapReturn_entered, hcheck]
  show runChain .finish ((u.entered (encodedWord i) 4 i).setNextPc u.nextPc) = _
  rw [runChain_finish_entered hua huq, show u = (({ unstacked IE PIE PP p s with nextPriv := p } : State)).setNextPc
      ((unstacked IE PIE PP p s).csrRead epc) from rfl, commitPriv_setNextPc]
  rfl

theorem ofEnc_enc (p : Priv) : Priv.ofEnc ((p.enc.setWidth 64).setWidth 2) = some p := by cases p <;> rfl

section Bodies
variable {s : State}

theorem mretBody_legal {p : Priv} (hp : s.priv = .machine)
    (hm : s.fieldRead Csr.mstatus Field.MPP = p.enc.setWidth 64) :
    mretBody s = checkIsa (trapReturn Field.MIE Field.MPIE Field.MPP Csr.mepc p s) := by
  rw [mretBody, if_neg (not_not.2 hp), hm, ofEnc_enc]

theorem mretBody_reserved (hp : s.priv = .machine) (hm : s.fieldRead Csr.mstatus Field.MPP = 2) :
    mretBody s = .refuse .reservedPrivilege := by
  rw [mretBody, if_neg (not_not.2 hp), hm]
  rfl

theorem mretBody_illegal (hp : s.priv ≠ .machine) : mretBody s = illegal s := if_pos hp

theorem sretBody_legal (h : s.priv = .machine ∨ s.priv = .supervisor ∧ s.fieldRead Csr.mstatus Field.TSR = 0) :
    sretBody s = checkIsa (trapReturn Field.SIE Field.SPIE Field.SPP Csr.sepc
      (if s.fieldRead Csr.mstatus Field.SPP = 1 then .supervisor else .user) s) := by
  rcases h with hp | ⟨hp, ht⟩ <;> simp [sretBody, *]

theorem sretBody_illegal (h : s.priv = .user ∨ s.priv = .supervisor ∧ s.fieldRead Csr.mstatus Field.TSR = 1) :
    sretBody s = illegal s := by
  rcases h with hp | ⟨hp, ht⟩ <;> simp [sretBody, *]

theorem wfiBody_illegal (hp : s.priv ≠ .machine) (ht : s.fieldRead Csr.mstatus Field.TW = 1) : wfiBody s = illegal s :=
  if_pos ⟨hp, ht⟩

theorem sfenceVmaBody_illegal (rs1 rs2 : Reg)
    (h : s.priv = .user ∨ s.priv = .supervisor ∧ s.fieldRead Csr.mstatus Field.TVM = 1) :
    sfenceVmaBody rs1 rs2 s = illegal s := by
  rcases h with hp | ⟨hp, ht⟩ <;> simp [sfenceVmaBody, *]

end Bodies

/-- Settles O45: each body is a trap return. -/
theorem mretAndSretReturn : Obligations.MretAndSretReturn := by
  unfold Obligations.MretAndSretReturn
  intro s h
  refine ⟨?_, ?_⟩
  · intro p hp hmpp a b d ha
    exact exec_returns h (i := .mret) (PP := Field.MPP) rfl rfl (mretBody_legal (s := s.entered ..) hp hmpp) ha
  · intro hp p a b d ha
    have hpm : p ≠ .machine := by
      show (if s.fieldRead Csr.mstatus Field.SPP = 1 then Priv.supervisor else Priv.user) ≠ .machine
      split <;> decide
    have hd : unstacked Field.SIE Field.SPIE Field.SPP p s = d := if_neg hpm
    rw [← hd] at ha ⊢
    exact exec_returns h (i := .sret) rfl rfl (sretBody_legal (s := s.entered ..) hp) ha

/-- Settles O47: below the mode it needs each body is the illegal-instruction fault. -/
theorem privilegedInstructionsTrap : Obligations.PrivilegedInstructionsTrap := by
  unfold Obligations.PrivilegedInstructionsTrap
  intro s i h hi ha
  have key {m : Mnem} (hm : i.mnem = some m) (hmem : Mnem.isMemory m = false)
      (hb : executeBody i (s.entered (encodedWord i) 4 i) = illegal (s.entered (encodedWord i) 4 i)) :
      exec i s = .next (s.faulting 2 ((encodedWord i).setWidth 64)).trapsInExecute :=
    exec_traps h hm hmem (by rw [hb, illegal_entered]; rfl) ha
  rcases hi with ⟨rfl, hp⟩ | ⟨rfl, hp⟩ | ⟨rfl, hp, ht⟩ | ⟨⟨rs1, rs2, rfl⟩, hp⟩
  · exact key rfl rfl (mretBody_illegal (s := s.entered ..) hp)
  · exact key rfl rfl (sretBody_illegal (s := s.entered ..) hp)
  · exact key rfl rfl (wfiBody_illegal (s := s.entered ..) hp ht)
  · exact key rfl rfl (sfenceVmaBody_illegal (s := s.entered ..) rs1 rs2 hp)

/-! ## Stops (rows U3, U5 and U6) -/

/-- A load or store under a mode that is not bare and the reserved effective privilege has no meaning. -/
theorem translate_reserved {kind : AccessKind} {s : State} {va : Word} (hm : modeFor kind s ≠ .bare)
    (hp : effPrivEnc kind s = 2) : translate kind s va = .refuse .reservedPrivilege := by
  have hr : reservedEffPriv kind s = true := by simpa [reservedEffPriv] using hp
  unfold translate
  cases hk : modeFor kind s with
  | bare => exact absurd hk hm
  | invalid | sv32 | sv39 | sv48 | sv57 => exact if_pos hr

/-- The effective privilege of a load or store is MPP where MPRV is set. -/
theorem lsPrivEnc_of_mprv {s : State} (h : s.fieldRead Csr.mstatus Field.MPRV = 1)
    (hp : s.fieldRead Csr.mstatus Field.MPP = 2) : lsPrivEnc s.cfg s.csrs s.priv = 2 := by
  have hf (F : Field) : s.fieldRead Csr.mstatus F = s.csrs.field s.cfg Csr.mstatus F :=
    congrArg F.get (csrRead_eq_readMasked s (by decide) (by decide))
  rw [hf] at h hp
  rw [lsPrivEnc, if_pos h, hp]
  rfl

theorem resolveRequest_of_crossesPage {kind : AccessKind} {s : State} {r : Request} (hk : kind ≠ .fetch)
    (hm : (modeFor kind s).translating = true) (hr : crossesPage r = true) :
    resolveRequest kind s r = .refuse .pageCrossingAccess := by
  unfold resolveRequest
  exact if_pos (by simp [hk, hm, hr])

/-- Settles O60: each case is one of the model's refusals, met on the run's way. -/
theorem undefinedCasesAreRefused : Obligations.UndefinedCasesAreRefused := by
  unfold Obligations.UndefinedCasesAreRefused
  refine ⟨fun s rd rs1 rs2 imm h => ⟨fun hp hm => ?_, fun hv hp hm hpage => ?_, fun ht hc => ?_, fun hb => ?_,
    fun hs hst => ?_⟩, fun s pa n h hs hirq hmis htr hn hshort hbare hpc => ?_⟩
  · rw [exec_eq_runInst (m := .mret) rfl, runInst, runLoaded_plain h _ _ (m := .mret) rfl rfl,
      show executeBody .mret _ = _ from mretBody_reserved (s := s.entered ..) hp hm]
    rfl
  · have hpriv := lsPrivEnc_of_mprv hv hp
    rw [exec_lw h, exec_sw h]
    constructor
    · refine withTranslation_of_refuse ?_
      rw [resolveRequest_of_onePage (kind := .load) hpage]
      exact translate_reserved (kind := .load) hm hpriv
    · refine withTranslation_of_refuse ?_
      rw [resolveRequest_of_onePage (kind := .store) hpage]
      exact translate_reserved (kind := .store) hm hpriv
  · rw [exec_lw h, exec_sw h]
    exact ⟨withTranslation_of_refuse (resolveRequest_of_crossesPage (by decide) ht hc),
      withTranslation_of_refuse (resolveRequest_of_crossesPage (by decide) ht hc)⟩
  · exact if_pos hb
  · have hstale : (s.staleIsa || s.staleMmu) = true := by simpa using hst
    rw [exec_opStep, schedulerStep, hs, if_neg (by decide), if_pos hstale]
  · rw [step_eq_fetchPhase h hs, fetchPhase_of_translate hirq hmis htr, decodeAt_of_memRead (s := s.sampled) hn,
      if_pos]
    · rfl
    · have hshort' : s.sampled.isShort (BitVec.ofNat 32 n) = false := hshort
      simpa [hshort'] using And.intro hbare hpc

end Sys2Proof.Machine
end

section
/-! Frames: what an instruction word leaves alone, whatever it ends in (42_pipeline_microops.md section 3). -/

namespace Sys2Proof.Machine

/-! ## The fields no trap and no retirement changes -/

/-- The three register files, memory, the chains, `stopped`, the fetch queue and the configuration are as before. -/
structure State.Untouched (s t : State) : Prop where
  xregs : t.xregs = s.xregs
  mem : t.mem = s.mem
  files : s.SameFiles t

section Untouched
variable {s t u : State}

theorem State.Untouched.refl (s : State) : s.Untouched s := ⟨rfl, rfl, rfl, rfl, rfl, rfl, rfl, rfl⟩

theorem State.SameFiles.trans (h : s.SameFiles t) (k : t.SameFiles u) : s.SameFiles u :=
  ⟨k.fregs.trans h.fregs, k.vregs.trans h.vregs, k.chains.trans h.chains, k.stopped.trans h.stopped,
    k.fetchQueue.trans h.fetchQueue, k.cfg.trans h.cfg⟩

theorem State.Untouched.trans (h : s.Untouched t) (k : t.Untouched u) : s.Untouched u :=
  ⟨k.xregs.trans h.xregs, k.mem.trans h.mem, h.files.trans k.files⟩

theorem State.Untouched.sameX (h : s.Untouched t) : s.SameX t := fun r => by
  simp only [State.readX, h.xregs, h.files.cfg]

theorem State.Untouched.sameMemory (h : s.Untouched t) : s.SameMemory t := fun a => by rw [h.mem]

theorem untouched_observed (s : State) (k : HookKind) (m : Bool) : s.Untouched (s.observed k m) :=
  ⟨rfl, rfl, rfl, rfl, rfl, rfl, rfl, rfl⟩

theorem untouched_advance (s : State) (np : Word) : s.Untouched (s.advance np) := ⟨rfl, rfl, rfl, rfl, rfl, rfl, rfl, rfl⟩

theorem untouched_faulting (s : State) (c : BitVec 6) (info : Word) : s.Untouched (s.faulting c info) :=
  ⟨rfl, rfl, rfl, rfl, rfl, rfl, rfl, rfl⟩

theorem untouched_commitPriv (s : State) : s.Untouched s.commitPriv := by
  refine ⟨?_, ?_, ?_, ?_, ?_, ?_, ?_, ?_⟩ <;> simp

theorem untouched_takeTrap (s : State) : s.Untouched (takeTrap s) := by
  refine ⟨?_, ?_, ?_, ?_, ?_, ?_, ?_, ?_⟩ <;> simp

theorem untouched_trapReturn (IE PIE PP : Field) (epc : CsrIdx) (p : Priv) (s : State) :
    s.Untouched (trapReturn IE PIE PP epc p s) := by
  refine ⟨?_, ?_, ?_, ?_, ?_, ?_, ?_, ?_⟩ <;> simp

theorem untouched_csrWrite (s : State) (i : CsrIdx) (v : Word) : s.Untouched (s.csrWrite i v) := by
  refine ⟨?_, ?_, ?_, ?_, ?_, ?_, ?_, ?_⟩ <;> simp

theorem untouched_completes (s : State) (np : Word) : s.Untouched (s.completes np) :=
  (untouched_observed ..).trans ((untouched_advance ..).trans (untouched_observed ..))

theorem untouched_trapped (s : State) : s.Untouched s.trapped :=
  (untouched_takeTrap s).trans ((untouched_commitPriv _).trans ((untouched_advance ..).trans (untouched_observed ..)))

theorem untouched_trapsEarly (s : State) (c : BitVec 6) (info : Word) : s.Untouched (s.faulting c info).trapsEarly :=
  (untouched_faulting ..).trans ((untouched_observed ..).trans (untouched_trapped _))

theorem untouched_trapsInExecute (s : State) (c : BitVec 6) (info : Word) :
    s.Untouched (s.faulting c info).trapsInExecute :=
  (untouched_faulting ..).trans ((untouched_observed ..).trans ((untouched_observed ..).trans (untouched_trapped _)))

theorem sameFiles_writeX (s : State) (rd : Reg) (v : Word) : s.SameFiles (s.writeX rd v) := by
  refine ⟨?_, ?_, ?_, ?_, ?_, ?_⟩ <;> simp

theorem sameXBut_writeX (s : State) (rd : Reg) (v : Word) : s.SameXBut rd (s.writeX rd v) :=
  fun _ hr => readX_writeX_other s hr v

/-- What one register write leaves alone is still alone after changes elsewhere. -/
theorem frame_of_writeX {rd : Reg} {v : Word} (h : (s.writeX rd v).Untouched t) :
    s.SameXBut rd t ∧ s.SameMemory t ∧ s.SameFiles t :=
  ⟨fun r hr => (h.sameX r).trans (sameXBut_writeX s rd v r hr), fun a => by rw [h.mem, writeX_mem],
    (sameFiles_writeX s rd v).trans h.files⟩

theorem State.Untouched.sameXBut (h : s.Untouched t) (rd : Reg) : s.SameXBut rd t := fun r _ => h.sameX r

end Untouched

/-! ## LUI, ADDI, JAL and LW -/

/-- An instruction that writes one register and completes changes nothing of the system state. -/
theorem sameSystem_writeX_completes (s : State) (rd : Reg) (v np : Word) : s.SameSystem ((s.writeX rd v).completes np) := by
  refine ⟨?_, ?_, ?_, ?_, ?_, ?_, ?_⟩ <;> simp [State.completes]

/-- A load or store with its trap, where its translation gives an address. -/
theorem withTranslation_next {kind : AccessKind} {s t : State} {va : Word} {k : Word → Host.Outcome State Fault Refusal}
    (h : withTranslation kind va s k = .next t) :
    (∃ pa, translate kind s va = .ok pa ∧ k pa = .next t)
      ∨ translate kind s va = .pageFault ∧ t = (s.faulting (pageFaultCode kind) va).trapsEarly := by
  unfold withTranslation at h
  have hr : resolveRequest kind s ⟨va, 4⟩ = translate kind s va ∨ ∃ r, resolveRequest kind s ⟨va, 4⟩ = .refuse r := by
    unfold resolveRequest
    split
    · exact .inr ⟨_, rfl⟩
    · exact .inl rfl
  rcases hr with e | ⟨r, e⟩ <;> rw [e] at h
  · split at h
    next pa hpa => exact .inl ⟨pa, hpa, h⟩
    next hpf =>
      split at h
      · cases h
        exact .inr ⟨hpf, rfl⟩
      · cases h
    next => cases h
    next => cases h
  · cases h

/-- Settles O57: the first three write one register and complete, LW does so or traps. -/
theorem frameOfRegisterForms : Obligations.FrameOfRegisterForms := by
  unfold Obligations.FrameOfRegisterForms
  intro s t rd rs1 u imm off h
  have plain {v np : Word} (ht : .next ((s.writeX rd v).completes np) = (.next t : Host.Outcome State Fault Refusal)) :
      s.SameXBut rd t ∧ s.SameMemory t ∧ s.SameFiles t ∧ s.SameSystem t := by
    cases ht
    obtain ⟨hx, hm, hf⟩ := frame_of_writeX (untouched_completes (s.writeX rd v) np)
    exact ⟨hx, hm, hf, sameSystem_writeX_completes ..⟩
  refine ⟨fun ht => ?_, fun ht => ?_⟩
  · rcases ht with ht | ht | ht
    · exact plain (((luiAndAddi s rd rs1 u imm h).1).symm.trans ht)
    · exact plain (((luiAndAddi s rd rs1 u imm h).2).symm.trans ht)
    · exact plain ((exec_jumps (i := .jal rd off) h rfl rfl (Ready.writeX h ..) (jalBody_entered ..)).symm.trans ht)
  · rw [exec_lw h] at ht
    rcases withTranslation_next ht with ⟨pa, -, hk⟩ | ⟨-, rfl⟩
    · unfold loadFrom at hk
      split at hk
      · cases hk
      · cases hk
        exact frame_of_writeX (untouched_completes ..)
    · have hu := untouched_trapsEarly s (pageFaultCode .load) (effAddr s rs1 imm)
      exact ⟨hu.sameXBut rd, hu.sameMemory, hu.files⟩

/-! ## The CSR instructions -/

/-- A write that leaves an extension set the decoder refuses aborts. -/
theorem csrAccess_rejected {s : State} {csr : CsrIdx} {new : Word} {rd : Reg} (hl : csrLegal s csr true = true)
    (ht : touchesIsa csr = true) (hbad : ¬ isaAccepted s.cfg (s.csrWrite csr new).inclusions = true) :
    csrAccess csr true new rd s = .abort .malformedIsaConfiguration := by
  rw [csrAccess, if_pos hl, if_pos rfl, csrWriteThen, if_pos ht, checkIsa, if_neg (by simpa using hbad)]

/-- A CSR instruction whose check passes can end in one way. -/
theorem exec_csr_next {s t : State} {i : Instr} {csr : CsrIdx} {rd : Reg} (h : s.Ready) (hc : i.csr? = some csr)
    (hd : i.rd? = some rd) (hl : csrLegal s csr i.willWrite = true) (ht : exec i s = .next t) :
    t = (csrResult csr i.willWrite (csrNewValue s i) rd s).completes (s.pcPlus 4) := by
  by_cases ha : i.willWrite = true → touchesIsa csr = true →
      isaAccepted s.cfg (s.csrWrite csr (csrNewValue s i)).inclusions = true
  · rw [exec_csr_legal h hc hd hl ha] at ht
    exact (Host.Outcome.next.inj ht).symm
  · obtain ⟨-, m, hi, hm⟩ := csrInstr_parts hc
    simp only [Classical.not_imp] at ha
    obtain ⟨hw, hisa, hbad⟩ := ha
    have hab : executeBody i (s.entered (encodedWord i) 4 i) = .abort .malformedIsaConfiguration := by
      rw [hw] at hl
      rw [executeBody_csr hc hd, csrNewValue_entered, hw]
      exact csrAccess_rejected (by rw [csrLegal_entered]; exact hl) hisa (by rw [csrWrite_entered]; exact hbad)
    rw [exec_eq_runInst hi, runInst, runLoaded_plain h _ _ hi hm, hab] at ht
    cases ht

theorem untouched_csrResult_completes {s : State} {csr : CsrIdx} {w : Bool} {new : Word} {rd : Reg} (np : Word) :
    s.SameXBut rd ((csrResult csr w new rd s).completes np) ∧ s.SameMemory ((csrResult csr w new rd s).completes np)
      ∧ s.SameFiles ((csrResult csr w new rd s).completes np) := by
  have key {u : State} (hu : s.Untouched u) (v : Word) : s.SameXBut rd ((u.writeX rd v).completes np)
      ∧ s.SameMemory ((u.writeX rd v).completes np) ∧ s.SameFiles ((u.writeX rd v).completes np) := by
    obtain ⟨hx, hm, hf⟩ := frame_of_writeX (untouched_completes (u.writeX rd v) np)
    exact ⟨fun r hr => (hx r hr).trans (hu.sameX r), fun a => (hm a).trans (hu.sameMemory a), hu.files.trans hf⟩
  unfold csrResult
  split
  · exact key (untouched_csrWrite ..) _
  · exact key (.refl s) _

/-- Settles O58: where the check passes, the write and the old value in `rd`; else a trap. -/
theorem frameOfCsrForms : Obligations.FrameOfCsrForms := by
  unfold Obligations.FrameOfCsrForms
  intro s t i rd csr h hc hd ht
  cases hl : csrLegal s csr i.willWrite with
  | true =>
    obtain rfl := exec_csr_next h hc hd hl ht
    obtain ⟨hx, hm, hf⟩ := untouched_csrResult_completes (s := s) (csr := csr) (w := i.willWrite)
      (new := csrNewValue s i) (rd := rd) (s.pcPlus 4)
    refine ⟨hx, hm, hf, fun _ => ⟨fun j hj => csrResult_raw_other hj, fun hw => ?_, ?_, ?_, ?_⟩⟩
    · rw [hw]
      exact writeX_csrs ..
    all_goals
      unfold csrResult
      split <;> simp [State.completes]
  | false =>
    obtain ⟨-, m, hi, hm⟩ := csrInstr_parts hc
    have hb : executeBody i (s.entered (encodedWord i) 4 i) = illegal (s.entered (encodedWord i) 4 i) := by
      rw [executeBody_csr hc hd, csrNewValue_entered, csrAccess, csrLegal_entered, hl]
      rfl
    rw [exec_eq_runInst hi, runInst, runLoaded_plain h _ _ hi hm, hb, illegal_entered, runChain_exception_entered h] at ht
    split at ht
    · cases ht
      have hu := untouched_trapsInExecute s 2 (zextTo (encodedWord i))
      exact ⟨hu.sameXBut rd, hu.sameMemory, hu.files, fun hl' => by cases hl'⟩
    · cases ht

/-! ## The instructions without a destination -/

/-- What completes without a destination register touches no register file and no memory. -/
theorem Executes.untouched {s u : State} {len : Nat} {i : Instr} {np : Word} (h : Executes s len i u np)
    (hd : i.rd? = none) : s.Untouched u := by
  cases h with
  | csr _ hd' => rw [hd] at hd'; cases hd'
  | returns => exact untouched_trapReturn ..
  | writes hd' => rw [hd] at hd'; cases hd'
  | goes => exact .refl s

/-- An instruction that has no destination and accesses no memory touches neither, whatever it ends in. -/
theorem untouched_of_exec {s t : State} (h : s.Ready) {i : Instr} {m : Mnem} (hi : i.mnem = some m)
    (hm : Mnem.isMemory m = false) (hd : i.rd? = none) (ht : exec i s = .next t) : s.Untouched t := by
  rw [exec_eq_runInst hi, runInst] at ht
  rcases runLoaded_plain_cases h hi hm ht with ⟨u, np, hx, rfl⟩ | ⟨c, info, -, rfl⟩
  · exact (hx.untouched hd).trans ((untouched_commitPriv u).trans (untouched_completes ..))
  · exact untouched_trapsInExecute ..

/-- Settles O59: by the run of each; SW's store is at the address its translation gives. -/
theorem frameOfFormsWithoutDestination : Obligations.FrameOfFormsWithoutDestination := by
  unfold Obligations.FrameOfFormsWithoutDestination
  intro s t rs1 rs2 rd fm pred succ imm off h
  refine ⟨fun i hi ht => ?_, fun ht => ?_⟩
  · obtain ⟨m, hm, hmem, hd⟩ : ∃ m, i.mnem = some m ∧ Mnem.isMemory m = false ∧ i.rd? = none := by
      simp only [List.mem_cons, List.not_mem_nil, or_false] at hi
      rcases hi with rfl | rfl | rfl | rfl | rfl | rfl | rfl | rfl | rfl <;> exact ⟨_, rfl, rfl, rfl⟩
    have hu := untouched_of_exec h hm hmem hd ht
    exact ⟨hu.sameX, hu.sameMemory, hu.files⟩
  · rw [exec_sw h] at ht
    rcases withTranslation_next ht with ⟨pa, hpa, hk⟩ | ⟨hpf, rfl⟩
    · unfold storeTo at hk
      split at hk
      · cases hk
      next e =>
        obtain ⟨-, rfl⟩ := memWrite_eq_some e
        cases hk
        refine ⟨fun _ => rfl, ⟨rfl, rfl, rfl, rfl, rfl, rfl⟩, fun pa' hpa' a ha => ?_, fun hpf => ?_⟩
        · obtain rfl : pa = pa' := TransResult.ok.inj (hpa.symm.trans hpa')
          exact memory_get_writeLE_other ha _ _
        · rw [hpa] at hpf
          cases hpf
    · have hu := untouched_trapsEarly s (pageFaultCode .store) (effAddr s rs1 imm)
      refine ⟨hu.sameX, hu.files, fun pa hpa => ?_, fun _ => hu.sameMemory⟩
      rw [hpf] at hpa
      cases hpa

end Sys2Proof.Machine
end

section
/-! The state reset leaves (70_reset_and_hazards.md R600 to R603, 10_state.md R70). -/

namespace Sys2Proof.Machine

/-- Settles O9: every field is the reset value; the widths hold since the default XLEN is 64. -/
theorem resetIsIdle : Obligations.ResetIsIdle := by
  unfold Obligations.ResetIsIdle
  refine ⟨⟨rfl, ?_, rfl, rfl, rfl, rfl, ⟨rfl, rfl, rfl, rfl, rfl⟩⟩, memory_wf_nil, ?_⟩
  · intro r hr
    cases hr
  · exact ⟨rfl, rfl, rfl, rfl, rfl, fun _ => rfl, fun _ => rfl⟩

/-- Settles O17: the fields are read off `Reset(config)`. -/
theorem resetValues : Obligations.ResetValues := by
  unfold Obligations.ResetValues
  intro c s
  exact ⟨rfl, rfl, rfl, rfl, rfl, rfl, rfl, rfl, rfl, rfl, readX_zero s, rfl, rfl,
    show deriveFetchMode c s.csrs .machine = .bare from if_pos rfl⟩

/-- Where every default is 0, every CSR starts as 0. -/
theorem csrDefaults_raw {c : Config} (h : ∀ d ∈ c.csrSet, d.dflt = 0) (i : CsrIdx) : (csrDefaults c).raw i = 0 := by
  refine List.foldlRecOn (motive := fun f : CsrFile => f.raw i = 0) c.csrSet _ rfl fun f hf d hd => ?_
  split
  · exact hf
  · by_cases hi : i = d.index
    · rw [hi, raw_set_same, h d hd]
      cases c.xlen <;> rfl
    · rw [raw_set_other hi]
      exact hf

theorem defaultCsrs_dflt (x : XLen) : ∀ d ∈ defaultCsrs x, d.dflt = 0 := by cases x <;> decide +kernel

theorem rmask_mstatus {c : Config} (h : defaultMasks c) : c.rmask Csr.mstatus = mstatusRMask c.xlen := by
  rw [Config.rmask, csr?_of_defaultMasks h]
  cases c.xlen <;> rfl

/-- Settles O18: `boot` over defaults of 0, and no initial list. -/
theorem resetCsrValues : Obligations.ResetCsrValues := by
  unfold Obligations.ResetCsrValues
  intro c hm hinit s
  have h0 (i : CsrIdx) : (csrDefaults c).raw i = 0 :=
    csrDefaults_raw (by rw [show c.csrSet = _ from hm]; exact defaultCsrs_dflt c.xlen) i
  have hcsrs : s.csrs = bootCsrs c (csrDefaults c) := by
    show (resetCsrs c).1 = _
    rw [resetCsrs, hinit]
    rfl
  have hmstatus : s.csrs.raw Csr.mstatus = mstatusBoot c.xlen 0 := by
    rw [hcsrs, bootCsrs_raw, if_pos rfl, h0]
  refine ⟨?_, ?_, ?_, fun i h1 h2 h3 => ?_, ?_⟩
  · rw [hcsrs]
    exact (bootCsrs_raw ..).trans (bootIdentity_raw ..)
  · rw [hcsrs]
    exact (bootCsrs_raw ..).trans (bootIdentity_raw ..)
  · rw [hmstatus]
    cases c.xlen <;> rfl
  · rw [hcsrs, bootCsrs_raw, if_neg h3, bootIdentity_raw, if_neg h2, if_neg h1, h0]
  · have hmprv : s.csrs.field c Csr.mstatus Field.MPRV = 0 := by
      show Field.MPRV.get (s.csrs.raw Csr.mstatus &&& c.rmask Csr.mstatus) = 0
      rw [hmstatus, rmask_mstatus hm]
      cases c.xlen <;> decide
    show deriveLsMode c s.csrs .machine = .bare
    refine if_pos ?_
    rw [lsPrivEnc, hmprv]
    rfl

end Sys2Proof.Machine
end

section
/-! The interface operations on one CSR: read, write, peek, poke and their fields (41_register_access.md R234 to R240). -/

namespace Sys2Proof.Machine

/-! ## Writes -/

/-- A write-path write touches the CSR file and the derived state only. -/
theorem csrWrite_frame (s : State) (i : CsrIdx) (v : Word) :
    s.csrWrite i v = { s with csrs := (s.csrWrite i v).csrs, inclusions := (s.csrWrite i v).inclusions,
                              fetchMode := (s.csrWrite i v).fetchMode, lsMode := (s.csrWrite i v).lsMode,
                              staleIsa := (s.csrWrite i v).staleIsa, staleMmu := (s.csrWrite i v).staleMmu } := by
  simp only [State.csrWrite, State.csrSideEffects]
  cases touchesIsa i <;> cases touchesMmu i <;> rfl

/-- A host's write whose extension set the decoder accepts ends in the state written. -/
theorem endWrite_accepted {i : CsrIdx} {s : State}
    (h : touchesIsa i = true → isaAccepted s.cfg s.inclusions = true) : endWrite i s = .next s := by
  unfold endWrite
  refine if_neg fun hc => ?_
  simp only [Bool.and_eq_true, Bool.not_eq_true'] at hc
  obtain ⟨ht, hr⟩ := hc
  rw [h ht] at hr
  cases hr

theorem exec_opWrite_csr {s : State} {i : CsrIdx} {n : Nat} (hi : s.cfg.hasCsr i = true)
    (ha : touchesIsa i = true → isaAccepted s.cfg (s.csrWrite i (BitVec.ofNat 64 n)).inclusions = true) :
    exec (.opWrite (.csr i) n) s = .next (s.csrWrite i (BitVec.ofNat 64 n)) := by
  show execOpWrite (.csr i) n s = _
  rw [execOpWrite, if_pos hi]
  exact endWrite_accepted (by rw [csrWrite_cfg]; exact ha)

theorem touchesIsa_iff_of_window {x : XLen} {i : CsrIdx} (h : window x i = none) :
    touchesIsa i = true ↔ i = Csr.misa ∨ i = Csr.mstatus := by
  simp [touchesIsa, window_none_home h]

theorem touchesMmu_iff_of_window {x : XLen} {i : CsrIdx} (h : window x i = none) :
    touchesMmu i = true ↔ i = Csr.satp ∨ i = Csr.mstatus := by
  simp [touchesMmu, window_none_home h]

/-- Writing through a mask, then through another, is writing through what both select. -/
theorem maskedNew_maskedNew_and (old m w v : Word) :
    maskedNew old w (maskedNew old m v) = maskedNew old (w &&& m) v := by
  unfold maskedNew
  ext k hk
  simp only [BitVec.getElem_and, BitVec.getElem_or, BitVec.getElem_not]
  cases old[k] <;> cases m[k] <;> cases w[k] <;> cases v[k] <;> rfl

/-- The windows sie and sip, each with its target and the mask of log 22. -/
theorem window_interrupt {i home : CsrIdx} (h : i = 0x104 ∧ home = 0x304 ∨ i = 0x144 ∧ home = 0x344) (x : XLen) :
    window x i = some ⟨home, sieMask, sieMask⟩ ∧ csrHome i = home ∧ touchesIsa i = false ∧ touchesMmu i = false := by
  rcases h with ⟨rfl, rfl⟩ | ⟨rfl, rfl⟩ <;> exact ⟨rfl, rfl, rfl, rfl⟩

theorem fitsXlen_sieMask (x : XLen) : fitsXlen x sieMask := by cases x <;> rfl

/-- A store through sie or sip writes the bits of its mask that the target's write mask selects. -/
theorem store_interruptWindow {c : Config} {f : CsrFile} {i home : CsrIdx} (v : Word)
    (hw : window c.xlen i = some ⟨home, sieMask, sieMask⟩) :
    (f.store c i v).raw home = maskedNew (f.raw home) (c.wmask home &&& sieMask) v := by
  have hfit : fitsXlen c.xlen (c.wmask home &&& sieMask) := by
    rw [BitVec.and_comm]
    exact (fitsXlen_sieMask c.xlen).and _
  rw [CsrFile.store, hw]
  show (f.set home _).raw home = _
  rw [raw_set_same, maskedNew_maskedNew_and, maskedNew, trunc_and_of_fits hfit]
  rfl

/-- Settles O22: the store and its side effects, for a CSR of its own and for the two interrupt windows. -/
theorem opWritesCsr : Obligations.OpWritesCsr := by
  unfold Obligations.OpWritesCsr
  intro s i n hi
  refine ⟨fun hw ha => ?_, fun home hhome => ?_⟩
  · obtain ⟨hinc, hfm, hlm, -, -⟩ := csrWrite_derived s i (BitVec.ofNat 64 n)
    refine ⟨_, exec_opWrite_csr hi ha, ?_, fun j hj => ?_, ?_, ?_, ?_, csrWrite_frame ..⟩
    · rw [csrWrite_raw hw, if_pos rfl]
      rfl
    · rw [csrWrite_raw hw, if_neg hj]
    · rw [hinc, csrWrite_csrs]
      simp only [touchesIsa_iff_of_window hw]
    · rw [hfm, csrWrite_csrs]
      simp only [touchesMmu_iff_of_window hw]
    · rw [hlm, csrWrite_csrs]
      simp only [touchesMmu_iff_of_window hw]
  · obtain ⟨hw, hhm, hisa, hmmu⟩ := window_interrupt hhome s.cfg.xlen
    refine ⟨_, exec_opWrite_csr hi (fun ht => by rw [hisa] at ht; cases ht), ?_, fun j hj => ?_, ?_⟩
    · rw [csrWrite_csrs]
      exact store_interruptWindow _ hw
    · rw [csrWrite_csrs]
      exact store_raw_other (by rw [hhm]; exact hj)
    · simp only [State.csrWrite, State.csrSideEffects, hisa, hmmu]
      rfl

/-! ## Reads, peeks and pokes -/

theorem align32_iff (s : State) : s.ialign = 32 ↔ s.align32 = true := by
  unfold State.ialign
  cases s.align32 <;> simp

theorem exec_opRead_csr {s : State} {i : CsrIdx} (hi : s.cfg.hasCsr i = true) :
    exec (.opRead (.csr i)) s = .next { s with reply := some (s.csrRead i).toNat } := by
  show execOpRead (.csr i) s = _
  rw [execOpRead, if_pos hi]
  rfl

theorem readMasked_of_window_none {c : Config} {f : CsrFile} {i : CsrIdx} (h : window c.xlen i = none) :
    f.readMasked c i = f.raw i &&& c.rmask i := by
  rw [CsrFile.readMasked, h]

theorem readMasked_of_window {c : Config} {f : CsrFile} {i : CsrIdx} {w : Window} (h : window c.xlen i = some w) :
    f.readMasked c i = f.raw w.target &&& c.rmask w.target &&& w.rmask := by
  rw [CsrFile.readMasked, h]

/-- Settles O24: each operation by the case of its window. -/
theorem opReadsPeeksAndPokesCsr : Obligations.OpReadsPeeksAndPokesCsr := by
  unfold Obligations.OpReadsPeeksAndPokesCsr
  intro s i n hi
  refine ⟨?_, fun home hhome => ?_, ?_, s.csrPoke i (BitVec.ofNat 64 n), ?_, ?_, fun j hj => ?_, rfl⟩
  · intro hw v r
    have hr : s.csrRead i = r := by
      show s.csrs.read s.cfg s.align32 i = if s.ialign = 32 ∧ (i = Csr.mepc ∨ i = Csr.sepc) then v &&& ~~~2 else v
      simp only [CsrFile.read, align32_iff, readMasked_of_window_none hw]
      rfl
    rw [exec_opRead_csr hi, hr]
  · obtain ⟨hw, -⟩ := window_interrupt hhome s.cfg.xlen
    have h1 : i ≠ Csr.mepc ∧ i ≠ Csr.sepc := by
      rcases hhome with ⟨rfl, -⟩ | ⟨rfl, -⟩ <;> decide
    rw [exec_opRead_csr hi, csrRead_eq_readMasked s h1.1 h1.2, readMasked_of_window hw]
    rfl
  · intro v
    have hv : s.csrPeek i = v := by
      simp only [v, State.csrPeek, CsrFile.peek]
      cases window s.cfg.xlen i <;> rfl
    show execOpPeek (.csr i) s = _
    rw [execOpPeek, if_pos hi, hv]
    rfl
  · show execOpPoke (.csr i) n s = _
    rw [execOpPoke, if_pos hi]
  · show (s.csrs.poke s.cfg i _).raw (csrHome i) = _
    unfold CsrFile.poke
    cases hw : window s.cfg.xlen i with
    | none =>
      dsimp only
      rw [window_none_home hw, raw_set_same]
    | some w =>
      dsimp only
      rw [← window_home hw, raw_set_same]
      rfl
  · show (s.csrs.poke s.cfg i _).raw j = _
    unfold CsrFile.poke
    cases hw : window s.cfg.xlen i with
    | none => exact raw_set_other (by rw [← window_none_home hw]; exact hj) _ _
    | some w => exact raw_set_other (by rw [window_home hw]; exact hj) _ _

/-- Settles O25: a field access is an access of its CSR. -/
theorem opReadsAndWritesFields : Obligations.OpReadsAndWritesFields := by
  unfold Obligations.OpReadsAndWritesFields
  intro s i lsb msb n hi hF ones new
  refine ⟨?_, fun ha => ?_⟩
  · show execOpFieldRead i lsb msb s = _
    rw [execOpFieldRead, if_pos hi]
    rfl
  · show execOpFieldWrite i lsb msb n s = _
    rw [execOpFieldWrite, if_pos hi]
    exact endWrite_accepted (s := s.csrWrite i new) (by rw [csrWrite_cfg]; exact ha)

end Sys2Proof.Machine
end

section
/-! What a translation can give: the address itself where the mode is bare (20_memory.md R112, R114), and at most PALEN bits
where it walks (00_scope.md section 5). -/

namespace Sys2Proof.Machine

/-! ## Bare translation -/

theorem translate_bare {kind : AccessKind} {s : State} (h : modeFor kind s = .bare) (va : Word) :
    translate kind s va = .ok va := by
  rw [translate, h]

theorem satpMode_of_zero {s : State} (h : s.fieldRead Csr.satp (Field.satpMode s.cfg.xlen) = 0) :
    satpMode s.cfg s.csrs = .bare := by
  have hf : s.csrs.field s.cfg Csr.satp (Field.satpMode s.cfg.xlen) = 0 := by
    rw [field_satp]
    exact h
  rw [satpMode, hf]
  cases s.cfg.xlen <;> rfl

/-- Settles O54: the cached mode is bare in each case. -/
theorem bareTranslationIsIdentity : Obligations.BareTranslationIsIdentity := by
  unfold Obligations.BareTranslationIsIdentity
  intro s va hd
  have hfetch : s.priv = .machine ∨ s.fieldRead Csr.satp (Field.satpMode s.cfg.xlen) = 0 → s.fetchMode = .bare := by
    rintro (h | h)
    · rw [hd.fetch, deriveFetchMode, if_pos h]
    · rw [hd.fetch, deriveFetchMode, satpMode_of_zero h, ite_self]
  have hdata : lsPrivEnc s.cfg s.csrs s.priv = 3 ∨ s.fieldRead Csr.satp (Field.satpMode s.cfg.xlen) = 0 →
      s.lsMode = .bare := by
    rintro (h | h)
    · rw [hd.data, deriveLsMode]
      exact if_pos h
    · rw [hd.data, deriveLsMode, satpMode_of_zero h, ite_self]
  exact ⟨fun h => translate_bare (kind := .fetch) (hfetch h) va,
    fun h => ⟨translate_bare (kind := .load) (hdata h) va, translate_bare (kind := .store) (hdata h) va⟩⟩

/-! ## Physical addresses -/

theorem toNat_and_lowMask_lt (v : Word) {n : Nat} (hn : n < 64) : (v &&& lowMask n).toNat < 2 ^ n := by
  have hpos : 0 < 2 ^ n := Nat.two_pow_pos n
  have hlt : 2 ^ n < 2 ^ 64 := Nat.pow_lt_pow_right (by decide) hn
  have hmask : (lowMask n).toNat = 2 ^ n - 1 := by
    have h1 : ((1 <<< n : Nat) : Word).toNat = 2 ^ n := by
      rw [BitVec.natCast_eq_ofNat, BitVec.toNat_ofNat, Nat.shiftLeft_eq, Nat.one_mul, Nat.mod_eq_of_lt hlt]
    rw [lowMask, BitVec.toNat_sub_of_le (by rw [BitVec.le_def, h1]; exact hpos), h1]
    rfl
  rw [BitVec.toNat_and, hmask]
  have := Nat.and_le_right (n := v.toNat) (m := 2 ^ n - 1)
  omega

/-- A page number of `p` bits, its low `k` bits replaced by those of the address. -/
theorem toNat_shift_or_lt {ppn low : Word} {p k : Nat} (hp : ppn.toNat < 2 ^ p) (hk : k ≤ p)
    (hl : low.toNat < 2 ^ (12 + k)) : (((ppn >>> k) <<< (12 + k)) ||| low).toNat < 2 ^ (12 + p) := by
  rw [BitVec.toNat_or]
  refine Nat.or_lt_two_pow ?_ (Nat.lt_of_lt_of_le hl (Nat.pow_le_pow_right (by decide) (by omega)))
  rw [BitVec.toNat_shiftLeft, BitVec.toNat_ushiftRight, Nat.shiftLeft_eq, Nat.shiftRight_eq_div_pow]
  refine Nat.lt_of_le_of_lt (Nat.mod_le ..) ?_
  calc ppn.toNat / 2 ^ k * 2 ^ (12 + k) = ppn.toNat / 2 ^ k * 2 ^ k * 2 ^ 12 := by rw [Nat.pow_add]; ring
    _ ≤ ppn.toNat * 2 ^ 12 := Nat.mul_le_mul_right _ (Nat.div_mul_le_self ..)
    _ < 2 ^ p * 2 ^ 12 := Nat.mul_lt_mul_of_pos_right hp (by decide)
    _ = 2 ^ (12 + p) := by rw [Nat.pow_add, Nat.mul_comm]

/-- The page number a leaf at any level of a mode keeps has room for that level's index bits. -/
theorem vpnBits_mul_le_ppnBits {m : MmuMode} {i : Nat} (h : i < m.levels) :
    m.vpnBits * i ≤ m.ppnBits ∧ m.ppnBits < 52 := by
  cases m <;> simp only [MmuMode.levels, MmuMode.vpnBits, MmuMode.ppnBits] at h ⊢ <;> omega

theorem composePA_lt {m : MmuMode} {i : Nat} (h : i < m.levels) (pte va : Word) :
    (composePA m i pte va).toNat < 2 ^ m.palen := by
  obtain ⟨hk, hp⟩ := vpnBits_mul_le_ppnBits h
  unfold composePA
  split
  · exact toNat_and_lowMask_lt _ (by unfold MmuMode.palen; omega)
  · exact toNat_shift_or_lt (toNat_and_lowMask_lt _ (by omega)) hk (toNat_and_lowMask_lt _ (by omega))

/-- A walk that gives an address composes it at one of its levels. -/
theorem walkFrom_ok {kind : AccessKind} {s : State} {m : MmuMode} {va pa : Word} {n : Nat} {ppn : Word}
    (h : walkFrom kind s m va n ppn = .ok pa) : ∃ i < n, ∃ pte, pa = composePA m i pte va := by
  induction n generalizing ppn with
  | zero => cases h
  | succ i ih =>
    unfold walkFrom at h
    split at h
    · cases h
    · dsimp only at h
      split at h
      · cases h
      · split at h
        · split at h
          · cases h
            exact ⟨i, Nat.lt_succ_self i, _, rfl⟩
          · cases h
        · split at h
          · obtain ⟨j, hj, pte, e⟩ := ih h
            exact ⟨j, Nat.lt_succ_of_lt hj, pte, e⟩
          · cases h

theorem walk_ok_lt {kind : AccessKind} {s : State} {m : MmuMode} {va pa : Word} (h : walk kind s m va = .ok pa) :
    pa.toNat < 2 ^ m.palen := by
  unfold walk at h
  split at h
  · cases h
  · obtain ⟨i, hi, pte, rfl⟩ := walkFrom_ok h
    exact composePA_lt hi pte va

/-- A translation under a walking mode that gives an address is its walk. -/
theorem walk_of_translate {kind : AccessKind} {s : State} {va pa : Word} (hm : (modeFor kind s).translating = true)
    (h : translate kind s va = .ok pa) : walk kind s (modeFor kind s) va = .ok pa := by
  have hp : effPrivEnc kind s ≠ 2 := by
    intro hp
    rw [translate_reserved (by intro hb; rw [hb] at hm; cases hm) hp] at h
    cases h
  rwa [translate_translating hp hm] at h

/-- Settles O56: the walk composes at one of the mode's levels, and PALEN is 34 or 56. -/
theorem translatedAddressesArePhysical : Obligations.TranslatedAddressesArePhysical := by
  unfold Obligations.TranslatedAddressesArePhysical
  intro kind s va pa hm h
  have hlt := walk_ok_lt (walk_of_translate hm h)
  cases hk : modeFor kind s with
  | bare | invalid => rw [hk] at hm; cases hm
  | sv32 | sv39 | sv48 | sv57 => rw [hk] at hlt; exact hlt

end Sys2Proof.Machine
end

section
/-! Each micro-op step invoked alone (42_pipeline_microops.md, 40_microop_chain.md R200): its state change and the signal it
returns. -/

namespace Sys2Proof.Machine

section Alone
variable {op : MicroOp} {s t : State}

theorem invokeAlone_of_cont (h : invoke op s = .cont t) : invokeAlone op s = .next { t with signal := .proceed } := by
  rw [invokeAlone, h]

theorem invokeAlone_of_redirect {c : ChainId} (h : invoke op s = .redirect c t) :
    invokeAlone op s = .next { t with signal := .redirect c } := by
  rw [invokeAlone, h]

theorem invokeAlone_of_abort {f : Fault} (h : invoke op s = .abort f) : invokeAlone op s = .fault f := by
  rw [invokeAlone, h]

theorem invokeAlone_of_raiseFault {u : State} {c : BitVec 6} {info : Word} (hc : u.latch.pending = false)
    (h : invoke op s = raiseFault c info u) :
    invokeAlone op s = .next { u.faulting c info with signal := .redirect .exception } :=
  invokeAlone_of_redirect (h.trans (raiseFault_of_noCause hc c info))

end Alone

/-! ## FETCH (R262) -/

/-- The alignment test is divisibility by `ialign` in bytes (20_memory.md R105). -/
theorem pcMisaligned_iff (s : State) : s.pcMisaligned = true ↔ s.pc.toNat % (s.ialign / 8) ≠ 0 := by
  have low (m : Word) : s.pc &&& m ≠ 0 ↔ (s.pc.toNat &&& m.toNat) ≠ 0 := by
    rw [Ne, ← BitVec.toNat_inj, BitVec.toNat_and]
    rfl
  unfold State.pcMisaligned State.ialign
  cases s.align32 with
  | true =>
    simp only [if_true, decide_eq_true_eq]
    rw [low, show (3 : Word).toNat = 2 ^ 2 - 1 from rfl, Nat.and_two_pow_sub_one_eq_mod]
  | false =>
    simp only [Bool.false_eq_true, if_false, decide_eq_true_eq]
    rw [low, show (1 : Word).toNat = 2 ^ 1 - 1 from rfl, Nat.and_two_pow_sub_one_eq_mod]

/-- Settles O28: FETCH's three ends, and the push that a queue not empty refuses. -/
theorem fetchStep_alone : Obligations.FetchStep := by
  unfold Obligations.FetchStep
  intro s hc
  refine ⟨fun hq => ?_, fun hq hirq hmis => ?_⟩
  · show invokeAlone .fetch s = _
    have e : invoke .fetch s = _ := fetchStep_eq hq hc
    cases hirq : s.irqReq with
    | some c =>
      rw [hirq] at e
      exact invokeAlone_of_redirect e
    | none =>
      rw [hirq] at e
      dsimp only at e ⊢
      split
      next hm =>
        rw [if_pos ((pcMisaligned_iff s).2 hm)] at e
        exact invokeAlone_of_redirect e
      next hm =>
        rw [if_neg (mt (pcMisaligned_iff s).1 hm)] at e
        exact invokeAlone_of_cont e
  · refine invokeAlone_of_abort (op := .fetch) ?_
    have hal : ¬ s.pcMisaligned = true := mt (pcMisaligned_iff s).1 (not_not.2 hmis)
    show fetchStep s = _
    simp only [fetchStep, hirq, hal, pushFetch_of_nonempty hq]
    rfl

/-! ## The translate steps (R263, R272) -/

theorem resolveAll_single_ok {kind : AccessKind} {s : State} {r : Request} {pa : Word}
    (h : resolveRequest kind s r = .ok pa) : resolveAll kind s [r] = .done [⟨pa, r.size⟩] := by
  rw [resolveAll_single, h]

theorem resolveAll_single_pageFault {kind : AccessKind} {s : State} {r : Request}
    (h : resolveRequest kind s r = .pageFault) : resolveAll kind s [r] = .pageFault r.vaddr := by
  rw [resolveAll_single, h]

/-- DATA_TRANSLATE of a memory instruction resolves with that instruction's kind. -/
theorem dataTranslateStep_of_kind {s : State} {ci : CurrentInst} {kind : AccessKind} (hci : s.currentInst = some ci)
    (hk : ci.memKind = .load ∧ kind = .load ∨ ci.memKind = .store ∧ kind = .store) :
    dataTranslateStep s = translateData kind ci s := by
  rcases hk with ⟨hk, rfl⟩ | ⟨hk, rfl⟩ <;> simp only [dataTranslateStep, hci, hk]

/-- Settles O29: one request, resolved or faulting. -/
theorem translateSteps : Obligations.TranslateSteps := by
  unfold Obligations.TranslateSteps
  intro s r hc
  refine ⟨fun hp => ⟨fun pa ht => ?_, fun ht => ?_⟩, fun ci kind hci hp hk hpage => ⟨fun pa ht => ?_, fun ht => ?_⟩⟩
  · refine invokeAlone_of_cont (op := .instTranslate)
      (t := { s with fetchQueue := s.fetchQueue.resolved [⟨pa, r.size⟩] }) ?_
    show instTranslateStep s = _
    rw [instTranslateStep, hp, resolveAll_single_ok ((resolveRequest_fetch s r).trans ht)]
  · refine invokeAlone_of_raiseFault (op := .instTranslate) (u := { s with fetchQueue := {} }) hc ?_
    show instTranslateStep s = _
    rw [instTranslateStep, hp, resolveAll_single_pageFault ((resolveRequest_fetch s r).trans ht)]
    rfl
  all_goals
    have hpage' : (modeFor kind s).translating = true → crossesPage r = false := by
      rcases hk with ⟨-, rfl⟩ | ⟨-, rfl⟩ <;> exact hpage
    have hr := (resolveRequest_of_onePage hpage').trans ht
  · refine invokeAlone_of_cont (op := .dataTranslate)
      (t := { s with currentInst := some { ci with dataQueue := ci.dataQueue.resolved [⟨pa, r.size⟩] } }) ?_
    show dataTranslateStep s = _
    rw [dataTranslateStep_of_kind hci hk, translateData, hp, resolveAll_single_ok hr]
  · have hcode : pageFaultCode kind = if kind = .load then 13 else 15 := by
      rcases hk with ⟨-, rfl⟩ | ⟨-, rfl⟩ <;> rfl
    refine invokeAlone_of_raiseFault (op := .dataTranslate)
      (u := { s with currentInst := some { ci with dataQueue := {} } }) hc ?_
    show dataTranslateStep s = _
    rw [dataTranslateStep_of_kind hci hk, translateData, hp, resolveAll_single_pageFault hr, hcode]

/-! ## DECODE (R264) -/

/-- DECODE of the oldest result, the rest left in the queue. -/
theorem decodeStep_of_result {s : State} {r : Resolved} {rs : List Resolved} {n : Nat} (hc : s.latch.pending = false)
    (hr : s.fetchQueue.results = r :: rs) (hn : s.memRead r.paddr 4 = some n)
    (hpage : s.isShort (BitVec.ofNat 32 n) = true ∨ s.fetchMode = .bare ∨ s.pc &&& 0xFFF ≠ 0xFFE) :
    decodeStep s
      = decoded (BitVec.ofNat 32 n) { s with fetchQueue := { s.fetchQueue with results := rs } } := by
  have hpop : s.fetchQueue.pop = some (r, { s.fetchQueue with results := rs }) := by
    rw [Queue.pop, hr]
  have hcross : ¬ (!s.isShort (BitVec.ofNat 32 n)
      && decide (s.fetchMode ≠ .bare) && decide (s.pc &&& 0xFFF = 0xFFE)) = true := by
    simp only [Bool.and_eq_true, Bool.not_eq_true', decide_eq_true_eq, not_and]
    rintro ⟨hshort, hbare⟩ hpc
    rcases hpage with h | h | h
    · rw [hshort] at h
      cases h
    · exact hbare h
    · exact h hpc
  unfold decodeStep decoded
  rw [hpop]
  dsimp only
  rw [hn]
  refine (if_neg hcross).trans ?_
  rw [raiseFault_of_noCause (s := { s with fetchQueue := { s.fetchQueue with results := rs } }) hc]
  rfl

theorem decodeBits_eq_known_iff {c : Config} {inc : BitVec 26} {short : Bool} {bits : BitVec 32} {i : Instr} :
    decodeBits c inc short bits = .known i ↔ decodeKnown c inc short bits = some i := by
  unfold decodeBits
  split
  next j hj => rw [hj, Option.some.injEq, Decoded.known.injEq]
  next hn =>
    rw [hn]
    split <;> simp

/-- A four-byte word is known exactly if it is one of the twenty and its letters are enabled. -/
theorem decodeKnown_word_iff {c : Config} {inc : BitVec 26} {w : BitVec 32} {i : Instr} :
    decodeKnown c inc false w = some i ↔ decodeWord w = some i ∧ inc &&& needsOf c i = needsOf c i := by
  simp only [decodeKnown, Bool.false_eq_true, if_false, enables, decide_eq_true_eq]
  cases decodeWord w with
  | none => simp
  | some j =>
    dsimp only
    split
    next he =>
      rw [Option.some.injEq]
      exact ⟨fun e => ⟨e, e ▸ he⟩, fun h => h.1⟩
    next he =>
      rw [Option.some.injEq]
      exact ⟨fun h => (nomatch h), fun h => absurd (h.1 ▸ h.2) he⟩

/-- A parcel that no enabled expansion names is not known. -/
theorem decodeKnown_parcel_none {c : Config} {inc : BitVec 26} {bits : BitVec 32}
    (h : ∀ r ∈ c.parcels, r.parcel = bits.setWidth 16 → inc &&& r.needs ≠ r.needs) :
    decodeKnown c inc true bits = none := by
  have hfind : c.parcels.find? (fun r => r.parcel = bits.setWidth 16 && enables inc r.needs) = none := by
    simp only [List.find?_eq_none, Bool.and_eq_true, decide_eq_true_eq, enables]
    rintro r hr ⟨h1, h2⟩
    exact h r hr h1 h2
  simp only [decodeKnown, if_true, hfind]

/-- What is not known, and matches no enabled word without a handler, is illegal. -/
theorem decodeBits_illegal {c : Config} {inc : BitVec 26} {short : Bool} {bits : BitVec 32}
    (hk : decodeKnown c inc short bits = none)
    (hu : ∀ r ∈ c.unimplemented, r.short = short → bits &&& r.mask = r.pat → inc &&& r.needs ≠ r.needs) :
    decodeBits c inc short bits = .illegal := by
  have hfind : c.unimplemented.find?
      (fun r => r.short = short && bits &&& r.mask = r.pat && enables inc r.needs) = none := by
    simp only [List.find?_eq_none, Bool.and_eq_true, decide_eq_true_eq, enables]
    rintro r hr ⟨⟨h1, h2⟩, h3⟩
    exact hu r hr h1 h2 h3
  rw [decodeBits, hk, hfind]

theorem setWidth_and_ffff (w : BitVec 32) : (w &&& 0xFFFF).setWidth 16 = w.setWidth 16 := by
  rw [BitVec.setWidth_and]
  exact BitVec.and_allOnes

/-- Settles O30: DECODE by what the decoder says, and the decoder by its two tables. -/
theorem decodeStep_alone : Obligations.DecodeStep := by
  unfold Obligations.DecodeStep
  intro s r rs n hc hr hn w short bits len u v hpage
  have hd : invoke .decode s = decoded w u := decodeStep_of_result hc hr hn hpage
  refine ⟨fun i hi => ?_, fun k ds hi => ?_, fun hi => ?_, fun hs i => ?_, fun hu => ⟨fun hs hk => ?_, fun hs hk => ?_⟩⟩
  · refine invokeAlone_of_redirect (op := .decode) (t := loadInst (slotOf bits len i) u) (hd.trans ?_)
    rw [decoded, show decodeBits u.cfg u.inclusions (u.isShort w) (u.fetchedBits w) = _ from hi]
    rfl
  · refine invokeAlone_of_redirect (op := .decode) (t := loadInst (externalSlot bits len k ds) u) (hd.trans ?_)
    rw [decoded, show decodeBits u.cfg u.inclusions (u.isShort w) (u.fetchedBits w) = _ from hi]
    rfl
  · refine invokeAlone_of_redirect (op := .decode) (t := u.faulting 2 (bits.setWidth 64)) (hd.trans ?_)
    rw [decoded, show decodeBits u.cfg u.inclusions (u.isShort w) (u.fetchedBits w) = _ from hi]
    rfl
  · have hbits : bits = w := if_neg (by rw [hs]; decide)
    rw [hs, hbits]
    exact decodeBits_eq_known_iff.trans decodeKnown_word_iff
  · refine decodeBits_illegal ?_ hu
    have hbits : bits = w := if_neg (by rw [hs]; decide)
    rw [hs, hbits, Option.eq_none_iff_forall_ne_some]
    intro i hi
    obtain ⟨hw, he⟩ := decodeKnown_word_iff.1 hi
    exact hk i hw he
  · refine decodeBits_illegal ?_ hu
    have hbits : bits = w &&& 0xFFFF := if_pos hs
    rw [hs, hbits]
    exact decodeKnown_parcel_none (by rw [setWidth_and_ffff]; exact hk)

/-! ## COMPUTE_ADDRESS (R270) -/

/-- Settles O31: the push on the data queue of the slot. -/
theorem computeAddressStep_alone : Obligations.ComputeAddressStep := by
  unfold Obligations.ComputeAddressStep
  intro s ci rd rs1 rs2 imm hci hi
  have e : computeAddressStep s = pushData (effAddr s rs1 imm) 4 s := by
    rcases hi with hi | hi <;> simp only [computeAddressStep, hci, hi] <;> rfl
  refine ⟨fun hp => ?_, fun hp => ?_⟩
  · refine invokeAlone_of_cont (op := .computeAddress) (t := { s with currentInst := some { ci with dataQueue :=
      { ci.dataQueue with pending := [⟨effAddr s rs1 imm, 4⟩] } } }) (e.trans ?_)
    rw [pushData, hci]
    dsimp only
    rw [push_of_resolved hp]
  · refine invokeAlone_of_abort (op := .computeAddress) (e.trans ?_)
    rw [pushData, hci]
    dsimp only
    rw [push_of_pending hp]

/-! ## The hooks (R300 to R302) -/

/-- One observer notified, no answer waiting. -/
theorem hookCall_of_nil {s : State} (h : s.hookReplies = []) (kind : HookKind) (k : Nat) (m : Bool) :
    hookCall kind k m s = .cont { s with notices := s.notices ++ [⟨kind, k, m⟩] } := by
  unfold hookCall State.notify
  dsimp only
  rw [h]

/-- Settles O33: each hook step is the call of its observer with its marker. -/
theorem hookSteps : Obligations.HookSteps := by
  unfold Obligations.HookSteps
  intro s k i kind m hi
  have e : exec i s = match hookCall kind k m s with
      | .cont s' => .next { s' with signal := .proceed }
      | .redirect c s' => .next { s' with signal := .redirect c }
      | .abort f => .fault f
      | .refuse r => .refused r := by
    rcases hi with ⟨rfl, rfl, rfl⟩ | ⟨rfl, rfl, rfl⟩ | ⟨rfl, rfl, rfl⟩ <;> rfl
  refine ⟨fun h => ?_, fun r rs h => ?_⟩
  · rw [e, hookCall_of_nil h]
  · rw [e]
    unfold hookCall State.notify
    dsimp only
    rw [h]
    obtain ⟨redirect, exitCode⟩ := r
    cases redirect <;> cases exitCode <;> rfl

/-! ## EXCEPTION, FINISH_UPDATE, STOP_NOTIFY and cleanup (R520, R290, R308, R309) -/

/-- Settles O34. -/
theorem exceptionStep_alone : Obligations.ExceptionStep := by
  unfold Obligations.ExceptionStep
  intro s
  refine ⟨fun h => invokeAlone_of_abort (op := .exception) (if_pos h), fun h ha => ?_⟩
  refine invokeAlone_of_cont (op := .exception) ?_
  show exceptionStep s = _
  rw [exceptionStep, if_neg h, checkIsa, takeTrap_cfg, if_pos ha]

/-- Settles O35: the mode is committed first, which recomputes the MMU modes where it changed. -/
theorem finishUpdateStep : Obligations.FinishUpdateStep := by
  unfold Obligations.FinishUpdateStep
  intro s
  refine ⟨_, invokeAlone_of_cont (op := .finishUpdate) (t := finishUpdate s) rfl, ?_⟩
  rw [finishUpdate_eq]
  by_cases h : s.nextPriv = s.priv
  · rw [commitPriv_of_noReturn h]
    exact ⟨rfl, rfl, h.symm, rfl, rfl, fun hn => absurd h hn, fun _ => ⟨rfl, rfl, rfl⟩, rfl⟩
  · rw [show s.commitPriv = State.recomputeMmu { s with priv := s.nextPriv } from if_neg h]
    exact ⟨rfl, rfl, rfl, rfl, rfl, fun _ => ⟨rfl, rfl⟩, fun hn => absurd hn h, rfl⟩

/-- Settles O36. -/
theorem stopAndCleanupNotify : Obligations.StopAndCleanupNotify := by
  unfold Obligations.StopAndCleanupNotify
  intro s k
  exact ⟨rfl, rfl, rfl⟩

end Sys2Proof.Machine
end

section
/-! EXECUTE invoked alone (42_pipeline_microops.md R280 to R286): the handler of the instruction in the slot. -/

namespace Sys2Proof.Machine

/-! ## EXECUTE of the instruction in the slot -/

section Slot
variable {s : State} {ci : CurrentInst} {i : Instr} (hci : s.currentInst = some ci) (hi : ci.instr = some i)
include hci hi

theorem executeStep_of_instr : executeStep s = executeBody i s := by
  simp only [executeStep, hci, hi]

/-- A handler that completes. -/
theorem stepExecute_continues {u : State} (hb : executeBody i s = .cont u) :
    exec .stepExecute s = .next { u with signal := .proceed } :=
  invokeAlone_of_cont (op := .execute) ((executeStep_of_instr hci hi).trans hb)

/-- A handler that raises. -/
theorem stepExecute_raises (hc : s.latch.pending = false) {code : BitVec 6} {info : Word}
    (hb : executeBody i s = raiseFault code info s) :
    exec .stepExecute s = .next { s.faulting code info with signal := .redirect .exception } :=
  invokeAlone_of_raiseFault (op := .execute) hc ((executeStep_of_instr hci hi).trans hb)

/-- A handler that finds its instruction illegal records the opcode bits of the slot. -/
theorem stepExecute_illegal (hc : s.latch.pending = false) (hb : executeBody i s = illegal s) :
    exec .stepExecute s = .next { s.faulting 2 (ci.opcode.setWidth 64) with signal := .redirect .exception } := by
  refine stepExecute_raises hci hi hc (hb.trans ?_)
  rw [illegal, hci]
  rfl

theorem stepExecute_aborts {f : Fault} (hb : executeBody i s = .abort f) : exec .stepExecute s = .fault f :=
  invokeAlone_of_abort (op := .execute) ((executeStep_of_instr hci hi).trans hb)

end Slot

/-! ## The handlers -/

theorem checkIsa_accepted {s : State} (h : isaAccepted s.cfg s.inclusions = true) : checkIsa s = .cont s := if_pos h

/-- A state whose slot has only some of its data queue's results left. -/
def State.withResults (ci : CurrentInst) (rs : List Resolved) (s : State) : State :=
  { s with currentInst := some { ci with dataQueue := { ci.dataQueue with results := rs } } }

section Data
variable {s : State} {ci : CurrentInst} (hci : s.currentInst = some ci) {k : Resolved → State → MicroOut}
include hci

theorem withData_of_nil (hr : ci.dataQueue.results = []) : withData k s = .abort .emptyTranslationResult := by
  simp only [withData, hci, Queue.pop, hr]

theorem withData_of_result {r : Resolved} {rs : List Resolved} (hr : ci.dataQueue.results = r :: rs) :
    withData k s = k r (s.withResults ci rs) := by
  simp only [withData, hci, Queue.pop, hr, State.withResults]

theorem lwBody_of_nil (rd : Reg) (hr : ci.dataQueue.results = []) : lwBody rd s = .abort .emptyTranslationResult :=
  withData_of_nil hci hr

theorem swBody_of_nil (rs2 : Reg) (hr : ci.dataQueue.results = []) : swBody rs2 s = .abort .emptyTranslationResult :=
  withData_of_nil hci hr

theorem lwBody_of_result (rd : Reg) {r : Resolved} {rs : List Resolved} {n : Nat} (hr : ci.dataQueue.results = r :: rs)
    (hn : s.memRead r.paddr 4 = some n) : lwBody rd s
      = .cont ((s.withResults ci rs).writeX rd (sextTo s.cfg.xlen (BitVec.ofNat 32 n))) := by
  rw [lwBody, withData_of_result hci hr, show (s.withResults ci rs).memRead r.paddr 4 = some n from hn]
  rfl

theorem swBody_of_result (rs2 : Reg) {r : Resolved} {rs : List Resolved} (hr : ci.dataQueue.results = r :: rs)
    (hp : presentAll s.cfg.memory true r.paddr.toNat 4 = true) : swBody rs2 s
      = .cont { s.withResults ci rs with mem := s.mem.writeLE r.paddr.toNat 4 (s.readX rs2).toNat } := by
  have hw : (s.withResults ci rs).memWrite r.paddr 4 (s.readX rs2).toNat = some { s.withResults ci rs with
      mem := s.mem.writeLE r.paddr.toNat 4 (s.readX rs2).toNat } := if_pos hp
  rw [swBody, withData_of_result hci hr, show ((s.withResults ci rs).readX rs2) = s.readX rs2 from rfl, hw]

end Data

/-- BNE as one continuation. -/
theorem bneBody_eq (rs1 rs2 : Reg) (off : BitVec 13) (s : State) : bneBody rs1 rs2 off s
    = .cont (if s.readX rs1 ≠ s.readX rs2 then { s with nextPc := s.pcPlus (sextTo s.cfg.xlen off) } else s) := by
  unfold bneBody
  split <;> rfl

/-- An access whose check passes and whose extension set is accepted continues. -/
theorem executeBody_csr_legal {s : State} {i : Instr} {csr : CsrIdx} {rd : Reg} (hc : i.csr? = some csr)
    (hd : i.rd? = some rd) (hl : csrLegal s csr i.willWrite = true)
    (ha : i.willWrite = true → touchesIsa csr = true →
      isaAccepted s.cfg (s.csrWrite csr (csrNewValue s i)).inclusions = true) :
    executeBody i s = .cont (csrResult csr i.willWrite (csrNewValue s i) rd s) :=
  (executeBody_csr hc hd s).trans (csrAccess_legal hl ha)

theorem executeBody_csr_illegal {s : State} {i : Instr} {csr : CsrIdx} {rd : Reg} (hc : i.csr? = some csr)
    (hd : i.rd? = some rd) (hl : csrLegal s csr i.willWrite = false) : executeBody i s = illegal s :=
  (executeBody_csr hc hd s).trans (csrAccess_illegal hl)

theorem sretBody_of_not_illegal {s : State}
    (h : ¬ (s.priv = .user ∨ s.priv = .supervisor ∧ s.fieldRead Csr.mstatus Field.TSR = 1)) :
    sretBody s = checkIsa (trapReturn Field.SIE Field.SPIE Field.SPP Csr.sepc
      (if s.fieldRead Csr.mstatus Field.SPP = 1 then .supervisor else .user) s) := by
  obtain ⟨hu, ht⟩ := not_or.1 h
  rw [sretBody, if_neg hu, if_neg ht]

theorem sfenceVmaBody_of_not_illegal {s : State} (rs1 rs2 : Reg)
    (h : ¬ (s.priv = .user ∨ s.priv = .supervisor ∧ s.fieldRead Csr.mstatus Field.TVM = 1)) :
    sfenceVmaBody rs1 rs2 s = .cont s := by
  obtain ⟨hu, ht⟩ := not_or.1 h
  rw [sfenceVmaBody, if_neg hu, if_neg ht]

/-- Settles O32: the handler of each instruction, then what its outcome is for the step alone. -/
theorem executeStep_alone : Obligations.ExecuteStep := by
  unfold Obligations.ExecuteStep
  intro s ci hci go raises popped
  refine ⟨fun rd rs1 rs2 u imm off b => ⟨fun hi => ?_, fun hi => ?_, fun hi => ?_, fun hi => ?_, fun hi hr => ?_,
      fun r rs hr => ⟨fun n hi hn => ?_, fun hi hp => ?_⟩⟩,
    fun rs1 rs2 rd fm pred succ imm hc => ⟨fun hi => ?_, fun hi => ?_, fun hi hp => ?_, fun hi hp p hm ha => ?_,
      fun hi => ?_, fun hi => ?_, fun hi => ?_, fun hi => ?_⟩,
    fun i csr rd new hi hc hform => ?_, fun hi => ?_⟩
  · exact stepExecute_continues hci hi rfl
  · exact stepExecute_continues hci hi rfl
  · exact stepExecute_continues hci hi rfl
  · exact stepExecute_continues hci hi (bneBody_eq ..)
  · rcases hi with hi | hi
    · exact stepExecute_aborts hci hi (lwBody_of_nil hci rd hr)
    · exact stepExecute_aborts hci hi (swBody_of_nil hci rs2 hr)
  · exact stepExecute_continues hci hi (lwBody_of_result hci rd hr hn)
  · exact stepExecute_continues hci hi (swBody_of_result hci rs2 hr hp)
  · have hcode : (8 + s.priv.enc.setWidth 6 : BitVec 6)
        = match s.priv with | .user => 8 | .supervisor => 9 | .machine => 11 := by
      cases s.priv <;> rfl
    exact (stepExecute_raises hci hi hc rfl).trans (congrArg (fun c => raises c 0) hcode)
  · exact stepExecute_raises hci hi hc rfl
  · exact stepExecute_illegal hci hi hc (mretBody_illegal hp)
  · refine stepExecute_continues hci hi ((mretBody_legal hp hm).trans (checkIsa_accepted ?_))
    rw [trapReturn_cfg]
    exact ha
  · intro p
    split
    next hill => exact stepExecute_illegal hci hi hc (sretBody_illegal hill)
    next hill =>
      intro ha
      refine stepExecute_continues hci hi ((sretBody_of_not_illegal hill).trans (checkIsa_accepted ?_))
      rw [trapReturn_cfg]
      exact ha
  · split
    next hill =>
      obtain ⟨hp, ht⟩ := hill
      exact stepExecute_illegal hci hi hc (wfiBody_illegal hp ht)
    next hill => exact stepExecute_continues hci hi (if_neg hill)
  · split
    next hill => exact stepExecute_illegal hci hi hc (sfenceVmaBody_illegal rs1 rs2 hill)
    next hill => exact stepExecute_continues hci hi (sfenceVmaBody_of_not_illegal rs1 rs2 hill)
  · rcases hi with hi | hi
    · exact stepExecute_continues hci hi rfl
    · exact stepExecute_continues hci hi rfl
  · obtain ⟨hcsr, hd, rfl⟩ : i.csr? = some csr ∧ i.rd? = some rd ∧ csrNewValue s i = new := by
      rcases hform with ⟨_, rfl, rfl⟩ | ⟨_, rfl, rfl⟩ | ⟨_, rfl, rfl⟩ | ⟨_, rfl, rfl⟩ | ⟨_, rfl, rfl⟩ | ⟨_, rfl, rfl⟩ <;>
        exact ⟨rfl, rfl, rfl⟩
    exact ⟨fun hl ha => stepExecute_continues hci hi (executeBody_csr_legal hcsr hd hl ha),
      fun hl => stepExecute_illegal hci hi hc (executeBody_csr_illegal hcsr hd hl)⟩
  · let v : State := { s with currentInst := some { ci with unimplemented := true } }
    have hf : FreesOnly ci.dests v (ci.dests.foldl (fun s d => freeDest d s) v) := freeDests_frees ci.dests v
    have hb : executeStep s = .cont (ci.dests.foldl (fun s d => freeDest d s) v) := by
      simp only [executeStep, hci, hi]
      rfl
    generalize ci.dests.foldl (fun s d => freeDest d s) v = w at hf hb
    refine ⟨_, invokeAlone_of_cont (op := .execute) hb, ?_, fun r => ⟨hf.xreg r, hf.freg r, hf.vreg r⟩, ?_⟩
    · show w.currentInst = _
      rw [hf.rest]
    · rw [hf.rest]

end Sys2Proof.Machine
end

section
/-! What a trap writes into the CSR file, with the default masks (60_exceptions.md R523 to R528). -/

namespace Sys2Proof.Machine

/-! ## Fields (10_state.md R43) -/

/-- A field is the masked value shifted down, where its mask does not run over bit 63. -/
theorem Field.get_eq_of_mask {F : Field} (hF : F.mask >>> F.lsb = F.ones) (v : Word) :
    F.get v = (v &&& F.mask) >>> F.lsb := by
  rw [BitVec.ushiftRight_and_distrib, hF]
  rfl

theorem Field.get_congr {F : Field} (hF : F.mask >>> F.lsb = F.ones) {v w : Word} (h : v &&& F.mask = w &&& F.mask) :
    F.get v = F.get w := by
  rw [F.get_eq_of_mask hF, F.get_eq_of_mask hF, h]

/-- A field put in place leaves every bit outside its mask. -/
theorem Field.put_and_of_disjoint {F : Field} {k : Word} (h : F.mask &&& k = 0) (old v : Word) :
    F.put old v &&& k = old &&& k := by
  unfold Field.put
  ext j hj
  have hk : (F.mask &&& k)[j] = false := by rw [h]; simp
  simp only [BitVec.getElem_and, BitVec.getElem_or, BitVec.getElem_not] at hk ⊢
  cases hm : F.mask[j] <;> cases hk' : k[j] <;> simp_all

/-- Another field of the same register reads as before. -/
theorem Field.get_put_other {F G : Field} (hF : F.mask >>> F.lsb = F.ones) (h : G.mask &&& F.mask = 0) (old v : Word) :
    F.get (G.put old v) = F.get old :=
  Field.get_congr hF (G.put_and_of_disjoint h old v)

/-- A field reads as the value put there, cut to its width. -/
theorem Field.get_put_same {F : Field} (hF : F.mask >>> F.lsb = F.ones) (old v : Word) :
    F.get (F.put old v) = v &&& F.ones := by
  have hput : F.put old v &&& F.mask = (v <<< F.lsb) &&& F.mask := by
    unfold Field.put
    ext j hj
    simp only [BitVec.getElem_and, BitVec.getElem_or, BitVec.getElem_not]
    cases F.mask[j] <;> simp
  rw [F.get_eq_of_mask hF, hput, BitVec.ushiftRight_and_distrib, hF]
  ext j hj
  have hones : (F.mask >>> F.lsb)[j] = F.ones[j] := by rw [hF]
  rw [BitVec.getElem_ushiftRight] at hones
  rw [BitVec.getElem_and, BitVec.getElem_and, BitVec.getElem_ushiftRight, BitVec.getLsbD_shiftLeft]
  by_cases h : F.lsb + j < 64
  · simp [h, BitVec.getLsbD_eq_getElem hj]
  · rw [← hones, BitVec.getLsbD_of_ge F.mask _ (by omega), Bool.and_false, Bool.and_false]

theorem Field.get_and_ones (F : Field) (v : Word) : F.get v &&& F.ones = F.get v := by
  rw [Field.get, BitVec.and_assoc, BitVec.and_self]

/-- A read mask that covers a field does not hide it. -/
theorem Field.get_and_of_covered {F : Field} (hF : F.mask >>> F.lsb = F.ones) {r : Word} (h : r &&& F.mask = F.mask)
    (v : Word) : F.get (v &&& r) = F.get v :=
  Field.get_congr hF (by rw [BitVec.and_assoc, h])

/-! ## Writes under the default masks -/

/-- A field within the write mask is stored as it is put. -/
theorem maskedNew_put {x : XLen} {F : Field} {w : Word} (hw : fitsXlen x w) (hF : F.mask &&& w = F.mask) (old v : Word) :
    maskedNew old w (x.trunc (F.put old v)) = F.put old v := by
  rw [maskedNew, trunc_and_of_fits hw]
  unfold Field.put
  ext j hj
  have hj' : (F.mask &&& w)[j] = F.mask[j] := by rw [hF]
  simp only [BitVec.getElem_and, BitVec.getElem_or, BitVec.getElem_not] at hj' ⊢
  cases hm : F.mask[j] <;> cases hk : w[j] <;> simp_all

theorem fitsXlen_mstatusWMask (x : XLen) : fitsXlen x (mstatusWMask x) := by cases x <;> rfl

/-- Every raw value after a write of a field that the write mask covers. -/
theorem fieldWrite_raw_covered {s : State} {i : CsrIdx} {w : Word} {F : Field} (hi : window s.cfg.xlen i = none)
    (hw : s.cfg.wmask i = w) (hf : fitsXlen s.cfg.xlen w) (hF : F.mask &&& w = F.mask) (v : Word) (j : CsrIdx) :
    (s.fieldWrite i F v).csrs.raw j = if j = i then F.put (s.csrs.raw i) v else s.csrs.raw j := by
  rw [fieldWrite_raw hi, hw, maskedNew_put hf hF]

theorem fieldWrite_mstatus_raw {s : State} (hm : defaultMasks s.cfg) {F : Field}
    (hF : F.mask &&& mstatusWMask s.cfg.xlen = F.mask) (v : Word) (j : CsrIdx) :
    (s.fieldWrite Csr.mstatus F v).csrs.raw j
      = if j = Csr.mstatus then F.put (s.csrs.raw Csr.mstatus) v else s.csrs.raw j :=
  fieldWrite_raw_covered rfl (wmask_mstatus hm) (fitsXlen_mstatusWMask _) hF v j

/-- The write mask of a default CSR. -/
theorem wmask_of_default {c : Config} (hm : defaultMasks c) {i : CsrIdx} {m : XLen → Word}
    (h : ∀ x, ((defaultCsrs x).find? (fun d => d.index = i)).map (·.wmask) = some (m x)) : c.wmask i = m c.xlen := by
  have hx := h c.xlen
  rw [← csr?_of_defaultMasks hm i, Option.map_eq_some_iff] at hx
  obtain ⟨d, hd, hw⟩ := hx
  rw [Config.wmask, hd]
  exact hw

theorem fitsXlen_epcMask (x : XLen) : fitsXlen x (epcMask x) := fitsXlen_trunc ..

theorem fitsXlen_allBits (x : XLen) : fitsXlen x (allBits x) := fitsXlen_trunc ..

/-- Every raw value after a write of a CSR whose write mask is within XLEN bits. -/
theorem csrWrite_raw_mask {s : State} {i : CsrIdx} {m : Word} (hw : window s.cfg.xlen i = none) (hm : s.cfg.wmask i = m)
    (hf : fitsXlen s.cfg.xlen m) (v : Word) (j : CsrIdx) :
    (s.csrWrite i v).csrs.raw j = if j = i then maskedNew (s.csrs.raw i) m v else s.csrs.raw j := by
  rw [csrWrite_raw hw, hm, maskedNew, trunc_and_of_fits hf]
  rfl

/-! ## The two levels (R523 to R526) -/

/-- The CSRs and fields a trap level writes, and what it saves of the mode. -/
structure TrapLevel where
  tvec : CsrIdx
  epc : CsrIdx
  cause : CsrIdx
  tval : CsrIdx
  IE : Field
  PIE : Field
  PP : Field
  saved : Priv → Word

def supervisorLevel : TrapLevel :=
  ⟨Csr.stvec, Csr.sepc, Csr.scause, Csr.stval, Field.SIE, Field.SPIE, Field.SPP, fun p => zextTo (p.enc.extractLsb' 0 1)⟩

def machineLevel : TrapLevel :=
  ⟨Csr.mtvec, Csr.mepc, Csr.mcause, Csr.mtval, Field.MIE, Field.MPIE, Field.MPP, fun p => zextTo p.enc⟩

/-- The three records of a level are CSRs of their own with the default masks of R52 to R57, and mstatus's default masks
cover its fields. -/
structure TrapLevel.Default (L : TrapLevel) (c : Config) : Prop where
  noWindow : ∀ i ∈ [L.epc, L.cause, L.tval], window c.xlen i = none
  distinct : [Csr.mstatus, L.tval, L.cause, L.epc].Nodup
  wmaskEpc : c.wmask L.epc = epcMask c.xlen
  wmaskCause : c.wmask L.cause = allBits c.xlen
  wmaskTval : c.wmask L.tval = allBits c.xlen
  covered : ∀ F ∈ [L.IE, L.PIE, L.PP], F.mask &&& mstatusWMask c.xlen = F.mask
  readIE : L.IE.mask >>> L.IE.lsb = L.IE.ones ∧ mstatusRMask c.xlen &&& L.IE.mask = L.IE.mask

theorem supervisorLevel_default {c : Config} (hm : defaultMasks c) : supervisorLevel.Default c := by
  refine ⟨?_, by decide, wmask_of_default hm (i := Csr.sepc) ?_, wmask_of_default hm (i := Csr.scause) ?_,
    wmask_of_default hm (i := Csr.stval) ?_, ?_, by decide, ?_⟩
  · intro i hi
    simp only [List.mem_cons, List.not_mem_nil, or_false] at hi
    rcases hi with rfl | rfl | rfl <;> rfl
  · intro x; cases x <;> rfl
  · intro x; cases x <;> rfl
  · intro x; cases x <;> rfl
  · intro F hF
    simp only [List.mem_cons, List.not_mem_nil, or_false] at hF
    rcases hF with rfl | rfl | rfl <;> cases c.xlen <;> decide
  · cases c.xlen <;> decide

theorem machineLevel_default {c : Config} (hm : defaultMasks c) : machineLevel.Default c := by
  refine ⟨?_, by decide, wmask_of_default hm (i := Csr.mepc) ?_, wmask_of_default hm (i := Csr.mcause) ?_,
    wmask_of_default hm (i := Csr.mtval) ?_, ?_, by decide, ?_⟩
  · intro i hi
    simp only [List.mem_cons, List.not_mem_nil, or_false] at hi
    rcases hi with rfl | rfl | rfl <;> rfl
  · intro x; cases x <;> rfl
  · intro x; cases x <;> rfl
  · intro x; cases x <;> rfl
  · intro F hF
    simp only [List.mem_cons, List.not_mem_nil, or_false] at hF
    rcases hF with rfl | rfl | rfl <;> cases c.xlen <;> decide
  · cases c.xlen <;> decide

/-- The three records of a level: the exception PC, the cause, the trap value (R524, R525). -/
def TrapLevel.record (L : TrapLevel) (pc c v : Word) (s : State) : State :=
  ((s.csrWrite L.epc pc).csrWrite L.cause c).csrWrite L.tval v

/-- The status of a level: xPIE from xIE, xPP the mode, xIE cleared (R526). -/
def TrapLevel.stack (L : TrapLevel) (s : State) : State :=
  ((s.fieldWrite Csr.mstatus L.PIE (s.fieldRead Csr.mstatus L.IE)).fieldWrite Csr.mstatus L.PP (L.saved s.priv)).fieldWrite
    Csr.mstatus L.IE 0

/-- That status as a value of mstatus. -/
def TrapLevel.stacked (L : TrapLevel) (p : Priv) (m : Word) : Word :=
  L.IE.put (L.PP.put (L.PIE.put m (L.IE.get m)) (L.saved p)) 0

/-! ## The status a trap leaves (R526) -/

section Status
variable (p : Priv) (m : Word)

theorem stackedS_SPIE : Field.SPIE.get (supervisorLevel.stacked p m) = Field.SIE.get m := by
  rw [TrapLevel.stacked, Field.get_put_other (by decide) (by decide), Field.get_put_other (by decide) (by decide)]
  exact (Field.get_put_same (by decide) ..).trans (Field.get_and_ones ..)

theorem stackedS_SPP : Field.SPP.get (supervisorLevel.stacked p m) = if p = .user then 0 else 1 := by
  rw [TrapLevel.stacked, Field.get_put_other (by decide) (by decide)]
  refine (Field.get_put_same (by decide) ..).trans ?_
  cases p <;> decide

theorem stackedS_SIE : Field.SIE.get (supervisorLevel.stacked p m) = 0 :=
  (Field.get_put_same (by decide) ..).trans (by decide)

/-- The status keeps every bit outside the three fields. -/
theorem stackedS_and : supervisorLevel.stacked p m &&& ~~~0x122 = m &&& ~~~0x122 := by
  rw [TrapLevel.stacked, Field.put_and_of_disjoint (by decide), Field.put_and_of_disjoint (by decide),
    Field.put_and_of_disjoint (by decide)]

theorem stackedM_MPIE : Field.MPIE.get (machineLevel.stacked p m) = Field.MIE.get m := by
  rw [TrapLevel.stacked, Field.get_put_other (by decide) (by decide), Field.get_put_other (by decide) (by decide)]
  exact (Field.get_put_same (by decide) ..).trans (Field.get_and_ones ..)

theorem stackedM_MPP : Field.MPP.get (machineLevel.stacked p m) = p.enc.setWidth 64 := by
  rw [TrapLevel.stacked, Field.get_put_other (by decide) (by decide)]
  refine (Field.get_put_same (by decide) ..).trans ?_
  cases p <;> decide

theorem stackedM_MIE : Field.MIE.get (machineLevel.stacked p m) = 0 :=
  (Field.get_put_same (by decide) ..).trans (by decide)

theorem stackedM_and : machineLevel.stacked p m &&& ~~~0x1888 = m &&& ~~~0x1888 := by
  rw [TrapLevel.stacked, Field.put_and_of_disjoint (by decide), Field.put_and_of_disjoint (by decide),
    Field.put_and_of_disjoint (by decide)]

end Status

/-! ## Every raw value after an entry -/

section Entry
variable {s : State} (hm : defaultMasks s.cfg)
include hm

/-- A field of mstatus that its read mask covers. -/
theorem fieldRead_mstatus {F : Field} (hF : F.mask >>> F.lsb = F.ones)
    (hr : mstatusRMask s.cfg.xlen &&& F.mask = F.mask) :
    s.fieldRead Csr.mstatus F = F.get (s.csrs.raw Csr.mstatus) := by
  rw [fieldRead_raw rfl (by decide) (by decide), rmask_mstatus hm, Field.get_and_of_covered hF hr]

/-- Three fields of mstatus written in turn. -/
theorem fieldWrite_mstatus_three_raw {F G H : Field}
    (hF : ∀ K ∈ [H, F, G], K.mask &&& mstatusWMask s.cfg.xlen = K.mask) (a b c : Word) (j : CsrIdx) :
    (((s.fieldWrite Csr.mstatus F a).fieldWrite Csr.mstatus G b).fieldWrite Csr.mstatus H c).csrs.raw j
      = if j = Csr.mstatus then H.put (G.put (F.put (s.csrs.raw Csr.mstatus) a) b) c else s.csrs.raw j := by
  have h1 := fieldWrite_mstatus_raw hm (F := F) (hF F (by simp)) a
  have h2 := fieldWrite_mstatus_raw (s := s.fieldWrite Csr.mstatus F a) (F := G) (by rw [fieldWrite_cfg]; exact hm)
    (by rw [fieldWrite_cfg]; exact hF G (by simp)) b
  have h3 := fieldWrite_mstatus_raw (s := (s.fieldWrite Csr.mstatus F a).fieldWrite Csr.mstatus G b) (F := H)
    (by rw [fieldWrite_cfg, fieldWrite_cfg]; exact hm) (by rw [fieldWrite_cfg, fieldWrite_cfg]; exact hF H (by simp)) c
  rw [h3, h2 Csr.mstatus, h2 j, h1 Csr.mstatus, h1 j, if_pos rfl, if_pos rfl]
  split <;> rfl

/-- The status of a level stands in mstatus, and no other CSR changes. -/
theorem TrapLevel.stack_raw {L : TrapLevel} (hL : L.Default s.cfg) (j : CsrIdx) : (L.stack s).csrs.raw j
    = if j = Csr.mstatus then L.stacked s.priv (s.csrs.raw Csr.mstatus) else s.csrs.raw j := by
  obtain ⟨hIE, hr⟩ := hL.readIE
  rw [TrapLevel.stack, fieldWrite_mstatus_three_raw hm hL.covered, fieldRead_mstatus hm hIE hr]
  rfl

end Entry

/-- The three records stand in their CSRs, and no other CSR changes. -/
theorem TrapLevel.record_raw {L : TrapLevel} {s : State} (hL : L.Default s.cfg) (pc c v : Word) (j : CsrIdx) :
    (L.record pc c v s).csrs.raw j
      = if j = L.tval then maskedNew (s.csrs.raw L.tval) (allBits s.cfg.xlen) v
        else if j = L.cause then maskedNew (s.csrs.raw L.cause) (allBits s.cfg.xlen) c
        else if j = L.epc then maskedNew (s.csrs.raw L.epc) (epcMask s.cfg.xlen) pc
        else s.csrs.raw j := by
  have hd := hL.distinct
  simp only [List.nodup_cons, List.mem_cons, List.not_mem_nil, or_false, not_or] at hd
  obtain ⟨-, ⟨htc, hte⟩, hce, -⟩ := hd
  have h1 := csrWrite_raw_mask (hL.noWindow L.epc (by simp)) hL.wmaskEpc (fitsXlen_epcMask _) pc
  have h2 := csrWrite_raw_mask (s := s.csrWrite L.epc pc) (m := allBits s.cfg.xlen)
    (by rw [csrWrite_cfg]; exact hL.noWindow L.cause (by simp)) (by rw [csrWrite_cfg]; exact hL.wmaskCause)
    (by rw [csrWrite_cfg]; exact fitsXlen_allBits _) c
  have h3 := csrWrite_raw_mask (s := (s.csrWrite L.epc pc).csrWrite L.cause c) (m := allBits s.cfg.xlen)
    (by rw [csrWrite_cfg, csrWrite_cfg]; exact hL.noWindow L.tval (by simp))
    (by rw [csrWrite_cfg, csrWrite_cfg]; exact hL.wmaskTval)
    (by rw [csrWrite_cfg, csrWrite_cfg]; exact fitsXlen_allBits _) v
  rw [TrapLevel.record, h3, h2 L.tval, h2 j, h1 L.tval, h1 L.cause, h1 j, if_neg htc, if_neg hte, if_neg hce]

/-- Every raw value after the records and the status of a level. -/
theorem TrapLevel.entry_raw {L : TrapLevel} {s : State} (hm : defaultMasks s.cfg) (hL : L.Default s.cfg) (pc c v : Word)
    (j : CsrIdx) : (L.stack (L.record pc c v s)).csrs.raw j
      = if j = Csr.mstatus then L.stacked s.priv (s.csrs.raw Csr.mstatus)
        else if j = L.tval then maskedNew (s.csrs.raw L.tval) (allBits s.cfg.xlen) v
        else if j = L.cause then maskedNew (s.csrs.raw L.cause) (allBits s.cfg.xlen) c
        else if j = L.epc then maskedNew (s.csrs.raw L.epc) (epcMask s.cfg.xlen) pc
        else s.csrs.raw j := by
  have hcfg : (L.record pc c v s).cfg = s.cfg := by simp only [TrapLevel.record, csrWrite_cfg]
  have hp : (L.record pc c v s).priv = s.priv := by simp only [TrapLevel.record, csrWrite_priv]
  have hd := hL.distinct
  simp only [List.nodup_cons, List.mem_cons, List.not_mem_nil, or_false, not_or] at hd
  obtain ⟨⟨hmt, hmc, hme⟩, -⟩ := hd
  rw [TrapLevel.stack_raw (by rw [hcfg]; exact hm) (by rw [hcfg]; exact hL), hp, TrapLevel.record_raw hL,
    TrapLevel.record_raw hL, if_neg hmt, if_neg hmc, if_neg hme]

/-- The entry at SUPERVISOR level is that of its level. -/
theorem trapEntryS_csrs (c v : Word) (s : State) : (trapEntryS s c v).csrs
    = (supervisorLevel.stack (supervisorLevel.record s.pc c v (s.setNextPc (s.csrRead Csr.stvec &&& ~~~1)))).csrs := by
  simp only [trapEntryS, TrapLevel.stack, fieldWrite_priv]
  rfl

/-- The entry at MACHINE level also clears the virtualization fields (R528). -/
theorem trapEntryM_csrs (c v : Word) (s : State) : (trapEntryM s c v).csrs
    = (clearVirtualization (machineLevel.stack
        (machineLevel.record s.pc c v (s.setNextPc (s.csrRead Csr.mtvec &&& ~~~1))))).csrs := by
  simp only [trapEntryM, TrapLevel.stack, fieldWrite_priv]
  rfl

/-! ## The virtualization fields (R528) -/

theorem clearVirtualization_raw_rv64 {s : State} (hm : defaultMasks s.cfg) (hx : s.cfg.xlen = .rv64) (j : CsrIdx) :
    (clearVirtualization s).csrs.raw j
      = if j = Csr.mstatus then Field.GVA.put (Field.MPV.put (s.csrs.raw Csr.mstatus) 0) 0 else s.csrs.raw j := by
  have h1 := fieldWrite_mstatus_raw hm (F := Field.MPV) (by rw [hx]; decide) 0
  have h2 := fieldWrite_mstatus_raw (s := s.fieldWrite Csr.mstatus Field.MPV 0) (F := Field.GVA)
    (by rw [fieldWrite_cfg]; exact hm) (by rw [fieldWrite_cfg, hx]; decide) 0
  simp only [clearVirtualization, hx]
  rw [h2, h1 Csr.mstatus, h1 j, if_pos rfl]
  split <;> rfl

theorem clearVirtualization_raw_rv32 {s : State} (hm : defaultMasks s.cfg) (hx : s.cfg.xlen = .rv32) (j : CsrIdx) :
    (clearVirtualization s).csrs.raw j
      = if j = Csr.mstatush then Field.hGVA.put (Field.hMPV.put (s.csrs.raw Csr.mstatush) 0) 0 else s.csrs.raw j := by
  have hw : s.cfg.wmask Csr.mstatush = 0xC0 := by
    rw [Config.wmask, csr?_of_defaultMasks hm, hx]
    rfl
  have hf : fitsXlen s.cfg.xlen 0xC0 := by rw [hx]; rfl
  have h1 := fieldWrite_raw_covered (i := Csr.mstatush) (F := Field.hMPV) rfl hw hf (by decide) 0
  have h2 := fieldWrite_raw_covered (s := s.fieldWrite Csr.mstatush Field.hMPV 0) (i := Csr.mstatush) (w := 0xC0)
    (F := Field.hGVA) rfl (by rw [fieldWrite_cfg]; exact hw) (by rw [fieldWrite_cfg]; exact hf) (by decide) 0
  simp only [clearVirtualization, hx]
  rw [h2, h1 Csr.mstatush, h1 j, if_pos rfl]
  split <;> rfl

/-! ## The obligations -/

/-- What step 3's choice of level makes of the CSR file is what the trap leaves there. -/
theorem takeTrap_csrs (s : State) : (takeTrap s).csrs
    = (trapEntry (trapCause s.cfg.xlen s.latch.interruptValid s.latch.code)
        (trapValue s s.latch.interruptValid s.latch.code) s).csrs := by
  rw [takeTrap]
  rfl

theorem takeTrap_latch (s : State) :
    (takeTrap s).latch = { s.latch with faultValid := false, interruptValid := false } := by
  show { (trapEntry _ _ s).latch with faultValid := false, interruptValid := false } = _
  rw [trapEntry_latch]

theorem takeTrap_raw_supervisor {s : State} (hm : defaultMasks s.cfg) (hS : trapToS s = true) (j : CsrIdx) :
    (takeTrap s).csrs.raw j
      = if j = Csr.mstatus then supervisorLevel.stacked s.priv (s.csrs.raw Csr.mstatus)
        else if j = Csr.stval then
          maskedNew (s.csrs.raw Csr.stval) (allBits s.cfg.xlen) (trapValue s s.latch.interruptValid s.latch.code)
        else if j = Csr.scause then maskedNew (s.csrs.raw Csr.scause) (allBits s.cfg.xlen)
          (trapCause s.cfg.xlen s.latch.interruptValid s.latch.code)
        else if j = Csr.sepc then maskedNew (s.csrs.raw Csr.sepc) (epcMask s.cfg.xlen) s.pc
        else s.csrs.raw j := by
  rw [takeTrap_csrs, trapEntry, if_pos hS, trapEntryS_csrs]
  rw [TrapLevel.entry_raw (s := s.setNextPc (s.csrRead Csr.stvec &&& ~~~1)) hm (supervisorLevel_default hm)]
  rfl

/-- A trap at MACHINE level stores the records and the status, then clears the virtualization fields. -/
theorem takeTrap_csrs_machine {s : State} (hm : defaultMasks s.cfg) (hS : trapToS s = false) :
    ∃ u : State, u.cfg = s.cfg ∧ (takeTrap s).csrs = (clearVirtualization u).csrs ∧ ∀ j, u.csrs.raw j
      = if j = Csr.mstatus then machineLevel.stacked s.priv (s.csrs.raw Csr.mstatus)
        else if j = Csr.mtval then
          maskedNew (s.csrs.raw Csr.mtval) (allBits s.cfg.xlen) (trapValue s s.latch.interruptValid s.latch.code)
        else if j = Csr.mcause then maskedNew (s.csrs.raw Csr.mcause) (allBits s.cfg.xlen)
          (trapCause s.cfg.xlen s.latch.interruptValid s.latch.code)
        else if j = Csr.mepc then maskedNew (s.csrs.raw Csr.mepc) (epcMask s.cfg.xlen) s.pc
        else s.csrs.raw j := by
  refine ⟨machineLevel.stack (machineLevel.record s.pc (trapCause s.cfg.xlen s.latch.interruptValid s.latch.code)
    (trapValue s s.latch.interruptValid s.latch.code) (s.setNextPc (s.csrRead Csr.mtvec &&& ~~~1))), ?_, ?_, fun j => ?_⟩
  · simp only [TrapLevel.stack, TrapLevel.record, fieldWrite_cfg, csrWrite_cfg]
    rfl
  · rw [takeTrap_csrs, trapEntry, if_neg (by rw [hS]; decide), trapEntryM_csrs]
  · rw [TrapLevel.entry_raw (s := s.setNextPc (s.csrRead Csr.mtvec &&& ~~~1)) hm (machineLevel_default hm)]
    rfl

/-- Settles O49: the entry at SUPERVISOR level, index by index. -/
theorem trapToSupervisor : Obligations.TrapToSupervisor := by
  unfold Obligations.TrapToSupervisor
  intro s hm hS t
  have hraw (j : CsrIdx) := takeTrap_raw_supervisor hm hS j
  have hmst : t.csrs.raw Csr.mstatus = supervisorLevel.stacked s.priv (s.csrs.raw Csr.mstatus) := hraw _
  refine ⟨?_, ?_, hraw _, hraw _, hraw _, ?_, ?_, ?_, ?_, fun i h1 h2 h3 h4 => ?_, takeTrap_latch s, takeTrap_pc s,
    takeTrap_priv s, takeTrap_xregs s, takeTrap_mem s⟩
  · rw [show t.nextPc = _ from takeTrap_nextPc s, if_pos hS]
  · rw [show t.nextPriv = _ from takeTrap_nextPriv s, if_pos hS]
  · rw [hmst, stackedS_SPIE]
  · rw [hmst, stackedS_SPP]
  · rw [hmst, stackedS_SIE]
  · rw [hmst, stackedS_and]
  · exact (hraw i).trans (by rw [if_neg h4, if_neg h3, if_neg h2, if_neg h1])

/-- Settles O50: the entry at MACHINE level, then the virtualization fields of the width. -/
theorem trapToMachine : Obligations.TrapToMachine := by
  unfold Obligations.TrapToMachine
  intro s hm hS t
  obtain ⟨u, hcfg, hcsrs, hraw⟩ := takeTrap_csrs_machine hm hS
  have hmu : defaultMasks u.cfg := by rw [hcfg]; exact hm
  have h64 (hx : s.cfg.xlen = .rv64) (j : CsrIdx) :=
    (congrArg (CsrFile.raw · j) hcsrs).trans (clearVirtualization_raw_rv64 hmu (by rw [hcfg]; exact hx) j)
  have h32 (hx : s.cfg.xlen = .rv32) (j : CsrIdx) :=
    (congrArg (CsrFile.raw · j) hcsrs).trans (clearVirtualization_raw_rv32 hmu (by rw [hcfg]; exact hx) j)
  have hother {j : CsrIdx} (h1 : j ≠ Csr.mstatus) (h2 : j ≠ Csr.mstatush) : t.csrs.raw j = u.csrs.raw j := by
    cases hx : s.cfg.xlen with
    | rv64 => exact (h64 hx j).trans (if_neg h1)
    | rv32 => exact (h32 hx j).trans (if_neg h2)
  have hget {F : Field} (hF : F.mask >>> F.lsb = F.ones) (hV : Field.MPV.mask &&& F.mask = 0)
      (hG : Field.GVA.mask &&& F.mask = 0) :
      F.get (t.csrs.raw Csr.mstatus) = F.get (machineLevel.stacked s.priv (s.csrs.raw Csr.mstatus)) := by
    rw [show machineLevel.stacked s.priv (s.csrs.raw Csr.mstatus) = u.csrs.raw Csr.mstatus from (hraw Csr.mstatus).symm]
    cases hx : s.cfg.xlen with
    | rv64 =>
      rw [show t.csrs.raw Csr.mstatus = _ from h64 hx Csr.mstatus, if_pos rfl, Field.get_put_other hF hG,
        Field.get_put_other hF hV]
    | rv32 => exact congrArg F.get (h32 hx Csr.mstatus)
  refine ⟨?_, ?_, ?_, ?_, ?_, ?_, ?_, ?_, ?_, fun i h1 h2 h3 h4 h5 => ?_, takeTrap_latch s, takeTrap_pc s, takeTrap_priv s,
    takeTrap_xregs s, takeTrap_mem s⟩
  · rw [show t.nextPc = _ from takeTrap_nextPc s, hS]
    rfl
  · rw [show t.nextPriv = _ from takeTrap_nextPriv s, hS]
    rfl
  · exact (hother (by decide) (by decide)).trans (hraw _)
  · exact (hother (by decide) (by decide)).trans (hraw _)
  · exact (hother (by decide) (by decide)).trans (hraw _)
  · rw [hget (by decide) (by decide) (by decide), stackedM_MPIE]
  · rw [hget (by decide) (by decide) (by decide), stackedM_MPP]
  · rw [hget (by decide) (by decide) (by decide), stackedM_MIE]
  · cases hx : s.cfg.xlen with
    | rv64 =>
      have hmst : t.csrs.raw Csr.mstatus = Field.GVA.put (Field.MPV.put (machineLevel.stacked s.priv
          (s.csrs.raw Csr.mstatus)) 0) 0 := by
        rw [show t.csrs.raw Csr.mstatus = _ from h64 hx Csr.mstatus, if_pos rfl, hraw, if_pos rfl]
      refine ⟨?_, ?_, ?_, (h64 hx Csr.mstatush).trans (hraw Csr.mstatush)⟩
      · rw [hmst, Field.get_put_other (by decide) (by decide), Field.get_put_same (by decide)]
        decide
      · rw [hmst, Field.get_put_same (by decide)]
        decide
      · rw [hmst, TrapLevel.stacked, Field.put_and_of_disjoint (by decide), Field.put_and_of_disjoint (by decide),
          Field.put_and_of_disjoint (by decide), Field.put_and_of_disjoint (by decide),
          Field.put_and_of_disjoint (by decide)]
    | rv32 =>
      have hmsth : t.csrs.raw Csr.mstatush = Field.hGVA.put (Field.hMPV.put (s.csrs.raw Csr.mstatush) 0) 0 := by
        rw [show t.csrs.raw Csr.mstatush = _ from h32 hx Csr.mstatush, if_pos rfl, hraw]
        rfl
      have hmst : t.csrs.raw Csr.mstatus = machineLevel.stacked s.priv (s.csrs.raw Csr.mstatus) :=
        (h32 hx Csr.mstatus).trans (hraw Csr.mstatus)
      refine ⟨?_, ?_, ?_, by rw [hmst, stackedM_and]⟩
      · rw [hmsth, Field.get_put_other (by decide) (by decide), Field.get_put_same (by decide)]
        decide
      · rw [hmsth, Field.get_put_same (by decide)]
        decide
      · rw [hmsth, Field.put_and_of_disjoint (by decide), Field.put_and_of_disjoint (by decide)]
  · rw [hother h4 h5, hraw, if_neg h4, if_neg h3, if_neg h2, if_neg h1]

end Sys2Proof.Machine
end
